-- ==== Sys2Proof/Word.lean ====
section
/-! DEFINITION. The words of the two links and of the schedule: bytes, stamps, epochs, identities. -/

namespace Sys2Proof

/-- One byte of a frame, a burst or a stored page. -/
abbrev Byte := BitVec 8

/-- A sixteen-bit word: a CRC or a hub id. -/
abbrev Word16 := BitVec 16

/-- A round stamp (R19): a count of rounds modulo 2^32. -/
abbrev Stamp := BitVec 32

/-- An epoch number (R19): compared and added modulo 65536. -/
abbrev Epoch := BitVec 16

/-- The 48-bit serial number of a label (R42). -/
abbrev LongId := BitVec 48

end Sys2Proof
end

