-- ==== Sys2Proof/Syntax.lean ====
section
/-! DEFINITION. The commands of the part: one constructor for each row of spec/opcode_table.json. -/

namespace Sys2Proof

/-- The cause of a broken burst (R12). -/
inductive BrokenCause where
  | violation
  | crc
  | aborted
  | truncated
deriving DecidableEq, Repr

/-- Why a begun frame is discarded other than by a gap (R179, R180). -/
inductive DiscardCause where
  /-- The length is above 200 at the length high byte. -/
  | length
  /-- The CRC does not match at the CRC high byte. -/
  | crc
  /-- 4 commands are queued and 4 QUEUE_FULL replies wait. -/
  | noRoom
deriving DecidableEq, Repr

/-- A whole burst as it ends at the receiver: how many microseconds before now its sync mark ended (R13; log 4), and its
data bytes after the kind byte. -/
structure HeardBurst where
  sinceSync : Nat
  body : List Byte
deriving DecidableEq, Repr

/-- A broken burst as it ends: how many microseconds before now its sync mark ended (R13; log 4), and why (R12). -/
structure HeardBroken where
  sinceSync : Nat
  cause : BrokenCause
deriving DecidableEq, Repr

/-- The events the part takes. A host command carries its tag and its payload as they arrive in its frame (R194, R195,
R196), so that the payload check of R182 is the command's own. -/
inductive Instr where
  /-- GET_INFO (R188). -/
  | getInfo (tag : Byte) (payload : List Byte)
  /-- GET_STATUS (R189). -/
  | getStatus (tag : Byte) (payload : List Byte)
  /-- CONFIGURE (R39). -/
  | configure (tag : Byte) (payload : List Byte)
  /-- START (R25). -/
  | start (tag : Byte) (payload : List Byte)
  /-- STOP (R27). -/
  | stop (tag : Byte) (payload : List Byte)
  /-- LINE_TEST (R16). -/
  | lineTest (tag : Byte) (payload : List Byte)
  /-- RESET (R190). -/
  | reset (tag : Byte) (payload : List Byte)
  /-- ADMIT (R57). -/
  | admitJoin (tag : Byte) (payload : List Byte)
  /-- LABEL_QUERY (R70). -/
  | labelQuery (tag : Byte) (payload : List Byte)
  /-- LABEL_LIST (R71). -/
  | labelList (tag : Byte) (payload : List Byte)
  /-- LABEL_OP (R90). -/
  | labelOp (tag : Byte) (payload : List Byte)
  /-- RELEASE (R65, R66). -/
  | release (tag : Byte) (payload : List Byte)
  /-- FORGET (R68). -/
  | forget (tag : Byte) (payload : List Byte)
  /-- PAGE_BEGIN (R109 to R111). -/
  | pageBegin (tag : Byte) (payload : List Byte)
  /-- PAGE_DATA (R112). -/
  | pageData (tag : Byte) (payload : List Byte)
  /-- PAGE_END (R113). -/
  | pageEnd (tag : Byte) (payload : List Byte)
  /-- PAGE_DISCARD (R115). -/
  | pageDiscard (tag : Byte) (payload : List Byte)
  /-- PAGE_PIN (R122). -/
  | pagePin (tag : Byte) (payload : List Byte)
  /-- PAGE_UNPIN (R123). -/
  | pageUnpin (tag : Byte) (payload : List Byte)
  /-- PAGE_REQUEUE (R124). -/
  | pageRequeue (tag : Byte) (payload : List Byte)
  /-- PAGE_QUERY (R125). -/
  | pageQuery (tag : Byte) (payload : List Byte)
  /-- MALFORMED_COMMAND (R182): a whole frame whose kind is no command kind. -/
  | malformedCommand (kind tag : Byte) (payload : List Byte)
  /-- QUEUE_FULL (R180): a whole frame that finds 4 commands queued. -/
  | queueFull (kind tag : Byte) (payload : List Byte)
  /-- FRAME_DISCARD (R179). -/
  | frameDiscard (cause : DiscardCause)
  /-- FRAME_GAP (R179): 10 ms inside a frame with no new character. -/
  | frameGap
  /-- FRAME_SENT (R184): the frame on TXD ends. -/
  | frameSent
  /-- COMMAND_RESET (R190): the last character of RESET's reply is sent. -/
  | commandReset
  /-- POWER_ON (R191). -/
  | powerOn
  /-- RSTN_RESET (R191): RSTN rises after being held low. -/
  | rstnReset
  /-- ROUND_BOUNDARY (R21): slot 63 ends. -/
  | roundBoundary
  /-- SLOT_START (R23): one of the slots 1 to 63 begins. -/
  | slotStart
  /-- BYTE_REQUEST (R158): the transmitter asks for the next data byte. `upset` says that a disturbance makes the
  stored byte fail its parity as it is read (log 9). -/
  | byteRequest (upset : Bool)
  /-- BURST_END (R8): the last mark of the burst ends. -/
  | burstEnd
  /-- BLANKING_END (R15), with the present level of PDIN. -/
  | blankingEnd (level : Bool)
  /-- REPLY_WINDOW_END (R13). -/
  | replyWindowEnd
  /-- CALL_END (R49). -/
  | callEnd
  /-- BEACON (R31): the data bytes after the kind byte, and the microseconds since the sync, by which R32 tells a beacon
  that began before the boundary that ends LISTENING (log 27). -/
  | beacon (burst : HeardBurst)
  /-- JOIN_REQ (R50). -/
  | joinReq (burst : HeardBurst)
  /-- STATUS (R48). -/
  | status (burst : HeardBurst)
  /-- RECEIPT (R160). -/
  | receipt (burst : HeardBurst)
  /-- BROKEN_BURST (R12). -/
  | brokenBurst (burst : HeardBroken)
  /-- DISCARDED_BURST (R198, R14): a whole burst that fails its arrival checks or falls in no window. -/
  | discardedBurst
  /-- TEST_PERIOD_END (R17). -/
  | testPeriodEnd
  /-- TRANSITION (R9): the filter accepts a transition dated `elapsed` microseconds after the clock's present
  reading (log 1). -/
  | transition (elapsed : Nat)
  /-- CHARACTER_RECEIVED (R177, R178): the start bit, the eight data bits and the stop bit as sampled, the first sampled
  data bit first. -/
  | characterReceived (startBit : Bool) (data : List Bool) (stopBit : Bool)
  /-- LINE_ELEMENT_END (R4, R7). -/
  | lineElementEnd
  /-- RSTN_LOW (R191). -/
  | rstnLow
deriving DecidableEq, Repr

end Sys2Proof
end

