-- ==== Sys2Proof/Config.lean ====
section
/-! DEFINITION. The fixed figures of the part (R188 and the rules named). The spec leaves no value of a command's
effect open, so no free value stands here. -/

namespace Sys2Proof.Config

/-- Directory entries, one for each short address (R42). -/
def directoryEntries : Nat := 240
/-- Page record slots (R105). -/
def recordSlots : Nat := 128
/-- Page store blocks (R104). -/
def storeBlocks : Nat := 384
/-- Bytes of one block (R104). -/
def blockBytes : Nat := 256
/-- Transfer contexts (R153). -/
def contexts : Nat := 16
/-- Places of the notice queue (R185). -/
def noticeQueue : Nat := 32
/-- Places of the command queue (R180). -/
def commandQueue : Nat := 4
/-- QUEUE_FULL replies that may wait (R180). -/
def queueFullReplies : Nat := 4
/-- The longest payload of a frame (R178). -/
def maxPayload : Nat := 200
/-- Places of the admission list (R55). -/
def admissionPlaces : Nat := 8
/-- Pinned records (R122). -/
def maxPinned : Nat := 32
/-- Bytes of payload in one fragment (00_scope, "fragment"; R156). -/
def fragmentBytes : Nat := 48
/-- Bytes an assembly can hold (R11). -/
def assemblyBytes : Nat := 64
/-- Length of a slot in microseconds (R19). -/
def slotMicros : Nat := 16000
/-- Calls in a row answered with BUSY alone that stall a transfer (R167). -/
def busyLimit : Nat := 8
/-- Places of the call list of a round (R142). -/
def callPlaces : Nat := 8
/-- ASSIGN entries of one call list (R142). -/
def assignPlaces : Nat := 3
/-- Data slots of a round, 4 to 63 (R22). -/
def dataSlots : Nat := 60
/-- The first data slot (R22). -/
def firstDataSlot : Nat := 4
/-- The last slot of a round (R19). -/
def lastSlot : Nat := 63
/-- Data bytes of a line test burst (R16). -/
def testBytes : Nat := 48
/-- Lead bits of every burst the part sends but the beacon (R4). -/
def shortLead : Nat := 8
/-- What a store byte reads as that nothing has written since reset. DESIGN CHOICE (log 7): R104 leaves it undefined. -/
def unwrittenByte : Byte := 0
/-- The parity bit of such a byte. DESIGN CHOICE (log 8). -/
def unwrittenParity : Bool := false

end Sys2Proof.Config
end

