-- ==== Sys2Proof/Machine/State.lean ====
section
/-! DEFINITION. The state of the part as plain data, each piece under the name the spec gives it, and the state after
reset. Figures the spec names that follow from other state (free pool, pinned count, epoch, long-id map, fragment
count) are computed by the operations of Ops.lean and are not stored twice (log 19). -/

namespace Sys2Proof.Machine

/-- How the machine stops. -/
inductive Fault where
  /-- A byte request asks for a page byte that has no address in the page store: raised by BYTE_REQUEST alone, in a
  state whose record holds fewer blocks than its length needs (no run reaches one, R104). Safe: it stops (log 26). -/
  | storeAddress
deriving DecidableEq, Repr

/-- Why a command has no outcome. -/
inductive Refusal where
  /-- The command has no meaning in this model: raised by exec's arms alone. Safe: it stops. -/
  | notModelled (mnemonic : String)
deriving DecidableEq, Repr

/-! ## Hub control (02) -/

/-- The join policy of the configuration record (R38). -/
inductive JoinPolicy where
  | openAll
  | ask
  | closed
deriving DecidableEq, Repr

/-- The configuration record (R38). -/
structure Configuration where
  hubId : Word16
  carrierMark : Nat
  carrierSpace : Nat
  normalLead : Nat
  joinPolicy : JoinPolicy
  defaultPeriod : Nat
  burstAllowance : Nat
  missLimit : Nat
  stallLimit : Nat
  opAttempts : Nat
  batteryLow : Nat
  batteryCritical : Nat
  batterySaving : Bool
deriving DecidableEq, Repr

/-- The defaults of R38. -/
def Configuration.default : Configuration where
  hubId := 1
  carrierMark := 13
  carrierSpace := 13
  normalLead := 16
  joinPolicy := .ask
  defaultPeriod := 4
  burstAllowance := 6
  missLimit := 3
  stallLimit := 4
  opAttempts := 3
  batteryLow := 2500
  batteryCritical := 2200
  batterySaving := false

/-- The modes of a line test (R16). -/
inductive TestMode where
  | loop
  | quiet
deriving DecidableEq, Repr

/-- What has become of the present test period's burst at the receiver (R17). -/
inductive PeriodBurst where
  /-- No sync has fallen in the period. -/
  | unheard
  /-- Its assembly is open. -/
  | assembling
  /-- It ended with an end mark after exactly 48 complete bytes. -/
  | whole (bytes : List Byte)
  /-- It ended in any other way. -/
  | broken
deriving DecidableEq, Repr

/-- The counts of a line test (R17, R18). -/
structure TestCounts where
  sent : Nat
  whole : Nat
  bitErrors : Nat
  lost : Nat
  edges : Nat
  violations : Nat
deriving DecidableEq, Repr

/-- A line test in progress (R16 to R18): present in TESTING only. -/
structure LineTest where
  mode : TestMode
  /-- Test periods not yet ended, the present one included. -/
  periodsLeft : Nat
  /-- The transmitter's shift register; bit i is stage i + 1. -/
  generator : BitVec 9
  /-- The receiver's own copy of it. -/
  copy : BitVec 9
  /-- The present period's test burst has ended its end mark. -/
  burstEnded : Bool
  heard : PeriodBurst
  counts : TestCounts
deriving DecidableEq, Repr

/-- The hub state (R24), with what is present in one state only. -/
inductive HubState where
  | offline
  /-- With the listening end stamp and the started-here mark (R25). -/
  | listening (endStamp : Stamp) (startedHere : Bool)
  | running
  | stopping
  | testing (test : LineTest)
deriving DecidableEq, Repr

/-- The timebase (R19): the position is a slot and the microseconds within it (log 20). -/
structure Timebase where
  running : Bool
  stamp : Stamp
  slot : Nat
  slotTime : Nat
deriving DecidableEq, Repr

/-- The timebase as it stands after reset, and after an undone START (R19, R20). -/
def Timebase.stopped : Timebase := ⟨false, 0, 0, 0⟩

/-! ## Round planner (07) -/

/-- The call kinds (R46). -/
inductive CallKind where
  | assign
  | service
  | probe
  | release
deriving DecidableEq, Repr

/-- The slot kinds of the slot map (R135); a fragment place names its record's handle. -/
inductive SlotKind where
  | assign
  | control
  | probe
  | release
  | fragment (handle : Nat)
deriving DecidableEq, Repr

/-- One place of the slot map. -/
structure Place where
  address : Nat
  kind : SlotKind
deriving DecidableEq, Repr

/-- One entry of the call list (R135). -/
structure Call where
  address : Nat
  kind : CallKind
  first : Nat
  count : Nat
deriving DecidableEq, Repr

/-- A call list entry as the beacon carries it (R34, R145). -/
inductive BeaconEntry where
  | call (address first count : Nat)
  | assign (longId : LongId) (address first : Nat)
deriving DecidableEq, Repr

/-- The beacon of a served round (R34 to R36). -/
structure Beacon where
  hubId : Word16
  epoch : Epoch
  roundIndex : Nat
  epochStart : Bool
  joinOpen : Bool
  joinCrowded : Bool
  entries : List BeaconEntry
  lead : Nat
deriving DecidableEq, Repr

/-- The plan of a served round (R135). The slot map lists the places of slots 4, 5, ... up to the last run's end;
the places after it are empty (R144). -/
structure Plan where
  calls : List Call
  slotMap : List Place
  beacon : Beacon
deriving DecidableEq, Repr

/-- The data slot in progress: what the plan named for it and what is still to come of it (R13, R23, R49). -/
structure DataSlot where
  slot : Nat
  /-- The round stamp of the slot's round. -/
  round : Stamp
  place : Place
  /-- The slot's reply window exists and takes replies. -/
  windowOpen : Bool
  /-- The window's end has not been taken. -/
  endDue : Bool
  /-- The call that ends with this slot, until its call end is taken. -/
  callEnd : Option Call
deriving DecidableEq, Repr

/-! ## Optical line (01) -/

/-- Who supplies a burst's data bytes (01, "The transmitter"). -/
inductive BurstSource where
  /-- CONTROL and ASSIGN bursts, built when they are asked for (R93, R59). -/
  | directory (bytes : List Byte)
  /-- The beacon (R37). -/
  | planner (bytes : List Byte)
  /-- A FRAGMENT burst of a transfer context; the hub tag is that of the moment it was built (R197). -/
  | transfer (context : Nat) (hubTag : Byte)
  /-- A line test burst (R16). -/
  | hubControl
deriving DecidableEq, Repr

/-- The part of the burst on the line (01, R4). -/
inductive BurstPart where
  | lead
  | sync
  | data
  | crc
  | endMark
  | abortMark
deriving DecidableEq, Repr

/-- The burst being sent. -/
structure Burst where
  carrierMark : Nat
  carrierSpace : Nat
  lead : Nat
  source : BurstSource
  /-- Data bytes of the burst. -/
  count : Nat
  /-- Data bytes whose last bit has been sent. -/
  sent : Nat
  crc : Word16
  part : BurstPart
  /-- Lead bits, bits of the present byte or CRC bits sent in this part. -/
  bits : Nat
  /-- The element on the line is the space of its bit. -/
  inSpace : Bool
  /-- The data byte being sent; absent in the data part while the next byte is awaited. -/
  current : Option Byte
  abortPending : Bool
deriving DecidableEq, Repr

/-- How a burst ended (R8). -/
inductive BurstOutcome where
  | complete
  | aborted
deriving DecidableEq, Repr

/-- The windows of R13, each with its slot. -/
inductive Window where
  | join (slot : Nat)
  | reply (slot : Nat)
deriving DecidableEq, Repr

/-- The phase of an assembly (R11). -/
inductive AssemblyPhase where
  | afterSync
  | collecting
deriving DecidableEq, Repr

/-- A burst being assembled (R11, R13). -/
structure Assembly where
  window : Option Window
  phase : AssemblyPhase
  bytes : List Byte
  /-- The bits of the byte in progress, first received first. -/
  bits : List Bool
  /-- It is the burst of the present line test period (R17). -/
  ofPeriod : Bool
deriving DecidableEq, Repr

/-- A candidate level of the glitch filter (R9). -/
structure Candidate where
  level : Bool
  samples : Nat
  date : Nat
deriving DecidableEq, Repr

/-- The optical receiver (01, "The receiver"). -/
structure Receiver where
  /-- The sampled PDIN level. -/
  pdin : Bool
  accepted : Bool
  candidate : Option Candidate
  /-- The date of the last accepted transition. -/
  lastTransition : Option Nat
  /-- The element in progress has been classified at its instant, Abort or Silence (R10). -/
  decided : Bool
  assembly : Option Assembly
  blanked : Bool
deriving DecidableEq, Repr

/-- The receiver after reset (R9). -/
def Receiver.cleared : Receiver := ⟨false, false, none, none, false, none, false⟩

/-! ## Label directory (03, 04, 05) -/

/-- What a label can hold (R42). -/
structure Capabilities where
  pageCount : Nat
  maxLength : Nat
  displayClass : Nat
deriving DecidableEq, Repr

/-- A wake profile (R72). -/
structure Profile where
  period : Nat
  phase : Nat
deriving DecidableEq, Repr

/-- A planned profile with its effective epoch (R73). -/
structure PlannedProfile where
  profile : Profile
  effective : Epoch
deriving DecidableEq, Repr

/-- The profile state, with the candidate profile that is present exactly while UNCERTAIN (R73). -/
inductive ProfileState where
  | settled
  | uncertain (candidate : Profile)
deriving DecidableEq, Repr

/-- The display modes (R89). -/
inductive DisplayMode where
  | normal
  | inverted
  | blank
  | allOn
deriving DecidableEq, Repr

/-- The kinds of operation (R89). -/
inductive OpKind where
  | ping
  | setProfile
  | setMode
  | showPage
  | release
deriving DecidableEq, Repr

/-- An operation's kind with the kind's own fields (R89). -/
inductive OpFields where
  | ping
  | setProfile (profile : Profile)
  | setMode (mode : DisplayMode)
  | showPage (page : Nat)
  | release
deriving DecidableEq, Repr

/-- A queued operation (R88). -/
structure Operation where
  fields : OpFields
  queued : Stamp
  attempts : Nat
  sentThisRound : Bool
deriving DecidableEq, Repr

/-- An open send (R92). -/
structure OpenSend where
  slot : Nat
  sequence : BitVec 4
  fields : OpFields
  /-- The effective epoch the burst carried (R77); read for a SET_PROFILE. -/
  effective : Epoch
  attached : Bool
  /-- An attributed STATUS in the window of its slot has echoed its sequence, whatever its result (R79; log 28). -/
  echoed : Bool
deriving DecidableEq, Repr

/-- Battery classes (R84). -/
inductive BatteryClass where
  | ok
  | low
  | critical
deriving DecidableEq, Repr

/-- The states of an entry that hold a label's fields (R42), with what is present in one of them only. -/
inductive Phase where
  | joining (attempts : Nat) (rejoin : Bool)
  | bound
  | missing
  | releasing (attempts : Nat) (fromMissing : Bool)
deriving DecidableEq, Repr

/-- The fields of a JOINING, BOUND, MISSING or RELEASING entry (R42). -/
structure Label where
  phase : Phase
  longId : LongId
  capabilities : Capabilities
  current : Profile
  planned : Option PlannedProfile
  profileState : ProfileState
  queue : List Operation
  openSend : Option OpenSend
  sequence : BitVec 4
  missCount : Nat
  drifted : Bool
  batteryMv : Option Nat
  batteryClass : BatteryClass
  displayMode : Option DisplayMode
  shownPage : Option Nat
  /-- The wanted-reported set, in rising order. -/
  wanted : List Nat
  lastHeard : Option Stamp
  sentMark : Bool
  heardMark : Bool
deriving DecidableEq, Repr

/-- A directory entry (R42). -/
inductive Entry where
  | vacant
  | cooling (longId : LongId) (endEpoch : Epoch)
  | label (fields : Label)
deriving DecidableEq, Repr

/-- An admission list entry (R55). -/
structure Asking where
  longId : LongId
  capabilities : Capabilities
  batteryMv : Option Nat
  lastHeard : Stamp
  refused : Bool
deriving DecidableEq, Repr

/-- The label directory; entry i has short address i + 1 (R42). -/
structure Directory where
  entries : Vector Entry 240
  admission : List Asking
  crowded : Bool
  accumulator : Bool
deriving DecidableEq, Repr

/-! ## Page store (06) -/

/-- Why a transfer was ended without delivery (R105). -/
inductive StallCause where
  | noProgress
  | labelBusy
  | storeError
deriving DecidableEq, Repr

/-- The states of a record (R106), with the fields present in one state only. -/
inductive RecordState where
  /-- With the written map, in rising order. -/
  | filling (written : List Nat)
  | ready
  | sending
  | stalled (cause : StallCause)
  | held
  | void
deriving DecidableEq, Repr

/-- A page record (R105). -/
structure Record where
  address : Nat
  page : Nat
  generation : Byte
  length : Nat
  blocks : List Nat
  state : RecordState
  urgent : Bool
  pinned : Bool
  damaged : Bool
  readyStamp : Option Stamp
deriving DecidableEq, Repr

/-- The page store. Byte o of block b has the address b × 256 + o. -/
structure PageStore where
  /-- The stored bytes in canonical form: addresses strictly rising, no entry equal to an unwritten byte. -/
  memory : List Host.Cell
  /-- The stored parity bits in canonical form. -/
  parity : List (Nat × Bool)
  records : Vector (Option Record) 128
  /-- The HELD order: handles, oldest delivery first (R108). -/
  heldOrder : List Nat
deriving DecidableEq, Repr

/-! ## Transfer engine (08) -/

/-- A transfer context in use (R153). -/
structure Context where
  handle : Nat
  address : Nat
  /-- The confirmed set, in rising order. -/
  confirmed : List Nat
  /-- The sent-this-round set, in rising order. -/
  sentThisRound : List Nat
  stallCount : Nat
  busyCount : Nat
  answered : Bool
  plainAnswer : Bool
  grew : Bool
  onAir : Option Nat
deriving DecidableEq, Repr

/-! ## Host link (09) -/

/-- The hub states as LINK_STATE names them (R29, R194). -/
inductive HubStateName where
  | offline
  | listening
  | running
  | stopping
  | testing
deriving DecidableEq, Repr

/-- The LINK_STATE causes (R29). -/
inductive LinkCause where
  | start
  | stop
  | channelBusy (hubId : Word16)
  | testEnd
deriving DecidableEq, Repr

/-- The reset causes (R191). -/
inductive ResetCause where
  | power
  | pin
  | command
deriving DecidableEq, Repr

/-- The JOIN_REFUSED causes (R53, R54). -/
inductive JoinRefusal where
  | full
  | listFull
deriving DecidableEq, Repr

/-- The OP_FAILED causes (05). -/
inductive OpFailure where
  | refused
  | noAnswer
  | released
  | forgotten
  | joinFailed
deriving DecidableEq, Repr

/-- The notices, in the order of the notice table of The Host Link, with their fields. -/
inductive Notice where
  | hubReady (cause : ResetCause)
  | linkState (state : HubStateName) (cause : LinkCause)
  | foreignHub (hubId : Word16)
  | joinAsked (longId : LongId) (capabilities : Capabilities) (mv : Option Nat)
  | joinRefused (longId : LongId) (cause : JoinRefusal)
  | labelJoined (address : Nat) (longId : LongId) (rejoin : Bool)
  | joinFailed (address : Nat) (longId : LongId)
  | labelMissing (address : Nat)
  | labelBack (address : Nat)
  | labelReleased (address : Nat) (confirmed : Bool)
  | opDone (address : Nat) (kind : OpKind)
  | opFailed (address : Nat) (kind : OpKind) (cause : OpFailure)
  | pageDelivered (address page : Nat) (generation : Byte)
  | pageWanted (address page : Nat)
  | pageEvicted (address page : Nat) (generation : Byte)
  | transferFailed (address page : Nat) (generation : Byte) (cause : StallCause)
  | battery (address mv : Nat) (before after : BatteryClass) (savingApplied : Bool)
  | testResult (counts : TestCounts) (aborted : Bool)
deriving DecidableEq, Repr

/-- A notice with the round stamp of the round in which it was posted (R194). -/
structure Posted where
  stamp : Stamp
  notice : Notice
deriving DecidableEq, Repr

/-- The status codes of R182, in the order of their codes (R194). -/
inductive Status where
  | ok
  | malformed
  | badField
  | wrongState
  | noLabel
  | noRecord
  | storeFull
  | tableFull
  | incomplete
  | pinLimit
  | damaged
  | duplicate
  | queueFull
deriving DecidableEq, Repr

/-- A reply (R182, R194): the command's kind and tag as received, the status and the result bytes. -/
structure Reply where
  kind : Byte
  tag : Byte
  status : Status
  result : List Byte
  /-- It answers the command in hand, which leaves the queue when the reply has been sent (R181); a QUEUE_FULL reply
  answers a frame that was not queued. -/
  ofHead : Bool
deriving DecidableEq, Repr

/-- A command in the queue (R180): its frame's kind, tag and payload. -/
structure HostFrame where
  kind : Byte
  tag : Byte
  payload : List Byte
deriving DecidableEq, Repr

/-- The phases of the frame receiver (R178). -/
inductive FramePhase where
  | hunting
  | lengthLow
  | lengthHigh
  | kind
  | tag
  | payload
  | crcLow
  | crcHigh
deriving DecidableEq, Repr

/-- The frame receiver (R178): the bytes taken so far are those after the start byte. -/
structure FrameReceiver where
  phase : FramePhase
  bytes : List Byte
  crc : Word16
deriving DecidableEq, Repr

/-- The frame receiver after reset and after each frame (R178). -/
def FrameReceiver.hunting : FrameReceiver := ⟨.hunting, [], 0xFFFF⟩

/-- A character being received on RXD (R177): the date of the high-to-low change that started it, and the levels sampled
so far, the start bit first. -/
structure SerialCharacter where
  start : Nat
  samples : List Bool
deriving DecidableEq, Repr

/-- The watch on RXD (R177). -/
structure SerialReceiver where
  /-- The sampled RXD level. -/
  rxd : Bool
  /-- The level a change is seen against: that of the microsecond before, or high where a character has just ended
  (log 30). -/
  before : Bool
  /-- The character being received. -/
  character : Option SerialCharacter
deriving DecidableEq, Repr

/-- RXD idles high, and no character is being received. -/
def SerialReceiver.idle : SerialReceiver := ⟨true, true, none⟩

/-- A frame on TXD (R184). -/
inductive Outgoing where
  | reply (r : Reply)
  | notice (n : Posted)
deriving DecidableEq, Repr

/-- The host link controller (09). -/
structure HostLink where
  receiver : FrameReceiver
  dropped : Nat
  /-- The command queue; its head is the command in hand. -/
  commands : List HostFrame
  replies : List Reply
  notices : List Posted
  overflow : Bool
  /-- The link transmitter: absent when idle. -/
  sending : Option Outgoing
deriving DecidableEq, Repr

/-- The host link as R192 gives it, before HUB_READY is posted. -/
def HostLink.cleared : HostLink := ⟨FrameReceiver.hunting, 0, [], [], [], false, none⟩

end Sys2Proof.Machine

namespace Sys2Proof.Machine

/-- The state of the part. -/
structure State where
  /-- Microseconds, the model's own clock that dates transitions (log 1). -/
  clock : Nat
  /-- RSTN is low and the part is held in reset (R191). -/
  held : Bool
  hub : HubState
  config : Configuration
  timebase : Timebase
  /-- The foreign-hub-seen flag (R33). -/
  foreignSeen : Bool
  /-- The data slot in progress. -/
  dataSlot : Option DataSlot
  /-- The burst being sent. -/
  burst : Option Burst
  receiver : Receiver
  directory : Directory
  store : PageStore
  contexts : Vector (Option Context) 16
  plan : Option Plan
  link : HostLink
  /-- The PDIN pin ahead of the clock: its level at each coming microsecond, the next one first (R9; log 1). After the
  last of them PDIN stays as it was last sampled. -/
  pdinAhead : List Bool
  /-- The boundary that ended LISTENING has been taken and the beacon's first tick, at which blanking begins (R15), has
  not: a burst that ends now is taken after the boundary (R32; log 27). -/
  blankingDue : Bool
  /-- The round in progress is the first served one, begun by the boundary that ended LISTENING (R26): a foreign beacon
  whose sync fell before that boundary is still taken at its end (R32; log 27). -/
  firstServed : Bool
  /-- The watch on RXD (R177). -/
  serial : SerialReceiver
  /-- The RXD pin ahead of the clock, as pdinAhead is for PDIN (R177; log 30). -/
  rxdAhead : List Bool
  /-- The commands that wait, first in, first out. -/
  pending : List Instr
deriving DecidableEq, Repr

/-- Every block at its reset values and the notice queue empty (R192 before HUB_READY, and the chapters' reset values). -/
def State.blank : State where
  clock := 0
  held := false
  hub := .offline
  config := Configuration.default
  timebase := Timebase.stopped
  foreignSeen := false
  dataSlot := none
  burst := none
  receiver := Receiver.cleared
  directory := ⟨Vector.replicate 240 .vacant, [], false, false⟩
  store := ⟨[], [], Vector.replicate 128 none, []⟩
  contexts := Vector.replicate 16 none
  plan := none
  link := HostLink.cleared
  pdinAhead := []
  blankingDue := false
  firstServed := false
  serial := SerialReceiver.idle
  rxdAhead := []
  pending := []

/-- The machine right after a power-on reset (R192): the notice queue holds HUB_READY alone and the link transmitter is
idle; it chooses HUB_READY in the next step (log 6). -/
def State.reset : State :=
  { State.blank with link := { HostLink.cleared with notices := [⟨0, .hubReady .power⟩] } }

end Sys2Proof.Machine
end

