-- ==== Sys2Proof/Machine/Wire.lean ====
section
/-! DEFINITION. Byte order, the CRC, sets of numbers, sparse memory in canonical form, the PRBS: the plain functions
under both links and the page store. -/

namespace Sys2Proof.Machine

/-! ## Bytes (10: a field of two or more bytes is sent low byte first) -/

/-- A number as one byte. -/
def byteOf (n : Nat) : Byte := BitVec.ofNat 8 n

/-- A mark or flag as one byte: 0 no, 1 yes. R194 gives it its byte, and R195 and R196 state the two values for the
replies of LABEL_QUERY and PAGE_QUERY, the timebase running and battery saving; for every other flag or mark they are
the model's choice (log 31). -/
def flagByte (b : Bool) : Byte := if b then 1 else 0

/-- The `k` bytes of a number, low byte first. -/
def leBytes : Nat → Nat → List Byte
  | 0, _ => []
  | k + 1, n => byteOf n :: leBytes k (n / 256)

/-- The number whose bytes, low byte first, are given. -/
def leNat : List Byte → Nat
  | [] => 0
  | b :: rest => b.toNat + 256 * leNat rest

/-- Byte `i` of a layout. -/
def byteAt (bytes : List Byte) (i : Nat) : Byte := bytes.getD i 0

/-- The number in the `k` bytes from offset `i` of a layout. -/
def fieldAt (bytes : List Byte) (i k : Nat) : Nat := leNat ((bytes.drop i).take k)

/-- Bits `i` to `i + k - 1` of a byte, as a number. -/
def bitsAt (b : Byte) (i k : Nat) : Nat := b.toNat / 2 ^ i % 2 ^ k

/-- Bit `i` of a byte. -/
def bitAt (b : Byte) (i : Nat) : Bool := b.getLsbD i

/-- A byte from its bits, least significant first. -/
def byteOfBits : List Bool → Byte
  | [] => 0
  | b :: rest => ((byteOfBits rest) <<< 1) ||| (if b then 1 else 0)

/-- The bits of a byte, least significant first. -/
def bitsOfByte (b : Byte) : List Bool := (List.range 8).map b.getLsbD

/-- The number of one-bits of a byte (R3). -/
def oneBits (b : Byte) : Nat := ((bitsOfByte b).filter id).length

/-! ## The CRC of both links (R5) -/

/-- One bit of the CRC: the generator polynomial is x^16 + x^12 + x^5 + 1. -/
def crcShift (c : Word16) : Word16 := if c.getLsbD 15 then (c <<< 1) ^^^ 0x1021 else c <<< 1

/-- One byte fed into the CRC, from its most significant bit. -/
def crcByte (c : Word16) (b : Byte) : Word16 :=
  let x := c ^^^ ((b.setWidth 16) <<< 8)
  crcShift (crcShift (crcShift (crcShift (crcShift (crcShift (crcShift (crcShift x)))))))

/-- The CRC's starting value. -/
def crcStart : Word16 := 0xFFFF

/-- The CRC of a string of bytes. -/
def crcOf (bytes : List Byte) : Word16 := bytes.foldl crcByte crcStart

/-- The CRC's two bytes on a link, low byte first. -/
def crcBytes (c : Word16) : List Byte := leBytes 2 c.toNat

/-! ## Sets of numbers, kept in rising order -/

/-- A set with one more number. -/
def setInsert (x : Nat) : List Nat → List Nat
  | [] => [x]
  | y :: rest => if x < y then x :: y :: rest else if x = y then y :: rest else y :: setInsert x rest

/-- A set with the numbers of a list. -/
def setUnion (xs : List Nat) (s : List Nat) : List Nat := xs.foldl (fun t x => setInsert x t) s

/-! ## Sparse memory in canonical form -/

/-- What the cell at an address reads as; `d` is what an unlisted address reads as. -/
def Cells.read {α : Type} (d : α) : List (Nat × α) → Nat → α
  | [], _ => d
  | (k, v) :: rest, a => if k = a then v else Cells.read d rest a

/-- Write one cell, keeping the canonical form: writing `d` removes the entry. -/
def Cells.write {α : Type} [DecidableEq α] (d : α) (a : Nat) (v : α) : List (Nat × α) → List (Nat × α)
  | [] => if v = d then [] else [(a, v)]
  | (k, w) :: rest =>
    if a < k then (if v = d then (k, w) :: rest else (a, v) :: (k, w) :: rest)
    else if a = k then (if v = d then rest else (a, v) :: rest)
    else (k, w) :: Cells.write d a v rest

/-- The canonical form: addresses strictly rising, no entry equal to what an unlisted address reads as. -/
abbrev Cells.wf {α : Type} [DecidableEq α] (d : α) (m : List (Nat × α)) : Prop :=
  m.Pairwise (fun x y => x.1 < y.1) ∧ ∀ c ∈ m, c.2 ≠ d

/-- The canonical form of the page store's bytes. -/
abbrev Memory.wf (m : List Host.Cell) : Prop := Cells.wf Config.unwrittenByte m

/-- The canonical form of the page store's parity bits. -/
abbrev Memory.parityWf (m : List (Nat × Bool)) : Prop := Cells.wf Config.unwrittenParity m

/-! ## The PRBS of the line test (R16) -/

/-- The shift register with all nine stages set to one. -/
def prbsSeed : BitVec 9 := 0x1FF

/-- The new bit of one step: the exclusive-or of stage 9 and stage 5. -/
def prbsBit (r : BitVec 9) : Bool := r.getLsbD 8 ^^ r.getLsbD 4

/-- One step: every stage moves one place toward stage 9 and the new bit enters stage 1. -/
def prbsStep (r : BitVec 9) : BitVec 9 := (r <<< 1) ||| (if prbsBit r then 1 else 0)

/-- The next `n` bits and the register after them. -/
def prbsBits : Nat → BitVec 9 → List Bool × BitVec 9
  | 0, r => ([], r)
  | n + 1, r =>
    let next := prbsBits n (prbsStep r)
    (prbsBit r :: next.1, next.2)

/-- The next test byte and the register after it. -/
def prbsByte (r : BitVec 9) : Byte × BitVec 9 :=
  let next := prbsBits 8 r
  (byteOfBits next.1, next.2)

/-- The next `n` test bytes and the register after them. -/
def prbsBytes : Nat → BitVec 9 → List Byte × BitVec 9
  | 0, r => ([], r)
  | n + 1, r =>
    let b := prbsByte r
    let next := prbsBytes n b.2
    (b.1 :: next.1, next.2)

/-- The bits in which two strings of bytes differ (R17). -/
def bitErrors : List Byte → List Byte → Nat
  | a :: as, b :: bs => oneBits (a ^^^ b) + bitErrors as bs
  | _, _ => 0

end Sys2Proof.Machine
end

