-- ==== Sys2Proof/Machine/Ops.lean ====
section
/-! DEFINITION. The named operations over the state that every family uses: time, the directory's entries, the page
store's records and bytes, transfer contexts, notices and the choice of the link transmitter. -/

namespace Sys2Proof.Machine

/-- The outcome of one event. -/
abbrev StepResult := Host.Outcome State Fault Refusal

/-! ## Time (R19) -/

/-- The epoch of a round stamp. -/
def epochOf (t : Stamp) : Epoch := BitVec.ofNat 16 (t.toNat / 16)

/-- The round index of a round stamp. -/
def roundIndexOf (t : Stamp) : Nat := t.toNat % 16

/-- How many rounds old a thing stamped `t` is in round `now`, modulo 2^32. -/
def ageOf (now t : Stamp) : Nat := (now - t).toNat

/-- The current round stamp. -/
def State.stamp (s : State) : Stamp := s.timebase.stamp

/-- The current epoch. -/
def State.epoch (s : State) : Epoch := epochOf s.timebase.stamp

/-- The current round index. -/
def State.roundIndex (s : State) : Nat := roundIndexOf s.timebase.stamp

/-- The current round is served: the planner holds a plan exactly then (R21, R135). -/
def State.served (s : State) : Bool := s.plan.isSome

/-- `n` microseconds pass: the clock runs, and the position in the slot advances while the timebase runs, up to the
slot's end, which is an event of its own. The levels of PDIN and RXD that lay ahead of these microseconds are past. -/
def State.advance (s : State) (n : Nat) : State :=
  { s with
    clock := s.clock + n
    pdinAhead := s.pdinAhead.drop n
    rxdAhead := s.rxdAhead.drop n
    timebase :=
      if s.timebase.running then
        { s.timebase with slotTime := min Config.slotMicros (s.timebase.slotTime + n) }
      else s.timebase }

/-- The name of a hub state (R24). -/
def HubState.name : HubState → HubStateName
  | .offline => .offline
  | .listening _ _ => .listening
  | .running => .running
  | .stopping => .stopping
  | .testing _ => .testing

/-- The line test in progress, if hub control is in TESTING. -/
def State.lineTest (s : State) : Option LineTest :=
  match s.hub with
  | .testing t => some t
  | .offline => none
  | .listening _ _ => none
  | .running => none
  | .stopping => none

/-- Hub control is in RUNNING or STOPPING, the states in which windows exist (R13) and beacons are reported (R33). -/
def State.inService (s : State) : Bool :=
  match s.hub with
  | .running => true
  | .stopping => true
  | .offline => false
  | .listening _ _ => false
  | .testing _ => false

/-! ## The directory's entries (R42) -/

/-- The short addresses, lowest first. -/
def addresses : List Nat := List.range' 1 Config.directoryEntries

/-- A short address lies in 1 to 240. -/
def addressInRange (a : Nat) : Bool := 1 ≤ a && a ≤ Config.directoryEntries

/-- The entry of a short address. -/
def State.entry (s : State) (a : Nat) : Entry :=
  if a = 0 then .vacant else s.directory.entries[a - 1]?.getD .vacant

/-- Write the entry of a short address. -/
def State.setEntry (s : State) (a : Nat) (e : Entry) : State :=
  if a = 0 then s
  else { s with directory := { s.directory with entries := s.directory.entries.setIfInBounds (a - 1) e } }

/-- The entry is VACANT. -/
def Entry.isVacant : Entry → Bool
  | .vacant => true
  | .cooling _ _ => false
  | .label _ => false

/-- The long id an entry holds (R43). -/
def Entry.longId : Entry → Option LongId
  | .vacant => none
  | .cooling id _ => some id
  | .label l => some l.longId

/-- The fields of a JOINING, BOUND, MISSING or RELEASING entry. -/
def Entry.label? : Entry → Option Label
  | .vacant => none
  | .cooling _ _ => none
  | .label l => some l

/-- The fields held for a short address. -/
def State.label? (s : State) (a : Nat) : Option Label := (s.entry a).label?

/-- Change the fields held for a short address, if its entry holds any. -/
def State.updateLabel (s : State) (a : Nat) (f : Label → Label) : State :=
  match s.label? a with
  | some l => s.setEntry a (.label (f l))
  | none => s

/-- The lowest-numbered VACANT entry's short address (R43). -/
def State.lowestVacant (s : State) : Option Nat := addresses.find? (fun a => (s.entry a).isVacant)

/-- The long-id map: the short address whose entry holds a long id (R43). -/
def State.holderOf (s : State) (id : LongId) : Option Nat :=
  addresses.find? (fun a => (s.entry a).longId == some id)

/-- Tests of an entry's state. -/
def Phase.isJoining : Phase → Bool
  | .joining _ _ => true
  | .bound => false
  | .missing => false
  | .releasing _ _ => false

/-- The entry is BOUND. -/
def Phase.isBound : Phase → Bool
  | .joining _ _ => false
  | .bound => true
  | .missing => false
  | .releasing _ _ => false

/-- The entry is MISSING. -/
def Phase.isMissing : Phase → Bool
  | .joining _ _ => false
  | .bound => false
  | .missing => true
  | .releasing _ _ => false

/-- The entry is RELEASING. -/
def Phase.isReleasing : Phase → Bool
  | .joining _ _ => false
  | .bound => false
  | .missing => false
  | .releasing _ _ => true

/-- The profile state is UNCERTAIN (R73). -/
def ProfileState.isUncertain : ProfileState → Bool
  | .settled => false
  | .uncertain _ => true

/-- The kind of an operation's fields (R89). -/
def OpFields.kind : OpFields → OpKind
  | .ping => .ping
  | .setProfile _ => .setProfile
  | .setMode _ => .setMode
  | .showPage _ => .showPage
  | .release => .release

/-- The kind of a queued operation. -/
def Operation.kind (o : Operation) : OpKind := o.fields.kind

/-! ## The page store's records (R104, R105) -/

/-- The handles, lowest first. -/
def handles : List Nat := List.range Config.recordSlots

/-- The record in a slot; absent when the slot is free. -/
def State.record (s : State) (h : Nat) : Option Record := s.store.records[h]?.getD none

/-- Write a record slot. -/
def State.setRecord (s : State) (h : Nat) (r : Option Record) : State :=
  { s with store := { s.store with records := s.store.records.setIfInBounds h r } }

/-- Change the record in a slot, if there is one. -/
def State.updateRecord (s : State) (h : Nat) (f : Record → Record) : State :=
  match s.record h with
  | some r => s.setRecord h (some (f r))
  | none => s

/-- Write the HELD order. -/
def State.setHeldOrder (s : State) (order : List Nat) : State :=
  { s with store := { s.store with heldOrder := order } }

/-- ceil(length / 256): the blocks a page of this length needs (R104). -/
def blocksFor (length : Nat) : Nat := (length + Config.blockBytes - 1) / Config.blockBytes

/-- ceil(length / 48): the fragments of a page of this length (R105). -/
def fragmentsFor (length : Nat) : Nat := (length + Config.fragmentBytes - 1) / Config.fragmentBytes

/-- The fragment count of a record. -/
def Record.fragments (r : Record) : Nat := fragmentsFor r.length

/-- The record is FILLING. -/
def RecordState.isFilling : RecordState → Bool
  | .filling _ => true
  | .ready => false
  | .sending => false
  | .stalled _ => false
  | .held => false
  | .void => false

/-- The record is live: READY, SENDING, STALLED or HELD (R106). -/
def RecordState.isLive : RecordState → Bool
  | .filling _ => false
  | .ready => true
  | .sending => true
  | .stalled _ => true
  | .held => true
  | .void => false

/-- The record has a key. -/
def Record.hasKey (r : Record) (a p : Nat) : Bool := r.address == a && r.page == p

/-- The handle of a key's live record (R106). -/
def State.liveOf (s : State) (a p : Nat) : Option Nat :=
  handles.find? fun h => match s.record h with
    | some r => r.hasKey a p && r.state.isLive
    | none => false

/-- The handle of a key's FILLING record (R106). -/
def State.fillingOf (s : State) (a p : Nat) : Option Nat :=
  handles.find? fun h => match s.record h with
    | some r => r.hasKey a p && r.state.isFilling
    | none => false

/-- The handle of a label's SENDING record (R118). -/
def State.sendingOf (s : State) (a : Nat) : Option Nat :=
  handles.find? fun h => match s.record h with
    | some r => r.address == a && r.state == .sending
    | none => false

/-- The blocks held by records. -/
def State.usedBlocks (s : State) : List Nat :=
  handles.flatMap fun h => match s.record h with
    | some r => r.blocks
    | none => []

/-- The free pool, lowest block first (R104). -/
def State.freeBlocks (s : State) : List Nat :=
  let used := s.usedBlocks
  (List.range Config.storeBlocks).filter fun b => !used.contains b

/-- The free record slots, lowest first (R105). -/
def State.freeSlots (s : State) : List Nat := handles.filter fun h => (s.record h).isNone

/-- The pinned count (R122). -/
def State.pinnedCount (s : State) : Nat :=
  (handles.filter fun h => match s.record h with
    | some r => r.pinned
    | none => false).length

/-- The address in the store of byte offset `o` of a record's page (R104); absent where the record has no block for it
or the block does not exist. -/
def Record.byteAddress (r : Record) (o : Nat) : Option Nat :=
  match r.blocks[o / Config.blockBytes]? with
  | some b => if b < Config.storeBlocks then some (b * Config.blockBytes + o % Config.blockBytes) else none
  | none => none

/-- The parity bit the store computes for a byte: even parity (DESIGN CHOICE, log 8). -/
def parityOf (b : Byte) : Bool := oneBits b % 2 = 1

/-- The stored byte at a store address. -/
def State.storeByte (s : State) (a : Nat) : Byte := Cells.read Config.unwrittenByte s.store.memory a

/-- The stored parity bit at a store address. -/
def State.storeParity (s : State) (a : Nat) : Bool := Cells.read Config.unwrittenParity s.store.parity a

/-- Write one byte of the store together with its parity bit (R104). -/
def State.writeStoreByte (s : State) (a : Nat) (b : Byte) : State :=
  { s with store := { s.store with
      memory := Cells.write Config.unwrittenByte a b s.store.memory
      parity := Cells.write Config.unwrittenParity a (parityOf b) s.store.parity } }

/-! ## Transfer contexts (R153) -/

/-- The context of a number; absent when it is free. -/
def State.context (s : State) (i : Nat) : Option Context := s.contexts[i]?.getD none

/-- Write a context. -/
def State.setContext (s : State) (i : Nat) (c : Option Context) : State :=
  { s with contexts := s.contexts.setIfInBounds i c }

/-- The context numbers, lowest first. -/
def contextNumbers : List Nat := List.range Config.contexts

/-- The number of the context tied to a record. -/
def State.contextOf (s : State) (h : Nat) : Option Nat :=
  contextNumbers.find? fun i => match s.context i with
    | some c => c.handle == h
    | none => false

/-- The lowest-numbered free context (R154). -/
def State.freeContext (s : State) : Option Nat := contextNumbers.find? fun i => (s.context i).isNone

/-- The contexts in use (R153). -/
def State.contextsInUse (s : State) : Nat := (contextNumbers.filter fun i => (s.context i).isSome).length

/-- Free the context tied to a record (R155). -/
def State.freeContextOf (s : State) (h : Nat) : State :=
  match s.contextOf h with
  | some i => s.setContext i none
  | none => s

/-! ## Notices (R185 to R187) -/

/-- The three kinds of urgent notice (R185). -/
def Notice.urgent : Notice → Bool
  | .linkState _ (.channelBusy _) => true
  | .battery _ _ _ .critical _ => true
  | .transferFailed _ _ _ .storeError => true
  | _ => false

/-- A notice's place in a queue with room: behind the urgent ones if it is urgent, otherwise at the tail (R185). -/
def placeNotice (q : List Posted) (p : Posted) : List Posted :=
  if p.notice.urgent then
    q.takeWhile (fun x => x.notice.urgent) ++ p :: q.dropWhile (fun x => x.notice.urgent)
  else q ++ [p]

/-- The queue and the overflow flag after a notice is posted (R185, R186). -/
def queueNotice (q : List Posted) (overflow : Bool) (p : Posted) : List Posted × Bool :=
  if q.length < Config.noticeQueue then (placeNotice q p, overflow)
  else if p.notice.urgent then
    match q.getLast? with
    | some last => if last.notice.urgent then (q, true) else (placeNotice q.dropLast p, true)
    | none => (q, true)
  else (q, true)

/-- The round stamp a notice carries (R194): 0 while the timebase is stopped. -/
def State.noticeStamp (s : State) : Stamp := if s.timebase.running then s.timebase.stamp else 0

/-- Post a notice. -/
def State.post (s : State) (n : Notice) : State :=
  let r := queueNotice s.link.notices s.link.overflow ⟨s.noticeStamp, n⟩
  { s with link := { s.link with notices := r.1, overflow := r.2 } }

/-- Post several notices, in order. -/
def State.postAll (s : State) (ns : List Notice) : State := ns.foldl State.post s

/-! ## The link transmitter's choice (R184) -/

/-- An idle transmitter begins the oldest reply waiting, or else the notice at the head of the queue. -/
def HostLink.choose (l : HostLink) : HostLink :=
  match l.sending with
  | some _ => l
  | none =>
    match l.replies with
    | r :: rest => { l with replies := rest, sending := some (.reply r) }
    | [] =>
      match l.notices with
      | n :: rest => { l with notices := rest, sending := some (.notice n) }
      | [] => l

/-- The choice of the link transmitter, made at the end of each event (log 10). -/
def State.choose (s : State) : State := { s with link := s.link.choose }

/-- The outcome of an event whose effect is `t`: nothing happens while the part is held in reset (R191, log 5);
otherwise the event's effect, and then the choice of the link transmitter. -/
def live (s t : State) : StepResult := .next (if s.held then s else t.choose)

end Sys2Proof.Machine
end

