-- ==== Sys2Proof/WellFormed.lean ====
section
/-! DEFINITION. Which commands a host or a channel can send: frame payloads within 200 bytes (R178), bursts within the
64 bytes an assembly holds (R11), a command kind where the row asks for one. Every command has its meaning whether or
not it is well formed; a payload that is too long is discarded for its length (log 24). -/

namespace Sys2Proof

/-- The command kinds of R194. -/
def commandKindBytes : List Byte :=
  [0x01, 0x02, 0x03, 0x04, 0x05, 0x06, 0x07, 0x10, 0x11, 0x12, 0x13, 0x14, 0x15,
   0x20, 0x21, 0x22, 0x23, 0x24, 0x25, 0x26, 0x27]

/-- A payload a frame can carry (R178, R194). -/
def payloadFits (payload : List Byte) : Bool := payload.length ≤ Config.maxPayload

/-- The bytes after a kind byte that, with the kind and the CRC, fit an assembly (R11). -/
def bodyFits (body : List Byte) : Bool := body.length + 3 ≤ Config.assemblyBytes

/-- The checks on a command as syntax. -/
def Instr.wf : Instr → Bool
  | .getInfo _ p => payloadFits p
  | .getStatus _ p => payloadFits p
  | .configure _ p => payloadFits p
  | .start _ p => payloadFits p
  | .stop _ p => payloadFits p
  | .lineTest _ p => payloadFits p
  | .reset _ p => payloadFits p
  | .admitJoin _ p => payloadFits p
  | .labelQuery _ p => payloadFits p
  | .labelList _ p => payloadFits p
  | .labelOp _ p => payloadFits p
  | .release _ p => payloadFits p
  | .forget _ p => payloadFits p
  | .pageBegin _ p => payloadFits p
  | .pageData _ p => payloadFits p
  | .pageEnd _ p => payloadFits p
  | .pageDiscard _ p => payloadFits p
  | .pagePin _ p => payloadFits p
  | .pageUnpin _ p => payloadFits p
  | .pageRequeue _ p => payloadFits p
  | .pageQuery _ p => payloadFits p
  | .malformedCommand k _ p => payloadFits p && !commandKindBytes.contains k
  | .queueFull _ _ p => payloadFits p
  | .frameDiscard _ => true
  | .frameGap => true
  | .frameSent => true
  | .commandReset => true
  | .powerOn => true
  | .rstnReset => true
  | .roundBoundary => true
  | .slotStart => true
  | .byteRequest _ => true
  | .burstEnd => true
  | .blankingEnd _ => true
  | .replyWindowEnd => true
  | .callEnd => true
  | .beacon b => bodyFits b.body
  | .joinReq b => bodyFits b.body
  | .status b => bodyFits b.body
  | .receipt b => bodyFits b.body
  | .brokenBurst _ => true
  | .discardedBurst => true
  | .testPeriodEnd => true
  | .transition _ => true
  | .characterReceived startBit data _ => !startBit && data.length == 8
  | .lineElementEnd => true
  | .rstnLow => true

end Sys2Proof
end

