-- ==== Sys2Proof/Machine/Operands.lean ====
section
/-! DEFINITION. The operands of every command and burst, read from their bytes: the payloads of R194 to R196 and the
burst layouts of R197, with the arrival checks of R198. -/

namespace Sys2Proof.Machine

/-! ## Command kinds and payload lengths (R182, R194, R195, R196) -/

/-- The commands of the host link. -/
inductive CommandKind where
  | getInfo
  | getStatus
  | configure
  | start
  | stop
  | lineTest
  | reset
  | admitJoin
  | labelQuery
  | labelList
  | labelOp
  | release
  | forget
  | pageBegin
  | pageData
  | pageEnd
  | pageDiscard
  | pagePin
  | pageUnpin
  | pageRequeue
  | pageQuery
deriving DecidableEq, Repr

/-- The kind byte of a command (R194). -/
def CommandKind.code : CommandKind → Byte
  | .getInfo => 0x01
  | .getStatus => 0x02
  | .configure => 0x03
  | .start => 0x04
  | .stop => 0x05
  | .lineTest => 0x06
  | .reset => 0x07
  | .admitJoin => 0x10
  | .labelQuery => 0x11
  | .labelList => 0x12
  | .labelOp => 0x13
  | .release => 0x14
  | .forget => 0x15
  | .pageBegin => 0x20
  | .pageData => 0x21
  | .pageEnd => 0x22
  | .pageDiscard => 0x23
  | .pagePin => 0x24
  | .pageUnpin => 0x25
  | .pageRequeue => 0x26
  | .pageQuery => 0x27

/-- Every command kind. -/
def CommandKind.all : List CommandKind :=
  [.getInfo, .getStatus, .configure, .start, .stop, .lineTest, .reset, .admitJoin, .labelQuery, .labelList, .labelOp,
   .release, .forget, .pageBegin, .pageData, .pageEnd, .pageDiscard, .pagePin, .pageUnpin, .pageRequeue, .pageQuery]

/-- The command kind a kind byte names, if it names one. -/
def commandKindOf (k : Byte) : Option CommandKind := CommandKind.all.find? (fun c => c.code == k)

/-- The bytes a CONFIGURE field takes (R196): hub id and the two battery thresholds two, every other field one. -/
def configFieldBytes (i : Nat) : Nat := if i = 0 ∨ i = 10 ∨ i = 11 then 2 else 1

/-- The fields marked present in a CONFIGURE presence mask, in order (R196). -/
def configFieldsPresent (mask : Nat) : List Nat := (List.range 13).filter fun i => mask.testBit i

/-- The presence mask of a CONFIGURE payload. -/
def configMask (p : List Byte) : Nat := fieldAt p 0 2

/-- The payload fits its kind (R182). -/
def payloadOk (k : CommandKind) (p : List Byte) : Bool :=
  match k with
  | .getInfo => p.length == 0
  | .getStatus => p.length == 0
  | .configure =>
    2 ≤ p.length && configMask p < 2 ^ 13
      && p.length == 2 + ((configFieldsPresent (configMask p)).map configFieldBytes).sum
  | .start => p.length == 0
  | .stop => p.length == 0
  | .lineTest => p.length == 2
  | .reset => p.length == 0
  | .admitJoin => p.length == 7
  | .labelQuery =>
    (byteAt p 0 == 0 && p.length == 2) || (byteAt p 0 == 1 && p.length == 7)
  | .labelList => p.length == 1
  | .labelOp =>
    2 ≤ p.length && p.length ≤ 4 &&
      (match (byteAt p 1).toNat with
       | 0 => p.length == 2
       | 1 => p.length == 4
       | 2 => p.length == 3
       | 3 => p.length == 3
       | _ => true)
  | .release => p.length == 1
  | .forget => p.length == 1
  | .pageBegin => p.length == 6
  | .pageData =>
    5 ≤ p.length && 1 ≤ (byteAt p 3).toNat && (byteAt p 3).toNat ≤ 192 && p.length == 4 + (byteAt p 3).toNat
  | .pageEnd => p.length == 1
  | .pageDiscard => p.length == 1
  | .pagePin => p.length == 1
  | .pageUnpin => p.length == 1
  | .pageRequeue => p.length == 1
  | .pageQuery =>
    (byteAt p 0 == 0 && p.length == 2) || (byteAt p 0 == 1 && p.length == 3)

/-! ## CONFIGURE (R38, R39, R196) -/

/-- The values of the fields present, each with its field number. -/
def configValuesFrom : List Nat → List Byte → List (Nat × Nat)
  | [], _ => []
  | i :: rest, bytes =>
    (i, leNat (bytes.take (configFieldBytes i))) :: configValuesFrom rest (bytes.drop (configFieldBytes i))

/-- The fields a CONFIGURE payload carries. -/
def configValues (p : List Byte) : List (Nat × Nat) :=
  configValuesFrom (configFieldsPresent (configMask p)) (p.drop 2)

/-- A field of the fixed group (R38). -/
def configFieldFixed (i : Nat) : Bool := i < 4

/-- A period of a wake profile (R72). -/
def isPeriod (n : Nat) : Bool := n == 1 || n == 2 || n == 4 || n == 8 || n == 16

/-- A value lies in its field's range (R38). -/
def configFieldInRange (f : Nat × Nat) : Bool :=
  match f.1 with
  | 0 => 1 ≤ f.2 && f.2 ≤ 65534
  | 1 => 1 ≤ f.2 && f.2 ≤ 64
  | 2 => 1 ≤ f.2 && f.2 ≤ 64
  | 3 => f.2 == 8 || f.2 == 16 || f.2 == 32 || f.2 == 64
  | 4 => f.2 ≤ 2
  | 5 => isPeriod f.2
  | 6 => 1 ≤ f.2 && f.2 ≤ 16
  | 7 => 1 ≤ f.2 && f.2 ≤ 15
  | 8 => 1 ≤ f.2 && f.2 ≤ 15
  | 9 => 1 ≤ f.2 && f.2 ≤ 7
  | 10 => 1800 ≤ f.2 && f.2 ≤ 3600
  | 11 => 1800 ≤ f.2 && f.2 ≤ 3600
  | 12 => f.2 ≤ 1
  | _ => false

/-- The join policy of a code (R196). -/
def joinPolicyOf (n : Nat) : JoinPolicy := if n = 0 then .openAll else if n = 1 then .ask else .closed

/-- Write one field of the configuration record. -/
def Configuration.write (c : Configuration) (f : Nat × Nat) : Configuration :=
  match f.1 with
  | 0 => { c with hubId := BitVec.ofNat 16 f.2 }
  | 1 => { c with carrierMark := f.2 }
  | 2 => { c with carrierSpace := f.2 }
  | 3 => { c with normalLead := f.2 }
  | 4 => { c with joinPolicy := joinPolicyOf f.2 }
  | 5 => { c with defaultPeriod := f.2 }
  | 6 => { c with burstAllowance := f.2 }
  | 7 => { c with missLimit := f.2 }
  | 8 => { c with stallLimit := f.2 }
  | 9 => { c with opAttempts := f.2 }
  | 10 => { c with batteryLow := f.2 }
  | 11 => { c with batteryCritical := f.2 }
  | 12 => { c with batterySaving := f.2 == 1 }
  | _ => c

/-- The record as it would stand after a CONFIGURE. -/
def Configuration.writeAll (c : Configuration) (fs : List (Nat × Nat)) : Configuration := fs.foldl Configuration.write c

/-- The two cross-checks of R38. -/
def Configuration.crossChecks (c : Configuration) : Bool :=
  c.carrierMark + c.carrierSpace ≤ 48 && c.batteryCritical + 100 ≤ c.batteryLow

/-! ## Profiles (R72, R197) -/

/-- The pair is a valid profile. -/
def Profile.valid (p : Profile) : Bool := isPeriod p.period && p.phase < p.period

/-- The period of a period code. -/
def periodOfCode (c : Nat) : Option Nat := if c ≤ 4 then some (2 ^ c) else none

/-- The period code of a period. -/
def codeOfPeriod (n : Nat) : Nat :=
  if n = 1 then 0 else if n = 2 then 1 else if n = 4 then 2 else if n = 8 then 3 else 4

/-- The profile byte of a profile, with its present bit set. -/
def profileByte (p : Profile) : Byte := byteOf (128 + codeOfPeriod p.period * 16 + p.phase)

/-- The valid profile a profile byte names; absent when bit 7 is clear, the code is above 4, or the phase is at or
above the period. -/
def profileOfByte (b : Byte) : Option Profile :=
  if bitAt b 7 then
    match periodOfCode (bitsAt b 4 3) with
    | some n => if (Profile.mk n (bitsAt b 0 4)).valid then some ⟨n, bitsAt b 0 4⟩ else none
    | none => none
  else none

/-! ## Label operations (R195, R197) -/

/-- The operation kind's code. -/
def OpKind.code : OpKind → Nat
  | .ping => 0
  | .setProfile => 1
  | .setMode => 2
  | .showPage => 3
  | .release => 4

/-- The display mode of a LABEL_OP mode code (R195). -/
def displayModeOf (n : Nat) : Option DisplayMode :=
  match n with
  | 0 => some .normal
  | 1 => some .inverted
  | 2 => some .blank
  | 3 => some .allOn
  | _ => none

/-- The code of a display mode. -/
def DisplayMode.code : DisplayMode → Nat
  | .normal => 0
  | .inverted => 1
  | .blank => 2
  | .allOn => 3

/-- The operation a well-formed LABEL_OP payload asks for, for a label of the given page count; absent when a field of
its kind is out of range (R90). -/
def opFieldsOf (pageCount : Nat) (p : List Byte) : Option OpFields :=
  match (byteAt p 1).toNat with
  | 0 => some .ping
  | 1 =>
    let pr : Profile := ⟨(byteAt p 2).toNat, (byteAt p 3).toNat⟩
    if pr.valid then some (.setProfile pr) else none
  | 2 => (displayModeOf (byteAt p 2).toNat).map .setMode
  | 3 => if (byteAt p 2).toNat < pageCount then some (.showPage (byteAt p 2).toNat) else none
  | _ => none

/-! ## Label bursts (R197) -/

/-- The kind byte of each burst (R197). -/
def kindBeacon : Byte := 0x51
/-- FRAGMENT. -/
def kindFragment : Byte := 0x62
/-- CONTROL. -/
def kindControl : Byte := 0x63
/-- ASSIGN. -/
def kindAssign : Byte := 0x64
/-- JOIN_REQ. -/
def kindJoinReq : Byte := 0x71
/-- RECEIPT. -/
def kindReceipt : Byte := 0x72
/-- STATUS. -/
def kindStatus : Byte := 0x73

/-- The hub tag: the low byte of the hub id (10, "Optical bursts"). -/
def hubTag (id : Word16) : Byte := id.setWidth 8

/-- The reading a battery byte gives (R197). -/
def batteryReading (b : Byte) : Option Nat := if b = 0 then none else some (1500 + 10 * b.toNat)

/-- A join request's fields (R197). -/
structure JoinRequest where
  longId : LongId
  capabilities : Capabilities
  mv : Option Nat
deriving DecidableEq, Repr

/-- The fields of a JOIN_REQ burst. -/
def joinRequestOf (d : List Byte) : JoinRequest where
  longId := BitVec.ofNat 48 (fieldAt d 2 6)
  capabilities :=
    { pageCount := bitsAt (byteAt d 8) 0 4
      maxLength := 64 * (byteAt d 9).toNat
      displayClass := bitsAt (byteAt d 8) 4 4 }
  mv := batteryReading (byteAt d 10)

/-- A receipt's fields (R197). -/
structure ReceiptReport where
  page : Nat
  generation : Byte
  busy : Bool
  /-- The fragment numbers 0 to 21 whose places are set. -/
  bitmap : List Nat
deriving DecidableEq, Repr

/-- The fields of a RECEIPT burst. -/
def receiptOf (d : List Byte) : ReceiptReport where
  page := (byteAt d 3).toNat
  generation := byteAt d 4
  busy := bitAt (byteAt d 5) 0
  bitmap := (List.range 22).filter fun f => bitAt (byteAt d (6 + f / 8)) (f % 8)

/-- The pending part of a profile report (R81, R197). -/
inductive PendingReport where
  | absent
  | invalid
  | named (planned : PlannedProfile)
deriving DecidableEq, Repr

/-- The results a STATUS can echo (R197). -/
inductive EchoResult where
  | none
  | done
  | refused
  | reserved
deriving DecidableEq, Repr

/-- A STATUS's fields (R197). -/
structure StatusReport where
  echo : BitVec 4
  result : EchoResult
  joined : Bool
  released : Bool
  mv : Option Nat
  /-- The active profile, absent when its byte names no valid one. -/
  active : Option Profile
  pending : PendingReport
  mode : Option DisplayMode
  shown : Option Nat
  heldMask : Byte
  generations : List Byte
deriving DecidableEq, Repr

/-- The echoed result of an echo byte. -/
def echoResultOf (b : Byte) : EchoResult :=
  match bitsAt b 4 2 with
  | 0 => .none
  | 1 => .done
  | 2 => .refused
  | _ => .reserved

/-- The mode of a display byte: 0 and 5 to 7 are absent. -/
def displayByteMode (b : Byte) : Option DisplayMode :=
  match bitsAt b 0 3 with
  | 0 => none
  | n + 1 => displayModeOf n

/-- The shown page of a display byte: 0 and 5 to 7 are absent. -/
def displayBytePage (b : Byte) : Option Nat :=
  match bitsAt b 4 3 with
  | 0 => none
  | n + 1 => if n < 4 then some n else none

/-- The display byte of a reported display state (R195 offset 25). -/
def displayByte (mode : Option DisplayMode) (page : Option Nat) : Byte :=
  byteOf ((match mode with | some m => m.code + 1 | none => 0) + 16 * (match page with | some p => p + 1 | none => 0))

/-- The pending profile of a STATUS: with bit 7 of its byte clear there is none, and the rest is not read. -/
def pendingOf (d : List Byte) : PendingReport :=
  if bitAt (byteAt d 7) 7 then
    match profileOfByte (byteAt d 7) with
    | some p => .named ⟨p, BitVec.ofNat 16 (fieldAt d 8 2)⟩
    | none => .invalid
  else .absent

/-- The fields of a STATUS burst. -/
def statusOf (d : List Byte) : StatusReport where
  echo := BitVec.ofNat 4 (bitsAt (byteAt d 3) 0 4)
  result := echoResultOf (byteAt d 3)
  joined := bitAt (byteAt d 4) 0
  released := bitAt (byteAt d 4) 1
  mv := batteryReading (byteAt d 5)
  active := profileOfByte (byteAt d 6)
  pending := pendingOf d
  mode := displayByteMode (byteAt d 10)
  shown := displayBytePage (byteAt d 10)
  heldMask := byteAt d 11
  generations := (d.drop 12).take 4

/-- The generation a STATUS reports held of a page, if it reports the page held. -/
def StatusReport.holds (r : StatusReport) (page : Nat) : Option Byte :=
  if bitAt r.heldMask page then some (r.generations.getD page 0) else none

/-! ## Arrival checks (R198) -/

/-- The checks of a JOIN_REQ. -/
def joinReqArrives (d : List Byte) : Bool :=
  d.length == 11 && !((joinRequestOf d).longId == 0) && !((joinRequestOf d).longId == BitVec.allOnes 48)
    && 1 ≤ (joinRequestOf d).capabilities.pageCount && (joinRequestOf d).capabilities.pageCount ≤ 4
    && 1 ≤ (byteAt d 9).toNat && (byteAt d 9).toNat ≤ 16

/-- The checks of a RECEIPT. -/
def receiptArrives (d : List Byte) : Bool :=
  d.length == 9 && addressInRange (byteAt d 2).toNat && (byteAt d 3).toNat ≤ 3

/-- The checks of a STATUS. -/
def statusArrives (d : List Byte) : Bool :=
  d.length == 16 && addressInRange (byteAt d 2).toNat && !(echoResultOf (byteAt d 3) == .reserved)

/-- A whole burst delivered to a window's owner passes its arrival checks. -/
def arrives (id : Word16) (d : List Byte) : Bool :=
  byteAt d 1 == hubTag id &&
    (if byteAt d 0 = kindJoinReq then joinReqArrives d
     else if byteAt d 0 = kindReceipt then receiptArrives d
     else if byteAt d 0 = kindStatus then statusArrives d
     else false)

/-- The hub id a beacon burst carries; absent when the burst is too short to hold one (log 13). -/
def beaconHubId (d : List Byte) : Option Word16 :=
  if 3 ≤ d.length then some (BitVec.ofNat 16 (fieldAt d 1 2)) else none

end Sys2Proof.Machine
end

