-- ==== Sys2Proof/Machine/Flags.lean ====
section
/-! DEFINITION. The part's computed flags and classes: wake rounds, battery classes, the beacon's flags and lead, the
judgement of a transfer's marks. -/

namespace Sys2Proof.Machine

/-- A profile's wake rounds (R72): round index r with r mod period = phase, and the always round. -/
def Profile.wakes (p : Profile) (r : Nat) : Bool := r == 0 || r % p.period == p.phase

/-- The applicable profile of an entry for a round of an epoch (R74). -/
def Label.applicable (l : Label) (e : Epoch) : Profile :=
  match l.planned with
  | some p => if p.effective = e then p.profile else l.current
  | none => l.current

/-- The class of a reading against the thresholds and the class held before it (R85). -/
def classify (low critical : Nat) (before : BatteryClass) (mv : Nat) : BatteryClass :=
  match before with
  | .ok => if mv < critical then .critical else if mv < low then .low else .ok
  | .low => if mv < critical then .critical else if mv < low + 50 then .low else .ok
  | .critical => if mv < critical + 50 then .critical else if mv < low + 50 then .low else .ok

/-- The saving profile of a short address (R87). -/
def savingProfile (address : Nat) : Profile := ⟨16, address % 16⟩

/-- JOIN_OPEN (R35). -/
def State.joinOpen (s : State) : Bool := s.config.joinPolicy != .closed && s.lowestVacant.isSome

/-- The long lead of a normal lead (R4, R36): four times it, but not more than 128. -/
def longLead (normal : Nat) : Nat := min 128 (4 * normal)

/-- How the judgement of a call changes a transfer's counts, or the cause with which it stalls (R167). -/
inductive Judgement where
  | counts (stall busy : Nat)
  | stall (cause : StallCause)
deriving DecidableEq, Repr

/-- The judgement of R167, by the first row whose condition holds. -/
def judge (stallLimit : Nat) (c : Context) : Judgement :=
  if c.answered then
    if c.grew then .counts 0 0
    else if c.plainAnswer then
      if stallLimit ≤ c.stallCount + 1 then .stall .noProgress else .counts (c.stallCount + 1) c.busyCount
    else if Config.busyLimit ≤ c.busyCount + 1 then .stall .labelBusy
    else .counts c.stallCount (c.busyCount + 1)
  else .counts c.stallCount c.busyCount

end Sys2Proof.Machine
end

