-- ==== Sys2Proof/Machine/Frames.lean ====
section
/-! DEFINITION. The byte layouts the part sends: frames, replies and notices (R194 to R196) and downlink bursts (R197).
A state, class, cause, policy or mode is its position, from 0, in the list where the manual first gives its values. -/

namespace Sys2Proof.Machine

/-! ## Codes (R194) -/

/-- A reply status code. -/
def Status.code : Status → Byte
  | .ok => 0x00
  | .malformed => 0x01
  | .badField => 0x02
  | .wrongState => 0x03
  | .noLabel => 0x04
  | .noRecord => 0x05
  | .storeFull => 0x06
  | .tableFull => 0x07
  | .incomplete => 0x08
  | .pinLimit => 0x09
  | .damaged => 0x0A
  | .duplicate => 0x0B
  | .queueFull => 0x0C

/-- A hub state's code. -/
def HubStateName.code : HubStateName → Byte
  | .offline => 0
  | .listening => 1
  | .running => 2
  | .stopping => 3
  | .testing => 4

/-- A LINK_STATE cause's code. -/
def LinkCause.code : LinkCause → Byte
  | .start => 0
  | .stop => 1
  | .channelBusy _ => 2
  | .testEnd => 3

/-- The hub id a LINK_STATE carries; 0 when it is absent. -/
def LinkCause.hubId : LinkCause → Word16
  | .start => 0
  | .stop => 0
  | .channelBusy id => id
  | .testEnd => 0

/-- A reset cause's code. -/
def ResetCause.code : ResetCause → Byte
  | .power => 0
  | .pin => 1
  | .command => 2

/-- A JOIN_REFUSED cause's code. -/
def JoinRefusal.code : JoinRefusal → Byte
  | .full => 0
  | .listFull => 1

/-- An OP_FAILED cause's code. -/
def OpFailure.code : OpFailure → Byte
  | .refused => 0
  | .noAnswer => 1
  | .released => 2
  | .forgotten => 3
  | .joinFailed => 4

/-- A stall cause's code. -/
def StallCause.code : StallCause → Byte
  | .noProgress => 0
  | .labelBusy => 1
  | .storeError => 2

/-- A battery class's code. -/
def BatteryClass.code : BatteryClass → Byte
  | .ok => 0
  | .low => 1
  | .critical => 2

/-- A join policy's code (R196). -/
def JoinPolicy.code : JoinPolicy → Byte
  | .openAll => 0
  | .ask => 1
  | .closed => 2

/-- A record state's code. -/
def RecordState.code : RecordState → Byte
  | .filling _ => 0
  | .ready => 1
  | .sending => 2
  | .stalled _ => 3
  | .held => 4
  | .void => 5

/-- A label phase's code as an entry state. -/
def Phase.code : Phase → Byte
  | .joining _ _ => 1
  | .bound => 2
  | .missing => 3
  | .releasing _ _ => 4

/-- An entry state's code. -/
def Entry.code : Entry → Byte
  | .vacant => 0
  | .label l => l.phase.code
  | .cooling _ _ => 5

/-- A profile state's code. -/
def ProfileState.code : ProfileState → Byte
  | .settled => 0
  | .uncertain _ => 1

/-! ## Fields -/

/-- A long id, six bytes. -/
def longIdBytes (id : LongId) : List Byte := leBytes 6 id.toNat

/-- A round stamp, four bytes. -/
def stampBytes (t : Stamp) : List Byte := leBytes 4 t.toNat

/-- An optional reading in two bytes; 0 when it is absent. -/
def mvBytes (mv : Option Nat) : List Byte := leBytes 2 (mv.getD 0)

/-- The capability byte and the maximum page length ÷ 64 (R197). -/
def capabilityBytes (c : Capabilities) : List Byte :=
  [byteOf (c.pageCount + 16 * c.displayClass), byteOf (c.maxLength / 64)]

/-- A set of numbers below 8·k as a k-byte bitmap, number f at bit f mod 8 of byte f ÷ 8. -/
def bitmapBytes (k : Nat) (s : List Nat) : List Byte :=
  (List.range k).map fun i => byteOfBits ((List.range 8).map fun j => s.contains (8 * i + j))

/-! ## Notices (R194) -/

/-- A notice's code. -/
def Notice.code : Notice → Byte
  | .hubReady _ => 0x01
  | .linkState _ _ => 0x02
  | .foreignHub _ => 0x03
  | .joinAsked _ _ _ => 0x04
  | .joinRefused _ _ => 0x05
  | .labelJoined _ _ _ => 0x06
  | .joinFailed _ _ => 0x07
  | .labelMissing _ => 0x08
  | .labelBack _ => 0x09
  | .labelReleased _ _ => 0x0A
  | .opDone _ _ => 0x0B
  | .opFailed _ _ _ => 0x0C
  | .pageDelivered _ _ _ => 0x0D
  | .pageWanted _ _ => 0x0E
  | .pageEvicted _ _ _ => 0x0F
  | .transferFailed _ _ _ _ => 0x10
  | .battery _ _ _ _ _ => 0x11
  | .testResult _ _ => 0x12

/-- A notice's fields, in the order of the notice table. -/
def Notice.fieldBytes : Notice → List Byte
  | .hubReady c => [c.code]
  | .linkState st c => [st.code, c.code] ++ leBytes 2 c.hubId.toNat
  | .foreignHub id => leBytes 2 id.toNat
  | .joinAsked id c mv => longIdBytes id ++ capabilityBytes c ++ mvBytes mv
  | .joinRefused id c => longIdBytes id ++ [c.code]
  | .labelJoined a id r => byteOf a :: longIdBytes id ++ [flagByte r]
  | .joinFailed a id => byteOf a :: longIdBytes id
  | .labelMissing a => [byteOf a]
  | .labelBack a => [byteOf a]
  | .labelReleased a c => [byteOf a, flagByte c]
  | .opDone a k => [byteOf a, byteOf k.code]
  | .opFailed a k c => [byteOf a, byteOf k.code, c.code]
  | .pageDelivered a p g => [byteOf a, byteOf p, g]
  | .pageWanted a p => [byteOf a, byteOf p]
  | .pageEvicted a p g => [byteOf a, byteOf p, g]
  | .transferFailed a p g c => [byteOf a, byteOf p, g, c.code]
  | .battery a mv b c sv => byteOf a :: leBytes 2 mv ++ [b.code, c.code, flagByte sv]
  | .testResult t ab =>
    leBytes 4 t.sent ++ leBytes 4 t.whole ++ leBytes 4 t.bitErrors ++ leBytes 4 t.lost
      ++ leBytes 4 t.edges ++ leBytes 4 t.violations ++ [flagByte ab]

/-- A notice's payload: the six-byte notice header, then its fields. -/
def Posted.payload (p : Posted) : List Byte :=
  [p.notice.code, flagByte p.notice.urgent] ++ stampBytes p.stamp ++ p.notice.fieldBytes

/-- A reply's payload: the reply header, then the result. -/
def Reply.payload (r : Reply) : List Byte := r.kind :: r.status.code :: r.result

/-- A whole frame on the host link (R194). -/
def frameBytes (kind tag : Byte) (payload : List Byte) : List Byte :=
  let body := leBytes 2 payload.length ++ [kind, tag] ++ payload
  (0xC3 : Byte) :: body ++ crcBytes (crcOf body)

/-- The bytes of an outgoing frame: a reply has kind 80h and the command's tag, a notice kind 81h and tag 0. -/
def Outgoing.bytes : Outgoing → List Byte
  | .reply r => frameBytes 0x80 r.tag r.payload
  | .notice n => frameBytes 0x81 0 n.payload

/-- The levels of TXD over one character (R184): a start bit, eight data bits least significant first, a stop bit. -/
def characterLevels (b : Byte) : List Bool := false :: bitsOfByte b ++ [true]

/-- The level of TXD at bit time `t` of the frame on the line; high whenever no character is being sent. -/
def State.txd (s : State) (t : Nat) : Bool :=
  match s.link.sending with
  | some f => (f.bytes.flatMap characterLevels).getD t true
  | none => true

/-! ## Replies of the queries (R195, R196) -/

/-- The result of GET_INFO (R188, R195). -/
def infoBytes : List Byte :=
  leBytes 2 0x0157 ++ leBytes 2 0x0240 ++ [1, byteOf Config.directoryEntries, byteOf Config.recordSlots]
    ++ leBytes 2 Config.storeBlocks
    ++ [byteOf Config.contexts, byteOf Config.noticeQueue, byteOf Config.commandQueue]

/-- The result of an accepted CONFIGURE: mask 1FFFh and all thirteen fields (R196). -/
def configBytes (c : Configuration) : List Byte :=
  leBytes 2 0x1FFF ++ leBytes 2 c.hubId.toNat
    ++ [byteOf c.carrierMark, byteOf c.carrierSpace, byteOf c.normalLead, c.joinPolicy.code, byteOf c.defaultPeriod,
        byteOf c.burstAllowance, byteOf c.missLimit, byteOf c.stallLimit, byteOf c.opAttempts]
    ++ leBytes 2 c.batteryLow ++ leBytes 2 c.batteryCritical ++ [flagByte c.batterySaving]

/-- The number of entries whose state has a code. -/
def State.entriesInState (s : State) (code : Byte) : Nat :=
  (addresses.filter fun a => (s.entry a).code == code).length

/-- The result of GET_STATUS (R189, R196). -/
def statusBytes (s : State) : List Byte :=
  [s.hub.name.code, flagByte s.timebase.running] ++ leBytes 2 s.epoch.toNat ++ [byteOf s.roundIndex]
    ++ stampBytes s.stamp
    ++ (List.range 6).map (fun i => byteOf (s.entriesInState (byteOf i)))
    ++ [byteOf s.directory.admission.length, flagByte s.directory.crowded]
    ++ leBytes 2 s.freeBlocks.length
    ++ [byteOf s.freeSlots.length, byteOf s.pinnedCount, byteOf s.contextsInUse, flagByte s.foreignSeen,
        flagByte s.link.overflow]
    ++ leBytes 2 s.link.dropped

/-- An operation is on the air (R92): the open send is attached to it, or it is a RELEASE whose release burst's reply
window has not ended. -/
def State.opOnAir (s : State) (a : Nat) (l : Label) (o : Operation) : Bool :=
  match o.fields with
  | .release =>
    match s.dataSlot with
    | some d => d.endDue && d.place == ⟨a, .release⟩
    | none => false
  | _ =>
    match l.openSend with
    | some w => w.attached && w.fields.kind == o.kind
    | none => false

/-- One queued operation in a LABEL_QUERY reply. -/
def State.operationBytes (s : State) (a : Nat) (l : Label) (o : Operation) : List Byte :=
  byteOf o.kind.code :: stampBytes o.queued ++ [byteOf o.attempts, flagByte (s.opOnAir a l o)]

/-- The profile byte of a planned or candidate profile that is absent. R195 gives its bit 7, which is clear; bits 0 to 6
are 0 by the model's choice (log 33). -/
def absentProfileByte : Byte := 0

/-- Offsets 2 onward of a LABEL_QUERY reply for an entry that holds a label's fields (R195). -/
def State.labelBytes (s : State) (a : Nat) (l : Label) : List Byte :=
  longIdBytes l.longId ++ capabilityBytes l.capabilities ++ [profileByte l.current]
    ++ (match l.planned with
        | some p => profileByte p.profile :: leBytes 2 p.effective.toNat
        | none => [absentProfileByte, 0, 0])
    ++ (match l.profileState with
        | .uncertain c => [1, profileByte c]
        | .settled => [0, absentProfileByte])
    ++ [byteOf l.sequence.toNat, byteOf l.missCount, flagByte l.drifted]
    ++ (match l.phase with
        | .joining n r => [byteOf n, flagByte r, 0xFF]
        | .bound => [0xFF, 0xFF, 0xFF]
        | .missing => [0xFF, 0xFF, 0xFF]
        | .releasing n m => [byteOf n, 0xFF, flagByte m])
    ++ mvBytes l.batteryMv ++ [l.batteryClass.code, displayByte l.displayMode l.shownPage]
    ++ bitmapBytes 1 l.wanted
    ++ (match l.lastHeard with
        | some t => 1 :: stampBytes t
        | none => [0, 0, 0, 0, 0])
    ++ [byteOf l.queue.length] ++ l.queue.flatMap (s.operationBytes a l)

/-- The result of LABEL_QUERY for a short address (R70, R195). -/
def State.entryBytes (s : State) (a : Nat) : List Byte :=
  byteOf a :: (s.entry a).code ::
    (match s.entry a with
     | .vacant => []
     | .cooling id e => longIdBytes id ++ leBytes 2 e.toNat
     | .label l => s.labelBytes a l)

/-- The result of LABEL_LIST from a start address (R71, R195). -/
def State.listBytes (s : State) (start : Nat) : List Byte :=
  let found := ((addresses.filter fun a => start ≤ a && !(s.entry a).isVacant)).take 16
  byteOf found.length :: found.flatMap fun a => [byteOf a, (s.entry a).code]

/-- The written map of a FILLING record. -/
def RecordState.written : RecordState → List Nat
  | .filling w => w
  | .ready => []
  | .sending => []
  | .stalled _ => []
  | .held => []
  | .void => []

/-- The lowest offset not yet written; the length when every offset is written (R125). -/
def lowestUnwritten (length : Nat) (written : List Nat) : Nat :=
  ((List.range length).find? fun o => !written.contains o).getD length

/-- A record's position in the HELD order, the head as 1; 0 when it is not in it (R108, R195). -/
def State.heldPosition (s : State) (h : Nat) : Nat :=
  match s.store.heldOrder.findIdx? (fun x => x == h) with
  | some i => i + 1
  | none => 0

/-- The confirmed set of the context tied to a record (R176). -/
def State.confirmedOf (s : State) (h : Nat) : List Nat :=
  match s.contextOf h with
  | some i => match s.context i with
    | some c => c.confirmed
    | none => []
  | none => []

/-- One record in a PAGE_QUERY reply, 34 bytes (R125, R195). -/
def State.recordBytes (s : State) (h : Nat) (r : Record) : List Byte :=
  [byteOf h, byteOf r.address, byteOf r.page, r.generation] ++ leBytes 2 r.length
    ++ [byteOf r.fragments, r.state.code, flagByte r.urgent, flagByte r.pinned, flagByte r.damaged,
        byteOf r.blocks.length]
    ++ (List.range 4).flatMap (fun i => leBytes 2 (r.blocks.getD i 0))
    ++ (if r.state.isFilling then
          leBytes 2 r.state.written.length ++ leBytes 2 (lowestUnwritten r.length r.state.written)
        else [0, 0, 0, 0])
    ++ (match r.readyStamp with
        | some t => 1 :: stampBytes t
        | none => [0, 0, 0, 0, 0])
    ++ [(match r.state with
         | .stalled c => c.code
         | .filling _ => 0xFF
         | .ready => 0xFF
         | .sending => 0xFF
         | .held => 0xFF
         | .void => 0xFF),
        byteOf (s.heldPosition h)]
    ++ (if r.state = .sending then bitmapBytes 3 (s.confirmedOf h) else [0, 0, 0])

/-! ## Downlink bursts (R197) -/

/-- One call list entry of a beacon. -/
def BeaconEntry.bytes : BeaconEntry → List Byte
  | .call a f c => [byteOf a, byteOf f, byteOf c]
  | .assign id a f => 0 :: longIdBytes id ++ [byteOf a, byteOf f]

/-- The data bytes of a beacon. -/
def Beacon.bytes (b : Beacon) : List Byte :=
  kindBeacon :: leBytes 2 b.hubId.toNat ++ leBytes 2 b.epoch.toNat
    ++ [byteOf b.roundIndex, byteOfBits [b.epochStart, b.joinOpen, b.joinCrowded], byteOf b.entries.length]
    ++ b.entries.flatMap BeaconEntry.bytes

/-- The three argument bytes of a CONTROL burst; a SET_PROFILE carries its effective epoch. -/
def controlArguments (f : OpFields) (effective : Epoch) : List Byte :=
  match f with
  | .ping => [0, 0, 0]
  | .setProfile p => profileByte p :: leBytes 2 effective.toNat
  | .setMode m => [byteOf m.code, 0, 0]
  | .showPage p => [byteOf p, 0, 0]
  | .release => [0, 0, 0]

/-- The data bytes of a CONTROL burst. -/
def controlBytes (id : Word16) (a : Nat) (sequence : BitVec 4) (f : OpFields) (effective : Epoch) : List Byte :=
  [kindControl, hubTag id, byteOf a, byteOf (sequence.toNat + 16 * f.kind.code)] ++ controlArguments f effective

/-- The data bytes of an ASSIGN burst. -/
def assignBytes (id : Word16) (a : Nat) (longId : LongId) (sequence : BitVec 4) (p : Profile) : List Byte :=
  [kindAssign, hubTag id] ++ longIdBytes longId ++ [byteOf a, byteOf sequence.toNat, profileByte p]
    ++ leBytes 2 id.toNat

/-- The bytes a fragment carries: 48, or fewer for the last (R156). -/
def fragmentLength (length f : Nat) : Nat := min Config.fragmentBytes (length - Config.fragmentBytes * f)

/-- The data bytes of a FRAGMENT burst ahead of its payload (R157). -/
def fragmentHeader (tag : Byte) (r : Record) (f : Nat) : List Byte :=
  [kindFragment, tag, byteOf r.address, byteOf r.page, r.generation, byteOf f, byteOf r.fragments]

end Sys2Proof.Machine
end

