-- ==== Sys2Proof/Machine/Line.lean ====
section
/-! DEFINITION. The optical transmitter (01, R1 to R8) and what it does to the receiver: send requests, line elements,
cut requests, blanking. -/

namespace Sys2Proof.Machine

/-! ## Broken bursts (R12, R14) -/

/-- Write the receiver's assembly. -/
def State.setAssembly (s : State) (a : Option Assembly) : State :=
  { s with receiver := { s.receiver with assembly := a } }

/-- A broken burst delivered to the owner of its window: energy heard in a join window sets the round accumulator
(R58); in a reply window it sets no mark (R48). -/
def State.deliverBroken (s : State) (w : Option Window) (_cause : BrokenCause) : State :=
  match w with
  | some (.join _) => { s with directory := { s.directory with accumulator := true } }
  | some (.reply _) => s
  | none => s

/-- The open assembly, if there is one, ends broken. During a line test nothing is delivered to other blocks (R14), and
the present period's burst is then a broken one (R17). -/
def State.endAssemblyBroken (s : State) (cause : BrokenCause) : State :=
  match s.receiver.assembly with
  | none => s
  | some a =>
    let closed : State := { s with receiver := { s.receiver with assembly := none } }
    match s.lineTest with
    | some t => if a.ofPeriod then { closed with hub := .testing { t with heard := .broken } } else closed
    | none => closed.deliverBroken a.window cause

/-! ## Send requests (R6) -/

/-- A line test in LOOP mode is running. -/
def State.inLoopTest (s : State) : Bool :=
  match s.lineTest with
  | some t => t.mode == .loop
  | none => false

/-- Hub control is in a state in which the transmitter takes send requests: RUNNING, STOPPING or TESTING. -/
def State.mayTransmit (s : State) : Bool := s.inService || s.lineTest.isSome

/-- Blanking begins (R15), but in a LOOP line test; an assembly open at that instant is closed as TRUNCATED. -/
def State.beginBlanking (s : State) : State :=
  if s.inLoopTest then s
  else
    let t := s.endAssemblyBroken .truncated
    { t with receiver := { t.receiver with blanked := true } }

/-- The first tick of the beacon that ends LISTENING, if it is still to come: blanking begins with it (R15; log 27). -/
def State.firstTick (s : State) : State :=
  if s.blankingDue then State.beginBlanking { s with blankingDue := false } else s

/-- `n` microseconds pass on the line: with the first of them comes a first tick that is still to come. -/
def State.pass (s : State) (n : Nat) : State := (if n = 0 then s else s.firstTick).advance n

/-- The burst as it begins its lead, with the carrier settings copied at its first tick (R2). -/
def newBurst (c : Configuration) (lead count : Nat) (source : BurstSource) : Burst where
  carrierMark := c.carrierMark
  carrierSpace := c.carrierSpace
  lead := lead
  source := source
  count := count
  sent := 0
  crc := crcStart
  part := .lead
  bits := 0
  inSpace := false
  current := none
  abortPending := false

/-- A send request: the state in which the burst has begun its lead, or `none` for the outcome NOT_SENT. -/
def State.sendRequest (s : State) (lead count : Nat) (source : BurstSource) : Option State :=
  if s.mayTransmit && s.burst.isNone then
    some { s.beginBlanking with burst := some (newBurst s.config lead count source) }
  else none

/-! ## Line elements (R3, R4) -/

/-- An element whose end is a LINE_ELEMENT_END is on the line: the end mark and the abort mark end the burst instead,
and while the next data byte is awaited no element is on the line (log 14). -/
def Burst.inElement (b : Burst) : Bool :=
  match b.part with
  | .lead => true
  | .sync => true
  | .data => b.current.isSome
  | .crc => true
  | .endMark => false
  | .abortMark => false

/-- A test burst carries no CRC (R16). -/
def Burst.hasCrc (b : Burst) : Bool := b.source != .hubControl

/-- The last bit of a data byte has been sent: the next byte is awaited, or the CRC begins, or the end mark. -/
def Burst.byteDone (b : Burst) : Burst :=
  let next : Burst := { b with sent := b.sent + 1, bits := 0, inSpace := false, current := none }
  if b.sent + 1 < b.count then next
  else if b.hasCrc then { next with part := .crc }
  else { next with part := .endMark }

/-- The element after the one that has ended. -/
def Burst.nextElement (b : Burst) : Burst :=
  match b.part with
  | .lead =>
    if b.inSpace then
      if b.bits + 1 < b.lead then { b with bits := b.bits + 1, inSpace := false }
      else { b with part := .sync, bits := 0, inSpace := false }
    else { b with inSpace := true }
  | .sync =>
    if b.inSpace then { b with part := .data, bits := 0, inSpace := false, current := none }
    else { b with inSpace := true }
  | .data =>
    if b.inSpace then
      if b.bits + 1 < 8 then { b with bits := b.bits + 1, inSpace := false } else b.byteDone
    else { b with inSpace := true }
  | .crc =>
    if b.inSpace then
      if b.bits + 1 < 16 then { b with bits := b.bits + 1, inSpace := false }
      else { b with part := .endMark, bits := 0, inSpace := false }
    else { b with inSpace := true }
  | .endMark => b
  | .abortMark => b

/-- The abort mark begins (R7). -/
def Burst.toAbortMark (b : Burst) : Burst :=
  { b with part := .abortMark, bits := 0, inSpace := false, current := none, abortPending := false }

/-- A line element ends: the next element begins, or the abort mark if an abort is pending. The burst's first tick is
past by then. -/
def State.elementEnd (s : State) : State :=
  match s.burst with
  | none => s
  | some b =>
    if b.inElement then { s.firstTick with burst := some (if b.abortPending then b.toAbortMark else b.nextElement) }
    else s

/-- What a cut request or an abort answer does to the burst (R7): the element in progress completes first; between two
elements the abort mark begins at once; an end mark or abort mark already begun goes on. -/
def Burst.abort (b : Burst) : Burst :=
  match b.part with
  | .lead => { b with abortPending := true }
  | .sync => { b with abortPending := true }
  | .data => if b.current.isSome then { b with abortPending := true } else b.toAbortMark
  | .crc => { b with abortPending := true }
  | .endMark => b
  | .abortMark => b

/-- A cut request (R7); with no burst being sent it has no effect. -/
def State.cutRequest (s : State) : State :=
  match s.burst with
  | some b => { s with burst := some b.abort }
  | none => s

/-- The next data byte goes to the transmitter: it is fed into the CRC, and its first bit begins. -/
def Burst.takeByte (b : Burst) (x : Byte) : Burst :=
  { b with current := some x, crc := crcByte b.crc x, bits := 0, inSpace := false }

/-- The next data byte is awaited: the transmitter asks for it just before its first bit (R6). -/
def Burst.awaitsByte (b : Burst) : Bool := b.part == .data && b.current.isNone

/-- The value of the bit on the line: the lead's bits are 0, data and CRC bytes go least significant bit first. -/
def Burst.bitValue (b : Burst) : Bool :=
  match b.part with
  | .lead => false
  | .sync => false
  | .data => (b.current.getD 0).getLsbD b.bits
  | .crc => b.crc.getLsbD b.bits
  | .endMark => false
  | .abortMark => false

/-- The length in line units of the space of a bit (R3). -/
def spaceUnits (bit : Bool) : Nat := if bit then 2 else 1

/-- The element on the line: whether it is a mark, and its length in line units; absent while a byte is awaited. -/
def Burst.element (b : Burst) : Option (Bool × Nat) :=
  if b.awaitsByte then none
  else
    match b.part with
    | .lead => some (!b.inSpace, 1)
    | .sync => some (if b.inSpace then (false, 1) else (true, 4))
    | .data => some (if b.inSpace then (false, spaceUnits b.bitValue) else (true, 1))
    | .crc => some (if b.inSpace then (false, spaceUnits b.bitValue) else (true, 1))
    | .endMark => some (true, 2)
    | .abortMark => some (true, 8)

/-- Carrier-clock ticks of one line unit (01). -/
def unitTicks : Nat := 192

/-- The level of IRDRV at carrier-clock tick `n` of the element on the line (R1): high for the mark length and low for
the space length of each carrier period, from the element's first tick to its last where it is a mark; low otherwise.
The abort mark is an element of its own, so its carrier starts afresh at its first tick also where it follows a mark
with no space between (R7): the model's choice (log 32). -/
def State.irdrv (s : State) (n : Nat) : Bool :=
  match s.burst with
  | none => false
  | some b =>
    match b.element with
    | some (true, units) => n < units * unitTicks && n % (b.carrierMark + b.carrierSpace) < b.carrierMark
    | some (false, _) => false
    | none => false

/-! ## A whole burst on the air (R3, R4, R199) -/

/-- The elements of one bit: a mark of one unit and its space. -/
def bitElements (bit : Bool) : List (Bool × Nat) := [(true, 1), (false, spaceUnits bit)]

/-- The elements of one byte, least significant bit first. -/
def byteElements (b : Byte) : List (Bool × Nat) := (bitsOfByte b).flatMap bitElements

/-- The elements of a whole burst: lead, sync, data and CRC bytes, end mark. -/
def burstElements (lead : Nat) (bytes : List Byte) : List (Bool × Nat) :=
  (List.replicate lead false).flatMap bitElements ++ [(true, 4), (false, 1)]
    ++ bytes.flatMap byteElements ++ [(true, 2)]

/-- The microseconds a list of elements takes; a line unit is 8 µs. -/
def elementMicros (es : List (Bool × Nat)) : Nat := 8 * (es.map Prod.snd).sum

/-- R4's time on the air of a burst with `lead` lead bits and the given data and CRC bytes. -/
def airtime (lead : Nat) (bytes : List Byte) : Nat :=
  16 * lead + 40 + 128 * bytes.length + 8 * (bytes.map oneBits).sum + 16

end Sys2Proof.Machine
end

