-- ==== Sys2Proof/Machine/PageStore.lean ====
section
/-! DEFINITION. The page store's records through their states (06, R107 to R132), without the host commands. -/

namespace Sys2Proof.Machine

/-! ## Freeing, cutting and the ways out of SENDING -/

/-- Free a record (R107): its slot and blocks return, and it leaves the HELD order. -/
def State.freeRecord (s : State) (h : Nat) : State :=
  (s.setRecord h none).setHeldOrder (s.store.heldOrder.filter fun x => x != h)

/-- A fragment burst of the record is on the air (R116, R170). -/
def State.fragmentOnAir (s : State) (h : Nat) : Bool :=
  match s.contextOf h with
  | some i =>
    match s.context i with
    | some c => c.onAir.isSome
    | none => false
  | none => false

/-- Cut a SENDING record (R116, R170): with its fragment on the air it becomes VOID and the burst is asked to end;
otherwise it is freed with its context. -/
def State.cutRecord (s : State) (h : Nat) : State :=
  if s.fragmentOnAir h then
    s.cutRequest.updateRecord h fun r => { r with state := .void, pinned := false }
  else (s.freeRecord h).freeContextOf h

/-- Discard one record by its state (R114, R115, R131): a SENDING record is cut, a VOID one is left to its burst end,
every other is freed. -/
def State.discardRecord (s : State) (h : Nat) : State :=
  match s.record h with
  | none => s
  | some r =>
    match r.state with
    | .sending => s.cutRecord h
    | .void => s
    | .filling _ => s.freeRecord h
    | .ready => s.freeRecord h
    | .stalled _ => s.freeRecord h
    | .held => s.freeRecord h

/-- Discard one record if it belongs to a short address. -/
def State.discardIfOf (a : Nat) (s : State) (h : Nat) : State :=
  match s.record h with
  | some r => if r.address = a then s.discardRecord h else s
  | none => s

/-- Remove every record of a short address (R131). -/
def State.removeRecords (s : State) (a : Nat) : State := handles.foldl (State.discardIfOf a) s

/-- A record enters HELD (R119): its context is freed, it joins the HELD order's tail unless it is pinned, and
PAGE_DELIVERED is posted. -/
def State.enterHeld (s : State) (h : Nat) : State :=
  match s.record h with
  | none => s
  | some r =>
    let t := (s.setRecord h (some { r with state := .held })).freeContextOf h
    let u := if r.pinned then t else t.setHeldOrder (t.store.heldOrder ++ [h])
    u.post (.pageDelivered r.address r.page r.generation)

/-- A record enters STALLED with a cause (R120): its context is freed and TRANSFER_FAILED is posted. -/
def State.enterStalled (s : State) (h : Nat) (cause : StallCause) : State :=
  match s.record h with
  | none => s
  | some r =>
    ((s.setRecord h (some { r with state := .stalled cause })).freeContextOf h).post
      (.transferFailed r.address r.page r.generation cause)

/-- A SENDING record returns to READY (R121): its ready stamp is renewed and its context is freed. -/
def State.returnToReady (s : State) (h : Nat) : State :=
  (s.updateRecord h fun r => { r with state := .ready, readyStamp := some s.stamp }).freeContextOf h

/-- A HELD record is reopened (R127, R130): READY, out of the HELD order, its ready stamp renewed. -/
def State.reopen (s : State) (h : Nat) : State :=
  (s.updateRecord h fun r => { r with state := .ready, readyStamp := some s.stamp }).setHeldOrder
    (s.store.heldOrder.filter fun x => x != h)

/-! ## Events from the directory and hub control -/

/-- A label's SENDING record returns to READY, if it has one (R63, R121). -/
def State.returnSending (s : State) (a : Nat) : State :=
  match s.sendingOf a with
  | some h => s.returnToReady h
  | none => s

/-- What a rejoin does to one record of the label (R130). -/
def State.rejoinRecord (a : Nat) (s : State) (h : Nat) : State :=
  match s.record h with
  | none => s
  | some r =>
    if r.address = a then
      match r.state with
      | .sending => s.returnToReady h
      | .held => s.reopen h
      | .filling _ => s
      | .ready => s
      | .stalled _ => s
      | .void => s
    else s

/-- What a rejoin does to the label's records (R130). -/
def State.rejoinRecords (s : State) (a : Nat) : State := handles.foldl (State.rejoinRecord a) s

/-- One record when STOPPING ends (R28, R121). -/
def State.readyIfSending (s : State) (h : Nat) : State :=
  match s.record h with
  | some r => if r.state = .sending then s.returnToReady h else s
  | none => s

/-- Every SENDING record returns to READY and every context is freed (R28, R174). -/
def State.endTransfers (s : State) : State :=
  { handles.foldl State.readyIfSending s with contexts := Vector.replicate 16 none }

/-! ## Held-page reconciliation (R126 to R128) -/

/-- A page reported absent with no live record (R128): reported once, until the host loads it. -/
def State.pageWanted (s : State) (a p : Nat) : State :=
  match s.label? a with
  | none => s
  | some l =>
    if l.wanted.contains p then s
    else (s.updateLabel a fun l => { l with wanted := setInsert p l.wanted }).post (.pageWanted a p)

/-- Reconcile one page of a label with what its STATUS reports (R127). -/
def State.reconcilePage (a : Nat) (r : StatusReport) (s : State) (p : Nat) : State :=
  match s.liveOf a p with
  | none =>
    match r.holds p with
    | some _ => s
    | none => s.pageWanted a p
  | some h =>
    match s.record h with
    | none => s
    | some rec =>
      if r.holds p = some rec.generation then
        match rec.state with
        | .ready => s.enterHeld h
        | .sending => s.enterHeld h
        | .held => s
        | .stalled _ => s
        | .filling _ => s
        | .void => s
      else
        match rec.state with
        | .held => s.reopen h
        | .ready => s
        | .sending => s
        | .stalled _ => s
        | .filling _ => s
        | .void => s

/-- Reconcile a label's pages in ascending order (R126). -/
def State.reconcile (s : State) (a : Nat) (r : StatusReport) : State :=
  match s.label? a with
  | some l => (List.range l.capabilities.pageCount).foldl (State.reconcilePage a r) s
  | none => s

/-! ## Room for a new record (R110) -/

/-- Evict the record at a handle: it is freed and PAGE_EVICTED is posted. -/
def State.evict (s : State) (h : Nat) : State :=
  match s.record h with
  | some r => (s.freeRecord h).post (.pageEvicted r.address r.page r.generation)
  | none => s

/-- There is room for a record of `k` blocks. -/
def State.hasRoom (s : State) (k : Nat) : Bool := 1 ≤ s.freeSlots.length && k ≤ s.freeBlocks.length

/-- Evict candidates one at a time from the head until there is room for `k` blocks, and no further. -/
def State.evictUntil (k : Nat) : List Nat → State → State
  | [], s => s
  | h :: rest, s => if s.hasRoom k then s else State.evictUntil k rest (s.evict h)

/-! ## Bytes -/

/-- Write consecutive page bytes of a record from an offset, each with its parity (R112). -/
def State.writePage (r : Record) : Nat → List Byte → State → State
  | _, [], s => s
  | o, b :: rest, s =>
    State.writePage r (o + 1) rest
      (match r.byteAddress o with
       | some a => s.writeStoreByte a b
       | none => s)

end Sys2Proof.Machine
end

