-- ==== Sys2Proof/Machine/Directory.lean ====
section
/-! DEFINITION. The label directory (03, 04, 05): operation queues, profiles, battery, joining, presence, leaving, and
what a STATUS does to an entry. -/

namespace Sys2Proof.Machine

/-! ## The operation queue (R88, R91) -/

/-- The queue holds an operation of a kind. -/
def Label.queued (l : Label) (k : OpKind) : Bool := l.queue.any fun o => o.kind == k

/-- An open send of a kind is detached (R92). -/
def OpenSend.detach (k : OpKind) (w : OpenSend) : OpenSend :=
  if w.fields.kind = k then { w with attached := false } else w

/-- The kind has an attached open send. -/
def Label.attachedSend (l : Label) (k : OpKind) : Bool :=
  match l.openSend with
  | some w => w.attached && w.fields.kind == k
  | none => false

/-- A queued operation's fields replaced (R91): it keeps its position and stamp. -/
def Operation.replace (f : OpFields) (o : Operation) : Operation :=
  if o.kind = f.kind then { o with fields := f, attempts := 0, sentThisRound := false } else o

/-- Queue an accepted operation (R91): added at the tail, or in place of the queued one of its kind. -/
def Label.enqueue (l : Label) (f : OpFields) (now : Stamp) : Label :=
  if l.queued f.kind then
    { l with queue := l.queue.map (Operation.replace f), openSend := l.openSend.map (OpenSend.detach f.kind) }
  else { l with queue := l.queue ++ [⟨f, now, 0, false⟩] }

/-- Remove the operation of a kind; those behind it keep their order (R95). -/
def Label.dequeue (l : Label) (k : OpKind) : Label := { l with queue := l.queue.filter fun o => o.kind != k }

/-- The position of the operation of a kind in the queue, the head as 1. -/
def Label.positionOf (l : Label) (k : OpKind) : Nat :=
  match l.queue.findIdx? (fun o => o.kind == k) with
  | some i => i + 1
  | none => 0

/-- The OP_FAILED notices of a queue removed as a whole, in queue order; the RELEASE operation posts none (R102). -/
def removalNotices (a : Nat) (cause : OpFailure) (q : List Operation) : List Notice :=
  (q.filter fun o => o.kind != .release).map fun o => .opFailed a o.kind cause

/-- Empty an entry's queue by removal (R102). -/
def State.removeOperations (s : State) (a : Nat) (cause : OpFailure) : State :=
  match s.label? a with
  | some l => (s.updateLabel a fun l => { l with queue := [] }).postAll (removalNotices a cause l.queue)
  | none => s

/-! ## Profiles (R73 to R83) -/

/-- Write a planned profile (R75): one present and in force is folded first, any other is dropped. -/
def Label.writePlanned (l : Label) (now : Epoch) (p : PlannedProfile) : Label :=
  match l.planned with
  | some q =>
    if q.effective = now then { l with current := q.profile, planned := some p } else { l with planned := some p }
  | none => { l with planned := some p }

/-- Fold the planned profile if its effective epoch is the given one (R76). -/
def Label.foldPlanned (l : Label) (e : Epoch) : Label :=
  match l.planned with
  | some p => if p.effective = e then { l with current := p.profile, planned := none } else l
  | none => l

/-- A profile report that is taken (R81): the active profile, and the pending one if there is one. -/
def StatusReport.profileReport (r : StatusReport) (now : Epoch) : Option (Profile × Option PlannedProfile) :=
  match r.active, r.pending with
  | some p, .absent => some (p, none)
  | some p, .named q => if q.effective = now + 1 then some (p, some q) else none
  | some _, .invalid => none
  | none, _ => none

/-- Adopt a profile report (R82): the report has the last word on both profiles (log 11). -/
def Label.adopt (l : Label) (now : Epoch) (p : Profile) (pending : Option PlannedProfile) : Label :=
  match pending with
  | some q => { l.writePlanned now q with current := p, profileState := .settled }
  | none => { l with current := p, planned := none, profileState := .settled }

/-- The profile of the queued SET_PROFILE, if there is one. -/
def Label.wantedProfile (l : Label) : Option Profile :=
  l.queue.findSome? fun o => match o.fields with
    | .setProfile p => some p
    | .ping => none
    | .setMode _ => none
    | .showPage _ => none
    | .release => none

/-- The completion check (R83): the label holds the wanted profile, so the queued SET_PROFILE is removed with OP_DONE. -/
def State.completionCheck (s : State) (a : Nat) (p : Profile) (pending : Option PlannedProfile) : State :=
  match s.label? a with
  | none => s
  | some l =>
    match l.wantedProfile with
    | none => s
    | some want =>
      if want = (match pending with | some q => q.profile | none => p) then
        (s.updateLabel a fun l =>
          { l.dequeue .setProfile with openSend := l.openSend.map (OpenSend.detach .setProfile) }).post
            (.opDone a .setProfile)
      else s

/-- The profile report of a STATUS and the completion check after it (R82, R83). -/
def State.takeProfileReport (s : State) (a : Nat) (r : StatusReport) : State :=
  match r.profileReport s.epoch with
  | some (p, pending) => (s.updateLabel a fun l => l.adopt s.epoch p pending).completionCheck a p pending
  | none => s

/-! ## Battery watch (R84 to R87) -/

/-- The saving profile is already in hand (R87). -/
def Label.savingInHand (l : Label) (a : Nat) : Bool :=
  !l.queued .setProfile &&
    (match l.planned with
     | some p => p.profile == savingProfile a
     | none => l.current == savingProfile a)

/-- The saving profile is queued unless it is in hand (R87). -/
def Label.applySaving (l : Label) (a : Nat) (now : Stamp) : Label :=
  if l.savingInHand a then l else l.enqueue (.setProfile (savingProfile a)) now

/-- Take a reading for an entry (R84 to R87); none leaves the entry as it stands. -/
def State.takeReading (s : State) (a : Nat) (reading : Option Nat) : State :=
  match reading with
  | none => s
  | some mv =>
    match s.label? a with
    | none => s
    | some l =>
      let after := classify s.config.batteryLow s.config.batteryCritical l.batteryClass mv
      if after = l.batteryClass then s.updateLabel a fun l => { l with batteryMv := some mv }
      else
        let saving := after == .critical && s.config.batterySaving
        (s.updateLabel a fun l =>
          let m : Label := { l with batteryMv := some mv, batteryClass := after }
          if saving then m.applySaving a s.stamp else m).post (.battery a mv l.batteryClass after saving)

/-! ## Joining (R44, R50 to R57) -/

/-- The fields of a new entry (R44), before its first reading is taken. -/
def newLabel (defaultPeriod a : Nat) (id : LongId) (c : Capabilities) (heard : Stamp) : Label where
  phase := .joining 4 false
  longId := id
  capabilities := c
  current := ⟨defaultPeriod, a % defaultPeriod⟩
  planned := none
  profileState := .settled
  queue := []
  openSend := none
  sequence := 0
  missCount := 0
  drifted := false
  batteryMv := none
  batteryClass := .ok
  displayMode := none
  shownPage := none
  wanted := []
  lastHeard := some heard
  sentMark := false
  heardMark := false

/-- Create an entry in JOINING (R44). -/
def State.createEntry (s : State) (a : Nat) (id : LongId) (c : Capabilities) (mv : Option Nat) (heard : Stamp) : State :=
  (s.setEntry a (.label (newLabel s.config.defaultPeriod a id c heard))).takeReading a mv

/-- Write the admission list. -/
def State.setAdmission (s : State) (q : List Asking) : State :=
  { s with directory := { s.directory with admission := q } }

/-- The admission list entry of a long id. -/
def State.asking (s : State) (id : LongId) : Option Asking := s.directory.admission.find? fun x => x.longId == id

/-- Remove a long id's admission list entry; the others keep their order (R55). -/
def State.dropAsking (s : State) (id : LongId) : State :=
  s.setAdmission (s.directory.admission.filter fun x => x.longId != id)

/-- Change a long id's admission list entry in its place. -/
def State.updateAsking (s : State) (id : LongId) (f : Asking → Asking) : State :=
  s.setAdmission (s.directory.admission.map fun x => if x.longId = id then f x else x)

/-- A request under ASK whose long id is listed with the refused mark: its stamp alone is refreshed (R54). -/
def State.refreshRefused (s : State) (id : LongId) : State :=
  s.updateAsking id fun x => { x with lastHeard := s.stamp }

/-- A join request under OPEN whose long id is not held (R53; log 12). -/
def State.joinOpenPolicy (s : State) (q : JoinRequest) : State :=
  match s.asking q.longId with
  | some x =>
    if x.refused then s.refreshRefused q.longId
    else
      match s.lowestVacant with
      | some a => (s.dropAsking q.longId).createEntry a q.longId q.capabilities q.mv s.stamp
      | none => s.post (.joinRefused q.longId .full)
  | none =>
    match s.lowestVacant with
    | some a => s.createEntry a q.longId q.capabilities q.mv s.stamp
    | none => s.post (.joinRefused q.longId .full)

/-- A join request under ASK whose long id is not held (R54). -/
def State.joinAskPolicy (s : State) (q : JoinRequest) : State :=
  match s.asking q.longId with
  | some x =>
    if x.refused then s.refreshRefused q.longId
    else s.updateAsking q.longId fun x =>
      { x with lastHeard := s.stamp, capabilities := q.capabilities, batteryMv := q.mv }
  | none =>
    if s.directory.admission.length < Config.admissionPlaces then
      (s.setAdmission (s.directory.admission ++ [⟨q.longId, q.capabilities, q.mv, s.stamp, false⟩])).post
        (.joinAsked q.longId q.capabilities q.mv)
    else s.post (.joinRefused q.longId .listFull)

/-- The fields of an entry that a rejoin changes (R51). -/
def Label.rejoin (l : Label) (now : Stamp) : Label :=
  let m :=
    match l.planned with
    | some p => if l.queued .setProfile then l else l.enqueue (.setProfile p.profile) now
    | none => l
  { m with
    phase := .joining 4 true
    planned := none
    profileState := .settled
    missCount := 0
    drifted := false
    displayMode := none
    shownPage := none
    lastHeard := some now }

/-- A rejoin (R51, R130). -/
def State.rejoin (s : State) (a : Nat) (mv : Option Nat) : State :=
  ((s.updateLabel a fun l => l.rejoin s.stamp).rejoinRecords a).takeReading a mv

/-- A JOINING label asks again (R52). -/
def State.joinRefresh (s : State) (a : Nat) (rejoin : Bool) : State :=
  s.updateLabel a fun l => { l with phase := .joining 4 rejoin, lastHeard := some s.stamp }

/-- A join request that has passed its arrival checks, by the holder of its long id and the join policy (R50). -/
def State.takeJoinRequest (s : State) (q : JoinRequest) : State :=
  match s.holderOf q.longId with
  | some a =>
    match s.label? a with
    | some l =>
      match l.phase with
      | .bound => s.rejoin a q.mv
      | .missing => s.rejoin a q.mv
      | .joining _ rejoin => s.joinRefresh a rejoin
      | .releasing _ _ => s
    | none => s
  | none =>
    match s.config.joinPolicy with
    | .openAll => s.joinOpenPolicy q
    | .ask => s.joinAskPolicy q
    | .closed => s

/-! ## Leaving (R45, R65 to R69) -/

/-- An entry that holds a label's fields enters COOLING (R69, R45). -/
def State.enterCooling (s : State) (a : Nat) : State :=
  match s.label? a with
  | some l => s.setEntry a (.cooling l.longId (s.epoch + 2))
  | none => s

/-- A COOLING entry whose cooling end epoch has come becomes VACANT (R69). -/
def Entry.endCooling (e : Epoch) : Entry → Entry
  | .cooling id at_ => if at_ = e then .vacant else .cooling id at_
  | .vacant => .vacant
  | .label l => .label l

/-- RELEASE of a JOINING entry (R65). -/
def State.releaseJoining (s : State) (a : Nat) : State :=
  (((s.removeRecords a).removeOperations a .released).enterCooling a).post (.labelReleased a false)

/-- RELEASE of a BOUND or MISSING entry (R66). -/
def State.releaseBound (s : State) (a : Nat) (fromMissing : Bool) : State :=
  ((s.removeRecords a).removeOperations a .released).updateLabel a fun l =>
    { l with
      phase := .releasing 2 fromMissing
      queue := [⟨.release, s.stamp, 0, false⟩]
      openSend := l.openSend.map fun w => { w with attached := false } }

/-- FORGET (R68). -/
def State.forget (s : State) (a : Nat) : State :=
  ((s.removeRecords a).removeOperations a .forgotten).enterCooling a

/-! ## What a STATUS does (R48, R60, R64, R67, R94 to R99) -/

/-- The STATUS answers the send (R94): one with no result does not, though R78 and R79 name the echo alone; what its
echo does is taken apart from the answer (noteEcho; log 28). -/
def OpenSend.answeredBy (w : OpenSend) (slot : Nat) (r : StatusReport) : Bool :=
  w.slot == slot && w.sequence == r.echo && (r.result == .done || r.result == .refused)

/-- An attributed STATUS that echoes the sequence of the open send of its slot, whatever its result and whatever the
entry's state, shows that the label has taken the burst: R79 then does not count a SET_PROFILE send as unanswered
(log 28). -/
def Label.noteEcho (slot : Nat) (r : StatusReport) (l : Label) : Label :=
  { l with openSend := l.openSend.map fun w =>
      if w.slot = slot ∧ w.sequence = r.echo then { w with echoed := true } else w }

/-- The entry after its open send is answered (R95, R96): a DONE SET_PROFILE writes a planned profile (R78), and an
attached send's operation leaves the queue. -/
def Label.answered (l : Label) (now : Epoch) (w : OpenSend) (done : Bool) : Label :=
  let m : Label := { l with openSend := none }
  let p :=
    match w.fields with
    | .setProfile pr => if done then m.writePlanned now ⟨pr, w.effective⟩ else m
    | .ping => m
    | .setMode _ => m
    | .showPage _ => m
    | .release => m
  if w.attached then p.dequeue w.fields.kind else p

/-- The first part of a STATUS: the answer of the open send (R94 to R96). -/
def State.takeAnswer (s : State) (a slot : Nat) (r : StatusReport) : State :=
  match s.label? a with
  | none => s
  | some l =>
    match l.openSend with
    | none => s
    | some w =>
      if w.answeredBy slot r then
        let t := s.updateLabel a fun l => l.answered s.epoch w (r.result == .done)
        if w.attached then
          t.post (if r.result = .done then .opDone a w.fields.kind else .opFailed a w.fields.kind .refused)
        else t
      else s

/-- The display part is set to what the label reports (R99). -/
def Label.takeDisplay (l : Label) (r : StatusReport) : Label :=
  { l with
    displayMode := r.mode
    shownPage := r.shown.filter fun p => decide (p < l.capabilities.pageCount) }

/-- A STATUS taken as for a BOUND entry, in the order of R82 and R126. -/
def State.takeBoundStatus (s : State) (a slot : Nat) (r : StatusReport) : State :=
  let t1 := s.takeAnswer a slot r
  let t2 := t1.updateLabel a fun l => l.takeDisplay r
  let t3 := t2.takeProfileReport a r
  let t4 := t3.takeReading a r.mv
  t4.reconcile a r

/-- A JOINING entry becomes BOUND (R60). -/
def State.labelJoined (s : State) (a : Nat) (id : LongId) (rejoin : Bool) : State :=
  (s.updateLabel a fun l => { l with phase := .bound, missCount := 0, drifted := false }).post (.labelJoined a id rejoin)

/-- A MISSING entry returns to BOUND (R64). -/
def State.labelBack (s : State) (a : Nat) : State :=
  (s.updateLabel a fun l => { l with phase := .bound, missCount := 0, drifted := false }).post (.labelBack a)

/-- A release is confirmed (R67). -/
def State.releaseConfirmed (s : State) (a : Nat) : State := (s.enterCooling a).post (.labelReleased a true)

/-- The parts of an attributed STATUS, by the entry's state at its arrival (R48). -/
def State.takeParts (s : State) (a slot : Nat) (r : StatusReport) : State :=
  match s.label? a with
  | none => s
  | some l =>
    match l.phase with
    | .joining _ rejoin => if r.joined then (s.labelJoined a l.longId rejoin).takeBoundStatus a slot r else s
    | .bound => s.takeBoundStatus a slot r
    | .missing => (s.labelBack a).takeBoundStatus a slot r
    | .releasing _ _ => if r.released then s.releaseConfirmed a else s

/-- An attributed STATUS: its echo is noted in every state of the entry (R79; log 28), and then its parts are taken
(R48). A RELEASING entry takes the RELEASED flag and no other part: its send is not answered (R98) and ends with its
window. -/
def State.takeStatus (s : State) (a slot : Nat) (r : StatusReport) : State :=
  (s.updateLabel a (Label.noteEcho slot r)).takeParts a slot r

/-! ## The end of a reply window (R97, R79) -/

/-- The entry is in a state in which an unanswered SET_PROFILE makes it UNCERTAIN (R79). -/
def Phase.mayBeUncertain : Phase → Bool
  | .joining _ _ => false
  | .bound => true
  | .missing => true
  | .releasing _ _ => true

/-- The entry's profile after an unanswered send: a SET_PROFILE makes it UNCERTAIN with the sent profile (R79), unless
an attributed STATUS has echoed its sequence (log 28). -/
def Label.unansweredProfile (l : Label) (w : OpenSend) : Label :=
  match w.fields with
  | .setProfile p => if l.phase.mayBeUncertain && !w.echoed then { l with profileState := .uncertain p } else l
  | .ping => l
  | .setMode _ => l
  | .showPage _ => l
  | .release => l

/-- The attempts used of a kind's operation. -/
def Label.attemptsOf (l : Label) (k : OpKind) : Nat :=
  match l.queue.find? (fun o => o.kind == k) with
  | some o => o.attempts
  | none => 0

/-- One attempt is charged to a kind's operation. -/
def Label.chargeAttempt (l : Label) (k : OpKind) : Label :=
  { l with queue := l.queue.map fun o => if o.kind = k then { o with attempts := o.attempts + 1 } else o }

/-- The open send of a slot was not answered (R97): it ends, and an attached one uses an attempt, whether or not a STATUS
with no result has echoed it (R94; log 28). -/
def State.sendUnanswered (s : State) (a : Nat) (w : OpenSend) : State :=
  let t := s.updateLabel a fun l => { l.unansweredProfile w with openSend := none }
  if w.attached then
    match t.label? a with
    | some l =>
      let k := w.fields.kind
      if s.config.opAttempts ≤ l.attemptsOf k + 1 then
        (t.updateLabel a fun l => l.dequeue k).post (.opFailed a k .noAnswer)
      else t.updateLabel a fun l => l.chargeAttempt k
    | none => t
  else t

/-- The directory's part of a window's end: the open send of the slot, if it is still open. -/
def State.windowSend (s : State) (a slot : Nat) : State :=
  match s.label? a with
  | some l =>
    match l.openSend with
    | some w => if w.slot = slot then s.sendUnanswered a w else s
    | none => s
  | none => s

/-! ## Call ends (R49, R61 to R63, R67, R76, R101) -/

/-- The entry is still in the state its call kind needs (R49). -/
def CallKind.fits (k : CallKind) (p : Phase) : Bool :=
  match k with
  | .assign => p.isJoining
  | .service => p.isBound
  | .probe => p.isMissing
  | .release => p.isReleasing

/-- The last join attempt is used (R61). -/
def State.joinFailed (s : State) (a : Nat) (id : LongId) : State :=
  (((s.removeRecords a).removeOperations a .joinFailed).post (.joinFailed a id)).setEntry a .vacant

/-- A judged ASSIGN call uses a join attempt (R61). -/
def State.useJoinAttempt (s : State) (a : Nat) (l : Label) : State :=
  match l.phase with
  | .joining n rejoin =>
    if n ≤ 1 then s.joinFailed a l.longId else s.updateLabel a fun l => { l with phase := .joining (n - 1) rejoin }
  | .bound => s
  | .missing => s
  | .releasing _ _ => s

/-- A BOUND entry goes MISSING (R63). -/
def State.goMissing (s : State) (a : Nat) : State :=
  ((s.updateLabel a fun l => { l with phase := .missing }).returnSending a).post (.labelMissing a)

/-- A judged service call (R62). -/
def State.judgeMiss (s : State) (a : Nat) (l : Label) : State :=
  if l.heardMark then s.updateLabel a fun l => { l with missCount := 0, drifted := false }
  else
    let misses := min 15 (l.missCount + 1)
    let t := s.updateLabel a fun l => { l with missCount := misses, drifted := true }
    if s.config.missLimit ≤ misses then t.goMissing a else t

/-- A judged release call uses a release attempt (R67). -/
def State.useReleaseAttempt (s : State) (a : Nat) (l : Label) : State :=
  match l.phase with
  | .releasing n fromMissing =>
    if n ≤ 1 then (s.enterCooling a).post (.labelReleased a false)
    else s.updateLabel a fun l => { l with phase := .releasing (n - 1) fromMissing }
  | .joining _ _ => s
  | .bound => s
  | .missing => s

/-- The round's marks of an entry are cleared (R49, R101). -/
def Label.clearMarks (l : Label) : Label :=
  { l with sentMark := false, heardMark := false, queue := l.queue.map fun o => { o with sentThisRound := false } }

/-- The directory's judgement of a call (R49), then the marks cleared. -/
def State.judgeCall (s : State) (c : Call) : State :=
  match s.label? c.address with
  | none => s
  | some l =>
    let t :=
      if l.sentMark && c.kind.fits l.phase then
        match c.kind with
        | .assign => s.useJoinAttempt c.address l
        | .service => s.judgeMiss c.address l
        | .probe => s
        | .release => s.useReleaseAttempt c.address l
      else s
    t.updateLabel c.address Label.clearMarks

/-! ## Round boundaries (R55, R58, R69, R76) -/

/-- Admission list entries last heard 4 or more rounds ago are removed (R55). -/
def State.ageAdmission (s : State) : State :=
  s.setAdmission (s.directory.admission.filter fun x => ageOf s.stamp x.lastHeard < 4)

/-- The join-crowded flag takes the accumulator's value (R58). -/
def State.updateCrowded (s : State) : State :=
  { s with directory := { s.directory with crowded := s.directory.accumulator, accumulator := false } }

/-- One entry at an epoch boundary: cooling that is due ends (R69), and a planned profile whose effective epoch has
just ended is folded (R76). -/
def Entry.epochBoundary (ended begun : Epoch) (e : Entry) : Entry :=
  match e.endCooling begun with
  | .label l => .label (l.foldPlanned ended)
  | .vacant => .vacant
  | .cooling id c => .cooling id c

/-- The directory's entries at an epoch boundary. -/
def State.entriesAtEpoch (s : State) (ended begun : Epoch) : State :=
  { s with directory := { s.directory with entries := s.directory.entries.map (Entry.epochBoundary ended begun) } }

end Sys2Proof.Machine
end

