-- ==== Sys2Proof/Machine/Transfers.lean ====
section
/-! DEFINITION. The transfer engine (08): fragment choice, receipts, the judgement at the call end, and the byte source
of every burst with its outcome. -/

namespace Sys2Proof.Machine

/-! ## Contexts and fragments (R154, R156, R157) -/

/-- A context in its starting state (R154). -/
def newContext (handle address : Nat) : Context where
  handle := handle
  address := address
  confirmed := []
  sentThisRound := []
  stallCount := 0
  busyCount := 0
  answered := false
  plainAnswer := false
  grew := false
  onAir := none

/-- Claim a READY record for sending (R118, R143, R154). -/
def State.claim (s : State) (h : Nat) : State :=
  match s.record h, s.freeContext with
  | some r, some i =>
    (s.updateRecord h fun r => { r with state := .sending }).setContext i (some (newContext h r.address))
  | _, _ => s

/-- The fragment a slot carries (R156): the lowest neither confirmed nor sent in this call, or else the lowest not
confirmed. -/
def chooseFragment (count : Nat) (c : Context) : Option Nat :=
  match (List.range count).find? fun f => !c.confirmed.contains f && !c.sentThisRound.contains f with
  | some f => some f
  | none => (List.range count).find? fun f => !c.confirmed.contains f

/-- The data bytes of the FRAGMENT burst that carries fragment `f` of a record (R157, R197). -/
def fragmentCount (r : Record) (f : Nat) : Nat := 7 + fragmentLength r.length f

/-- A fragment slot (R147, R156, R157): the state after the burst has begun, or `none` for an idle slot. -/
def State.sendFragment (s : State) (a h : Nat) : Option State :=
  match s.record h with
  | none => none
  | some r =>
    if r.state = .sending ∧ r.address = a then
      match s.contextOf h with
      | none => none
      | some i =>
        match s.context i with
        | none => none
        | some c =>
          match chooseFragment r.fragments c with
          | none => none
          | some f =>
            match s.sendRequest Config.shortLead (fragmentCount r f) (.transfer i (hubTag s.config.hubId)) with
            | none => none
            | some t =>
              some ((t.setContext i
                (some { c with sentThisRound := setInsert f c.sentThisRound, onAir := some f })).updateLabel a
                  fun l => { l with sentMark := true })
    else none

/-! ## The byte source (R6, R132, R158) -/

/-- What a byte source answers. -/
inductive SourceAnswer where
  | byte (b : Byte)
  /-- The byte at this store address failed its parity as it was read for this record. -/
  | parityError (handle : Nat)
  /-- The record has no block for the byte asked for (log 26). -/
  | noAddress
  /-- The burst has lost its context or its record: the request is out of place (log 2). -/
  | noTransfer
deriving DecidableEq, Repr

/-- Byte `n` of the FRAGMENT burst of a context: the header from the record as it stands, the payload from the store with
its parity checked as it is read (R158). -/
def State.fragmentByte (s : State) (i : Nat) (tag : Byte) (n : Nat) (upset : Bool) : SourceAnswer :=
  match s.context i with
  | none => .noTransfer
  | some c =>
    match s.record c.handle, c.onAir with
    | some r, some f =>
      if n < 7 then .byte (byteAt (fragmentHeader tag r f) n)
      else
        match r.byteAddress (Config.fragmentBytes * f + (n - 7)) with
        | none => .noAddress
        | some at_ =>
          if s.storeParity at_ == parityOf (s.storeByte at_) && !upset then .byte (s.storeByte at_)
          else .parityError c.handle
    | _, _ => .noTransfer

/-- The answer of a burst's source to the request for its next byte. -/
def State.sourceAnswer (s : State) (b : Burst) (upset : Bool) : SourceAnswer :=
  match b.source with
  | .directory bytes => .byte (byteAt bytes b.sent)
  | .planner bytes => .byte (byteAt bytes b.sent)
  | .transfer i tag => s.fragmentByte i tag b.sent upset
  | .hubControl =>
    match s.lineTest with
    | some t => .byte (prbsByte t.generator).1
    | none => .byte 0

/-- The line test's generator moves past the byte it has given (R16). -/
def State.drawTestByte (s : State) : State :=
  match s.lineTest with
  | some t => { s with hub := .testing { t with generator := (prbsByte t.generator).2 } }
  | none => s

/-- The source has given a byte: hub control's generator has moved, the other sources are as they stand. -/
def State.sourceMoved (s : State) (b : Burst) : State :=
  match b.source with
  | .hubControl => s.drawTestByte
  | .directory _ => s
  | .planner _ => s
  | .transfer _ _ => s

/-! ## Burst ends (R8, R117, R159, R171, R172) -/

/-- The end of a FRAGMENT burst at its context (R159): the fragment leaves the air; a VOID record is freed with its
context (R171), and a damaged record that is still SENDING goes STALLED with a store error (R172). -/
def State.fragmentBurstEnd (s : State) (i : Nat) : State :=
  match s.context i with
  | none => s
  | some c =>
    let t := s.setContext i (some { c with onAir := none })
    match s.record c.handle with
    | none => t
    | some r =>
      match r.state with
      | .void => (t.freeRecord c.handle).setContext i none
      | .sending => if r.damaged then t.enterStalled c.handle .storeError else t
      | .filling _ => t
      | .ready => t
      | .stalled _ => t
      | .held => t

/-- The burst end of a test burst: one that completed has ended its end mark in this period (R17). -/
def State.testBurstEnd (s : State) (o : BurstOutcome) : State :=
  match s.lineTest with
  | some t => if o = .complete then { s with hub := .testing { t with burstEnded := true } } else s
  | none => s

/-- The outcome of a burst whose last mark has ended, by that mark; `none` while another part is on the line. -/
def Burst.outcome (b : Burst) : Option BurstOutcome :=
  match b.part with
  | .endMark => some .complete
  | .abortMark => some .aborted
  | .lead => none
  | .sync => none
  | .data => none
  | .crc => none

/-- The report of a burst's end to the block that asked for it (R8). -/
def State.reportBurstEnd (s : State) (b : Burst) (o : BurstOutcome) : State :=
  match b.source with
  | .directory _ => s
  | .planner _ => s
  | .transfer i _ => s.fragmentBurstEnd i
  | .hubControl => s.testBurstEnd o

/-! ## Receipts (R160 to R164) -/

/-- The confirmed set is complete (R164). -/
def confirmsAll (count : Nat) (confirmed : List Nat) : Bool := (List.range count).all fun f => confirmed.contains f

/-- Merge a matched receipt's bitmap into a context (R162). -/
def Context.merge (c : Context) (count : Nat) (bitmap : List Nat) : Context :=
  let places := bitmap.filter fun f => decide (f < count)
  { c with confirmed := setUnion places c.confirmed, grew := c.grew || places.any fun f => !c.confirmed.contains f }

/-- A receipt for the SENDING record of a slot (R160 to R164). -/
def State.takeReceipt (s : State) (i : Nat) (c : Context) (r : Record) (q : ReceiptReport) : State :=
  if q.busy then s.setContext i (some { c with answered := true })
  else
    let m : Context := { c with answered := true, plainAnswer := true }
    if q.page = r.page ∧ q.generation = r.generation then
      let n := m.merge r.fragments q.bitmap
      let t := s.setContext i (some n)
      if confirmsAll r.fragments n.confirmed then t.enterHeld c.handle else t
    else s.setContext i (some m)

/-- The engine's part of an attributed reply in the window of a fragment slot (R160). -/
def State.engineReply (s : State) (a h : Nat) (d : List Byte) : State :=
  match s.record h with
  | none => s
  | some r =>
    if r.state = .sending ∧ r.address = a then
      match s.contextOf h with
      | none => s
      | some i =>
        match s.context i with
        | none => s
        | some c =>
          if byteAt d 0 = kindReceipt then s.takeReceipt i c r (receiptOf d)
          else s.setContext i (some { c with answered := true, plainAnswer := true })
    else s

/-! ## The judgement at the call end (R166 to R169) -/

/-- A context's round marks are cleared (R169). -/
def Context.clearMarks (c : Context) : Context :=
  { c with sentThisRound := [], answered := false, plainAnswer := false, grew := false }

/-- Judge the transfer of a label's context at the label's call end, if one is in use with a SENDING record; its round
marks are cleared whether it is judged or not, unless the judgement freed it. -/
def State.judgeTransfer (s : State) (a : Nat) : State :=
  match s.sendingOf a with
  | none => s
  | some h =>
    match s.contextOf h with
    | none => s
    | some i =>
      match s.context i with
      | none => s
      | some c =>
        if c.sentThisRound = [] then s.setContext i (some c.clearMarks)
        else
          match judge s.config.stallLimit c with
          | .stall cause => s.enterStalled h cause
          | .counts stall busy => s.setContext i (some { c.clearMarks with stallCount := stall, busyCount := busy })

end Sys2Proof.Machine
end

