-- ==== Sys2Proof/Machine/Planner.lean ====
section
/-! DEFINITION. The round planner (07): candidates, needs, the slot arbiter, claims, the call list, the slot map and the
beacon. -/

namespace Sys2Proof.Machine

/-! ## Work and transfer records (R138) -/

/-- One READY record is preferred to another (R138): urgent, then older ready stamp, then lower page. -/
def Record.preferredTo (now : Stamp) (x y : Record) : Bool :=
  if x.urgent != y.urgent then x.urgent
  else
    let ax := ageOf now (x.readyStamp.getD now)
    let ay := ageOf now (y.readyStamp.getD now)
    if ax = ay then decide (x.page < y.page) else decide (ay < ax)

/-- The better of the READY record found so far and the record at a handle, for a label. -/
def State.betterReady (s : State) (a : Nat) (best : Option Nat) (h : Nat) : Option Nat :=
  match s.record h with
  | none => best
  | some r =>
    if r.address = a ∧ r.state = .ready then
      match best with
      | none => some h
      | some b =>
        match s.record b with
        | none => some h
        | some q => if r.preferredTo s.stamp q then some h else best
    else best

/-- The READY record the planner would claim for a label. -/
def State.bestReady (s : State) (a : Nat) : Option Nat := handles.foldl (s.betterReady a) none

/-- The transfer record of an entry (R138): its SENDING record, or else the READY record the planner would claim. -/
def State.transferRecord (s : State) (a : Nat) : Option Nat :=
  match s.sendingOf a with
  | some h => some h
  | none => s.bestReady a

/-- A BOUND entry has work (R138). -/
def State.hasWork (s : State) (a : Nat) (l : Label) : Bool := !l.queue.isEmpty || (s.transferRecord a).isSome

/-! ## Candidates (R137) -/

/-- The entry wakes in the round being planned, by its applicable profile (R74). -/
def State.entryWakes (s : State) (l : Label) : Bool := (l.applicable s.epoch).wakes s.roundIndex

/-- The call kind of an entry that is a candidate for the round being planned (R137). -/
def State.callKind (s : State) (a : Nat) : Option CallKind :=
  match s.label? a with
  | none => none
  | some l =>
    match l.phase with
    | .joining _ _ => some .assign
    | .releasing _ fromMissing =>
      if fromMissing || l.profileState.isUncertain then (if s.roundIndex = 0 then some .release else none)
      else if s.entryWakes l then some .release else none
    | .missing => if s.roundIndex = 0 then some .probe else none
    | .bound =>
      if s.hasWork a l then
        if l.profileState.isUncertain then (if s.roundIndex = 0 then some .service else none)
        else if s.entryWakes l then some .service else none
      else none

/-- The class of a candidate (R140). -/
def State.candidateClass (s : State) (a : Nat) (k : CallKind) : Nat :=
  match k with
  | .assign => 1
  | .release => 1
  | .probe => 3
  | .service =>
    match s.transferRecord a with
    | some h =>
      match s.record h with
      | some r => if r.urgent then 2 else 3
      | none => 3
    | none => 3

/-- The ages of the stamps an entry waits by (R141). -/
def State.waitingAges (s : State) (a : Nat) (l : Label) : List Nat :=
  let ops := l.queue.map fun o => ageOf s.stamp o.queued
  let page :=
    match s.transferRecord a with
    | some h =>
      match s.record h with
      | some r =>
        match r.readyStamp with
        | some t => [ageOf s.stamp t]
        | none => []
      | none => []
    | none => []
  match l.phase with
  | .joining _ _ => ops
  | .releasing _ _ => ops
  | .bound => ops ++ page
  | .missing => ops ++ page

/-- The age of an entry's waiting stamp (R141): that of the oldest, or 0 for one that waits by none. -/
def State.waitingAge (s : State) (a : Nat) : Nat :=
  match s.label? a with
  | some l => (s.waitingAges a l).foldl max 0
  | none => 0

/-- A candidate with what orders it. -/
structure Applicant where
  address : Nat
  kind : CallKind
  rank : Nat
  age : Nat
deriving DecidableEq, Repr

/-- One candidate comes before another (R140, R141): lower class, then older waiting stamp, then lower short address. -/
def Applicant.before (x y : Applicant) : Bool :=
  x.rank < y.rank || (x.rank == y.rank && (y.age < x.age || (x.age == y.age && x.address < y.address)))

/-- A candidate put in its place in the order. -/
def placeApplicant (x : Applicant) : List Applicant → List Applicant
  | [] => [x]
  | y :: rest => if x.before y then x :: y :: rest else y :: placeApplicant x rest

/-- The applicant of a short address, if its entry is a candidate. -/
def State.applicant (s : State) (a : Nat) : Option Applicant :=
  match s.callKind a with
  | some k => some ⟨a, k, s.candidateClass a k, s.waitingAge a⟩
  | none => none

/-- The candidates of the round being planned, in the arbiter's order. -/
def State.candidates (s : State) : List Applicant :=
  (addresses.filterMap s.applicant).foldl (fun q x => placeApplicant x q) []

/-! ## Allocation (R139, R142, R143) -/

/-- A candidate taken: its own slots, and its fragment slots with the handle they carry. -/
structure Share where
  address : Nat
  kind : CallKind
  own : Nat
  handle : Nat
  fragments : Nat
deriving DecidableEq, Repr

/-- What the planner keeps while it takes the candidates. -/
structure Allocation where
  state : State
  left : Nat
  assigns : Nat
  shares : List Share
deriving DecidableEq, Repr

/-- The operation slots of a candidate (R139). -/
def State.ownSlots (s : State) (x : Applicant) : Nat :=
  match x.kind with
  | .assign => 1
  | .release => 1
  | .probe => 1
  | .service =>
    match s.label? x.address with
    | some l => l.queue.length
    | none => 0

/-- The fragment slots of a candidate, judged at its turn (R139). -/
def State.fragmentSlots (s : State) (x : Applicant) : Nat :=
  match x.kind with
  | .service =>
    if (s.sendingOf x.address).isSome then s.config.burstAllowance
    else if (s.bestReady x.address).isSome && s.freeContext.isSome then s.config.burstAllowance
    else 0
  | .assign => 0
  | .release => 0
  | .probe => 0

/-- The claim made when a service candidate is taken with fragment slots (R143). -/
def State.claimFor (s : State) (a : Nat) : State :=
  match s.sendingOf a with
  | some _ => s
  | none =>
    match s.bestReady a with
    | some h => s.claim h
    | none => s

/-- A candidate is an ASSIGN candidate. -/
def Applicant.isAssign (x : Applicant) : Bool := x.kind == .assign

/-- Take one candidate in its turn (R142). -/
def Allocation.turn (c : Allocation) (x : Applicant) : Allocation :=
  let own := c.state.ownSlots x
  let frag := c.state.fragmentSlots x
  if c.shares.length = Config.callPlaces then c
  else if x.isAssign && c.assigns == Config.assignPlaces then c
  else if 1 ≤ own + frag ∧ own + frag ≤ c.left then
    { state := if 0 < frag then c.state.claimFor x.address else c.state
      left := c.left - (own + frag)
      assigns := if x.isAssign then c.assigns + 1 else c.assigns
      shares := c.shares ++ [⟨x.address, x.kind, own, (c.state.transferRecord x.address).getD 0, frag⟩] }
  else if x.kind = .service ∧ c.left < own + frag ∧ 1 ≤ own ∧ own ≤ c.left then
    { c with left := c.left - own, shares := c.shares ++ [⟨x.address, x.kind, own, 0, 0⟩] }
  else c

/-- The allocation of a round. -/
def State.allocate (s : State) : Allocation := s.candidates.foldl Allocation.turn ⟨s, Config.dataSlots, 0, []⟩

/-! ## Slots, call list and beacon (R144, R145, R34 to R36) -/

/-- The slot kind of a call's own slots. -/
def CallKind.ownSlot : CallKind → SlotKind
  | .assign => .assign
  | .service => .control
  | .probe => .probe
  | .release => .release

/-- The places of one run: the call's own slots first, then its fragment slots (R144). -/
def Share.places (x : Share) : List Place :=
  List.replicate x.own ⟨x.address, x.kind.ownSlot⟩ ++ List.replicate x.fragments ⟨x.address, .fragment x.handle⟩

/-- The length of one run. -/
def Share.slots (x : Share) : Nat := x.own + x.fragments

/-- The call list: runs one after another from a first slot (R144). -/
def callsFrom : Nat → List Share → List Call
  | _, [] => []
  | first, x :: rest => ⟨x.address, x.kind, first, x.slots⟩ :: callsFrom (first + x.slots) rest

/-- One call list entry of the beacon (R145). -/
def State.beaconEntry (s : State) (c : Call) : BeaconEntry :=
  match c.kind with
  | .assign =>
    match s.label? c.address with
    | some l => .assign l.longId c.address c.first
    | none => .call c.address c.first c.count
  | .service => .call c.address c.first c.count
  | .probe => .call c.address c.first c.count
  | .release => .call c.address c.first c.count

/-- A called label carries the drifted mark (R36). -/
def State.anyDrifted (s : State) (calls : List Call) : Bool :=
  calls.any fun c => match s.label? c.address with
    | some l => l.drifted
    | none => false

/-- The lead of the round's beacon (R36). -/
def State.beaconLead (s : State) (calls : List Call) : Nat :=
  if s.roundIndex = 0 ∨ s.anyDrifted calls then longLead s.config.normalLead else s.config.normalLead

/-- The round's beacon (R34, R35). -/
def State.beacon (s : State) (calls : List Call) : Beacon where
  hubId := s.config.hubId
  epoch := s.epoch
  roundIndex := s.roundIndex
  epochStart := s.roundIndex == 0
  joinOpen := s.joinOpen
  joinCrowded := s.directory.crowded
  entries := calls.map s.beaconEntry
  lead := s.beaconLead calls

/-- The plan made of the shares. -/
def State.planOf (s : State) (shares : List Share) : Plan :=
  let calls := callsFrom Config.firstDataSlot shares
  { calls := calls, slotMap := shares.flatMap Share.places, beacon := s.beacon calls }

/-- Build the plan of a served round (R136, R142 to R145): the claims are made and the plan is held. -/
def State.buildPlan (s : State) : State :=
  let c := s.allocate
  { c.state with plan := some (c.state.planOf c.shares) }

/-- The beacon is handed to the transmitter at the start of slot 0 (R37). -/
def State.sendBeacon (s : State) : State :=
  match s.plan with
  | none => s
  | some p =>
    match s.sendRequest p.beacon.lead p.beacon.bytes.length (.planner p.beacon.bytes) with
    | some t => t
    | none => s

/-- The place of a data slot in the slot map; absent when it is empty (R135). -/
def Plan.placeOf (p : Plan) (slot : Nat) : Option Place :=
  if slot < Config.firstDataSlot then none else p.slotMap[slot - Config.firstDataSlot]?

/-- The call that ends with a slot (R144). -/
def Plan.callEnding (p : Plan) (slot : Nat) : Option Call :=
  p.calls.find? fun c => c.first + c.count == slot + 1

end Sys2Proof.Machine
end

