-- ==== Sys2Proof/Machine/HubControl.lean ====
section
/-! DEFINITION. Hub control (02) and the line test (01): slot starts, window and call ends, round boundaries, hub
states, foreign beacons, test periods. -/

namespace Sys2Proof.Machine

/-! ## The directory's own slots (R46, R59, R64, R67, R93) -/

/-- An ASSIGN or CONTROL burst has been taken: the sequence it carries becomes the entry's, and the sent mark is set
(R46, R47). -/
def Label.markSent (sequence : BitVec 4) (l : Label) : Label := { l with sequence := sequence, sentMark := true }

/-- An operation's burst has been taken (R88). -/
def Label.markOpSent (k : OpKind) (l : Label) : Label :=
  { l with queue := l.queue.map fun o => if o.kind = k then { o with sentThisRound := true } else o }

/-- Ask for a directory burst to a label; `none` when it is not sent. -/
def State.sendDirectory (s : State) (a : Nat) (bytes : List Byte) (f : Label → Label) : Option State :=
  match s.sendRequest Config.shortLead bytes.length (.directory bytes) with
  | some t => some (t.updateLabel a f)
  | none => none

/-- An ASSIGN slot (R59). -/
def State.sendAssign (s : State) (a : Nat) : Option State :=
  match s.label? a with
  | none => none
  | some l =>
    if l.phase.isJoining then
      let seq := l.sequence + 1
      s.sendDirectory a (assignBytes s.config.hubId a l.longId seq (l.applicable s.epoch)) (Label.markSent seq)
    else none

/-- The first operation in queue order not yet sent in this round (R93). -/
def Label.nextOperation (l : Label) : Option Operation := l.queue.find? fun o => !o.sentThisRound

/-- A control slot (R93): the operation goes out and an open send is created (R92). -/
def State.sendControl (s : State) (a slot : Nat) : Option State :=
  match s.label? a with
  | none => none
  | some l =>
    if l.phase.isBound then
      match l.nextOperation with
      | none => none
      | some o =>
        let seq := l.sequence + 1
        let effective := s.epoch + 1
        s.sendDirectory a (controlBytes s.config.hubId a seq o.fields effective) fun l =>
          { (l.markSent seq).markOpSent o.kind with openSend := some ⟨slot, seq, o.fields, effective, true, false⟩ }
    else none

/-- A probe slot (R64). -/
def State.sendProbe (s : State) (a : Nat) : Option State :=
  match s.label? a with
  | none => none
  | some l =>
    if l.phase.isMissing then
      let seq := l.sequence + 1
      s.sendDirectory a (controlBytes s.config.hubId a seq .ping (s.epoch + 1)) (Label.markSent seq)
    else none

/-- A release slot (R67). -/
def State.sendRelease (s : State) (a : Nat) : Option State :=
  match s.label? a with
  | none => none
  | some l =>
    if l.phase.isReleasing then
      let seq := l.sequence + 1
      s.sendDirectory a (controlBytes s.config.hubId a seq .release (s.epoch + 1)) fun l =>
        (l.markSent seq).markOpSent .release
    else none

/-- The work a place of the slot map names (R46, R147): the state after its burst has begun, or `none` for an idle
slot. -/
def State.sendPlace (s : State) (slot : Nat) (p : Place) : Option State :=
  match p.kind with
  | .assign => s.sendAssign p.address
  | .control => s.sendControl p.address slot
  | .probe => s.sendProbe p.address
  | .release => s.sendRelease p.address
  | .fragment h => s.sendFragment p.address h

/-! ## Window and call ends (R13, R49, R97) -/

/-- An assembly that belongs to a window and is still open when the window's slot ends is closed as TRUNCATED (R13). -/
def State.closeWindowAssembly (s : State) : State :=
  match s.receiver.assembly with
  | none => s
  | some a => if a.window.isSome then s.endAssemblyBroken .truncated else s

/-- The end of the reply window of the data slot in progress, if it is still to come. -/
def State.takeWindowEnd (s : State) : State :=
  match s.dataSlot with
  | none => s
  | some d =>
    if d.endDue then
      State.windowSend { s with dataSlot := some { d with windowOpen := false, endDue := false } } d.place.address d.slot
    else s

/-- The call end of the data slot in progress, if it is still to come: the directory judges, then the transfer engine
(log 17), then a planned profile in force in the slot's round is folded (R76). -/
def State.takeCallEnd (s : State) : State :=
  match s.dataSlot with
  | none => s
  | some d =>
    match d.callEnd with
    | none => s
    | some c =>
      let t : State := { s with dataSlot := some { d with windowOpen := false, callEnd := none } }
      ((t.judgeCall c).judgeTransfer c.address).updateLabel c.address fun l => l.foldPlanned (epochOf d.round)

/-- An open assembly holds the reply window of the data slot in progress open (R13). -/
def State.windowHeldOpen (s : State) : Bool :=
  match s.dataSlot, s.receiver.assembly with
  | some d, some a => a.window == some (.reply d.slot)
  | _, _ => false

/-- REPLY_WINDOW_END (R13): with an assembly of the window still open the window has not ended. -/
def State.replyWindowEnd (s : State) : State := if s.windowHeldOpen then s else s.takeWindowEnd

/-- CALL_END (R49), at the end of the reply window of the last slot of a call. -/
def State.callEnd (s : State) : State := if s.windowHeldOpen then s else s.takeCallEnd

/-! ## Slot starts (R22, R23) -/

/-- The slot in progress has reached its end (R19): the instants of SLOT_START and of ROUND_BOUNDARY. -/
def State.atSlotEnd (s : State) : Bool := s.timebase.running && decide (Config.slotMicros ≤ s.timebase.slotTime)

/-- The position moves to the start of the next slot. -/
def State.nextSlot (s : State) : State :=
  { s with timebase := { s.timebase with slot := s.timebase.slot + 1, slotTime := 0 } }

/-- The data slot that begins: `sent` says that its burst went out, so that it has a reply window (R13). -/
def State.newDataSlot (s : State) (p : Plan) (place : Place) (sent : Bool) : DataSlot where
  slot := s.timebase.slot
  round := s.stamp
  place := place
  windowOpen := sent
  endDue := sent
  callEnd := p.callEnding s.timebase.slot

/-- A data slot of a served round opens: the block its place names sends, or the slot is idle (R23, R147, R148). -/
def State.openSlot (s : State) : State :=
  match s.plan with
  | none => { s with dataSlot := none }
  | some p =>
    match p.placeOf s.timebase.slot with
    | none => { s with dataSlot := none }
    | some place =>
      match s.sendPlace s.timebase.slot place with
      | some t => { t with dataSlot := some (s.newDataSlot p place true) }
      | none => { s with dataSlot := some (s.newDataSlot p place false) }

/-- A slot start (R23), at the end of the slot before: what is left of that slot ends (R13), and the next slot begins
(log 15). -/
def State.slotStart (s : State) : State :=
  if s.atSlotEnd ∧ s.timebase.slot < Config.lastSlot then
    s.firstTick.closeWindowAssembly.takeWindowEnd.takeCallEnd.nextSlot.openSlot
  else s

/-! ## Round boundaries (R21, R26, R28) -/

/-- The boundary that begins the next round ends LISTENING (R26). -/
def State.endsListening (s : State) : Bool :=
  match s.hub with
  | .listening endStamp _ => s.stamp + 1 == endStamp
  | .offline => false
  | .running => false
  | .stopping => false
  | .testing _ => false

/-- The round stamp grows by one and slot 0 of the new round begins, the first served one where LISTENING ends. -/
def State.beginRound (s : State) : State :=
  { s with
    timebase := { s.timebase with stamp := s.timebase.stamp + 1, slot := 0, slotTime := 0 }
    firstServed := s.endsListening }

/-- Hub control settles its own state for the round that begins: the end of LISTENING (R26) and of STOPPING (R28). A
STOP carried out in RUNNING has put the hub in STOPPING, and the round that begins is not served (R28, R24, R151).
R149's row for that STOP says otherwise; the hub state is hub control's, and 00_scope.md gives the word on it to the
chapter of the owning block, which is R28's. A STOP frame that waits behind the command in hand leaves the hub in
RUNNING, and the round is then served as R149's row has it (log 29). -/
def State.settleHub (s : State) : State :=
  match s.hub with
  | .offline => s
  | .listening endStamp _ =>
    if s.stamp = endStamp then State.post { s with hub := .running } (.linkState .running .start) else s
  | .running => s
  | .stopping => (State.endTransfers { s with hub := .offline }).post (.linkState .offline .stop)
  | .testing _ => s

/-- The foreign-hub-seen flag is cleared at an epoch boundary (R33). -/
def State.clearForeignSeen (s : State) : State := if s.roundIndex = 0 then { s with foreignSeen := false } else s

/-- The directory takes the boundary (R55, R58, R69, R76): `ended` is the epoch of the round that has ended. -/
def State.directoryBoundary (s : State) (ended : Epoch) : State :=
  let t := s.ageAdmission.updateCrowded
  if t.roundIndex = 0 then t.entriesAtEpoch ended t.epoch else t

/-- The planner takes the boundary (R135): the old plan is dropped, and a served round gets a plan and its beacon. -/
def State.plannerBoundary (s : State) : State :=
  let t : State := { s with plan := none }
  match s.hub with
  | .running => t.buildPlan.sendBeacon
  | .offline => t
  | .listening _ _ => t
  | .stopping => t
  | .testing _ => t

/-- The blocks take a boundary in turn (R21; log 16): slot 63 ends, its window at the latest with it. -/
def State.takeBoundary (s : State) : State :=
  ((s.closeWindowAssembly.takeWindowEnd.beginRound.settleHub.clearForeignSeen).directoryBoundary
    s.epoch).plannerBoundary

/-- The receiver stands as it did before the boundary until the beacon's first tick, at which blanking begins and an
assembly that is still open is closed (R15; log 27). -/
def State.hearOn (s : State) (r : Receiver) : State := { s with receiver := r, blankingDue := s.burst.isSome }

/-- A round boundary (R21), at the end of slot 63. At the boundary that ends LISTENING the beacon's first tick follows the
boundary, so that the elements of a burst that ends with the boundary are still heard, in RUNNING (log 27). -/
def State.roundBoundary (s : State) : State :=
  if s.atSlotEnd ∧ s.timebase.slot = Config.lastSlot then
    if s.endsListening then s.takeBoundary.hearOn s.closeWindowAssembly.receiver else s.takeBoundary
  else s

/-! ## Beacons from other hubs (R31 to R33) -/

/-- A foreign beacon in LISTENING (R32): the attempt to start ends, and a timebase it started is undone (R20). -/
def State.channelBusy (s : State) (startedHere : Bool) (id : Word16) : State :=
  State.post
    { s with
      hub := .offline
      timebase := if startedHere then Timebase.stopped else s.timebase }
    (.linkState .offline (.channelBusy id))

/-- A foreign beacon in service (R33): reported once per epoch. -/
def State.foreignInService (s : State) (id : Word16) : State :=
  if s.foreignSeen then s else State.post { s with foreignSeen := true } (.foreignHub id)

/-- A foreign beacon, by the hub state (R31). -/
def State.takeForeign (s : State) (id : Word16) : State :=
  match s.hub with
  | .offline => s
  | .listening _ startedHere => s.channelBusy startedHere id
  | .running => s.foreignInService id
  | .stopping => s.foreignInService id
  | .testing _ => s

/-- A hub id is that of a foreign beacon (R31): within 1 to 65534 and not the part's own. -/
def State.isForeign (s : State) (id : Word16) : Bool :=
  1 ≤ id.toNat && id.toNat ≤ 65534 && id != s.config.hubId

/-- A whole beacon burst delivered to hub control (R31). -/
def State.takeBeacon (s : State) (d : List Byte) : State :=
  match beaconHubId d with
  | some id => if s.isForeign id then s.takeForeign id else s
  | none => s

/-! ## The line test (R16 to R18) -/

/-- The counts at the start of a test. -/
def TestCounts.zero : TestCounts := ⟨0, 0, 0, 0, 0, 0⟩

/-- A line test as LINE_TEST starts it. -/
def newTest (mode : TestMode) (periods : Nat) : LineTest where
  mode := mode
  periodsLeft := periods
  generator := prbsSeed
  copy := prbsSeed
  burstEnded := false
  heard := .unheard
  counts := TestCounts.zero

/-- An assembly open as a test period begins is not that period's burst: its sync fell before the period (R17). -/
def Receiver.intoPeriod (r : Receiver) : Receiver :=
  { r with assembly := r.assembly.map fun a => { a with ofPeriod := false } }

/-- A test period begins with nothing heard (R17), in LOOP mode with a test burst (R16). -/
def State.beginPeriod (s : State) (t : LineTest) : State :=
  let u : State := { s with
    hub := .testing { t with burstEnded := false, heard := .unheard }
    receiver := s.receiver.intoPeriod }
  match t.mode with
  | .quiet => u
  | .loop =>
    match u.sendRequest Config.shortLead Config.testBytes .hubControl with
    | some v => v
    | none => u

/-- The count of bursts sent, with this period's if it ended its end mark. -/
def LineTest.sentCount (t : LineTest) : Nat := if t.burstEnded then t.counts.sent + 1 else t.counts.sent

/-- The judgement of a period at its end (R17); a QUIET period leaves the burst counts at zero (R18). -/
def LineTest.judgePeriod (t : LineTest) : LineTest :=
  match t.mode with
  | .quiet => t
  | .loop =>
    let expected := prbsBytes Config.testBytes t.copy
    let c : TestCounts := { t.counts with sent := t.sentCount }
    { t with
      copy := expected.2
      counts :=
        match t.heard with
        | .whole bytes => { c with whole := c.whole + 1, bitErrors := c.bitErrors + bitErrors bytes expected.1 }
        | .unheard => { c with lost := c.lost + 1 }
        | .assembling => { c with lost := c.lost + 1 }
        | .broken => { c with lost := c.lost + 1 } }

/-- A test ends (R18): TEST_RESULT, and then OFFLINE with its LINK_STATE. -/
def State.endTest (s : State) (c : TestCounts) (aborted : Bool) (cause : LinkCause) : State :=
  (State.post { s with hub := .offline } (.testResult c aborted)).post (.linkState .offline cause)

/-- TEST_PERIOD_END (R17): an assembly still open is closed, the period is judged, and the next begins or the test
ends. -/
def State.testPeriodEnd (s : State) : State :=
  let u := s.endAssemblyBroken .truncated
  match u.lineTest with
  | none => s
  | some t =>
    let j := t.judgePeriod
    if j.periodsLeft ≤ 1 then u.endTest j.counts false .testEnd
    else u.beginPeriod { j with periodsLeft := j.periodsLeft - 1 }

/-! ## Blanking ends (R15) -/

/-- The receiver leaves blanking at the present PDIN level: no transition, no transition time, hunting. -/
def Receiver.unblank (level : Bool) : Receiver := ⟨level, level, none, none, false, none, false⟩

/-- A burst is dropped in the middle (R8): IRDRV is low from that instant, and blanking ends at once (R15). -/
def State.dropBurst (s : State) : State :=
  match s.burst with
  | none => s
  | some _ =>
    { s with
      burst := none
      receiver := if s.receiver.blanked then Receiver.unblank s.receiver.pdin else s.receiver }

/-- STOP taken in TESTING (R18): the burst is dropped, the period in progress is not judged, and the counts reached so
far are reported with the aborted flag. -/
def State.stopTest (s : State) (t : LineTest) : State :=
  s.dropBurst.endTest { t.counts with sent := t.sentCount } true .stop

end Sys2Proof.Machine
end

