-- ==== Sys2Proof/Machine/Receive.lean ====
section
/-! DEFINITION. The optical receiver (01, R9 to R15): the glitch filter, classification, assemblies, windows and the
delivery of whole and broken bursts. -/

namespace Sys2Proof.Machine

/-! ## Windows (R13) -/

/-- The reply window opens this many microseconds into its slot (R13). -/
def windowOpens : Nat := 12000
/-- And closes this many into it, if no assembly holds it open (R13; log 23). -/
def windowCloses : Nat := 15500

/-- The window of the present slot, whatever the time within it: a join slot of a served round, or the reply window of
the data slot in progress. -/
def State.presentWindow (s : State) : Option Window :=
  if s.inService && s.served then
    if 1 ≤ s.timebase.slot ∧ s.timebase.slot ≤ 3 then some (.join s.timebase.slot)
    else
      match s.dataSlot with
      | some d => if d.windowOpen then some (.reply d.slot) else none
      | none => none
  else none

/-- A time within the slot lies within the extent of a window (R13). -/
def Window.holdsTime (w : Window) (time : Nat) : Bool :=
  match w with
  | .join _ => true
  | .reply _ => windowOpens ≤ time && time < windowCloses

/-- The window a sync belongs to that ended at a time within the present slot (R13). -/
def State.windowAt (s : State) (time : Nat) : Option Window :=
  match s.presentWindow with
  | some w => if w.holdsTime time then some w else none
  | none => none

/-- The window a sync belongs to that ended so many microseconds before now (R13). A sync of an earlier slot belongs to
no window that is still open. -/
def State.windowBefore (s : State) (since : Nat) : Option Window :=
  if since ≤ s.timebase.slotTime then s.windowAt (s.timebase.slotTime - since) else none

/-- The microseconds since the date of the last accepted transition (R9). -/
def State.sinceTransition (s : State) : Nat :=
  match s.receiver.lastTransition with
  | some d => s.clock - d
  | none => 0

/-- The window a sync belongs to whose end has just been accepted: that of the transition's date (R9, R13). -/
def State.syncWindow (s : State) : Option Window := s.windowBefore s.sinceTransition

/-! ## Delivery (R14, R48, R50, R160) -/

/-- An attributed burst sets the entry's heard mark and its last heard (R48). -/
def Label.hear (now : Stamp) (l : Label) : Label := { l with heardMark := true, lastHeard := some now }

/-- The parts of a burst attributed to the label of a slot (R48): the directory's mark, the transfer engine's part in a
fragment slot, and for a STATUS the parts of the directory and the page store. -/
def State.takeAttributed (s : State) (p : Place) (slot : Nat) (d : List Byte) : State :=
  let t := s.updateLabel p.address (Label.hear s.stamp)
  let u :=
    match p.kind with
    | .fragment h => t.engineReply p.address h d
    | .assign => t
    | .control => t
    | .probe => t
    | .release => t
  if byteAt d 0 = kindStatus then u.takeStatus p.address slot (statusOf d) else u

/-- A burst in the reply window of a slot is attributed to the label the slot serves (R48): it is a STATUS or a RECEIPT,
it carries the label's short address, and the entry holds a label's fields. -/
def State.attributed (s : State) (p : Place) (d : List Byte) : Bool :=
  (byteAt d 0 == kindStatus || byteAt d 0 == kindReceipt) && (byteAt d 2).toNat == p.address
    && (s.label? p.address).isSome

/-- A whole burst that has passed its arrival checks, at the owner of its window. -/
def State.deliverInWindow (s : State) (w : Window) (d : List Byte) : State :=
  match w with
  | .join _ => if byteAt d 0 = kindJoinReq then s.takeJoinRequest (joinRequestOf d) else s
  | .reply n =>
    match s.dataSlot with
    | some x => if x.slot = n ∧ s.attributed x.place d then s.takeAttributed x.place n d else s
    | none => s

/-- A whole burst is delivered (R14): a beacon to hub control, another kind to the owner of its window if it passes its
arrival checks (R198), anything else nowhere. -/
def State.deliverWhole (s : State) (w : Option Window) (d : List Byte) : State :=
  if byteAt d 0 = kindBeacon then s.takeBeacon d
  else
    match w with
    | some x => if arrives s.config.hubId d then s.deliverInWindow x d else s
    | none => s

/-! ## Classification (R10) -/

/-- The classes of an element. -/
inductive ElementClass where
  | dataMark
  | endMark
  | sync
  | abort
  | bit (value : Bool)
  | silence
  | violation
deriving DecidableEq, Repr

/-- The length at which a mark is classed Abort (R10). -/
def abortAt : Nat := 56
/-- The length at which a space is classed Silence (R10). -/
def silenceAt : Nat := 97

/-- The class of an element by its level (true for a mark) and its length in microseconds. -/
def classifyElement (mark : Bool) (n : Nat) : ElementClass :=
  if mark then
    if 6 ≤ n ∧ n ≤ 10 then .dataMark
    else if 12 ≤ n ∧ n ≤ 20 then .endMark
    else if 24 ≤ n ∧ n ≤ 40 then .sync
    else if abortAt ≤ n then .abort
    else .violation
  else if 6 ≤ n ∧ n ≤ 10 then .bit false
  else if 12 ≤ n ∧ n ≤ 20 then .bit true
  else if silenceAt ≤ n then .silence
  else .violation

/-! ## Assemblies (R11, R12, R17) -/

/-- A Sync opens an assembly and fixes its window; in a line test the first of a period is the period's burst (R17). A
blanked receiver opens none (R15). -/
def State.openAssembly (s : State) : State :=
  if s.receiver.blanked then s
  else
  match s.lineTest with
  | some t =>
    if t.heard = .unheard then
      State.setAssembly { s with hub := .testing { t with heard := .assembling } }
        (some ⟨none, .afterSync, [], [], true⟩)
    else s.setAssembly (some ⟨none, .afterSync, [], [], false⟩)
  | none => s.setAssembly (some ⟨s.syncWindow, .afterSync, [], [], false⟩)

/-- How an assembly that ends with an end mark is judged (R12). -/
inductive Verdict where
  | whole (data : List Byte)
  | broken (cause : BrokenCause)
deriving DecidableEq, Repr

/-- The judgement of R12. -/
def Assembly.verdict (a : Assembly) : Verdict :=
  if a.bits ≠ [] then .broken .truncated
  else if a.bytes.length < 3 then .broken .truncated
  else
    let n := a.bytes.length - 2
    if crcBytes (crcOf (a.bytes.take n)) = a.bytes.drop n then .whole (a.bytes.take n) else .broken .crc

/-- What a line test's assembly that ends with an end mark was heard as (R17). -/
def Assembly.testVerdict (a : Assembly) : PeriodBurst :=
  if a.bits = [] ∧ a.bytes.length = Config.testBytes then .whole a.bytes else .broken

/-- An end mark ends the assembly. -/
def State.takeEndMark (s : State) (a : Assembly) : State :=
  let closed := s.setAssembly none
  match s.lineTest with
  | some t => if a.ofPeriod then { closed with hub := .testing { t with heard := a.testVerdict } } else closed
  | none =>
    match a.verdict with
    | .whole d => closed.deliverWhole a.window d
    | .broken c => closed.deliverBroken a.window c

/-- A bit is taken; after eight the byte is completed, and a 65th byte ends the assembly (R11). -/
def State.takeBit (s : State) (a : Assembly) (bit : Bool) : State :=
  let bits := a.bits ++ [bit]
  if bits.length < 8 then s.setAssembly (some { a with bits := bits })
  else if a.bytes.length < Config.assemblyBytes then
    s.setAssembly (some { a with bits := [], bytes := a.bytes ++ [byteOfBits bits] })
  else s.endAssemblyBroken .violation

/-- The element after the sync decides the start (R11). -/
def State.takeAfterSync (s : State) (a : Assembly) (c : ElementClass) : State :=
  match c with
  | .bit false => s.setAssembly (some { a with phase := .collecting })
  | .silence => s.endAssemblyBroken .truncated
  | .bit true => s.endAssemblyBroken .violation
  | .dataMark => s.endAssemblyBroken .violation
  | .endMark => s.endAssemblyBroken .violation
  | .sync => s.endAssemblyBroken .violation
  | .abort => s.endAssemblyBroken .violation
  | .violation => s.endAssemblyBroken .violation

/-- An element while bits are collected (R11). -/
def State.takeCollecting (s : State) (a : Assembly) (c : ElementClass) : State :=
  match c with
  | .dataMark => s
  | .endMark => s.takeEndMark a
  | .sync => (s.endAssemblyBroken .violation).openAssembly
  | .abort => s.endAssemblyBroken .aborted
  | .bit b => s.takeBit a b
  | .silence => s.endAssemblyBroken .truncated
  | .violation => s.endAssemblyBroken .violation

/-- A classified element (R11): hunting, only a Sync is acted on. -/
def State.takeElement (s : State) (c : ElementClass) : State :=
  match s.receiver.assembly with
  | none => if c = .sync then s.openAssembly else s
  | some a =>
    match a.phase with
    | .afterSync => s.takeAfterSync a c
    | .collecting => s.takeCollecting a c

/-! ## The glitch filter (R9) -/

/-- In a line test every accepted transition is an edge (R17). -/
def State.countEdge (s : State) : State :=
  match s.lineTest with
  | some t => { s with hub := .testing { t with counts := { t.counts with edges := t.counts.edges + 1 } } }
  | none => s

/-- In a line test every element classed Violation is counted (R17). -/
def State.countViolation (s : State) (c : ElementClass) : State :=
  match s.lineTest with
  | some t =>
    if c = .violation then
      { s with hub := .testing { t with counts := { t.counts with violations := t.counts.violations + 1 } } }
    else s
  | none => s

/-- An element ends at a transition: it is classified and taken. -/
def State.closeElement (s : State) (mark : Bool) (n : Nat) : State :=
  let c := classifyElement mark n
  (s.countViolation c).takeElement c

/-- The receiver after it accepts a transition to a level, dated `date`. -/
def Receiver.accept (r : Receiver) (date : Nat) (level : Bool) : Receiver :=
  { r with
    pdin := level
    accepted := level
    candidate := none
    lastTransition := some date
    decided := false }

/-- The receiver accepts a transition (R9): the element that began at the transition before it is closed, unless it has
been classified at its instant (R10). -/
def State.acceptTransition (s : State) (date : Nat) (level : Bool) : State :=
  let t := State.countEdge { s with receiver := s.receiver.accept date level }
  match s.receiver.lastTransition with
  | none => t
  | some d => if s.receiver.decided then t else t.closeElement s.receiver.accepted (date - d)

/-- A level accepted less than 2 µs ago can not change yet (R9). -/
def State.filterBusy (s : State) : Bool :=
  match s.receiver.lastTransition with
  | some d => s.clock < d + 2
  | none => false

/-- The filter accepts a transition to the other level now (R9), unless the receiver is blanked (R15) or the filter can
not have accepted one (log 25). -/
def State.transition (s : State) : State :=
  if s.receiver.blanked || s.filterBusy then s else s.acceptTransition s.clock (!s.receiver.accepted)

/-- PDIN takes the level that lay ahead of this microsecond, if there is one, and otherwise stays (log 1). -/
def State.movePin (s : State) (ahead : List Bool) : State :=
  match ahead with
  | [] => s
  | level :: _ => { s with receiver := { s.receiver with pdin := level } }

/-- A candidate's first sample (R9). -/
def State.beginCandidate (s : State) : State :=
  { s with receiver := { s.receiver with candidate := some ⟨s.receiver.pdin, 1, s.clock⟩ } }

/-- One sample of PDIN (R9): at the accepted level it clears any candidate; at the other level it is a candidate's first
sample, or the one after it, at which the transition is accepted with the date of the first. -/
def State.samplePdin (s : State) : State :=
  if s.receiver.pdin = s.receiver.accepted then { s with receiver := { s.receiver with candidate := none } }
  else
    match s.receiver.candidate with
    | none => s.beginCandidate
    | some c => if c.date + 1 = s.clock then s.acceptTransition c.date s.receiver.pdin else s.beginCandidate

/-- The two classes that are decided at their instant (R10): of a mark Abort, of a space Silence. -/
def instantClass (mark : Bool) : ElementClass := if mark then .abort else .silence

/-- The instant at which the element in progress is decided if it lasts (R10): a mark at 56 µs, a space at 97 µs. With no
transition time held it is not measured (R9), and once decided the rest of it is ignored. -/
def Receiver.decidesAt (r : Receiver) : Option Nat :=
  if r.decided then none
  else
    match r.lastTransition with
    | some d => some (d + if r.accepted then abortAt else silenceAt)
    | none => none

/-- The element in progress is classified if it has reached the instant at which it is decided (R10). -/
def State.decideElement (s : State) : State :=
  match s.receiver.decidesAt with
  | none => s
  | some instant =>
    if instant ≤ s.clock then
      State.takeElement { s with receiver := { s.receiver with decided := true } } (instantClass s.receiver.accepted)
    else s

/-- One microsecond on the optical line with no event (log 1): PDIN is sampled, unless the receiver is blanked (R15), and
the element in progress is decided if it has reached its length. -/
def State.lineTick (s : State) : State :=
  let t := (s.pass 1).movePin s.pdinAhead
  if t.receiver.blanked then t else t.samplePdin.decideElement

/-! ## Bursts as whole events -/

/-- The receiver can deliver a burst: it is not blanked (R15), and no line test is running (R14). -/
def State.hears (s : State) : Bool := !s.receiver.blanked && s.lineTest.isNone

/-- A burst ends: no assembly is open. -/
def State.endBurst (s : State) : State := s.setAssembly none

/-- The window of a burst that ends now: that of the open assembly, or else the one in which its sync mark ended, so
many microseconds before now (R13; log 4). -/
def State.burstWindow (s : State) (sinceSync : Nat) : Option Window :=
  match s.receiver.assembly with
  | some a => a.window
  | none => s.windowBefore sinceSync

/-- A whole burst that belongs to a window ends, with its data bytes. -/
def State.wholeBurst (s : State) (w : Option Window) (d : List Byte) : State :=
  if s.hears then s.endBurst.deliverWhole w d else s

/-- A burst that ends now began before the boundary that ended LISTENING: its sync fell before slot 0 of the first served
round, and that slot is in progress (R32; log 27). -/
def State.beganInListening (s : State) (sinceSync : Nat) : Bool :=
  s.firstServed && s.timebase.slot == 0 && decide (s.timebase.slotTime < sinceSync)

/-- A beacon ends. One that began before the boundary that ended LISTENING is taken at its end, after that boundary, as
R32 says, though the part's own light has closed its assembly by then (R15; log 27). -/
def State.beaconBurst (s : State) (b : HeardBurst) : State :=
  if s.hears || (s.lineTest.isNone && s.beganInListening b.sinceSync) then
    s.endBurst.deliverWhole none (kindBeacon :: b.body)
  else s

/-- A broken burst ends with its cause; in a line test it is the open assembly that ends broken (R17). -/
def State.brokenBurst (s : State) (sinceSync : Nat) (cause : BrokenCause) : State :=
  if s.hears then s.endBurst.deliverBroken (s.burstWindow sinceSync) cause else s.endAssemblyBroken cause

/-- A whole burst ends that fails its arrival checks or falls in no window (R198, R14). -/
def State.discardedBurst (s : State) : State := if s.hears then s.endBurst else s

end Sys2Proof.Machine
end

