-- ==== Sys2Proof/Machine/HubCommands.lean ====
section
/-! DEFINITION. What the host's hub commands do when they are carried out (R16, R25, R27, R39, R188 to R190). The
payload check of R182 has been passed when a body here is run. -/

namespace Sys2Proof.Machine

/-- What a carried-out command gives: the state after its effect, its reply's status and its result bytes. -/
structure Answer where
  state : State
  status : Status
  result : List Byte
deriving DecidableEq, Repr

/-- A refused command changes nothing, and its reply carries the status alone (R182). -/
def State.refuse (s : State) (why : Status) : Answer := ⟨s, why, []⟩

/-- An accepted command. -/
def State.accept (s : State) (result : List Byte) : Answer := ⟨s, .ok, result⟩

/-- GET_INFO (R188): it changes nothing. -/
def State.doGetInfo (s : State) : Answer := s.accept infoBytes

/-- GET_STATUS (R189): the reply carries the overflow flag and the dropped-frame count as they stood; then they are
cleared. -/
def State.doGetStatus (s : State) : Answer :=
  State.accept { s with link := { s.link with overflow := false, dropped := 0 } } (statusBytes s)

/-- CONFIGURE (R39): the group, range and cross checks in order, and then every field carried is written. -/
def State.doConfigure (s : State) (p : List Byte) : Answer :=
  let fields := configValues p
  if s.timebase.running ∧ fields.any (fun f => configFieldFixed f.1) then s.refuse .wrongState
  else if !fields.all configFieldInRange then s.refuse .badField
  else if !(s.config.writeAll fields).crossChecks then s.refuse .badField
  else State.accept { s with config := s.config.writeAll fields } (configBytes (s.config.writeAll fields))

/-- START taken in OFFLINE (R25, R20). -/
def State.startListening (s : State) : State :=
  if s.timebase.running then
    State.post { s with hub := .listening (s.stamp + 2) false } (.linkState .listening .start)
  else
    State.post { s with hub := .listening 1 true, timebase := ⟨true, 0, 0, 0⟩ } (.linkState .listening .start)

/-- START (R25). -/
def State.doStart (s : State) : Answer :=
  if s.hub = .offline then s.startListening.accept [] else s.refuse .wrongState

/-- The effect of STOP, by the hub state (R27). -/
def State.stopHub (s : State) : State :=
  match s.hub with
  | .offline => s
  | .listening _ _ => State.post { s with hub := .offline } (.linkState .offline .stop)
  | .running => State.post { s with hub := .stopping } (.linkState .stopping .stop)
  | .stopping => s
  | .testing t => s.stopTest t

/-- STOP (R27). -/
def State.doStop (s : State) : Answer := s.stopHub.accept []

/-- The test mode of a mode code (R195). -/
def testModeOf (n : Nat) : Option TestMode :=
  match n with
  | 0 => some .loop
  | 1 => some .quiet
  | _ => none

/-- LINE_TEST accepted (R16): TESTING is entered and the first period begins. -/
def State.startTest (s : State) (mode : TestMode) (periods : Nat) : State :=
  (State.post { s with hub := .testing (newTest mode periods) } (.linkState .testing .start)).beginPeriod
    (newTest mode periods)

/-- LINE_TEST (R16). -/
def State.doLineTest (s : State) (p : List Byte) : Answer :=
  if s.hub = .offline then
    match testModeOf (byteAt p 0).toNat with
    | none => s.refuse .badField
    | some mode =>
      if (byteAt p 1).toNat = 0 then s.refuse .badField
      else (s.startTest mode (byteAt p 1).toNat).accept []
  else s.refuse .wrongState

/-- RESET (R190): answered OK; the reset comes when its reply has been sent. -/
def State.doReset (s : State) : Answer := s.accept []

end Sys2Proof.Machine
end

