-- ==== Sys2Proof/Machine/LabelCommands.lean ====
section
/-! DEFINITION. What the host's label commands do when they are carried out (R57, R65, R66, R68, R70, R71, R90). -/

namespace Sys2Proof.Machine

/-- The decision ADMIT carries (R57, R195). -/
def admitDecision (p : List Byte) : Nat := (byteAt p 6).toNat

/-- The long id at an offset of a payload. -/
def longIdAt (p : List Byte) (i : Nat) : LongId := BitVec.ofNat 48 (fieldAt p i 6)

/-- ADMIT (R57): the decision, the list, then the room. -/
def State.doAdmit (s : State) (p : List Byte) : Answer :=
  let id := longIdAt p 0
  if 1 < admitDecision p then s.refuse .badField
  else
    match s.asking id with
    | none => s.refuse .noLabel
    | some x =>
      if admitDecision p = 1 then (s.updateAsking id fun x => { x with refused := true }).accept []
      else
        match s.lowestVacant with
        | none => s.refuse .tableFull
        | some a =>
          ((s.dropAsking id).createEntry a id x.capabilities x.batteryMv x.lastHeard).accept [byteOf a]

/-- LABEL_QUERY (R70): by short address or by long id; it changes nothing. -/
def State.doLabelQuery (s : State) (p : List Byte) : Answer :=
  if byteAt p 0 = 0 then
    if addressInRange (byteAt p 1).toNat then s.accept (s.entryBytes (byteAt p 1).toNat) else s.refuse .badField
  else
    match s.holderOf (longIdAt p 1) with
    | some a => s.accept (s.entryBytes a)
    | none => s.refuse .noLabel

/-- LABEL_LIST (R71). -/
def State.doLabelList (s : State) (p : List Byte) : Answer :=
  if addressInRange (byteAt p 0).toNat then s.accept (s.listBytes (byteAt p 0).toNat) else s.refuse .badField

/-- The entry takes LABEL_OP: JOINING, BOUND or MISSING (R90); the same states take page records (R109). -/
def Phase.takesWork : Phase → Bool
  | .joining _ _ => true
  | .bound => true
  | .missing => true
  | .releasing _ _ => false

/-- An accepted LABEL_OP is queued (R91), and its reply gives the position, the replaced mark and the superseded mark. -/
def State.queueOperation (s : State) (a : Nat) (l : Label) (f : OpFields) : Answer :=
  State.accept (s.updateLabel a fun l => l.enqueue f s.stamp)
    [byteOf ((l.enqueue f s.stamp).positionOf f.kind), flagByte (l.queued f.kind),
     flagByte (l.queued f.kind && l.attachedSend f.kind)]

/-- LABEL_OP (R90). -/
def State.doLabelOp (s : State) (p : List Byte) : Answer :=
  let a := (byteAt p 0).toNat
  if !addressInRange a then s.refuse .badField
  else if 3 < (byteAt p 1).toNat then s.refuse .badField
  else
    match s.label? a with
    | none => s.refuse .wrongState
    | some l =>
      if l.phase.takesWork then
        match opFieldsOf l.capabilities.pageCount p with
        | some f => s.queueOperation a l f
        | none => s.refuse .badField
      else s.refuse .wrongState

/-- RELEASE (R65, R66). -/
def State.doRelease (s : State) (p : List Byte) : Answer :=
  let a := (byteAt p 0).toNat
  if !addressInRange a then s.refuse .badField
  else
    match s.label? a with
    | none => s.refuse .wrongState
    | some l =>
      match l.phase with
      | .joining _ _ => (s.releaseJoining a).accept []
      | .bound => (s.releaseBound a false).accept []
      | .missing => (s.releaseBound a true).accept []
      | .releasing _ _ => s.refuse .wrongState

/-- FORGET (R68). -/
def State.doForget (s : State) (p : List Byte) : Answer :=
  let a := (byteAt p 0).toNat
  if !addressInRange a then s.refuse .badField
  else
    match s.label? a with
    | none => s.refuse .wrongState
    | some _ => (s.forget a).accept []

end Sys2Proof.Machine
end

