-- ==== Sys2Proof/Machine/PageCommands.lean ====
section
/-! DEFINITION. What the host's page commands do when they are carried out (R109 to R115, R122 to R125). -/

namespace Sys2Proof.Machine

/-- The record a handle names for a command: a handle above 127 gives BAD_FIELD, a free slot or a VOID record
NO_RECORD. -/
def State.named (s : State) (h : Nat) : Except Status Record :=
  if Config.recordSlots ≤ h then .error .badField
  else
    match s.record h with
    | none => .error .noRecord
    | some r => if r.state = .void then .error .noRecord else .ok r

/-- The fields of a PAGE_BEGIN (R195). -/
structure BeginRequest where
  address : Nat
  page : Nat
  generation : Byte
  length : Nat
  urgent : Nat
deriving DecidableEq, Repr

/-- Read a PAGE_BEGIN payload. -/
def beginOf (p : List Byte) : BeginRequest where
  address := (byteAt p 0).toNat
  page := (byteAt p 1).toNat
  generation := byteAt p 2
  length := fieldAt p 3 2
  urgent := (byteAt p 5).toNat

/-- The ranges of R109's second check. -/
def BeginRequest.inRange (q : BeginRequest) : Bool :=
  addressInRange q.address && q.page ≤ 3 && 1 ≤ q.length && q.length ≤ 1024 && q.urgent ≤ 1

/-- The key's live record carries the same generation (R109). -/
def State.duplicates (s : State) (q : BeginRequest) : Bool :=
  match s.liveOf q.address q.page with
  | some h =>
    match s.record h with
    | some r => r.generation == q.generation
    | none => false
  | none => false

/-- The new FILLING record of a PAGE_BEGIN (R111). -/
def newRecord (q : BeginRequest) (blocks : List Nat) : Record where
  address := q.address
  page := q.page
  generation := q.generation
  length := q.length
  blocks := blocks
  state := .filling []
  urgent := q.urgent == 1
  pinned := false
  damaged := false
  readyStamp := none

/-- The key's FILLING record is freed and candidates are evicted as the need requires (R111, R110). -/
def State.makeRoom (s : State) (q : BeginRequest) : State :=
  let t :=
    match s.fillingOf q.address q.page with
    | some h => s.freeRecord h
    | none => s
  State.evictUntil (blocksFor q.length) t.store.heldOrder t

/-- A PAGE_BEGIN that has passed every check but the last (R110, R111): the new record takes the lowest free slot and
the lowest free blocks, or, if there is no room with every candidate evicted, nothing changes. -/
def State.beginPage (s : State) (q : BeginRequest) : Answer :=
  let t := s.makeRoom q
  match t.freeSlots with
  | [] => s.refuse .storeFull
  | h :: _ =>
    if blocksFor q.length ≤ t.freeBlocks.length then
      State.accept (t.setRecord h (some (newRecord q (t.freeBlocks.take (blocksFor q.length))))) [byteOf h]
    else s.refuse .storeFull

/-- PAGE_BEGIN (R109). -/
def State.doPageBegin (s : State) (p : List Byte) : Answer :=
  let q := beginOf p
  if !q.inRange then s.refuse .badField
  else
    match s.label? q.address with
    | none => s.refuse .wrongState
    | some l =>
      if !l.phase.takesWork then s.refuse .wrongState
      else if !(decide (q.page < l.capabilities.pageCount) && decide (q.length ≤ l.capabilities.maxLength)) then
        s.refuse .badField
      else if s.duplicates q then s.refuse .duplicate
      else s.beginPage q

/-- The offsets of a write. -/
def writtenOffsets (o n : Nat) : List Nat := List.range' o n

/-- PAGE_DATA accepted (R112): the bytes are written with parity and their offsets join the written map. -/
def State.writeData (s : State) (h : Nat) (r : Record) (w : List Nat) (o : Nat) (data : List Byte) : State :=
  (State.writePage r o data s).setRecord h
    (some { r with state := .filling (setUnion (writtenOffsets o data.length) w) })

/-- PAGE_DATA (R112). -/
def State.doPageData (s : State) (p : List Byte) : Answer :=
  let h := (byteAt p 0).toNat
  let o := fieldAt p 1 2
  let data := p.drop 4
  match s.named h with
  | .error why => s.refuse why
  | .ok r =>
    match r.state with
    | .filling w => if r.length < o + data.length then s.refuse .badField else (s.writeData h r w o data).accept []
    | .ready => s.refuse .wrongState
    | .sending => s.refuse .wrongState
    | .stalled _ => s.refuse .wrongState
    | .held => s.refuse .wrongState
    | .void => s.refuse .wrongState

/-- Every offset of a page of this length has been written (R113). -/
def allWritten (length : Nat) (w : List Nat) : Bool := (List.range length).all fun o => w.contains o

/-- The key's live record is superseded (R114). -/
def State.supersede (s : State) (a p : Nat) : State :=
  match s.liveOf a p with
  | some h => s.discardRecord h
  | none => s

/-- PAGE_END accepted (R113): supersede, become READY, leave the wanted-reported set. -/
def State.endPage (s : State) (h : Nat) (r : Record) : State :=
  (((s.supersede r.address r.page).setRecord h
      (some { r with state := .ready, readyStamp := some s.stamp })).updateLabel r.address
    fun l => { l with wanted := l.wanted.filter fun x => x != r.page })

/-- PAGE_END (R113). -/
def State.doPageEnd (s : State) (p : List Byte) : Answer :=
  let h := (byteAt p 0).toNat
  match s.named h with
  | .error why => s.refuse why
  | .ok r =>
    match r.state with
    | .filling w => if allWritten r.length w then (s.endPage h r).accept [byteOf h] else s.refuse .incomplete
    | .ready => s.refuse .wrongState
    | .sending => s.refuse .wrongState
    | .stalled _ => s.refuse .wrongState
    | .held => s.refuse .wrongState
    | .void => s.refuse .wrongState

/-- PAGE_DISCARD (R115). -/
def State.doPageDiscard (s : State) (p : List Byte) : Answer :=
  let h := (byteAt p 0).toNat
  match s.named h with
  | .error why => s.refuse why
  | .ok _ => (s.discardRecord h).accept []

/-- PAGE_PIN accepted (R122): a HELD record leaves the HELD order. -/
def State.pin (s : State) (h : Nat) (r : Record) : State :=
  (s.setRecord h (some { r with pinned := true })).setHeldOrder (s.store.heldOrder.filter fun x => x != h)

/-- PAGE_PIN (R122). -/
def State.doPagePin (s : State) (p : List Byte) : Answer :=
  let h := (byteAt p 0).toNat
  match s.named h with
  | .error why => s.refuse why
  | .ok r =>
    if r.pinned then s.accept []
    else if Config.maxPinned ≤ s.pinnedCount then s.refuse .pinLimit
    else (s.pin h r).accept []

/-- PAGE_UNPIN of a pinned record (R123): a HELD record joins the HELD order's tail. -/
def State.unpin (s : State) (h : Nat) (r : Record) : State :=
  let t := s.setRecord h (some { r with pinned := false })
  if r.state = .held then t.setHeldOrder (s.store.heldOrder ++ [h]) else t

/-- PAGE_UNPIN (R123). -/
def State.doPageUnpin (s : State) (p : List Byte) : Answer :=
  let h := (byteAt p 0).toNat
  match s.named h with
  | .error why => s.refuse why
  | .ok r => if r.pinned then (s.unpin h r).accept [] else s.accept []

/-- PAGE_REQUEUE (R124): a damaged record, then a record that is not STALLED, is refused. -/
def State.doPageRequeue (s : State) (p : List Byte) : Answer :=
  let h := (byteAt p 0).toNat
  match s.named h with
  | .error why => s.refuse why
  | .ok r =>
    if r.damaged then s.refuse .damaged
    else
      match r.state with
      | .stalled _ =>
        State.accept (s.setRecord h (some { r with state := .ready, readyStamp := some s.stamp })) []
      | .filling _ => s.refuse .wrongState
      | .ready => s.refuse .wrongState
      | .sending => s.refuse .wrongState
      | .held => s.refuse .wrongState
      | .void => s.refuse .wrongState

/-- The records of a PAGE_QUERY reply, with their count ahead of them (R195). -/
def State.recordsBytes (s : State) (hs : List Nat) : List Byte :=
  byteOf hs.length :: hs.flatMap fun h => match s.record h with
    | some r => s.recordBytes h r
    | none => []

/-- PAGE_QUERY (R125): by handle whatever the record's state, or by key the live record and then the FILLING one; it
changes nothing. -/
def State.doPageQuery (s : State) (p : List Byte) : Answer :=
  if byteAt p 0 = 0 then
    let h := (byteAt p 1).toNat
    if Config.recordSlots ≤ h then s.refuse .badField
    else
      match s.record h with
      | some _ => s.accept (s.recordsBytes [h])
      | none => s.refuse .noRecord
  else
    let a := (byteAt p 1).toNat
    let g := (byteAt p 2).toNat
    if addressInRange a && decide (g ≤ 3) then
      match (s.liveOf a g).toList ++ (s.fillingOf a g).toList with
      | [] => s.refuse .noRecord
      | hs => s.accept (s.recordsBytes hs)
    else s.refuse .badField

end Sys2Proof.Machine
end

