-- ==== Sys2Proof/Machine/HostLink.lean ====
section
/-! DEFINITION. The host link controller (09): commands carried out, frames taken, refused and discarded, the frame
receiver, the end of a frame sent, and the resets. -/

namespace Sys2Proof.Machine

/-! ## Carrying out a command (R181, R182) -/

/-- The block that owns a command carries it out; its payload is well formed. -/
def State.runCommand (s : State) (k : CommandKind) (p : List Byte) : Answer :=
  match k with
  | .getInfo => s.doGetInfo
  | .getStatus => s.doGetStatus
  | .configure => s.doConfigure p
  | .start => s.doStart
  | .stop => s.doStop
  | .lineTest => s.doLineTest p
  | .reset => s.doReset
  | .admitJoin => s.doAdmit p
  | .labelQuery => s.doLabelQuery p
  | .labelList => s.doLabelList p
  | .labelOp => s.doLabelOp p
  | .release => s.doRelease p
  | .forget => s.doForget p
  | .pageBegin => s.doPageBegin p
  | .pageData => s.doPageData p
  | .pageEnd => s.doPageEnd p
  | .pageDiscard => s.doPageDiscard p
  | .pagePin => s.doPagePin p
  | .pageUnpin => s.doPageUnpin p
  | .pageRequeue => s.doPageRequeue p
  | .pageQuery => s.doPageQuery p

/-- What comes of a command: the check of R182 first, and then its own rule. -/
def State.perform (s : State) (f : HostFrame) : Answer :=
  match commandKindOf f.kind with
  | none => s.refuse .malformed
  | some k => if payloadOk k f.payload then s.runCommand k f.payload else s.refuse .malformed

/-- A reply joins the replies waiting. -/
def State.addReply (s : State) (r : Reply) : State :=
  { s with link := { s.link with replies := s.link.replies ++ [r] } }

/-- The command in hand is carried out, and its reply is made at the same event (R181). -/
def State.carryOut (s : State) (f : HostFrame) : State :=
  let a := s.perform f
  a.state.addReply ⟨f.kind, f.tag, a.status, a.result, true⟩

/-! ## Frames taken and discarded (R179, R180) -/

/-- Write the frame receiver. -/
def State.setReceiver (s : State) (r : FrameReceiver) : State := { s with link := { s.link with receiver := r } }

/-- A frame is discarded (R179): the receiver returns to hunting, and the dropped-frame count grows by one up to
65535. -/
def State.discardFrame (s : State) : State :=
  { s with link := { s.link with
      receiver := FrameReceiver.hunting
      dropped := min 65535 (s.link.dropped + 1) } }

/-- The command queue holds 4 commands. -/
def State.queueIsFull (s : State) : Bool := Config.commandQueue ≤ s.link.commands.length

/-- The QUEUE_FULL replies waiting. -/
def State.queueFullWaiting (s : State) : Nat := (s.link.replies.filter fun r => !r.ofHead).length

/-- Write the command queue. -/
def State.setCommands (s : State) (q : List HostFrame) : State := { s with link := { s.link with commands := q } }

/-- What R180 does with a frame whose CRC matches; the receiver has returned to hunting. -/
def State.admitFrame (s : State) (f : HostFrame) : State :=
  if s.queueIsFull then
    if s.queueFullWaiting < Config.queueFullReplies then s.addReply ⟨f.kind, f.tag, .queueFull, [], false⟩
    else s.discardFrame
  else
    let t := s.setCommands (s.link.commands ++ [f])
    if s.link.commands = [] then t.carryOut f else t

/-- The last character of a whole frame is taken (log 3): a payload above 200 bytes has been discarded for its length
(R179, log 24); any other frame is taken (R180). -/
def State.takeFrame (s : State) (f : HostFrame) : State :=
  if Config.maxPayload < f.payload.length then s.discardFrame
  else (s.setReceiver FrameReceiver.hunting).admitFrame f

/-! ## The frame receiver (R177, R178) -/

/-- The payload length of the frame being received. -/
def FrameReceiver.length (r : FrameReceiver) : Nat := fieldAt r.bytes 0 2

/-- A byte is kept and fed to the CRC; the phase after it is given. -/
def FrameReceiver.feed (r : FrameReceiver) (b : Byte) (next : FramePhase) : FrameReceiver :=
  ⟨next, r.bytes ++ [b], crcByte r.crc b⟩

/-- The frame whose bytes have been received. -/
def FrameReceiver.frame (r : FrameReceiver) : HostFrame :=
  ⟨byteAt r.bytes 2, byteAt r.bytes 3, (r.bytes.drop 4).take r.length⟩

/-- The received CRC, with its high byte given, matches the running CRC. -/
def FrameReceiver.crcMatches (r : FrameReceiver) (high : Byte) : Bool :=
  [byteAt r.bytes (4 + r.length), high] == crcBytes r.crc

/-- A character is taken by the phase of the frame receiver (R178). -/
def State.takeCharacter (s : State) (b : Byte) : State :=
  let r := s.link.receiver
  match r.phase with
  | .hunting => if b = 0xC3 then s.setReceiver ⟨.lengthLow, [], crcStart⟩ else s
  | .lengthLow => s.setReceiver (r.feed b .lengthHigh)
  | .lengthHigh =>
    if Config.maxPayload < (r.feed b .kind).length then s.discardFrame else s.setReceiver (r.feed b .kind)
  | .kind => s.setReceiver (r.feed b .tag)
  | .tag => s.setReceiver (r.feed b (if r.length = 0 then .crcLow else .payload))
  | .payload => s.setReceiver (r.feed b (if r.bytes.length + 1 < 4 + r.length then .payload else .crcLow))
  | .crcLow => s.setReceiver ⟨.crcHigh, r.bytes ++ [b], r.crc⟩
  | .crcHigh => if r.crcMatches b then s.takeFrame r.frame else s.discardFrame

/-- No character is being received any more, and a line that is still low begins the next one (R177; log 30). -/
def State.endCharacter (s : State) : State := { s with serial := { s.serial with before := true, character := none } }

/-- A character ends on RXD (R177): a start bit that is high at its middle is noise; the data bits come least significant
bit first; the stop bit is not looked at. -/
def State.characterReceived (s : State) (startBit : Bool) (data : List Bool) (_stopBit : Bool) : State :=
  if startBit then s.endCharacter else s.endCharacter.takeCharacter (byteOfBits data)

/-! ## The watch on RXD (R177) -/

/-- The middle of bit `k` of a character, the start bit being bit 0, in whole microseconds from its start: a bit time is
625/144 µs, at 230 400 baud (log 30). -/
def bitMiddle (k : Nat) : Nat := (2 * k + 1) * 625 / 288

/-- The date of the next sample of the character. -/
def SerialCharacter.nextSample (c : SerialCharacter) : Nat := c.start + bitMiddle c.samples.length

/-- Write the character being received. -/
def State.setCharacter (s : State) (c : Option SerialCharacter) : State :=
  { s with serial := { s.serial with character := c } }

/-- The level of RXD is sampled in the middle of a bit: a start bit that is high again is noise, and the tenth sample, the
stop bit's, ends the character. -/
def State.sampleRxd (s : State) (c : SerialCharacter) : State :=
  let samples := c.samples ++ [s.serial.rxd]
  if samples = [true] then s.characterReceived true [] true
  else if samples.length < 10 then s.setCharacter (some { c with samples := samples })
  else s.characterReceived false ((samples.drop 1).take 8) s.serial.rxd

/-- RXD takes the level that lay ahead of this microsecond, if there is one, and otherwise stays (log 30). -/
def State.moveRxd (s : State) (ahead : List Bool) : State :=
  match ahead with
  | [] => s
  | level :: _ => { s with serial := { s.serial with rxd := level } }

/-- RXD with no character being received: a change from high to low starts one. -/
def State.seekStart (s : State) : State :=
  { s with serial := { s.serial with
      before := s.serial.rxd
      character := if s.serial.before && !s.serial.rxd then some ⟨s.clock, []⟩ else none } }

/-- One microsecond of RXD (R177): the character being received is sampled at the instant of its next sample. The clock
moves one microsecond at a time while a character is being received, so no instant is passed over. -/
def State.watchRxd (s : State) : State :=
  match s.serial.character with
  | none => s.seekStart
  | some c =>
    if s.clock < c.nextSample then s else s.sampleRxd c

/-- FRAME_GAP (R179): a frame in progress is discarded; while hunting there is none, and the gap ends where a character
starts. -/
def State.frameGap (s : State) : State :=
  if s.link.receiver.phase = .hunting ∨ s.serial.character.isSome then s else s.discardFrame

/-- FRAME_DISCARD (R179) by its cause; for want of room only where there is none. -/
def State.frameDiscard (s : State) (cause : DiscardCause) : State :=
  match cause with
  | .length => s.discardFrame
  | .crc => s.discardFrame
  | .noRoom =>
    if s.queueIsFull && decide (Config.queueFullReplies ≤ s.queueFullWaiting) then s.discardFrame else s

/-- MALFORMED_COMMAND (R182): a whole frame whose kind is no command kind; with a command kind the row is out of place
(log 2). -/
def State.malformedCommand (s : State) (f : HostFrame) : State :=
  if (commandKindOf f.kind).isNone then s.takeFrame f else s

/-- QUEUE_FULL (R180): a whole frame that finds 4 commands queued; with fewer the row is out of place (log 2). -/
def State.queueFull (s : State) (f : HostFrame) : State := if s.queueIsFull then s.takeFrame f else s

/-! ## Resets (R190 to R192) -/

/-- A reset with its cause: every block at its reset values, and HUB_READY the one notice. The commands that wait in the
model's own queue and the levels that PDIN and RXD will have are outside the part. -/
def State.resetBy (s : State) (cause : ResetCause) : State :=
  { State.blank with
    link := { HostLink.cleared with notices := [⟨0, .hubReady cause⟩] }
    pdinAhead := s.pdinAhead
    rxdAhead := s.rxdAhead
    pending := s.pending }

/-- RSTN is low (R191): every block stands at its reset values and HUB_READY is not posted yet. -/
def State.heldInReset (s : State) : State := { State.blank with
  held := true
  pdinAhead := s.pdinAhead
  rxdAhead := s.rxdAhead
  pending := s.pending }

/-! ## The end of a frame sent (R181, R184, R190) -/

/-- The reply answers a RESET that was accepted. -/
def Reply.endsInReset (r : Reply) : Bool := r.ofHead && r.kind == CommandKind.code .reset && r.status == .ok

/-- RESET's reply is on the line. -/
def State.resetOnLine (s : State) : Bool :=
  match s.link.sending with
  | some (.reply r) => r.endsInReset
  | some (.notice _) => false
  | none => false

/-- The transmitter has ended its frame. -/
def State.endFrame (s : State) : State := { s with link := { s.link with sending := none } }

/-- The head leaves the command queue, and the command behind it, if there is one, is carried out (R181). -/
def State.nextCommand (s : State) : State :=
  match s.link.commands with
  | [] => s
  | _ :: rest =>
    match rest with
    | [] => s.setCommands []
    | f :: more => (s.setCommands (f :: more)).carryOut f

/-- FRAME_SENT (R184): the frame on TXD ends. With the reply of the command in hand that command leaves the queue; with
RESET's reply the part resets (R190). -/
def State.frameSent (s : State) : State :=
  match s.link.sending with
  | none => s
  | some (.notice _) => s.endFrame
  | some (.reply r) =>
    if r.endsInReset then s.resetBy .command
    else if r.ofHead then s.endFrame.nextCommand
    else s.endFrame

/-- COMMAND_RESET (R190): the last character of RESET's reply is sent. -/
def State.commandReset (s : State) : State := if s.resetOnLine then s.resetBy .command else s

end Sys2Proof.Machine
end

