-- ==== Sys2Proof/Machine/Clock.lean ====
section
/-! DEFINITION. The microseconds in which no command is taken: the optical line, and then RXD. They pass one for each step
that finds no command waiting, and so many together before the transition, the slot start or the round boundary that a
row brings. -/

namespace Sys2Proof.Machine

/-- One microsecond with no event (R9, R177; log 1, log 30). -/
def State.tick (s : State) : State := (s.lineTick.moveRxd s.rxdAhead).watchRxd

/-- One microsecond in which no command waits, as a step takes it: the transmitter's choice comes at its end (log 10). -/
def State.idle (s : State) : State := s.tick.choose

/-- PDIN can do no more than stay: the receiver is blanked (R15), or the level sampled is the accepted one (R9). -/
def Receiver.settled (r : Receiver) : Bool := r.blanked || (r.pdin == r.accepted && r.candidate.isNone)

/-- Nothing lies ahead on PDIN or RXD, PDIN has settled, RXD is idle, and no first tick is due: until the next event the
one thing that can still come is the instant of an element (R10). -/
def State.quiet (s : State) : Bool :=
  s.pdinAhead.isEmpty && s.rxdAhead.isEmpty && !s.blankingDue && s.receiver.settled
    && decide (s.serial = SerialReceiver.idle)

/-- `n` quiet microseconds at once: a mark that reaches 56 µs in them is Abort and a space that reaches 97 µs is Silence
(R10), at that instant, since nothing else comes between; a blanked receiver decides nothing (R15). -/
def State.quietFor (s : State) (n : Nat) : State :=
  let t := s.advance n
  if t.receiver.blanked then t.choose else t.decideElement.choose

/-- `n` microseconds in which no command is taken: each is one idle microsecond (idleFor_eq_iterate in Laws/Clock.lean),
and the quiet ones at the end are passed together. -/
def State.idleFor (s : State) (n : Nat) : State :=
  match n with
  | 0 => s
  | m + 1 => if s.quiet then s.quietFor (m + 1) else s.idle.idleFor m

/-- PDIN stands: at the accepted level, so that no candidate is held (R9), or while it is ignored as it was (R15). -/
def Receiver.standing (r : Receiver) : Receiver :=
  if r.blanked then r else { r with pdin := r.accepted, candidate := none }

/-- Write the levels of PDIN that lie ahead. -/
def State.setPdinAhead (s : State) (q : List Bool) : State := { s with pdinAhead := q }

/-- `n` microseconds in which no command is taken and PDIN stands, whatever level of it lay ahead of them (log 1); RXD is
watched in each as in any other (R177). -/
def State.standFor (s : State) (n : Nat) : State :=
  (State.idleFor { s with receiver := s.receiver.standing, pdinAhead := [] } n).setPdinAhead (s.pdinAhead.drop n)

/-- TRANSITION (R9): PDIN stands for the microseconds that pass before it, and then the filter accepts the transition. -/
def State.takeTransition (s : State) (elapsed : Nat) : State := (s.standFor elapsed).transition

/-- The microseconds that are left of the slot in progress pass (R19). -/
def State.toSlotEnd (s : State) : State := s.idleFor (Config.slotMicros - s.timebase.slotTime)

/-- SLOT_START (R23): the slot in progress runs to its end, PDIN sampled and RXD watched in each of its microseconds
(log 1), and the next slot starts. After slot 63, or with the timebase stopped, it is out of place (log 2). -/
def State.takeSlotStart (s : State) : State :=
  if s.timebase.running ∧ s.timebase.slot < Config.lastSlot then s.toSlotEnd.slotStart else s

/-- ROUND_BOUNDARY (R21): slot 63 runs to its end in the same way, and the next round begins. At another slot, or with
the timebase stopped, it is out of place (log 2). -/
def State.takeRoundBoundary (s : State) : State :=
  if s.timebase.running ∧ s.timebase.slot = Config.lastSlot then s.toSlotEnd.roundBoundary else s

end Sys2Proof.Machine
end

