-- ==== Sys2Proof/Machine/HostRows.lean ====
section
/-! DEFINITION. The meanings of the rows that reach the part at its host link and its reset pin: each host command is
the last character of its frame (log 3), which is taken, queued or refused (R180) and carried out at the head (R181). -/

namespace Sys2Proof.Machine

/-- GET_INFO (R188). -/
def execGetInfo (tag : Byte) (payload : List Byte) (s : State) : StepResult :=
  live s (s.takeFrame ⟨CommandKind.code .getInfo, tag, payload⟩)

/-- GET_STATUS (R189). -/
def execGetStatus (tag : Byte) (payload : List Byte) (s : State) : StepResult :=
  live s (s.takeFrame ⟨CommandKind.code .getStatus, tag, payload⟩)

/-- CONFIGURE (R39). -/
def execConfigure (tag : Byte) (payload : List Byte) (s : State) : StepResult :=
  live s (s.takeFrame ⟨CommandKind.code .configure, tag, payload⟩)

/-- START (R25). -/
def execStart (tag : Byte) (payload : List Byte) (s : State) : StepResult :=
  live s (s.takeFrame ⟨CommandKind.code .start, tag, payload⟩)

/-- STOP (R27). -/
def execStop (tag : Byte) (payload : List Byte) (s : State) : StepResult :=
  live s (s.takeFrame ⟨CommandKind.code .stop, tag, payload⟩)

/-- LINE_TEST (R16). -/
def execLineTest (tag : Byte) (payload : List Byte) (s : State) : StepResult :=
  live s (s.takeFrame ⟨CommandKind.code .lineTest, tag, payload⟩)

/-- RESET (R190). -/
def execReset (tag : Byte) (payload : List Byte) (s : State) : StepResult :=
  live s (s.takeFrame ⟨CommandKind.code .reset, tag, payload⟩)

/-- ADMIT (R57). -/
def execAdmit (tag : Byte) (payload : List Byte) (s : State) : StepResult :=
  live s (s.takeFrame ⟨CommandKind.code .admitJoin, tag, payload⟩)

/-- LABEL_QUERY (R70). -/
def execLabelQuery (tag : Byte) (payload : List Byte) (s : State) : StepResult :=
  live s (s.takeFrame ⟨CommandKind.code .labelQuery, tag, payload⟩)

/-- LABEL_LIST (R71). -/
def execLabelList (tag : Byte) (payload : List Byte) (s : State) : StepResult :=
  live s (s.takeFrame ⟨CommandKind.code .labelList, tag, payload⟩)

/-- LABEL_OP (R90). -/
def execLabelOp (tag : Byte) (payload : List Byte) (s : State) : StepResult :=
  live s (s.takeFrame ⟨CommandKind.code .labelOp, tag, payload⟩)

/-- RELEASE (R65, R66). -/
def execRelease (tag : Byte) (payload : List Byte) (s : State) : StepResult :=
  live s (s.takeFrame ⟨CommandKind.code .release, tag, payload⟩)

/-- FORGET (R68). -/
def execForget (tag : Byte) (payload : List Byte) (s : State) : StepResult :=
  live s (s.takeFrame ⟨CommandKind.code .forget, tag, payload⟩)

/-- PAGE_BEGIN (R109 to R111). -/
def execPageBegin (tag : Byte) (payload : List Byte) (s : State) : StepResult :=
  live s (s.takeFrame ⟨CommandKind.code .pageBegin, tag, payload⟩)

/-- PAGE_DATA (R112). -/
def execPageData (tag : Byte) (payload : List Byte) (s : State) : StepResult :=
  live s (s.takeFrame ⟨CommandKind.code .pageData, tag, payload⟩)

/-- PAGE_END (R113). -/
def execPageEnd (tag : Byte) (payload : List Byte) (s : State) : StepResult :=
  live s (s.takeFrame ⟨CommandKind.code .pageEnd, tag, payload⟩)

/-- PAGE_DISCARD (R115). -/
def execPageDiscard (tag : Byte) (payload : List Byte) (s : State) : StepResult :=
  live s (s.takeFrame ⟨CommandKind.code .pageDiscard, tag, payload⟩)

/-- PAGE_PIN (R122). -/
def execPagePin (tag : Byte) (payload : List Byte) (s : State) : StepResult :=
  live s (s.takeFrame ⟨CommandKind.code .pagePin, tag, payload⟩)

/-- PAGE_UNPIN (R123). -/
def execPageUnpin (tag : Byte) (payload : List Byte) (s : State) : StepResult :=
  live s (s.takeFrame ⟨CommandKind.code .pageUnpin, tag, payload⟩)

/-- PAGE_REQUEUE (R124). -/
def execPageRequeue (tag : Byte) (payload : List Byte) (s : State) : StepResult :=
  live s (s.takeFrame ⟨CommandKind.code .pageRequeue, tag, payload⟩)

/-- PAGE_QUERY (R125). -/
def execPageQuery (tag : Byte) (payload : List Byte) (s : State) : StepResult :=
  live s (s.takeFrame ⟨CommandKind.code .pageQuery, tag, payload⟩)

/-- MALFORMED_COMMAND (R182). -/
def execMalformedCommand (kind tag : Byte) (payload : List Byte) (s : State) : StepResult :=
  live s (s.malformedCommand ⟨kind, tag, payload⟩)

/-- QUEUE_FULL (R180). -/
def execQueueFull (kind tag : Byte) (payload : List Byte) (s : State) : StepResult :=
  live s (s.queueFull ⟨kind, tag, payload⟩)

/-- FRAME_DISCARD (R179). -/
def execFrameDiscard (cause : DiscardCause) (s : State) : StepResult := live s (s.frameDiscard cause)

/-- FRAME_GAP (R179). -/
def execFrameGap (s : State) : StepResult := live s s.frameGap

/-- FRAME_SENT (R184). -/
def execFrameSent (s : State) : StepResult := live s s.frameSent

/-- CHARACTER_RECEIVED (R177, R178). -/
def execCharacterReceived (startBit : Bool) (data : List Bool) (stopBit : Bool) (s : State) : StepResult :=
  live s (s.characterReceived startBit data stopBit)

/-- COMMAND_RESET (R190). -/
def execCommandReset (s : State) : StepResult := live s s.commandReset

/-- POWER_ON (R191): it ends being held in reset as well (log 5). -/
def execPowerOn (s : State) : StepResult := .next (s.resetBy .power).choose

/-- RSTN_RESET (R191): RSTN rises, and the part leaves reset. -/
def execRstnReset (s : State) : StepResult := .next (s.resetBy .pin).choose

/-- RSTN_LOW (R191): RSTN falls, and the part is held in reset. -/
def execRstnLow (s : State) : StepResult := .next s.heldInReset

end Sys2Proof.Machine
end

