-- ==== Sys2Proof/Machine/LineRows.lean ====
section
/-! DEFINITION. The meanings of the rows of the optical line and of the part's own clockwork: slots and rounds, the
transmitter's elements, byte requests and burst ends, the receiver's transitions and bursts, test periods. -/

namespace Sys2Proof.Machine

/-- ROUND_BOUNDARY (R21). -/
def execRoundBoundary (s : State) : StepResult := live s s.takeRoundBoundary

/-- SLOT_START (R23). -/
def execSlotStart (s : State) : StepResult := live s s.takeSlotStart

/-- What an answer of the byte source does to the burst and to the record it read (R158): a byte goes out; an abort
answer marks the record damaged, and the abort mark comes in place of the byte. -/
def State.takeSourceAnswer (s : State) (b : Burst) (answer : SourceAnswer) : StepResult :=
  match answer with
  | .byte x => live s (State.sourceMoved { s with burst := some (b.takeByte x) } b)
  | .parityError h => live s (State.updateRecord { s with burst := some b.abort } h fun r => { r with damaged := true })
  | .noAddress => .fault .storeAddress
  | .noTransfer => live s s

/-- BYTE_REQUEST (R158): acted on while the transmitter awaits a byte. -/
def execByteRequest (upset : Bool) (s : State) : StepResult :=
  if s.held then .next s
  else
    match s.burst with
    | none => live s s
    | some b => if b.awaitsByte then s.takeSourceAnswer b (s.sourceAnswer b upset) else live s s

/-- BURST_END (R8): the burst's last mark is on the line and ends. -/
def State.burstEnd (s : State) : State :=
  match s.burst with
  | none => s
  | some b =>
    match b.outcome with
    | none => s
    | some o => State.reportBurstEnd { s with burst := none } b o

/-- BURST_END (R8). -/
def execBurstEnd (s : State) : StepResult := live s s.burstEnd

/-- BLANKING_END (R15): the receiver is blanked and no burst is being sent. -/
def State.blankingEnd (s : State) (level : Bool) : State :=
  if s.receiver.blanked && s.burst.isNone then { s with receiver := Receiver.unblank level } else s

/-- BLANKING_END (R15). -/
def execBlankingEnd (level : Bool) (s : State) : StepResult := live s (s.blankingEnd level)

/-- LINE_ELEMENT_END (R4, R7). -/
def execLineElementEnd (s : State) : StepResult := live s s.elementEnd

/-- REPLY_WINDOW_END (R13, R97). -/
def execReplyWindowEnd (s : State) : StepResult := live s s.replyWindowEnd

/-- CALL_END (R49). -/
def execCallEnd (s : State) : StepResult := live s s.callEnd

/-- BEACON (R31): delivered to hub control whatever the window (R14). -/
def execBeacon (b : HeardBurst) (s : State) : StepResult := live s (s.beaconBurst b)

/-- JOIN_REQ (R50). -/
def execJoinReq (b : HeardBurst) (s : State) : StepResult :=
  live s (s.wholeBurst (s.burstWindow b.sinceSync) (kindJoinReq :: b.body))

/-- STATUS (R48). -/
def execStatus (b : HeardBurst) (s : State) : StepResult :=
  live s (s.wholeBurst (s.burstWindow b.sinceSync) (kindStatus :: b.body))

/-- RECEIPT (R160). -/
def execReceipt (b : HeardBurst) (s : State) : StepResult :=
  live s (s.wholeBurst (s.burstWindow b.sinceSync) (kindReceipt :: b.body))

/-- BROKEN_BURST (R12). -/
def execBrokenBurst (b : HeardBroken) (s : State) : StepResult := live s (s.brokenBurst b.sinceSync b.cause)

/-- DISCARDED_BURST (R198, R14). -/
def execDiscardedBurst (s : State) : StepResult := live s s.discardedBurst

/-- TEST_PERIOD_END (R17). -/
def execTestPeriodEnd (s : State) : StepResult := live s s.testPeriodEnd

/-- TRANSITION (R9). -/
def execTransition (elapsed : Nat) (s : State) : StepResult := live s (s.takeTransition elapsed)

end Sys2Proof.Machine
end

