-- ==== Sys2Proof/Machine/Dispatch.lean ====
section
/-! DEFINITION. The meaning of every command, one arm for each row of spec/opcode_table.json. -/

namespace Sys2Proof.Machine

/-- A command's effect on everything but the queue. -/
def exec (i : Instr) (s : State) : Host.Outcome State Fault Refusal :=
  match i with
  | .getInfo tag payload => Sys2Proof.Machine.execGetInfo tag payload s
  | .getStatus tag payload => Sys2Proof.Machine.execGetStatus tag payload s
  | .configure tag payload => Sys2Proof.Machine.execConfigure tag payload s
  | .start tag payload => Sys2Proof.Machine.execStart tag payload s
  | .stop tag payload => Sys2Proof.Machine.execStop tag payload s
  | .lineTest tag payload => Sys2Proof.Machine.execLineTest tag payload s
  | .reset tag payload => Sys2Proof.Machine.execReset tag payload s
  | .admitJoin tag payload => Sys2Proof.Machine.execAdmit tag payload s
  | .labelQuery tag payload => Sys2Proof.Machine.execLabelQuery tag payload s
  | .labelList tag payload => Sys2Proof.Machine.execLabelList tag payload s
  | .labelOp tag payload => Sys2Proof.Machine.execLabelOp tag payload s
  | .release tag payload => Sys2Proof.Machine.execRelease tag payload s
  | .forget tag payload => Sys2Proof.Machine.execForget tag payload s
  | .pageBegin tag payload => Sys2Proof.Machine.execPageBegin tag payload s
  | .pageData tag payload => Sys2Proof.Machine.execPageData tag payload s
  | .pageEnd tag payload => Sys2Proof.Machine.execPageEnd tag payload s
  | .pageDiscard tag payload => Sys2Proof.Machine.execPageDiscard tag payload s
  | .pagePin tag payload => Sys2Proof.Machine.execPagePin tag payload s
  | .pageUnpin tag payload => Sys2Proof.Machine.execPageUnpin tag payload s
  | .pageRequeue tag payload => Sys2Proof.Machine.execPageRequeue tag payload s
  | .pageQuery tag payload => Sys2Proof.Machine.execPageQuery tag payload s
  | .malformedCommand kind tag payload => Sys2Proof.Machine.execMalformedCommand kind tag payload s
  | .queueFull kind tag payload => Sys2Proof.Machine.execQueueFull kind tag payload s
  | .frameDiscard cause => Sys2Proof.Machine.execFrameDiscard cause s
  | .frameGap => Sys2Proof.Machine.execFrameGap s
  | .frameSent => Sys2Proof.Machine.execFrameSent s
  | .commandReset => Sys2Proof.Machine.execCommandReset s
  | .powerOn => Sys2Proof.Machine.execPowerOn s
  | .rstnReset => Sys2Proof.Machine.execRstnReset s
  | .roundBoundary => Sys2Proof.Machine.execRoundBoundary s
  | .slotStart => Sys2Proof.Machine.execSlotStart s
  | .byteRequest upset => Sys2Proof.Machine.execByteRequest upset s
  | .burstEnd => Sys2Proof.Machine.execBurstEnd s
  | .blankingEnd level => Sys2Proof.Machine.execBlankingEnd level s
  | .replyWindowEnd => Sys2Proof.Machine.execReplyWindowEnd s
  | .callEnd => Sys2Proof.Machine.execCallEnd s
  | .beacon burst => Sys2Proof.Machine.execBeacon burst s
  | .joinReq burst => Sys2Proof.Machine.execJoinReq burst s
  | .status burst => Sys2Proof.Machine.execStatus burst s
  | .receipt burst => Sys2Proof.Machine.execReceipt burst s
  | .brokenBurst burst => Sys2Proof.Machine.execBrokenBurst burst s
  | .discardedBurst => Sys2Proof.Machine.execDiscardedBurst s
  | .testPeriodEnd => Sys2Proof.Machine.execTestPeriodEnd s
  | .transition elapsed => Sys2Proof.Machine.execTransition elapsed s
  | .characterReceived startBit data stopBit => Sys2Proof.Machine.execCharacterReceived startBit data stopBit s
  | .lineElementEnd => Sys2Proof.Machine.execLineElementEnd s
  | .rstnLow => Sys2Proof.Machine.execRstnLow s

end Sys2Proof.Machine
end

