-- ==== Sys2Proof/Safety.lean ====
section
/-! DEFINITION. The words the statements are written in: the bounds and forms that the manual gives the part's state and
that no step may break, and the circumstances in which a command or a burst is taken. -/

namespace Sys2Proof.Machine

/-- Every urgent notice stands ahead of every ordinary one (R185). -/
def UrgentFirst (q : List Posted) : Prop := q.Pairwise fun x y => y.notice.urgent = true → x.notice.urgent = true

/-- The notice queue: at most 32 notices, the urgent ones first (R185). -/
def NoticesOk (q : List Posted) : Prop := q.length ≤ Config.noticeQueue ∧ UrgentFirst q

/-- The position lies in a slot 0 to 63, 0 to 16000 µs into it (R19). -/
def PositionOk (t : Timebase) : Prop := t.slot ≤ Config.lastSlot ∧ t.slotTime ≤ Config.slotMicros

/-- The bounds of the command queue, of the replies waiting and of the dropped-frame count (R179, R180). -/
def QueuesOk (l : HostLink) : Prop :=
  l.commands.length ≤ Config.commandQueue
    ∧ (l.replies.filter fun r => !r.ofHead).length ≤ Config.queueFullReplies
    ∧ l.dropped ≤ 65535

/-- Every field of the configuration record lies in its range (R38). -/
def FieldsOk (c : Configuration) : Prop :=
  (1 ≤ c.hubId.toNat ∧ c.hubId.toNat ≤ 65534)
    ∧ (1 ≤ c.carrierMark ∧ c.carrierMark ≤ 64) ∧ (1 ≤ c.carrierSpace ∧ c.carrierSpace ≤ 64)
    ∧ (c.normalLead = 8 ∨ c.normalLead = 16 ∨ c.normalLead = 32 ∨ c.normalLead = 64)
    ∧ (c.defaultPeriod = 1 ∨ c.defaultPeriod = 2 ∨ c.defaultPeriod = 4 ∨ c.defaultPeriod = 8 ∨ c.defaultPeriod = 16)
    ∧ (1 ≤ c.burstAllowance ∧ c.burstAllowance ≤ 16) ∧ (1 ≤ c.missLimit ∧ c.missLimit ≤ 15)
    ∧ (1 ≤ c.stallLimit ∧ c.stallLimit ≤ 15) ∧ (1 ≤ c.opAttempts ∧ c.opAttempts ≤ 7)
    ∧ (1800 ≤ c.batteryLow ∧ c.batteryLow ≤ 3600) ∧ (1800 ≤ c.batteryCritical ∧ c.batteryCritical ≤ 3600)

/-- The configuration record: every field in its range, and the two cross-checks (R38). -/
def ConfigOk (c : Configuration) : Prop :=
  FieldsOk c ∧ c.carrierMark + c.carrierSpace ≤ 48 ∧ c.batteryCritical + 100 ≤ c.batteryLow

/-- The stored bytes and their parity bits are in canonical form. -/
def StoreOk (p : PageStore) : Prop := Memory.wf p.memory ∧ Memory.parityWf p.parity

/-- No block is held twice, and every block held is one of the store's 384 (R104). -/
def BlocksOk (s : State) : Prop := s.usedBlocks.Nodup ∧ ∀ b ∈ s.usedBlocks, b < Config.storeBlocks

/-- The replies of the command in hand among those waiting and the frame on the line. -/
def headReplies (l : HostLink) : Nat :=
  (l.replies.filter fun r => r.ofHead).length
    + (match l.sending with
       | some (.reply r) => if r.ofHead then 1 else 0
       | some (.notice _) => 0
       | none => 0)

/-- The command in hand has one reply, waiting or on the line, and with no command in hand there is none (R181). -/
def HandOk (l : HostLink) : Prop := headReplies l = if l.commands = [] then 0 else 1

/-- The counts of an entry and its operation queue (R42, R88): no two operations of one kind, so at most 4 of them, a
RELEASE alone in its queue and in a RELEASING entry only, and the counts within their ranges. -/
structure LabelOk (l : Label) : Prop where
  kinds : (l.queue.map Operation.kind).Nodup
  release : ∀ o ∈ l.queue, o.kind = .release → l.queue.length = 1 ∧ l.phase.isReleasing = true
  attempts : ∀ o ∈ l.queue, o.attempts ≤ 7
  misses : l.missCount ≤ 15
  joins : ∀ n b, l.phase = .joining n b → n ≤ 4
  releases : ∀ n b, l.phase = .releasing n b → n ≤ 2

/-- The directory: no long id in two entries (R43), at most 8 on the admission list, none twice and none that an entry
holds (R43, R55), and every entry in its form (R42, R88). -/
structure DirectoryOk (s : State) : Prop where
  ids : ∀ a b id, (s.entry a).longId = some id → (s.entry b).longId = some id → a = b
  room : s.directory.admission.length ≤ Config.admissionPlaces
  listed : (s.directory.admission.map Asking.longId).Nodup
  apart : ∀ x ∈ s.directory.admission, ∀ a, (s.entry a).longId ≠ some x.longId
  labels : ∀ a l, s.entry a = .label l → LabelOk l

/-- The page records: each within its ranges, with the blocks its length needs (R104, R105); at most one FILLING and one
live record for a key, each that is not VOID belonging to a JOINING, BOUND or MISSING entry (R106), a SENDING one to a
BOUND entry that has no other (R118); the HELD order lists the unpinned HELD records once each (R108); at most 32 are
pinned, and no VOID one (R116, R122). -/
structure RecordsOk (s : State) : Prop where
  ranges : ∀ h r, s.record h = some r → 1 ≤ r.address ∧ r.address ≤ 240 ∧ r.page ≤ 3 ∧ 1 ≤ r.length ∧ r.length ≤ 1024
    ∧ r.blocks.length = (r.length + 255) / 256
  filling : ∀ h k r q, s.record h = some r → s.record k = some q → r.address = q.address → r.page = q.page →
    r.state.isFilling = true → q.state.isFilling = true → h = k
  live : ∀ h k r q, s.record h = some r → s.record k = some q → r.address = q.address → r.page = q.page →
    r.state.isLive = true → q.state.isLive = true → h = k
  owned : ∀ h r, s.record h = some r → r.state ≠ .void →
    ∃ l, s.entry r.address = .label l ∧ l.phase.isReleasing = false ∧ (r.state = .sending → l.phase = .bound)
  single : ∀ h k r q, s.record h = some r → s.record k = some q → r.address = q.address → r.state = .sending →
    q.state = .sending → h = k
  once : s.store.heldOrder.Nodup
  held : ∀ h, h ∈ s.store.heldOrder ↔ ∃ r, s.record h = some r ∧ r.state = .held ∧ r.pinned = false
  pins : s.pinnedCount ≤ Config.maxPinned
  void : ∀ h r, s.record h = some r → r.state = .void → r.pinned = false

/-- The transfer contexts (R153): each belongs to one record of its label, which is SENDING or VOID, no two to one record,
and every SENDING record has one; the counts are within their ranges, and the sets hold fragments of the record. -/
structure ContextsOk (s : State) : Prop where
  tied : ∀ i c, s.context i = some c → ∃ r, s.record c.handle = some r ∧ r.address = c.address
    ∧ (r.state = .sending ∨ r.state = .void)
  apart : ∀ i j c d, s.context i = some c → s.context j = some d → c.handle = d.handle → i = j
  carried : ∀ h r, s.record h = some r → r.state = .sending → ∃ i c, s.context i = some c ∧ c.handle = h
  counts : ∀ i c, s.context i = some c → c.stallCount ≤ 15 ∧ c.busyCount ≤ 8
  sets : ∀ i c r, s.context i = some c → s.record c.handle = some r →
    ∀ f, f ∈ c.confirmed ∨ f ∈ c.sentThisRound → f < (r.length + 47) / 48

/-- Every form of the state that a step keeps. -/
structure Sound (s : State) : Prop where
  store : StoreOk s.store
  blocks : BlocksOk s
  directory : DirectoryOk s
  records : RecordsOk s
  contexts : ContextsOk s
  config : ConfigOk s.config
  position : PositionOk s.timebase
  notices : NoticesOk s.link.notices
  queues : QueuesOk s.link
  hand : HandOk s.link

/-! ## Circumstances -/

/-- A command is carried out as it is taken: the part is not held in reset and the command queue is empty (R180). -/
abbrev Ready (s : State) : Prop := s.held = false ∧ s.link.commands = []

/-- The frame receiver is back to hunting and a frame is the one command in the queue. -/
def State.inHand (s : State) (f : HostFrame) : State := (s.setReceiver FrameReceiver.hunting).setCommands [f]

/-- The reply of the command in hand is made, and the transmitter chooses. -/
def State.reply (s : State) (kind tag : Byte) (status : Status) (result : List Byte) : State :=
  (s.addReply ⟨kind, tag, status, result, true⟩).choose

/-- The frame of a host command row; the queue and discard rows are not among them. -/
def hostFrameOf : Instr → Option HostFrame
  | .getInfo t p => some ⟨0x01, t, p⟩
  | .getStatus t p => some ⟨0x02, t, p⟩
  | .configure t p => some ⟨0x03, t, p⟩
  | .start t p => some ⟨0x04, t, p⟩
  | .stop t p => some ⟨0x05, t, p⟩
  | .lineTest t p => some ⟨0x06, t, p⟩
  | .reset t p => some ⟨0x07, t, p⟩
  | .admitJoin t p => some ⟨0x10, t, p⟩
  | .labelQuery t p => some ⟨0x11, t, p⟩
  | .labelList t p => some ⟨0x12, t, p⟩
  | .labelOp t p => some ⟨0x13, t, p⟩
  | .release t p => some ⟨0x14, t, p⟩
  | .forget t p => some ⟨0x15, t, p⟩
  | .pageBegin t p => some ⟨0x20, t, p⟩
  | .pageData t p => some ⟨0x21, t, p⟩
  | .pageEnd t p => some ⟨0x22, t, p⟩
  | .pageDiscard t p => some ⟨0x23, t, p⟩
  | .pagePin t p => some ⟨0x24, t, p⟩
  | .pageUnpin t p => some ⟨0x25, t, p⟩
  | .pageRequeue t p => some ⟨0x26, t, p⟩
  | .pageQuery t p => some ⟨0x27, t, p⟩
  | .malformedCommand k t p => some ⟨k, t, p⟩
  | _ => none

/-- The payload lengths of the command kinds of one length (R194). -/
def fixedLengths : List (Byte × Nat) :=
  [(0x01, 0), (0x02, 0), (0x04, 0), (0x05, 0), (0x06, 2), (0x07, 0), (0x10, 7), (0x12, 1), (0x14, 1), (0x15, 1),
   (0x20, 6), (0x22, 1), (0x23, 1), (0x24, 1), (0x25, 1), (0x26, 1)]

/-- The bytes that the fields of a CONFIGURE mask take: two each for fields 0, 10 and 11, one for every other (R196). -/
def maskBytes (mask : Nat) : Nat :=
  (((List.range 13).filter fun i => mask.testBit i).map fun i => if i = 0 ∨ i = 10 ∨ i = 11 then 2 else 1).sum

/-- A frame whose kind is no command kind, or whose payload is not well formed for its kind (R182, R194 to R196): its
length is not the kind's; a CONFIGURE mask has one of bits 13 to 15, or the fields it marks do not make up the rest; a
selector is neither 0 nor 1, or the length does not suit it; a LABEL_OP has a length that is not its operation kind's; a
PAGE_DATA count is outside 1 to 192, or is not the number of bytes that follow it. -/
def WrongForm (f : HostFrame) : Prop :=
  f.kind ∉ commandKindBytes
    ∨ (∃ n, (f.kind, n) ∈ fixedLengths ∧ f.payload.length ≠ n)
    ∨ (f.kind = 0x03 ∧ (f.payload.length < 2 ∨ 2 ^ 13 ≤ leNat (f.payload.take 2)
        ∨ f.payload.length ≠ 2 + maskBytes (leNat (f.payload.take 2))))
    ∨ (f.kind = 0x11 ∧ ¬ (byteAt f.payload 0 = 0 ∧ f.payload.length = 2)
        ∧ ¬ (byteAt f.payload 0 = 1 ∧ f.payload.length = 7))
    ∨ (f.kind = 0x13 ∧ (f.payload.length < 2 ∨ 4 < f.payload.length
        ∨ (byteAt f.payload 1 = 0 ∧ f.payload.length ≠ 2) ∨ (byteAt f.payload 1 = 1 ∧ f.payload.length ≠ 4)
        ∨ ((byteAt f.payload 1 = 2 ∨ byteAt f.payload 1 = 3) ∧ f.payload.length ≠ 3)))
    ∨ (f.kind = 0x21 ∧ (f.payload.length < 5 ∨ 192 < (byteAt f.payload 3).toNat
        ∨ f.payload.length ≠ 4 + (byteAt f.payload 3).toNat))
    ∨ (f.kind = 0x27 ∧ ¬ (byteAt f.payload 0 = 0 ∧ f.payload.length = 2)
        ∧ ¬ (byteAt f.payload 0 = 1 ∧ f.payload.length = 3))

/-- The receiver can hear a burst to its end: no reset, no blanking, no line test. -/
abbrev Hears (s : State) : Prop := s.held = false ∧ s.hears = true

/-- A burst is heard whose sync mark ended so many microseconds before now, and it belongs to the given window. -/
abbrev Hearing (s : State) (sinceSync : Nat) (w : Option Window) : Prop := Hears s ∧ s.burstWindow sinceSync = w

/-- The bytes of a LABEL_OP after its short address, with the operation they name for a label of `pages` pages (R195). -/
def OpForm (pages : Nat) (bytes : List Byte) (f : OpFields) : Prop :=
  (bytes = [0] ∧ f = .ping)
    ∨ (∃ n k, (Profile.mk n k).valid = true ∧ bytes = [1, byteOf n, byteOf k] ∧ f = .setProfile ⟨n, k⟩)
    ∨ (∃ m : DisplayMode, bytes = [2, byteOf m.code] ∧ f = .setMode m)
    ∨ (∃ g, g < pages ∧ g < 256 ∧ bytes = [3, byteOf g] ∧ f = .showPage g)

/-- `n` microseconds pass from `s` to `t`: the clock moves by them, and while the timebase runs the time within the slot
grows by them and stops at 16000 (R19; logs 1, 20). The one thing on the line that does more to the timebase is a
foreign beacon that ends a LISTENING whose START started it, which undoes it (R32). -/
def TimePassed (n : Nat) (s t : State) : Prop :=
  t.clock = s.clock + n
    ∧ (t.timebase = (if s.timebase.running then
          ⟨true, s.timebase.stamp, s.timebase.slot, min 16000 (s.timebase.slotTime + n)⟩ else s.timebase)
      ∨ (∃ e, s.hub = .listening e true) ∧ t.hub = .offline ∧ t.timebase = ⟨false, 0, 0, 0⟩)

/-- What becomes of an open assembly as the slot of its window ends, from `s` to `t`: one that belongs to a window is
closed as broken with cause TRUNCATED (R13), which is energy heard in a join window (R58) and in a line test breaks the
period's burst (R17); one of no window stays, and with none nothing happens. -/
def WindowClosed (s t : State) : Prop :=
  ((∀ a, s.receiver.assembly = some a → a.window = none) → t = s)
    ∧ ∀ a w, s.receiver.assembly = some a → a.window = some w →
      ((∀ m, s.hub ≠ .testing m) → t = { s with
        receiver := { s.receiver with assembly := none }
        directory := { s.directory with accumulator := match w with
          | .join _ => true
          | .reply _ => s.directory.accumulator } })
      ∧ ∀ m, s.hub = .testing m → t = { s with
          receiver := { s.receiver with assembly := none }
          hub := .testing { m with heard := if a.ofPeriod then .broken else m.heard } }

/-! ## The line elements of a burst -/

/-- The elements the transmitter sends from a burst as it stands, to the end of its last mark, with the data bytes it is
given as it asks for them; at most `n` of its moves are followed. -/
def lineElements : Nat → List Byte → Burst → List (Bool × Nat)
  | 0, _, _ => []
  | n + 1, bytes, b =>
    match b.element with
    | none => lineElements n bytes (b.takeByte (bytes.getD b.sent 0))
    | some e =>
      if b.part = .endMark ∨ b.part = .abortMark then [e] else e :: lineElements n bytes b.nextElement

/-! ## The parts of a STATUS that is taken as for a BOUND entry -/

/-- The first part, the answer of the open send (R94 to R96): from fields `l` to fields `m`, with the notices. -/
def Answered (now : Epoch) (a slot : Nat) (r : StatusReport) (l m : Label) (ns : List Notice) : Prop :=
  (∃ w, l.openSend = some w ∧ w.slot = slot ∧ w.sequence = r.echo ∧ (r.result = .done ∨ r.result = .refused)
      ∧ (∀ p, w.fields = .setProfile p → r.result = .done →
          m.planned = some ⟨p, w.effective⟩
            ∧ m.current = match l.planned with
              | some q => if q.effective = now then q.profile else l.current
              | none => l.current)
      ∧ ((∀ p, w.fields ≠ .setProfile p) ∨ r.result = .refused → m.planned = l.planned ∧ m.current = l.current)
      ∧ m = { l with
          openSend := none, planned := m.planned, current := m.current
          queue := if w.attached then l.queue.filter fun o => o.kind != w.fields.kind else l.queue }
      ∧ ns = if w.attached then
          [if r.result = .done then .opDone a w.fields.kind else .opFailed a w.fields.kind .refused] else [])
    ∨ ((∀ w, l.openSend = some w →
          w.slot ≠ slot ∨ w.sequence ≠ r.echo ∨ (r.result ≠ .done ∧ r.result ≠ .refused)) ∧ m = l ∧ ns = [])

/-- The profile report (R81, R82) and the completion check after it (R83): a report that is taken has the last word on
both profiles, and a queued SET_PROFILE for the profile that it shows is done. -/
def ReportTaken (now : Epoch) (a : Nat) (r : StatusReport) (l m : Label) (ns : List Notice) : Prop :=
  (∃ p pending k, r.active = some p
      ∧ (r.pending = .absent ∧ pending = none
          ∨ ∃ q, r.pending = .named q ∧ q.effective = now + 1 ∧ pending = some q)
      ∧ k = { l with current := p, planned := pending, profileState := .settled }
      ∧ ((∃ before o behind, l.queue = before ++ o :: behind ∧ (∀ x ∈ before, x.kind ≠ .setProfile)
            ∧ o.fields = .setProfile (match pending with | some q => q.profile | none => p)
            ∧ m = { k with
              queue := l.queue.filter fun o => o.kind != .setProfile
              openSend := l.openSend.map fun w =>
                if w.fields.kind = .setProfile then { w with attached := false } else w }
            ∧ ns = [.opDone a .setProfile])
          ∨ ((∀ before o behind, l.queue = before ++ o :: behind → (∀ x ∈ before, x.kind ≠ .setProfile) →
                o.fields ≠ .setProfile (match pending with | some q => q.profile | none => p))
            ∧ m = k ∧ ns = [])))
    ∨ ((r.active = none ∨ r.pending = .invalid ∨ ∃ q, r.pending = .named q ∧ q.effective ≠ now + 1)
        ∧ m = l ∧ ns = [])

/-- The battery reading (R84 to R87): a change of class posts its notice and, where the class becomes CRITICAL with
battery saving on, the saving profile is queued unless it is in hand. -/
def ReadingTaken (c : Configuration) (now : Stamp) (a : Nat) (mv : Option Nat) (l m : Label) (ns : List Notice) : Prop :=
  (mv = none → m = l ∧ ns = [])
    ∧ (∀ v after saving profile, mv = some v → after = classify c.batteryLow c.batteryCritical l.batteryClass v →
        (saving = true ↔ after = .critical ∧ c.batterySaving = true) → profile = ⟨16, a % 16⟩ →
        (after = l.batteryClass → m = { l with batteryMv := some v } ∧ ns = [])
        ∧ (after ≠ l.batteryClass → ns = [.battery a v l.batteryClass after saving]
            ∧ m = { l with
                batteryMv := some v, batteryClass := after, queue := m.queue, openSend := m.openSend }
            ∧ ((∀ o ∈ l.queue, o.kind ≠ .setProfile) → m.openSend = l.openSend
                ∧ m.queue = l.queue ++ (if saving = true ∧ (match l.planned with
                    | some p => p.profile
                    | none => l.current) ≠ profile then [⟨.setProfile profile, now, 0, false⟩] else []))
            ∧ ((∃ o ∈ l.queue, o.kind = .setProfile) →
                (saving = false → m.queue = l.queue ∧ m.openSend = l.openSend)
                ∧ (saving = true →
                    m.queue = (l.queue.map fun o => if o.kind = .setProfile
                      then { o with fields := .setProfile profile, attempts := 0, sentThisRound := false } else o)
                    ∧ m.openSend = l.openSend.map fun w =>
                      if w.fields.kind = .setProfile then { w with attached := false } else w))))

/-! ## What the planner reads -/

/-- One READY record of a label is preferred to another (R138): urgent before not, then the older ready stamp, then the
lower page. -/
def Preferred (now : Stamp) (r q : Record) : Prop :=
  (r.urgent = true ∧ q.urgent = false)
    ∨ (r.urgent = q.urgent ∧ (ageOf now (q.readyStamp.getD now) < ageOf now (r.readyStamp.getD now)
        ∨ (ageOf now (r.readyStamp.getD now) = ageOf now (q.readyStamp.getD now) ∧ r.page < q.page)))

/-- The record at a handle is a label's transfer record (R138): its SENDING record, or else the preferred one of its READY
records. -/
def IsTransfer (s : State) (a h : Nat) : Prop :=
  ∃ r, s.record h = some r ∧ r.address = a
    ∧ (r.state = .sending
      ∨ (r.state = .ready ∧ (∀ k q, s.record k = some q → q.address = a → q.state ≠ .sending)
          ∧ ∀ k q, s.record k = some q → q.address = a → q.state = .ready → k ≠ h → Preferred s.stamp r q))

/-- A BOUND entry has work (R138). -/
def HasWork (s : State) (a : Nat) (l : Label) : Prop :=
  l.queue ≠ [] ∨ ∃ h r, s.record h = some r ∧ r.address = a ∧ (r.state = .sending ∨ r.state = .ready)

/-- An entry is a candidate for a call of a kind in the round being planned (R137). -/
def CalledAs (s : State) (a : Nat) (k : CallKind) : Prop :=
  ∃ l, s.entry a = .label l
    ∧ ((l.phase.isJoining = true ∧ k = .assign)
      ∨ (∃ n fromMissing, l.phase = .releasing n fromMissing ∧ k = .release
          ∧ (fromMissing = false → l.profileState = .settled → (l.applicable s.epoch).wakes s.roundIndex = true)
          ∧ (fromMissing = true ∨ l.profileState ≠ .settled → s.roundIndex = 0))
      ∨ (l.phase = .missing ∧ k = .probe ∧ s.roundIndex = 0)
      ∨ (l.phase = .bound ∧ k = .service ∧ HasWork s a l
          ∧ (l.profileState = .settled → (l.applicable s.epoch).wakes s.roundIndex = true)
          ∧ (l.profileState ≠ .settled → s.roundIndex = 0)))

/-- A label waits by a stamp of an age (R141): that of a queued operation, or, BOUND or MISSING, the ready stamp of its
transfer record. -/
def WaitsBy (s : State) (a n : Nat) : Prop :=
  ∃ l, s.entry a = .label l
    ∧ ((∃ o ∈ l.queue, n = ageOf s.stamp o.queued)
      ∨ ((l.phase = .bound ∨ l.phase = .missing) ∧ ∃ h r t, s.transferRecord a = some h ∧ s.record h = some r
          ∧ r.readyStamp = some t ∧ n = ageOf s.stamp t))

/-! ## What an event about one label leaves -/

/-- An event about the label of a short address leaves the rest of the part alone: the other entries, the admission list,
the stored bytes, the configuration, the timebase, the plan, the command queue, the replies. The records, the contexts,
the burst and the notices are spoken of beside it. -/
structure LabelFrame (a : Nat) (s t : State) : Prop where
  entries : ∀ b, b ≠ a → t.entry b = s.entry b
  directory : { t.directory with entries := s.directory.entries } = s.directory
  store : { t.store with records := s.store.records, heldOrder := s.store.heldOrder } = s.store
  rest : { t with
      directory := s.directory, store := s.store, contexts := s.contexts, burst := s.burst
      link := { t.link with notices := s.link.notices, overflow := s.link.overflow } } = s

/-- The records, their order, the contexts and the burst are as they were. -/
abbrev SameRecords (s t : State) : Prop :=
  t.store.records = s.store.records ∧ t.store.heldOrder = s.store.heldOrder ∧ t.contexts = s.contexts
    ∧ t.burst = s.burst

/-- Every record of a short address is removed by its state (R131, R116), and no other record is touched: with no
fragment of theirs on the air the line goes on as it was, with one it is cut (R116, R7), and only the contexts tied to
them are freed. -/
structure RecordsGone (a : Nat) (s t : State) : Prop where
  absent : ∀ h, s.record h = none → t.record h = none
  others : ∀ h r, s.record h = some r → r.address ≠ a → t.record h = some r
  idle : ∀ h r, s.record h = some r → r.address = a → r.state ≠ .sending → r.state ≠ .void → t.record h = none
  cut : ∀ h r, s.record h = some r → r.address = a → r.state = .sending → s.fragmentOnAir h = false →
    t.record h = none ∧ ∀ i, s.contextOf h = some i → t.context i = none
  void : ∀ h r, s.record h = some r → r.address = a → r.state = .sending → s.fragmentOnAir h = true →
    t.record h = some { r with state := .void, pinned := false }
  left : ∀ h r, s.record h = some r → r.address = a → r.state = .void → t.record h = some r
  order : t.store.heldOrder = s.store.heldOrder.filter fun h => (s.record h).isNone || (t.record h).isSome
  contexts : ∀ i, (∀ c r, s.context i = some c → s.record c.handle = some r → r.address ≠ a) → t.context i = s.context i
  line : (∀ h r, s.record h = some r → r.address = a → r.state = .sending → s.fragmentOnAir h = false) →
    t.burst = s.burst
  ended : (∃ h r, s.record h = some r ∧ r.address = a ∧ r.state = .sending ∧ s.fragmentOnAir h = true) →
    t.burst = s.cutRequest.burst

/-- The notices of the first reading of a new entry (R86): a class other than OK posts BATTERY from OK, and no reading or
the class OK posts nothing. -/
def firstReadingNotices (c : Configuration) (a : Nat) (mv : Option Nat) : List Notice :=
  match mv with
  | none => []
  | some v =>
    match classify c.batteryLow c.batteryCritical .ok v with
    | .ok => []
    | .low => [.battery a v .ok .low false]
    | .critical => [.battery a v .ok .critical c.batterySaving]

/-- A new JOINING entry (R44): everything but the battery and its saving profile stands as the rule lists it, and the
reading, if there is one, is taken (R84 to R87). -/
def NewJoining (s : State) (a : Nat) (id : LongId) (c : Capabilities) (mv : Option Nat) (heard : Stamp) (e : Entry) :
    Prop :=
  ∃ l : Label, e = .label l
    ∧ { l with batteryMv := none, batteryClass := .ok, queue := [] } =
      ⟨.joining 4 false, id, c, ⟨s.config.defaultPeriod, a % s.config.defaultPeriod⟩, none, .settled, [], none, 0, 0,
        false, none, .ok, none, none, [], some heard, false, false⟩
    ∧ l.batteryMv = mv
    ∧ (mv = none → l.batteryClass = .ok ∧ l.queue = [])
    ∧ (∀ v, mv = some v →
        l.batteryClass = classify s.config.batteryLow s.config.batteryCritical .ok v
        ∧ l.queue = if l.batteryClass = .critical ∧ s.config.batterySaving = true ∧ l.current ≠ ⟨16, a % 16⟩
            then [⟨.setProfile ⟨16, a % 16⟩, s.timebase.stamp, 0, false⟩] else [])

end Sys2Proof.Machine
end

