-- ==== Sys2Proof/Certificates/Slice0/Obligations.lean ====
section
/-! DEFINITION. The statements about the model, for the provers. -/

open Sys2Proof Sys2Proof.Machine

/-! ## The machine -/

/-- A step takes the command at the front of the queue and runs it on the state with the rest of the queue; with none
waiting one microsecond passes, the model's choice (log 1), and the configuration record stays unless a character ends
on RXD in it (log 30). Where time passes, in an idle step or, while RXD rests, in a TRANSITION, the clock moves by it,
and while the timebase runs the time within the slot grows with it and stops at 16000 (R19; log 20), but for a timebase
that a foreign beacon undoes (R32); the levels of PDIN and of RXD that lay ahead of it are past. The time that
SLOT_START, ROUND_BOUNDARY and TRANSITION pass is so many idle steps (log 1), RXD watched in each (R177). -/
def Obligations.StepTakesTheFrontCommand : Prop :=
  (∀ (c : Instr) (rest : List Instr) (s : State),
    step { s with pending := c :: rest } = exec c { s with pending := rest })
  ∧ (∀ (s : State) (n : Nat),
      s.advance n = { s with
        clock := s.clock + n
        pdinAhead := s.pdinAhead.drop n
        rxdAhead := s.rxdAhead.drop n
        timebase := if s.timebase.running then
          ⟨true, s.timebase.stamp, s.timebase.slot, min 16000 (s.timebase.slotTime + n)⟩ else s.timebase }
      ∧ (s.held = false → ∃ t, exec (.transition n) s = .next t ∧ t.clock = s.clock + n ∧ t.pending = s.pending
          ∧ (s.serial = ⟨true, true, none⟩ → s.rxdAhead = [] → s.timebase.slotTime ≤ 16000 → TimePassed n s t))
      ∧ TimePassed 1 s s.lineTick)
  ∧ (∀ s : State, s.pending = [] → s.held = false →
      ∃ t, step s = .next t ∧ t.clock = s.clock + 1 ∧ t.pending = []
        ∧ ((∀ c, s.serial.character = some c → c.samples.length < 9) → t.config = s.config ∧ TimePassed 1 s t))
  ∧ ∀ (s : State) (n : Nat), s.held = false →
      s.idleFor 0 = s ∧ s.idleFor (n + 1) = (s.idleFor 1).idleFor n
        ∧ (s.pending = [] → step s = .next (s.idleFor 1))
        ∧ (s.idleFor n).clock = s.clock + n ∧ (s.idleFor n).held = false ∧ (s.idleFor n).pending = s.pending

/-- The machine right after reset: every field of the configuration record at its default, the hub OFFLINE, the
timebase stopped at stamp 0, every entry VACANT, no record, no context, no plan, no burst, and the host link as R192
gives it. Six clauses are the model's choice: the running CRC is FFFFh while the frame receiver hunts, and no command
waits (log 21), no level of PDIN (log 1) or of RXD (log 30) lies ahead, RXD is watched as high with no character being
received (log 30), no first tick is due, and no round is marked as the first served one (log 27). -/
def Obligations.ResetStateHoldsTheResetValues : Prop :=
  State.reset.config = ⟨1, 13, 13, 16, .ask, 4, 6, 3, 4, 3, 2500, 2200, false⟩
    ∧ State.reset.hub = .offline ∧ State.reset.timebase = ⟨false, 0, 0, 0⟩ ∧ State.reset.foreignSeen = false
    ∧ (∀ a, State.reset.entry a = .vacant) ∧ State.reset.directory.admission = []
    ∧ State.reset.directory.crowded = false ∧ State.reset.directory.accumulator = false
    ∧ (∀ h, State.reset.record h = none) ∧ State.reset.store.heldOrder = [] ∧ State.reset.freeBlocks = List.range 384
    ∧ (∀ i, State.reset.context i = none) ∧ State.reset.plan = none ∧ State.reset.burst = none
    ∧ State.reset.receiver.accepted = false ∧ State.reset.receiver.candidate = none
    ∧ State.reset.receiver.lastTransition = none ∧ State.reset.receiver.assembly = none
    ∧ State.reset.receiver.blanked = false
    ∧ State.reset.link.receiver = ⟨.hunting, [], 0xFFFF⟩ ∧ State.reset.link.dropped = 0
    ∧ State.reset.link.commands = [] ∧ State.reset.link.replies = []
    ∧ State.reset.link.notices = [⟨0, .hubReady .power⟩] ∧ State.reset.link.overflow = false
    ∧ State.reset.link.sending = none ∧ State.reset.pending = [] ∧ State.reset.pdinAhead = []
    ∧ State.reset.blankingDue = false ∧ State.reset.firstServed = false
    ∧ State.reset.serial = ⟨true, true, none⟩ ∧ State.reset.rxdAhead = []

/-- POWER_ON and RSTN_RESET from any state: the part stands at its reset values, HUB_READY with its cause is the one
notice, and the transmitter has begun it (log 10). POWER_ON finds RSTN high and ends a hold, and RSTN_LOW holds the part
at its reset values with nothing on TXD: the model's reading of R191 (log 5). The commands
that wait in the model's queue stay, and so do the levels that lie ahead on PDIN and RXD: they are outside the part. -/
def Obligations.PinAndPowerResetsRestartThePart : Prop :=
  ∀ s : State,
    exec .powerOn s = .next { State.reset with
        link := { State.reset.link with notices := [], sending := some (.notice ⟨0, .hubReady .power⟩) }
        pdinAhead := s.pdinAhead
        rxdAhead := s.rxdAhead
        pending := s.pending }
    ∧ exec .rstnReset s = .next { State.reset with
        link := { State.reset.link with notices := [], sending := some (.notice ⟨0, .hubReady .pin⟩) }
        pdinAhead := s.pdinAhead
        rxdAhead := s.rxdAhead
        pending := s.pending }
    ∧ exec .rstnLow s = .next { State.reset with
        held := true
        link := { State.reset.link with notices := [] }
        pdinAhead := s.pdinAhead
        rxdAhead := s.rxdAhead
        pending := s.pending }

/-- While RSTN is low no command but the resets has any effect: the model's reading of "held in reset" (log 5). -/
def Obligations.HeldPartTakesNoOtherEvent : Prop :=
  ∀ (c : Instr) (s : State), s.held = true → c ≠ .powerOn → c ≠ .rstnReset → c ≠ .rstnLow → exec c s = .next s

/-- RESET is answered OK and changes nothing else; when the last character of its reply has been sent the part resets,
with cause COMMAND, whether the end of the frame comes as FRAME_SENT or as COMMAND_RESET. The commands that wait and the
levels that lie ahead on PDIN and RXD are outside the part and stay. -/
def Obligations.ResetCommandResetsAfterItsReply : Prop :=
  ∀ (tag : Byte) (s : State),
    (Ready s → exec (.reset tag []) s = .next ((s.inHand ⟨0x07, tag, []⟩).reply 0x07 tag .ok []))
    ∧ (s.held = false → s.link.sending = some (.reply ⟨0x07, tag, .ok, [], true⟩) →
        exec .commandReset s = .next { State.reset with
          link := { State.reset.link with notices := [], sending := some (.notice ⟨0, .hubReady .command⟩) }
          pdinAhead := s.pdinAhead
          rxdAhead := s.rxdAhead
          pending := s.pending }
        ∧ exec .frameSent s = exec .commandReset s)

/-! ## The host link (09) -/

/-- GET_INFO returns the fixed values of R188 and changes nothing. -/
def Obligations.GetInfoAnswersTheFixedValues : Prop :=
  ∀ (tag : Byte) (s : State), Ready s →
    exec (.getInfo tag []) s = .next ((s.inHand ⟨0x01, tag, []⟩).reply 0x01 tag .ok
      [0x57, 0x01, 0x40, 0x02, 1, 240, 128, 0x80, 0x01, 16, 32, 4])

/-- GET_STATUS reports, and then the overflow flag is clear and the dropped-frame count 0; nothing else changes. After
reset it reports what R189 lists. A flag's byte is 1 for yes and 0 for no, as R196 has it for the timebase running; for
the other three flags that is the model's choice (log 31). -/
def Obligations.GetStatusReportsAndClears : Prop :=
  (∀ (tag : Byte) (s : State), Ready s →
    ∃ u : State, exec (.getStatus tag []) s = .next (u.reply 0x02 tag .ok
        ([s.hub.name.code, flagByte s.timebase.running] ++ leBytes 2 (s.stamp.toNat / 16 % 65536)
          ++ [byteOf (s.stamp.toNat % 16)] ++ leBytes 4 s.stamp.toNat
          ++ [byteOf (s.entriesInState 0), byteOf (s.entriesInState 1), byteOf (s.entriesInState 2),
              byteOf (s.entriesInState 3), byteOf (s.entriesInState 4), byteOf (s.entriesInState 5)]
          ++ [byteOf s.directory.admission.length, flagByte s.directory.crowded]
          ++ leBytes 2 s.freeBlocks.length
          ++ [byteOf s.freeSlots.length, byteOf s.pinnedCount, byteOf s.contextsInUse, flagByte s.foreignSeen,
              flagByte s.link.overflow]
          ++ leBytes 2 s.link.dropped))
      ∧ u.link.overflow = false ∧ u.link.dropped = 0
      ∧ { u with link := { u.link with overflow := s.link.overflow, dropped := s.link.dropped } }
          = s.inHand ⟨0x02, tag, []⟩)
  ∧ statusBytes State.reset = [0, 0, 0, 0, 0, 0, 0, 0, 0, 240, 0, 0, 0, 0, 0, 0, 0, 0x80, 1, 128, 0, 0, 0, 0, 0, 0]

/-- What R180 does with a whole frame of a host command: carried out at once in an empty queue, appended behind one to
three commands, answered QUEUE_FULL behind four, and discarded where four QUEUE_FULL replies wait as well. -/
def Obligations.FrameIsQueuedAnsweredOrDropped : Prop :=
  ∀ (c : Instr) (f : HostFrame) (s : State), c.wf = true → hostFrameOf c = some f → s.held = false →
    (s.link.commands = [] → exec c s = .next ((s.inHand f).carryOut f).choose)
    ∧ (s.link.commands ≠ [] → s.link.commands.length < 4 →
        exec c s = .next (State.choose { s with link := { s.link with
          receiver := ⟨.hunting, [], 0xFFFF⟩, commands := s.link.commands ++ [f] } }))
    ∧ (s.link.commands.length = 4 → (s.link.replies.filter fun r => !r.ofHead).length < 4 →
        exec c s = .next (State.choose { s with link := { s.link with
          receiver := ⟨.hunting, [], 0xFFFF⟩
          replies := s.link.replies ++ [⟨f.kind, f.tag, .queueFull, [], false⟩] } }))
    ∧ (s.link.commands.length = 4 → 4 ≤ (s.link.replies.filter fun r => !r.ofHead).length →
        exec c s = .next (State.choose { s with link := { s.link with
          receiver := ⟨.hunting, [], 0xFFFF⟩, dropped := min 65535 (s.link.dropped + 1) } }))

/-- QUEUE_FULL: a frame of any kind that finds four commands queued is answered with its kind and tag, or discarded where
four QUEUE_FULL replies wait; with fewer commands queued the row is out of place (log 2). -/
def Obligations.QueueFullFrameIsNotQueued : Prop :=
  ∀ (k tag : Byte) (p : List Byte) (s : State), p.length ≤ 200 → s.held = false →
    (s.link.commands.length = 4 → (s.link.replies.filter fun r => !r.ofHead).length < 4 →
        exec (.queueFull k tag p) s = .next (State.choose { s with link := { s.link with
          receiver := ⟨.hunting, [], 0xFFFF⟩, replies := s.link.replies ++ [⟨k, tag, .queueFull, [], false⟩] } }))
    ∧ (s.link.commands.length = 4 → 4 ≤ (s.link.replies.filter fun r => !r.ofHead).length →
        exec (.queueFull k tag p) s = .next (State.choose { s with link := { s.link with
          receiver := ⟨.hunting, [], 0xFFFF⟩, dropped := min 65535 (s.link.dropped + 1) } }))
    ∧ (s.link.commands.length < 4 → exec (.queueFull k tag p) s = .next s.choose)

/-- A frame whose kind is no command kind, or whose payload is not well formed for its kind, is refused with MALFORMED
when it is carried out, and nothing else changes: a length that is not the kind's, a CONFIGURE mask with one of bits
13 to 15 or a length that does not fit it, a selector that is neither 0 nor 1 or a length that does not suit it, a
LABEL_OP length that is not its operation kind's, and a PAGE_DATA count that is outside 1 to 192 or is not the number
of bytes. -/
def Obligations.MalformedCommandIsRefused : Prop :=
  ∀ (c : Instr) (f : HostFrame) (s : State), c.wf = true → hostFrameOf c = some f → Ready s → WrongForm f →
    exec c s = .next ((s.inHand f).reply f.kind f.tag .malformed [])

/-- A refused command changes nothing, and its reply carries the status alone. -/
def Obligations.RefusedCommandChangesNothing : Prop :=
  ∀ (s : State) (f : HostFrame), (s.perform f).status ≠ .ok → (s.perform f).state = s ∧ (s.perform f).result = []

/-- Carrying out a command adds exactly one reply, of the command in hand, with the command's kind and tag as they were
received, behind the replies already waiting; the command queue, the line, the frame receiver and RSTN are as before. -/
def Obligations.CommandMakesOneReplyWithItsTag : Prop :=
  ∀ (s : State) (f : HostFrame),
    (∃ status result, (s.carryOut f).link.replies = s.link.replies ++ [⟨f.kind, f.tag, status, result, true⟩])
    ∧ (s.carryOut f).link.commands = s.link.commands ∧ (s.carryOut f).link.sending = s.link.sending
    ∧ (s.carryOut f).link.receiver = s.link.receiver ∧ (s.carryOut f).held = s.held
    ∧ (s.carryOut f).pending = s.pending

/-- FRAME_DISCARD and FRAME_GAP: the receiver hunts, the dropped-frame count grows by one and stays at 65535, and
nothing else changes. Outside a frame, and once a character has started, there is no gap, and with fewer than four
commands queued, or fewer than four QUEUE_FULL replies waiting, no frame is discarded for want of room: there the row
is out of place and has no effect (log 2). -/
def Obligations.DiscardedFrameIsCounted : Prop :=
  ∀ s : State, s.held = false →
    (∀ c ∈ [Instr.frameDiscard .length, .frameDiscard .crc],
      exec c s = .next (State.choose { s with link := { s.link with
        receiver := ⟨.hunting, [], 0xFFFF⟩, dropped := min 65535 (s.link.dropped + 1) } }))
    ∧ (s.link.commands.length = 4 → (s.link.replies.filter fun r => !r.ofHead).length = 4 →
        exec (.frameDiscard .noRoom) s = .next (State.choose { s with link := { s.link with
          receiver := ⟨.hunting, [], 0xFFFF⟩, dropped := min 65535 (s.link.dropped + 1) } }))
    ∧ (s.link.commands.length < 4 ∨ (s.link.replies.filter fun r => !r.ofHead).length < 4 →
        exec (.frameDiscard .noRoom) s = .next s.choose)
    ∧ (s.link.receiver.phase ≠ .hunting → s.serial.character = none →
        exec .frameGap s = .next (State.choose { s with link := { s.link with
          receiver := ⟨.hunting, [], 0xFFFF⟩, dropped := min 65535 (s.link.dropped + 1) } }))
    ∧ (s.link.receiver.phase = .hunting ∨ s.serial.character.isSome = true → exec .frameGap s = .next s.choose)

/-- The frame receiver takes each character by its phase (R178); a start bit that is high at its middle is noise, the
data bits come least significant bit first, and the stop bit does not matter (R177). RXD is watched in every
microsecond that passes, one with no command or one of so many that a row passes: a change from high to low starts a
character, the middle of each bit is sampled, a start bit high again is noise, and the stop bit's sample ends the
character, which is taken at once. The grain of a microsecond and the line that is still low and begins the next
character are the model's (log 30). -/
def Obligations.CharacterIsTakenByPhase : Prop :=
  (∀ (b : Byte) (bits : List Bool) (stop : Bool) (s u : State) (r : FrameReceiver), s.held = false →
    s.link.receiver = r → u = { s with serial := { s.serial with before := true, character := none } } →
    bits.length = 8 → (∀ i, i < 8 → b.getLsbD i = bits.getD i false) →
    exec (.characterReceived true bits stop) s = .next u.choose
    ∧ (r.phase = .hunting → exec (.characterReceived false bits stop) s = .next
        (if b = 0xC3 then (u.setReceiver ⟨.lengthLow, [], 0xFFFF⟩).choose else u.choose))
    ∧ (r.phase = .lengthLow → exec (.characterReceived false bits stop) s = .next
        (u.setReceiver ⟨.lengthHigh, r.bytes ++ [b], crcByte r.crc b⟩).choose)
    ∧ (r.phase = .lengthHigh → exec (.characterReceived false bits stop) s = .next
        (if leNat ((r.bytes ++ [b]).take 2) ≤ 200 then
          (u.setReceiver ⟨.kind, r.bytes ++ [b], crcByte r.crc b⟩).choose else u.discardFrame.choose))
    ∧ (r.phase = .kind → exec (.characterReceived false bits stop) s = .next
        (u.setReceiver ⟨.tag, r.bytes ++ [b], crcByte r.crc b⟩).choose)
    ∧ (r.phase = .tag → exec (.characterReceived false bits stop) s = .next
        (u.setReceiver ⟨if leNat (r.bytes.take 2) = 0 then .crcLow else .payload,
          r.bytes ++ [b], crcByte r.crc b⟩).choose)
    ∧ (r.phase = .payload → exec (.characterReceived false bits stop) s = .next
        (u.setReceiver ⟨if r.bytes.length + 1 < 4 + leNat (r.bytes.take 2) then .payload else .crcLow,
          r.bytes ++ [b], crcByte r.crc b⟩).choose)
    ∧ (r.phase = .crcLow → exec (.characterReceived false bits stop) s = .next
        (u.setReceiver ⟨.crcHigh, r.bytes ++ [b], r.crc⟩).choose)
    ∧ (r.phase = .crcHigh → exec (.characterReceived false bits stop) s = .next
        (if [byteAt r.bytes (4 + leNat (r.bytes.take 2)), b] = crcBytes r.crc then
          (u.takeFrame ⟨byteAt r.bytes 2, byteAt r.bytes 3, (r.bytes.drop 4).take (leNat (r.bytes.take 2))⟩).choose
        else u.discardFrame.choose)))
  ∧ (∀ (s u : State) (level : Bool), s.held = false → s.pending = [] → level = s.rxdAhead.headD s.serial.rxd →
      u = { s.lineTick with serial := { s.serial with rxd := level } } →
      (s.serial.character = none → step s = .next (State.choose { u with serial := ⟨level, level,
          if s.serial.before = true ∧ level = false then some ⟨s.clock + 1, []⟩ else none⟩ }))
      ∧ (∀ c at_, s.serial.character = some c → at_ = c.start + (2 * c.samples.length + 1) * 625 / 288 →
          (s.clock + 1 < at_ → step s = .next u.choose)
          ∧ (at_ ≤ s.clock + 1 →
              (c.samples = [] → level = true →
                step s = .next (State.choose { u with serial := ⟨level, true, none⟩ }))
              ∧ (c.samples ≠ [] ∨ level = false → c.samples.length < 9 →
                  step s = .next (State.choose { u with serial := { u.serial with
                    character := some ⟨c.start, c.samples ++ [level]⟩ } }))
              ∧ (9 ≤ c.samples.length → ∀ b : Byte, (∀ i, i < 8 → b.getLsbD i = c.samples.getD (i + 1) false) →
                  step s = .next (State.choose (State.takeCharacter { u with serial := ⟨level, true, none⟩ } b))))))

/-- The characters of a whole frame, taken one after another by a hunting receiver, do what the frame's row does. -/
def Obligations.CharactersOfAFrameTakeIt : Prop :=
  ∀ (s : State) (f : HostFrame), s.link.receiver.phase = .hunting → f.payload.length ≤ 200 →
    (frameBytes f.kind f.tag f.payload).foldl State.takeCharacter s = s.takeFrame f

/-- FRAME_SENT: a notice or a QUEUE_FULL reply leaves the line; with the reply of the command in hand that command leaves
the queue as well, and the command behind it is carried out before the transmitter chooses. -/
def Obligations.FrameSentFreesTheLine : Prop :=
  ∀ s : State, s.held = false →
    (∀ n, s.link.sending = some (.notice n) →
      exec .frameSent s = .next (State.choose { s with link := { s.link with sending := none } }))
    ∧ (∀ r, s.link.sending = some (.reply r) → r.ofHead = false →
        exec .frameSent s = .next (State.choose { s with link := { s.link with sending := none } }))
    ∧ (∀ r f, s.link.sending = some (.reply r) → r.ofHead = true → r.kind ≠ 0x07 ∨ r.status ≠ .ok →
        s.link.commands = [f] →
        exec .frameSent s = .next (State.choose { s with link := { s.link with sending := none, commands := [] } }))
    ∧ (∀ r f g rest, s.link.sending = some (.reply r) → r.ofHead = true → r.kind ≠ 0x07 ∨ r.status ≠ .ok →
        s.link.commands = f :: g :: rest →
        exec .frameSent s = .next (State.choose (State.carryOut
          { s with link := { s.link with sending := none, commands := g :: rest } } g)))

/-- The transmitter's choice: a frame on the line goes on; else the oldest reply waiting begins, which leaves the
replies waiting; else the notice at the head of the notice queue, which leaves the queue; else the transmitter is
idle. TXD is high but while a frame is sent, whose characters follow one another, each a start bit, eight data bits
least significant first and a stop bit (R184). A reply's frame and a notice's frame have the form, the headers, the
codes and the field bytes of R194; the bytes 0 and 1 of a notice's flags and marks are the model's choice (log 31). -/
def Obligations.TransmitterChoosesRepliesFirst : Prop :=
  (∀ l : HostLink,
    (∀ f, l.sending = some f → l.choose = l)
    ∧ (∀ r rest, l.sending = none → l.replies = r :: rest →
        l.choose = { l with replies := rest, sending := some (.reply r) })
    ∧ (∀ n rest, l.sending = none → l.replies = [] → l.notices = n :: rest →
        l.choose = { l with notices := rest, sending := some (.notice n) })
    ∧ (l.sending = none → l.replies = [] → l.notices = [] → l.choose = l))
  ∧ (∀ s : State, (s.link.sending = none → ∀ t, s.txd t = true)
      ∧ ∀ f, s.link.sending = some f →
        (∀ (k i : Nat) (b : Byte), f.bytes[k]? = some b → i < 10 →
          s.txd (10 * k + i) = if i = 0 then false else if i = 9 then true else b.getLsbD (i - 1))
        ∧ (∀ t, 10 * f.bytes.length ≤ t → s.txd t = true))
  ∧ (∀ (r : Reply) (body : List Byte),
      body = [byteOf (2 + r.result.length), byteOf ((2 + r.result.length) / 256), 0x80, r.tag, r.kind, r.status.code]
        ++ r.result →
      (Outgoing.reply r).bytes = 0xC3 :: body ++ [(crcOf body).setWidth 8, (crcOf body >>> 8).setWidth 8])
  ∧ ([Status.ok, .malformed, .badField, .wrongState, .noLabel, .noRecord, .storeFull, .tableFull, .incomplete, .pinLimit,
      .damaged, .duplicate, .queueFull].map Status.code = [0, 1, 2, 3, 4, 5, 6, 7, 8, 9, 10, 11, 12])
  ∧ (∀ (p : Posted) (f body : List Byte), f = p.notice.fieldBytes →
      body = [byteOf (6 + f.length), byteOf ((6 + f.length) / 256), 0x81, 0, p.notice.code,
          if p.notice.urgent then 1 else 0] ++ leBytes 4 p.stamp.toNat ++ f →
      (Outgoing.notice p).bytes = 0xC3 :: body ++ [(crcOf body).setWidth 8, (crcOf body >>> 8).setWidth 8])
  ∧ (∀ n : Notice, n.urgent = true ↔ (∃ st id, n = .linkState st (.channelBusy id))
      ∨ (∃ a mv b sv, n = .battery a mv b .critical sv) ∨ ∃ a p g, n = .transferFailed a p g .storeError)
  ∧ (∀ (a p v : Nat) (g : Byte) (id : LongId) (hub : Word16) (c : Capabilities) (x : Bool) (n : Notice) (code : Byte)
      (fields : List Byte),
      ((n, code, fields) ∈ ([(.hubReady .power, 1, [0]), (.hubReady .pin, 1, [1]), (.hubReady .command, 1, [2]),
        (.foreignHub hub, 3, leBytes 2 hub.toNat),
        (.joinAsked id c none, 4, leBytes 6 id.toNat
          ++ [byteOf (c.pageCount + 16 * c.displayClass), byteOf (c.maxLength / 64), 0, 0]),
        (.joinAsked id c (some v), 4, leBytes 6 id.toNat
          ++ [byteOf (c.pageCount + 16 * c.displayClass), byteOf (c.maxLength / 64)] ++ leBytes 2 v),
        (.joinRefused id .full, 5, leBytes 6 id.toNat ++ [0]), (.joinRefused id .listFull, 5, leBytes 6 id.toNat ++ [1]),
        (.labelJoined a id x, 6, byteOf a :: leBytes 6 id.toNat ++ [if x then 1 else 0]),
        (.joinFailed a id, 7, byteOf a :: leBytes 6 id.toNat), (.labelMissing a, 8, [byteOf a]),
        (.labelBack a, 9, [byteOf a]), (.labelReleased a x, 10, [byteOf a, if x then 1 else 0]),
        (.pageDelivered a p g, 13, [byteOf a, byteOf p, g]), (.pageWanted a p, 14, [byteOf a, byteOf p]),
        (.pageEvicted a p g, 15, [byteOf a, byteOf p, g]), (.transferFailed a p g .noProgress, 16, [byteOf a, byteOf p, g, 0]),
        (.transferFailed a p g .labelBusy, 16, [byteOf a, byteOf p, g, 1]),
        (.transferFailed a p g .storeError, 16, [byteOf a, byteOf p, g, 2])] : List (Notice × Byte × List Byte))
        ∨ (∃ st b cause e, (st, b) ∈ [(HubStateName.offline, (0 : Byte)), (.listening, 1), (.running, 2), (.stopping, 3),
              (.testing, 4)]
            ∧ (cause, e) ∈ [(LinkCause.start, ([0, 0, 0] : List Byte)), (.stop, [1, 0, 0]),
              (.channelBusy hub, 2 :: leBytes 2 hub.toNat), (.testEnd, [3, 0, 0])]
            ∧ n = .linkState st cause ∧ code = 2 ∧ fields = b :: e)
        ∨ (∃ k b, (k, b) ∈ [(OpKind.ping, (0 : Byte)), (.setProfile, 1), (.setMode, 2), (.showPage, 3), (.release, 4)]
            ∧ (n = .opDone a k ∧ code = 11 ∧ fields = [byteOf a, b]
              ∨ ∃ why e, (why, e) ∈ [(OpFailure.refused, (0 : Byte)), (.noAnswer, 1), (.released, 2), (.forgotten, 3),
                    (.joinFailed, 4)]
                  ∧ n = .opFailed a k why ∧ code = 12 ∧ fields = [byteOf a, b, e]))
        ∨ (∃ k b m e, (k, b) ∈ [(BatteryClass.ok, (0 : Byte)), (.low, 1), (.critical, 2)]
            ∧ (m, e) ∈ [(BatteryClass.ok, (0 : Byte)), (.low, 1), (.critical, 2)]
            ∧ n = .battery a v k m x ∧ code = 17 ∧ fields = byteOf a :: leBytes 2 v ++ [b, e, if x then 1 else 0])
        ∨ (∃ t : TestCounts, n = .testResult t x ∧ code = 18 ∧ fields = leBytes 4 t.sent ++ leBytes 4 t.whole
            ++ leBytes 4 t.bitErrors ++ leBytes 4 t.lost ++ leBytes 4 t.edges ++ leBytes 4 t.violations
            ++ [if x then 1 else 0])) →
      n.code = code ∧ n.fieldBytes = fields)

/-- Posting in a queue with room: an urgent notice goes behind the urgent notices and ahead of every ordinary one, an
ordinary notice to the tail; nothing is lost. A post is this and nothing else: the notice carries the round stamp, or 0
while the timebase is stopped (log 22), and only the notice queue and the overflow flag change; several notices are
posted in order. -/
def Obligations.NoticeTakesItsPlaceByClass : Prop :=
  (∀ (q : List Posted) (overflow : Bool) (p : Posted), UrgentFirst q → q.length < 32 →
    (p.notice.urgent = true → queueNotice q overflow p =
      ((q.filter fun x => x.notice.urgent) ++ p :: (q.filter fun x => !x.notice.urgent), overflow))
    ∧ (p.notice.urgent = false → queueNotice q overflow p = (q ++ [p], overflow)))
  ∧ (∀ (s : State) (n : Notice) (r : List Posted × Bool),
      r = queueNotice s.link.notices s.link.overflow ⟨if s.timebase.running then s.timebase.stamp else 0, n⟩ →
      s.post n = { s with link := { s.link with notices := r.1, overflow := r.2 } })
  ∧ (∀ s : State, s.postAll [] = s ∧ ∀ n ns, s.postAll (n :: ns) = (s.post n).postAll ns)

/-- Posting in a full queue: the three rows of R186, each setting the overflow flag, and what a post does then to the
state, its notice under the round stamp or 0 while the timebase is stopped (log 22). -/
def Obligations.FullNoticeQueueLosesOneNotice : Prop :=
  (∀ (q : List Posted) (overflow : Bool) (p : Posted), UrgentFirst q → q.length = 32 →
    (p.notice.urgent = false → queueNotice q overflow p = (q, true))
    ∧ (p.notice.urgent = true → (∃ x ∈ q, x.notice.urgent = false) → queueNotice q overflow p =
        ((q.filter fun x => x.notice.urgent) ++ p :: (q.filter fun x => !x.notice.urgent).dropLast, true))
    ∧ (p.notice.urgent = true → (∀ x ∈ q, x.notice.urgent = true) → queueNotice q overflow p = (q, true)))
  ∧ (∀ (s : State) (n : Notice) (q : List Posted), q = s.link.notices → UrgentFirst q → q.length = 32 →
      (n.urgent = false ∨ (∀ x ∈ q, x.notice.urgent = true) →
        s.post n = { s with link := { s.link with overflow := true } })
      ∧ (n.urgent = true → (∃ x ∈ q, x.notice.urgent = false) → s.post n = { s with link := { s.link with
          notices := (q.filter fun x => x.notice.urgent) ++ ⟨if s.timebase.running then s.timebase.stamp else 0, n⟩
            :: (q.filter fun x => !x.notice.urgent).dropLast
          overflow := true } }))

/-! ## Hub control (02) -/

/-- CONFIGURE: the group, range and cross checks in order, each with its status; past them every field carried is
written at once, nothing else changes, and the reply carries the whole record. The fields carried are those the mask
marks, in order, with two bytes each for fields 0, 10 and 11 and one for every other; their ranges, what each writes
and the reply's bytes are those of the tables of R38 and R196. -/
def Obligations.ConfigureChecksThenWrites : Prop :=
  (∀ (tag : Byte) (p : List Byte) (s : State), Ready s → payloadOk .configure p = true →
    (s.timebase.running = true → (∃ x ∈ configValues p, x.1 < 4) →
      exec (.configure tag p) s = .next ((s.inHand ⟨0x03, tag, p⟩).reply 0x03 tag .wrongState []))
    ∧ (s.timebase.running = false ∨ (∀ x ∈ configValues p, 4 ≤ x.1) →
        ((∃ x ∈ configValues p, configFieldInRange x = false) →
          exec (.configure tag p) s = .next ((s.inHand ⟨0x03, tag, p⟩).reply 0x03 tag .badField []))
        ∧ ((∀ x ∈ configValues p, configFieldInRange x = true) →
            ∀ c, c = s.config.writeAll (configValues p) →
            (¬ (c.carrierMark + c.carrierSpace ≤ 48 ∧ c.batteryCritical + 100 ≤ c.batteryLow) →
              exec (.configure tag p) s = .next ((s.inHand ⟨0x03, tag, p⟩).reply 0x03 tag .badField []))
            ∧ (c.carrierMark + c.carrierSpace ≤ 48 → c.batteryCritical + 100 ≤ c.batteryLow →
                exec (.configure tag p) s = .next (State.reply { s.inHand ⟨0x03, tag, p⟩ with config := c }
                  0x03 tag .ok (configBytes c))))))
  ∧ (∀ (m0 m1 : Byte) (rest : List Byte),
      (configValues (m0 :: m1 :: rest)).map Prod.fst
        = (List.range 13).filter (fun i => (m0.toNat + 256 * m1.toNat).testBit i)
      ∧ ∀ before i v after, configValues (m0 :: m1 :: rest) = before ++ (i, v) :: after →
          ∀ n, n = (before.map fun x => if x.1 = 0 ∨ x.1 = 10 ∨ x.1 = 11 then 2 else 1).sum →
          v = if i = 0 ∨ i = 10 ∨ i = 11 then (rest.getD n 0).toNat + 256 * (rest.getD (n + 1) 0).toNat
            else (rest.getD n 0).toNat)
  ∧ (∀ v : Nat,
      (configFieldInRange (0, v) = true ↔ 1 ≤ v ∧ v ≤ 65534)
      ∧ (configFieldInRange (1, v) = true ↔ 1 ≤ v ∧ v ≤ 64) ∧ (configFieldInRange (2, v) = true ↔ 1 ≤ v ∧ v ≤ 64)
      ∧ (configFieldInRange (3, v) = true ↔ v = 8 ∨ v = 16 ∨ v = 32 ∨ v = 64)
      ∧ (configFieldInRange (4, v) = true ↔ v ≤ 2)
      ∧ (configFieldInRange (5, v) = true ↔ v = 1 ∨ v = 2 ∨ v = 4 ∨ v = 8 ∨ v = 16)
      ∧ (configFieldInRange (6, v) = true ↔ 1 ≤ v ∧ v ≤ 16) ∧ (configFieldInRange (7, v) = true ↔ 1 ≤ v ∧ v ≤ 15)
      ∧ (configFieldInRange (8, v) = true ↔ 1 ≤ v ∧ v ≤ 15) ∧ (configFieldInRange (9, v) = true ↔ 1 ≤ v ∧ v ≤ 7)
      ∧ (configFieldInRange (10, v) = true ↔ 1800 ≤ v ∧ v ≤ 3600)
      ∧ (configFieldInRange (11, v) = true ↔ 1800 ≤ v ∧ v ≤ 3600) ∧ (configFieldInRange (12, v) = true ↔ v ≤ 1))
  ∧ (∀ c : Configuration, c.writeAll [] = c
      ∧ ∀ (v : Nat) (fs : List (Nat × Nat)),
        c.writeAll ((0, v) :: fs) = { c with hubId := BitVec.ofNat 16 v }.writeAll fs
        ∧ c.writeAll ((1, v) :: fs) = { c with carrierMark := v }.writeAll fs
        ∧ c.writeAll ((2, v) :: fs) = { c with carrierSpace := v }.writeAll fs
        ∧ c.writeAll ((3, v) :: fs) = { c with normalLead := v }.writeAll fs
        ∧ c.writeAll ((4, v) :: fs) = { c with
            joinPolicy := if v = 0 then .openAll else if v = 1 then .ask else .closed }.writeAll fs
        ∧ c.writeAll ((5, v) :: fs) = { c with defaultPeriod := v }.writeAll fs
        ∧ c.writeAll ((6, v) :: fs) = { c with burstAllowance := v }.writeAll fs
        ∧ c.writeAll ((7, v) :: fs) = { c with missLimit := v }.writeAll fs
        ∧ c.writeAll ((8, v) :: fs) = { c with stallLimit := v }.writeAll fs
        ∧ c.writeAll ((9, v) :: fs) = { c with opAttempts := v }.writeAll fs
        ∧ c.writeAll ((10, v) :: fs) = { c with batteryLow := v }.writeAll fs
        ∧ c.writeAll ((11, v) :: fs) = { c with batteryCritical := v }.writeAll fs
        ∧ c.writeAll ((12, v) :: fs) = { c with batterySaving := decide (v = 1) }.writeAll fs)
  ∧ (∀ c : Configuration, configBytes c =
      [0xFF, 0x1F, byteOf c.hubId.toNat, byteOf (c.hubId.toNat / 256), byteOf c.carrierMark, byteOf c.carrierSpace,
        byteOf c.normalLead, (match c.joinPolicy with | .openAll => 0 | .ask => 1 | .closed => 2),
        byteOf c.defaultPeriod, byteOf c.burstAllowance, byteOf c.missLimit, byteOf c.stallLimit, byteOf c.opAttempts,
        byteOf c.batteryLow, byteOf (c.batteryLow / 256), byteOf c.batteryCritical, byteOf (c.batteryCritical / 256),
        if c.batterySaving then 1 else 0])

/-- START: taken in OFFLINE, with the timebase stopped or running; refused in every other state. -/
def Obligations.StartEntersListening : Prop :=
  ∀ (tag : Byte) (s : State), Ready s →
    (s.hub = .offline → s.timebase.running = false →
      exec (.start tag []) s = .next ((State.post
        { s.inHand ⟨0x04, tag, []⟩ with hub := .listening 1 true, timebase := ⟨true, 0, 0, 0⟩ }
        (.linkState .listening .start)).reply 0x04 tag .ok []))
    ∧ (s.hub = .offline → s.timebase.running = true →
        exec (.start tag []) s = .next ((State.post
          { s.inHand ⟨0x04, tag, []⟩ with hub := .listening (s.timebase.stamp + 2) false }
          (.linkState .listening .start)).reply 0x04 tag .ok []))
    ∧ (s.hub ≠ .offline →
        exec (.start tag []) s = .next ((s.inHand ⟨0x04, tag, []⟩).reply 0x04 tag .wrongState []))

/-- STOP by the hub state in which it is taken. In TESTING the burst is dropped, the period in progress is not judged,
and TEST_RESULT with the aborted flag goes ahead of the LINK_STATE notice. A receiver that was blanked while that
burst was sent leaves blanking at once, hunting at the level of PDIN last sampled; any other receiver stands as it
did, an open assembly with it (the model's choice, log 18). -/
def Obligations.StopActsByHubState : Prop :=
  ∀ (tag : Byte) (s u : State), Ready s → u = s.inHand ⟨0x05, tag, []⟩ →
    (s.hub = .offline ∨ s.hub = .stopping → exec (.stop tag []) s = .next (u.reply 0x05 tag .ok []))
    ∧ (∀ e m, s.hub = .listening e m →
        exec (.stop tag []) s = .next ((State.post { u with hub := .offline } (.linkState .offline .stop)).reply
          0x05 tag .ok []))
    ∧ (s.hub = .running →
        exec (.stop tag []) s = .next ((State.post { u with hub := .stopping } (.linkState .stopping .stop)).reply
          0x05 tag .ok []))
    ∧ (∀ t, s.hub = .testing t → ∀ v : State,
        v = { u with
          hub := .offline
          burst := none
          receiver := if s.burst.isSome = true ∧ s.receiver.blanked = true
            then ⟨s.receiver.pdin, s.receiver.pdin, none, none, false, none, false⟩ else s.receiver } →
        exec (.stop tag []) s = .next (((v.post (.testResult
            { t.counts with sent := if t.burstEnded then t.counts.sent + 1 else t.counts.sent } true)).post
            (.linkState .offline .stop)).reply 0x05 tag .ok []))

/-- LINE_TEST: refused outside OFFLINE, then for its mode or count; taken, TESTING is entered with the counts at zero
and the PRBS seeded, LINK_STATE is posted, and in LOOP mode the first test burst begins. Nothing is heard of the first
period yet: an assembly that is open stays open (the model's choice, log 18), and its sync fell before the period, so
it is not the period's burst (R17). -/
def Obligations.LineTestBeginsItsFirstPeriod : Prop :=
  ∀ (tag m n : Byte) (s u : State) (r : Receiver), Ready s → u = s.inHand ⟨0x06, tag, [m, n]⟩ →
    r = { s.receiver with assembly := s.receiver.assembly.map fun a => { a with ofPeriod := false } } →
    (s.hub ≠ .offline → exec (.lineTest tag [m, n]) s = .next (u.reply 0x06 tag .wrongState []))
    ∧ (s.hub = .offline → 1 < m.toNat ∨ n = 0 →
        exec (.lineTest tag [m, n]) s = .next (u.reply 0x06 tag .badField []))
    ∧ (s.hub = .offline → m = 1 → n ≠ 0 →
        exec (.lineTest tag [m, n]) s = .next (State.reply
          { State.post { u with hub := .testing ⟨.quiet, n.toNat, 0x1FF, 0x1FF, false, .unheard, ⟨0, 0, 0, 0, 0, 0⟩⟩ }
              (.linkState .testing .start) with
            hub := .testing ⟨.quiet, n.toNat, 0x1FF, 0x1FF, false, .unheard, ⟨0, 0, 0, 0, 0, 0⟩⟩
            receiver := r } 0x06 tag .ok []))
    ∧ (s.hub = .offline → m = 0 → n ≠ 0 → s.burst = none →
        exec (.lineTest tag [m, n]) s = .next (State.reply
          { State.post { u with hub := .testing ⟨.loop, n.toNat, 0x1FF, 0x1FF, false, .unheard, ⟨0, 0, 0, 0, 0, 0⟩⟩ }
              (.linkState .testing .start) with
            receiver := r
            burst := some ⟨s.config.carrierMark, s.config.carrierSpace, 8, .hubControl, 48, 0, 0xFFFF, .lead, 0, false,
              none, false⟩ } 0x06 tag .ok []))

/-- ROUND_BOUNDARY: what is left of slot 63 passes in idle microseconds (log 1), and a timebase that those leave at the
slot's end takes the boundary there; one that they undo (R32) takes none. At the end of slot 63 an assembly of one of
its windows that is still open is closed as TRUNCATED,
and what is left of that slot ends by its window end alone, as REPLY_WINDOW_END ends it, its call end being left to
CALL_END with the data slot that holds it (the model's reading, log 15); the clock stands; the round
stamp grows by one and slot 0 begins, and the blocks take the boundary in turn, their notices under the new stamp (the
model's order, log 16). Hub control settles its state first, with its LINK_STATE notice; STOPPING ends at this
boundary and the round that begins is not served, as R28 has it against R149's row for a STOP, the chapter of the
block that owns the hub state having the word on it (log 29); every SENDING record is READY again and every context
free. In RUNNING the round is served whatever frames wait in the command queue, a STOP that is not carried out yet
among them (log 29). The directory drops the list entries last heard four or more rounds ago and takes the
join-crowded flag from the accumulator; at an epoch boundary cooling that is due ends and a planned profile of the
epoch that has ended is folded. Exactly a served round has a plan, made of the state so settled, and its beacon goes
to the transmitter, which blanks the receiver and closes an open assembly; at the boundary that ends LISTENING the
receiver stands as it did and blanking is due at the beacon's first tick, and the round is marked as the first served
one (log 27). The stored bytes, the configuration record and the command queue stay. At another slot, or with the
timebase stopped, the row is out of place and has no effect (the model's choice, log 2). -/
def Obligations.RoundBoundaryBeginsTheNextRound : Prop :=
  ∀ s : State, s.held = false →
    (s.timebase.running = false ∨ s.timebase.slot ≠ 63 → exec .roundBoundary s = .next s.choose)
    ∧ (s.timebase.running = true → s.timebase.slot = 63 → ∀ e, e = s.idleFor (16000 - s.timebase.slotTime) →
        (e.timebase.running = true → e.timebase.slot = 63 → 16000 ≤ e.timebase.slotTime →
          exec .roundBoundary s = exec .roundBoundary e)
        ∧ (e.timebase.running = false ∨ e.timebase.slot ≠ 63 ∨ e.timebase.slotTime < 16000 →
          exec .roundBoundary s = .next e.choose))
    ∧ WindowClosed s s.closeWindowAssembly ∧ s.closeWindowAssembly.windowHeldOpen = false
    ∧ exec .replyWindowEnd s.closeWindowAssembly = .next s.closeWindowAssembly.takeWindowEnd.choose
    ∧ (s.timebase.running = true → s.timebase.slot = 63 → 16000 ≤ s.timebase.slotTime →
        ∃ t : State, exec .roundBoundary s = .next t.choose
        ∧ t.timebase = ⟨true, s.timebase.stamp + 1, 0, 0⟩ ∧ t.clock = s.clock
        ∧ t.hub.name = (match s.hub with
            | .offline => .offline
            | .listening e _ => if s.timebase.stamp + 1 = e then .running else .listening
            | .running => .running
            | .stopping => .offline
            | .testing _ => .testing)
        ∧ (t.plan.isSome = true ↔ t.hub = .running)
        ∧ t.foreignSeen = (if (s.timebase.stamp + 1).toNat % 16 = 0 then false else s.foreignSeen)
        ∧ (s.hub = .stopping → ∀ i, t.context i = none)
        ∧ (t.firstServed = true ↔ ∃ b, s.hub = .listening (s.timebase.stamp + 1) b)
        ∧ t.config = s.config ∧ t.store.memory = s.store.memory ∧ t.store.parity = s.store.parity
        ∧ t.link.commands = s.link.commands ∧ t.link.replies = s.link.replies
        ∧ ∀ (u : State) (now : Stamp), now = s.timebase.stamp + 1 →
          u = { s.closeWindowAssembly.takeWindowEnd with timebase := ⟨true, now, 0, 0⟩ } →
          t.dataSlot = u.dataSlot
          ∧ ((∃ b, s.hub = .listening now b) → t.link = (u.post (.linkState .running .start)).link)
          ∧ (s.hub = .stopping → t.link = (u.post (.linkState .offline .stop)).link
              ∧ (∀ h, t.record h = (s.record h).map fun r =>
                  if r.state = .sending then { r with state := .ready, readyStamp := some now } else r)
              ∧ t.store.heldOrder = s.store.heldOrder)
          ∧ ((∀ b, s.hub ≠ .listening now b) → s.hub ≠ .stopping → t.link = u.link)
          ∧ ((∀ b, s.hub ≠ .listening now b) → s.hub ≠ .stopping →
              t.hub = u.hub ∧ ((∀ m, s.hub ≠ .testing m) → t.hub = s.hub))
          ∧ ((∃ b, s.hub = .listening now b) → t.receiver = u.receiver ∧ t.blankingDue = t.burst.isSome)
          ∧ ((∀ b, s.hub ≠ .listening now b) → t.blankingDue = s.blankingDue)
          ∧ t.directory.admission = u.directory.admission.filter (fun x => decide ((now - x.lastHeard).toNat < 4))
          ∧ t.directory.crowded = u.directory.accumulator ∧ t.directory.accumulator = false
          ∧ (now.toNat % 16 ≠ 0 → ∀ a, t.entry a = u.entry a)
          ∧ (now.toNat % 16 = 0 → ∀ a, t.entry a = (match u.entry a with
              | .vacant => .vacant
              | .cooling id e => if e.toNat = now.toNat / 16 % 65536 then .vacant else .cooling id e
              | .label l => .label (match l.planned with
                  | some p => if p.effective.toNat = s.timebase.stamp.toNat / 16 % 65536
                      then { l with current := p.profile, planned := none } else l
                  | none => l)))
          ∧ (t.hub ≠ .running → t.burst = s.burst ∧ t.receiver = u.receiver
              ∧ (s.hub ≠ .stopping → t.store = s.store ∧ t.contexts = s.contexts))
          ∧ (t.hub = .running → ∀ v : State, v = { t with
                plan := none, burst := s.burst, receiver := u.receiver, store := s.store, contexts := s.contexts } →
              t.plan = v.buildPlan.plan ∧ t.store = v.buildPlan.store ∧ t.contexts = v.buildPlan.contexts
              ∧ (∀ p, t.plan = some p → s.burst = none → t.burst = some ⟨s.config.carrierMark, s.config.carrierSpace,
                    p.beacon.lead, .planner p.beacon.bytes, p.beacon.bytes.length, 0, 0xFFFF, .lead, 0, false, none,
                    false⟩
                  ∧ ((∀ b, s.hub ≠ .listening now b) →
                      t.receiver = { u.receiver with blanked := true, assembly := none }))))

/-- SLOT_START: what is left of the slot in progress passes in idle microseconds (log 1), and a timebase that those
leave at the slot's end takes the slot start there; one that they undo (R32) takes none. At the slot's end what is left
of the slot ends (log 15), after a beacon's first tick that is still due (log 27): an assembly of one of its windows
that is still open is closed as TRUNCATED, then what REPLY_WINDOW_END does and what CALL_END does is done, if it is
still to come. The next slot begins at time 0, with the clock and the levels ahead as they stand; the plan stays.
A slot with no place in the slot map, and every slot of a round that is not served, changes nothing more and sends
nothing. A data slot with a place sends what the place names, and has a reply window exactly when its burst went out.
After slot 63, or with the timebase stopped, the row is out of place and has no effect (the model's choice, log 2). -/
def Obligations.SlotStartOpensTheNextSlot : Prop :=
  ∀ s : State, s.held = false →
    (s.timebase.running = false ∨ 63 ≤ s.timebase.slot → exec .slotStart s = .next s.choose)
    ∧ (s.timebase.running = true → s.timebase.slot < 63 → ∀ e, e = s.idleFor (16000 - s.timebase.slotTime) →
        (e.timebase.running = true → e.timebase.slot < 63 → 16000 ≤ e.timebase.slotTime →
          exec .slotStart s = exec .slotStart e)
        ∧ (e.timebase.running = false ∨ 63 ≤ e.timebase.slot ∨ e.timebase.slotTime < 16000 →
          exec .slotStart s = .next e.choose))
    ∧ (∀ f, f = s.firstTick.closeWindowAssembly → WindowClosed s.firstTick f ∧ f.windowHeldOpen = false
        ∧ exec .replyWindowEnd f = .next f.takeWindowEnd.choose
        ∧ exec .callEnd f.takeWindowEnd = .next f.takeWindowEnd.takeCallEnd.choose)
    ∧ (s.timebase.running = true → s.timebase.slot < 63 → 16000 ≤ s.timebase.slotTime →
        ∃ t : State, exec .slotStart s = .next t.choose
        ∧ t.timebase = ⟨true, s.timebase.stamp, s.timebase.slot + 1, 0⟩ ∧ t.plan = s.plan
        ∧ t.config = s.config ∧ t.store.memory = s.store.memory ∧ t.store.parity = s.store.parity
        ∧ t.link.commands = s.link.commands ∧ t.link.replies = s.link.replies
        ∧ ∀ ended v : State, ended = s.firstTick.closeWindowAssembly.takeWindowEnd.takeCallEnd →
          v = { ended with timebase := ⟨true, s.timebase.stamp, s.timebase.slot + 1, 0⟩ } →
          (∀ p, s.plan = some p → p.placeOf (s.timebase.slot + 1) = none →
            t = { v with dataSlot := none } ∧ (s.burst = none → t.burst = none))
          ∧ (s.plan = none → t = { v with dataSlot := none } ∧ (s.burst = none → t.burst = none))
          ∧ (∀ p place, s.plan = some p → p.placeOf (s.timebase.slot + 1) = some place →
              ∃ d, t.dataSlot = some d ∧ d.slot = s.timebase.slot + 1 ∧ d.round = s.timebase.stamp ∧ d.place = place
                ∧ d.windowOpen = d.endDue ∧ d.callEnd = p.callEnding (s.timebase.slot + 1)
                ∧ (∀ w, v.sendPlace (s.timebase.slot + 1) place = some w →
                    t = { w with dataSlot := some d } ∧ d.windowOpen = true)
                ∧ (v.sendPlace (s.timebase.slot + 1) place = none →
                    t = { v with dataSlot := some d } ∧ d.windowOpen = false)
                ∧ (s.burst.isSome = true → d.windowOpen = false)
                ∧ (s.burst = none → (d.windowOpen = true ↔ t.burst.isSome = true))))

/-- A data slot sends when its work is still there and the transmitter takes the request (R147), at the instant the
slot opens. The four slots of the directory send while the entry is in the state the slot needs, a control slot while
an operation is unsent in this round, and one whose entry is VACANT or COOLING sends nothing: with what bytes, under
the next control sequence, with what marks and, for a control slot, with what open send. A fragment slot sends while
its record is SENDING for the label with a fragment to send: the lowest neither confirmed nor sent in this call, or
else the lowest not confirmed. -/
def Obligations.DirectorySlotSendsWhileItsEntryStands : Prop :=
  (∀ (s : State) (slot a : Nat) (l : Label), s.label? a = some l → s.mayTransmit = true → s.burst = none →
    ((s.sendPlace slot ⟨a, .assign⟩).isSome = l.phase.isJoining)
    ∧ ((s.sendPlace slot ⟨a, .control⟩).isSome = (l.phase.isBound && l.queue.any fun o => !o.sentThisRound))
    ∧ ((s.sendPlace slot ⟨a, .probe⟩).isSome = l.phase.isMissing)
    ∧ ((s.sendPlace slot ⟨a, .release⟩).isSome = l.phase.isReleasing)
    ∧ ∀ (q : BitVec 4) (v : State) (sends : Burst → State), q = l.sequence + 1 → v = s.beginBlanking →
      (∀ b, sends b = { v with burst := some b }) →
      ∀ out : List Byte → Burst, (∀ bytes, out bytes = ⟨s.config.carrierMark, s.config.carrierSpace, 8,
          .directory bytes, bytes.length, 0, 0xFFFF, .lead, 0, false, none, false⟩) →
      (l.phase.isJoining = true → s.sendPlace slot ⟨a, .assign⟩ = some ((sends (out
          ([0x64, s.config.hubId.setWidth 8] ++ leBytes 6 l.longId.toNat
            ++ [byteOf a, byteOf q.toNat, profileByte (l.applicable s.epoch)] ++ leBytes 2 s.config.hubId.toNat))).setEntry
          a (.label { l with sequence := q, sentMark := true })))
      ∧ (∀ before o behind, l.phase = .bound → l.queue = before ++ o :: behind →
          (∀ x ∈ before, x.sentThisRound = true) → o.sentThisRound = false →
          s.sendPlace slot ⟨a, .control⟩ = some ((sends (out
            ([0x63, s.config.hubId.setWidth 8, byteOf a, byteOf (q.toNat + 16 * (match o.fields with
                | .ping => 0 | .setProfile _ => 1 | .setMode _ => 2 | .showPage _ => 3 | .release => 4))]
              ++ (match o.fields with
                  | .setProfile p => profileByte p :: leBytes 2 (s.epoch + 1).toNat
                  | .setMode m => [(match m with | .normal => 0 | .inverted => 1 | .blank => 2 | .allOn => 3), 0, 0]
                  | .showPage g => [byteOf g, 0, 0]
                  | _ => [0, 0, 0])))).setEntry a (.label { l with
                    sequence := q, sentMark := true
                    queue := l.queue.map fun x => if x.kind = o.kind then { x with sentThisRound := true } else x
                    openSend := some ⟨slot, q, o.fields, s.epoch + 1, true, false⟩ })))
      ∧ (l.phase = .missing → s.sendPlace slot ⟨a, .probe⟩ = some ((sends (out
          [0x63, s.config.hubId.setWidth 8, byteOf a, byteOf q.toNat, 0, 0, 0])).setEntry a
          (.label { l with sequence := q, sentMark := true })))
      ∧ (l.phase.isReleasing = true → s.sendPlace slot ⟨a, .release⟩ = some ((sends (out
          [0x63, s.config.hubId.setWidth 8, byteOf a, byteOf (q.toNat + 64), 0, 0, 0])).setEntry a
          (.label { l with
            sequence := q, sentMark := true
            queue := l.queue.map fun x => if x.kind = .release then { x with sentThisRound := true } else x }))))
  ∧ (∀ (s : State) (slot a : Nat), (∀ l, s.entry a ≠ .label l) →
      s.sendPlace slot ⟨a, .assign⟩ = none ∧ s.sendPlace slot ⟨a, .control⟩ = none
      ∧ s.sendPlace slot ⟨a, .probe⟩ = none ∧ s.sendPlace slot ⟨a, .release⟩ = none)
  ∧ (∀ (s : State) (slot a h : Nat),
      ((∀ r, s.record h = some r → r.state ≠ .sending ∨ r.address ≠ a) ∨ s.contextOf h = none →
        s.sendPlace slot ⟨a, .fragment h⟩ = none)
      ∧ (∀ r i c, s.record h = some r → r.state = .sending → r.address = a → s.contextOf h = some i →
          s.context i = some c →
          ((∀ f, f < (r.length + 47) / 48 → f ∈ c.confirmed) → s.sendPlace slot ⟨a, .fragment h⟩ = none)
          ∧ (∀ f l, f < (r.length + 47) / 48 → f ∉ c.confirmed →
              (f ∉ c.sentThisRound ∧ (∀ g, g < f → g ∈ c.confirmed ∨ g ∈ c.sentThisRound)
                ∨ (∀ g, g < (r.length + 47) / 48 → g ∈ c.confirmed ∨ g ∈ c.sentThisRound)
                  ∧ ∀ g, g < f → g ∈ c.confirmed) →
              s.mayTransmit = true → s.burst = none → s.entry a = .label l →
              ∃ sent : List Nat, (∀ g, g ∈ sent ↔ g = f ∨ g ∈ c.sentThisRound)
                ∧ s.sendPlace slot ⟨a, .fragment h⟩ = some (State.setEntry
                    (State.setContext { s.beginBlanking with
                        burst := some ⟨s.config.carrierMark, s.config.carrierSpace, 8,
                          .transfer i (s.config.hubId.setWidth 8), 7 + min 48 (r.length - 48 * f), 0, 0xFFFF, .lead, 0,
                          false, none, false⟩ }
                      i (some { c with sentThisRound := sent, onAir := some f }))
                    a (.label { l with sentMark := true })))))
  ∧ (∀ s : State, (s.mayTransmit = false ∨ s.burst.isSome = true → ∀ slot p, s.sendPlace slot p = none)
      ∧ (s.mayTransmit = true ↔ s.hub = .running ∨ s.hub = .stopping ∨ ∃ t, s.hub = .testing t)
      ∧ ((∃ t, s.hub = .testing t ∧ t.mode = .loop) → s.beginBlanking = s)
      ∧ ((∀ t, s.hub = .testing t → t.mode = .quiet) → s.receiver.assembly = none →
          s.beginBlanking = { s with receiver := { s.receiver with blanked := true } })
      ∧ (∀ a, s.lineTest = none → s.receiver.assembly = some a →
          s.beginBlanking = { s with
            receiver := { s.receiver with blanked := true, assembly := none }
            directory := { s.directory with accumulator := match a.window with
              | some (.join _) => true
              | _ => s.directory.accumulator } }))

/-- BEACON: a foreign hub id is 1 to 65534 and not the part's own. A foreign beacon is discarded in OFFLINE; in
LISTENING it ends the attempt to start, undoing a timebase that this START began; in RUNNING and STOPPING it is
reported once per epoch. Any other beacon is discarded, one too short to hold a hub id among them (log 13). The
receiver hears it when it is not blanked. One whose sync fell before the boundary that ended LISTENING and whose end
fell after it is taken at its end, in slot 0 of the first served round, blanked as the receiver is by then (R32; log
27). Any other beacon under blanking, and every one in a line test, is not heard. -/
def Obligations.ForeignBeaconActsByHubState : Prop :=
  (∀ (n : Nat) (body : List Byte) (s : State), s.held = false →
    ((∃ t, s.hub = .testing t) ∨ s.receiver.blanked = true
      ∧ (s.firstServed = false ∨ s.timebase.slot ≠ 0 ∨ n ≤ s.timebase.slotTime)) →
    exec (.beacon ⟨n, body⟩) s = .next s.choose)
  ∧ ∀ (n : Nat) (body : List Byte) (s u : State) (id : Word16), s.held = false → (∀ t, s.hub ≠ .testing t) →
    s.receiver.blanked = false ∨ (s.firstServed = true ∧ s.timebase.slot = 0 ∧ s.timebase.slotTime < n) →
    id = BitVec.ofNat 16 (leNat (body.take 2)) → u = s.endBurst →
    (body.length < 2 ∨ id = 0 ∨ id = 0xFFFF ∨ id = s.config.hubId →
      exec (.beacon ⟨n, body⟩) s = .next u.choose)
    ∧ (2 ≤ body.length → id ≠ 0 → id ≠ 0xFFFF → id ≠ s.config.hubId →
        (s.hub = .offline → exec (.beacon ⟨n, body⟩) s = .next u.choose)
        ∧ (∀ e m, s.hub = .listening e m →
            exec (.beacon ⟨n, body⟩) s = .next (State.post
              { u with hub := .offline, timebase := if m then ⟨false, 0, 0, 0⟩ else s.timebase }
              (.linkState .offline (.channelBusy id))).choose)
        ∧ (s.hub = .running ∨ s.hub = .stopping →
            (s.foreignSeen = false →
              exec (.beacon ⟨n, body⟩) s = .next (State.post { u with foreignSeen := true } (.foreignHub id)).choose)
            ∧ (s.foreignSeen = true → exec (.beacon ⟨n, body⟩) s = .next u.choose)))

/-! ## The line test (01) -/

/-- TEST_PERIOD_END. An assembly still open is closed first, and if it is the period's burst that burst is broken. A
LOOP period is judged by R17, and the receiver's copy draws 384 bits whatever was heard, eight to a byte, the first
the least significant; the bit errors are the number of bits in which a burst heard whole differs from them. A QUIET
period leaves the burst counts. The last period ends the test with TEST_RESULT and LINK_STATE, any other begins the
next, which sends a burst in LOOP alone. With no line test nothing happens (log 2). -/
def Obligations.TestPeriodIsJudged : Prop :=
  (∀ (s : State), s.held = false →
    (s.lineTest = none → exec .testPeriodEnd s = .next s.choose)
    ∧ (∀ (t : LineTest) (a : Assembly), s.hub = .testing t → s.receiver.assembly = some a →
        exec .testPeriodEnd s = exec .testPeriodEnd { s with
          receiver := { s.receiver with assembly := none }
          hub := .testing { t with heard := if a.ofPeriod then .broken else t.heard } })
    ∧ (∀ t : LineTest, s.hub = .testing t → s.receiver.assembly = none →
        (t.mode = .loop → ∀ c, c = { t.counts with
              sent := t.counts.sent + (if t.burstEnded then 1 else 0)
              whole := t.counts.whole + (match t.heard with | .whole _ => 1 | _ => 0)
              lost := t.counts.lost + (match t.heard with | .whole _ => 0 | _ => 1)
              bitErrors := t.counts.bitErrors + (match t.heard with
                | .whole bytes => bitErrors bytes (prbsBytes 48 t.copy).1
                | _ => 0) } →
          (t.periodsLeft ≤ 1 → exec .testPeriodEnd s = .next (((State.post { s with hub := .offline }
              (.testResult c false)).post (.linkState .offline .testEnd)).choose))
          ∧ (2 ≤ t.periodsLeft → ∃ v : State, exec .testPeriodEnd s = .next v.choose
              ∧ v.hub = .testing { t with
                  periodsLeft := t.periodsLeft - 1, copy := (prbsBytes 48 t.copy).2, burstEnded := false,
                  heard := .unheard, counts := c }
              ∧ v.link = s.link ∧ (s.burst = none → v.burst = some ⟨s.config.carrierMark, s.config.carrierSpace, 8,
                  .hubControl, 48, 0, 0xFFFF, .lead, 0, false, none, false⟩)))
        ∧ (t.mode = .quiet →
            (t.periodsLeft ≤ 1 → exec .testPeriodEnd s = .next (((State.post { s with hub := .offline }
                (.testResult t.counts false)).post (.linkState .offline .testEnd)).choose))
            ∧ (2 ≤ t.periodsLeft → exec .testPeriodEnd s = .next (State.choose { s with hub := .testing { t with
                periodsLeft := t.periodsLeft - 1, burstEnded := false, heard := .unheard } })))))
  ∧ (∀ (n : Nat) (r : BitVec 9), (prbsBytes n r).1.length = n ∧ (prbsBytes n r).2 = (prbsBits (8 * n) r).2
      ∧ ∀ i j, i < n → j < 8 →
        (byteAt (prbsBytes n r).1 i).getLsbD j = (prbsBits (8 * n) r).1.getD (8 * i + j) false)
  ∧ (∀ x y : List Byte, x.length = y.length → bitErrors x y = ((List.range (8 * x.length)).filter fun k =>
      (byteAt x (k / 8)).getLsbD (k % 8) != (byteAt y (k / 8)).getLsbD (k % 8)).length)

/-! ## The optical line (01) -/

/-- The check figures of the line's two codes. The CRC gives 29B1h for the digits 1 to 9, and 0 for a string followed by
its own CRC bytes, high byte first. The first two test bytes are E0h and 7Dh, and the PRBS repeats after 511 steps. -/
def Obligations.CodesGiveTheirCheckFigures : Prop :=
  crcOf [0x31, 0x32, 0x33, 0x34, 0x35, 0x36, 0x37, 0x38, 0x39] = 0x29B1
    ∧ (∀ d : List Byte, crcOf (d ++ (crcBytes (crcOf d)).reverse) = 0)
    ∧ (prbsBytes 2 prbsSeed).1 = [0xE0, 0x7D] ∧ (prbsBits 511 prbsSeed).2 = prbsSeed
    ∧ ∀ n, 0 < n → n < 511 → (prbsBits n prbsSeed).2 ≠ prbsSeed

/-- The elements that the transmitter sends of a whole burst, from its lead to its end mark: each with its length in
line units, in R4's order, the data bytes as it asks for them and, but in a line test burst, its own CRC low byte
first. They take the time that R4 gives, whatever the lead and the bytes. In a mark of n units IRDRV runs the carrier
for n × 192 ticks from the mark's first, high for the mark length and low for the space length the burst copied at its
start; in a space, between two elements and with no burst it is low (R1, R2). An abort mark is an element of its own,
so its carrier starts at its first tick also where it follows a mark with no space between (R7), which is the model's
choice (log 32). -/
def Obligations.BurstTakesItsAirtime : Prop :=
  (∀ (b : Burst) (x : Byte),
    (b.part = .lead → b.element = some (if b.inSpace then (false, 1) else (true, 1)))
    ∧ (b.part = .sync → b.element = some (if b.inSpace then (false, 1) else (true, 4)))
    ∧ (b.part = .data → b.current = none → b.element = none)
    ∧ (b.part = .data → b.current = some x →
        b.element = some (if b.inSpace then (false, if x.getLsbD b.bits then 2 else 1) else (true, 1)))
    ∧ (b.part = .crc →
        b.element = some (if b.inSpace then (false, if b.crc.getLsbD b.bits then 2 else 1) else (true, 1)))
    ∧ (b.part = .endMark → b.element = some (true, 2)) ∧ (b.part = .abortMark → b.element = some (true, 8)))
  ∧ (∀ (c : Configuration) (lead n : Nat) (bytes sent : List Byte) (source : BurstSource), 1 ≤ lead → bytes ≠ [] →
      sent = (if source = .hubControl then bytes else bytes ++ crcBytes (crcOf bytes)) →
      2 * lead + 3 + 17 * sent.length ≤ n →
      lineElements n bytes (newBurst c lead bytes.length source) = burstElements lead sent)
  ∧ (∀ (lead : Nat) (bytes : List Byte),
      burstElements lead bytes
        = (List.replicate lead [(true, 1), (false, 1)]).flatten ++ [(true, 4), (false, 1)]
          ++ ((bytes.flatMap fun b => (List.range 8).map b.getLsbD).flatMap fun x =>
            [(true, 1), (false, if x then 2 else 1)])
          ++ [(true, 2)]
      ∧ elementMicros (burstElements lead bytes)
        = 16 * lead + 40 + 128 * bytes.length + 8 * (bytes.map oneBits).sum + 16)
  ∧ (∀ s : State, (s.burst = none → ∀ n, s.irdrv n = false)
      ∧ ∀ b, s.burst = some b →
        (b.element = none → ∀ n, s.irdrv n = false)
        ∧ (∀ k, b.element = some (false, k) → ∀ n, s.irdrv n = false)
        ∧ (∀ k, b.element = some (true, k) → ∀ n,
            s.irdrv n = true ↔ n < 192 * k ∧ n % (b.carrierMark + b.carrierSpace) < b.carrierMark))
  ∧ (∀ (c : Configuration) (lead n : Nat) (source : BurstSource),
      (newBurst c lead n source).carrierMark = c.carrierMark ∧ (newBurst c lead n source).carrierSpace = c.carrierSpace)

/-- LINE_ELEMENT_END: the element after the one that ended, part by part; a pending abort takes effect at the element's
end; the end mark and the abort mark, and the wait for a data byte, are not ended by this row. The
burst's first tick is past when an element of it ends: a blanking that is due has begun (log 27). A cut
request leaves the element in progress to its end with an abort pending, begins the abort mark at once between two
elements (log 14), and does nothing once the end mark or the abort mark has begun (R7). -/
def Obligations.LineElementsFollowInOrder : Prop :=
  (∀ (s : State) (b : Burst), s.held = false → s.burst = some b →
    (b.inElement = true → b.abortPending = true →
      exec .lineElementEnd s = .next (State.choose { s.firstTick with burst := some { b with
        part := .abortMark, bits := 0, inSpace := false, current := none, abortPending := false } }))
    ∧ (b.inElement = true → b.abortPending = false →
        exec .lineElementEnd s = .next (State.choose { s.firstTick with burst := some (
          if b.inSpace = false then { b with inSpace := true }
          else match b.part with
            | .lead => if b.bits + 1 < b.lead then { b with bits := b.bits + 1, inSpace := false }
                else { b with part := .sync, bits := 0, inSpace := false }
            | .sync => { b with part := .data, bits := 0, inSpace := false, current := none }
            | .data => if b.bits + 1 < 8 then { b with bits := b.bits + 1, inSpace := false }
                else { b with
                  sent := b.sent + 1, bits := 0, inSpace := false, current := none
                  part := if b.sent + 1 < b.count then .data
                    else if b.source = .hubControl then .endMark else .crc }
            | .crc => if b.bits + 1 < 16 then { b with bits := b.bits + 1, inSpace := false }
                else { b with part := .endMark, bits := 0, inSpace := false }
            | .endMark => b
            | .abortMark => b) }))
    ∧ (b.inElement = false → exec .lineElementEnd s = .next s.choose))
  ∧ (∀ s : State, (s.burst = none → s.cutRequest = s)
      ∧ ∀ b, s.burst = some b →
        (b.part = .lead ∨ b.part = .sync ∨ b.part = .crc ∨ (b.part = .data ∧ b.current.isSome = true) →
          s.cutRequest = { s with burst := some { b with abortPending := true } })
        ∧ (b.part = .data → b.current = none → s.cutRequest = { s with burst := some { b with
            part := .abortMark, bits := 0, inSpace := false, abortPending := false } })
        ∧ (b.part = .endMark ∨ b.part = .abortMark → s.cutRequest = s))

/-- BYTE_REQUEST for a burst of the directory or the planner: the next byte of the burst goes out and into the CRC.
For a line test burst the next 8 bits of the PRBS go out as the byte, the first of them its least significant bit, and
the generator moves past them. -/
def Obligations.ByteRequestTakesTheNextByte : Prop :=
  (∀ (upset : Bool) (s : State) (b : Burst) (bytes : List Byte), s.held = false → s.burst = some b →
    b.part = .data → b.current = none → b.source = .directory bytes ∨ b.source = .planner bytes →
    exec (.byteRequest upset) s = .next (State.choose { s with burst := some { b with
      current := some (bytes.getD b.sent 0)
      crc := crcByte b.crc (bytes.getD b.sent 0), bits := 0, inSpace := false } }))
  ∧ (∀ (upset : Bool) (s : State) (b : Burst) (t : LineTest) (x : Byte), s.held = false → s.burst = some b →
      b.part = .data → b.current = none → b.source = .hubControl → s.hub = .testing t →
      (∀ i, i < 8 → x.getLsbD i = (prbsBits 8 t.generator).1.getD i false) →
      exec (.byteRequest upset) s = .next (State.choose { s with
        burst := some { b with current := some x, crc := crcByte b.crc x, bits := 0, inSpace := false }
        hub := .testing { t with generator := (prbsBits 8 t.generator).2 } }))
  ∧ (∀ (r : BitVec 9) (n : Nat), prbsBits 0 r = ([], r)
      ∧ ∀ bit, bit = (r.getLsbD 8 ^^ r.getLsbD 4) →
        prbsBits (n + 1) r = (bit :: (prbsBits n ((r <<< 1) ||| (if bit then 1 else 0))).1,
          (prbsBits n ((r <<< 1) ||| (if bit then 1 else 0))).2))

/-- BYTE_REQUEST for a FRAGMENT burst: the seven header bytes come from the record, then the payload bytes from the
store. A byte whose parity fails sets the record's damaged mark, and the abort mark begins at once in place of the byte
(log 14). -/
def Obligations.FragmentByteIsReadWithItsParity : Prop :=
  ∀ (upset : Bool) (s : State) (b : Burst) (i f : Nat) (tag : Byte) (c : Context) (r : Record),
    s.held = false → s.burst = some b → b.part = .data → b.current = none → b.source = .transfer i tag →
    s.context i = some c → c.onAir = some f → s.record c.handle = some r →
    (b.sent < 7 → ∀ x, x = [kindFragment, tag, byteOf r.address, byteOf r.page, r.generation, byteOf f,
          byteOf ((r.length + 47) / 48)].getD b.sent 0 →
      exec (.byteRequest upset) s = .next (State.choose { s with burst := some { b with
          current := some x, crc := crcByte b.crc x, bits := 0, inSpace := false } }))
    ∧ (7 ≤ b.sent → ∀ k, r.blocks[(48 * f + (b.sent - 7)) / 256]? = some k → k < 384 →
        ∀ at_ x, at_ = k * 256 + (48 * f + (b.sent - 7)) % 256 → x = s.storeByte at_ →
        (s.storeParity at_ = parityOf x → upset = false →
          exec (.byteRequest upset) s = .next (State.choose { s with burst := some { b with
            current := some x, crc := crcByte b.crc x, bits := 0, inSpace := false } }))
        ∧ (s.storeParity at_ ≠ parityOf x ∨ upset = true →
            exec (.byteRequest upset) s = .next (State.choose (State.setRecord { s with burst := some { b with
              part := .abortMark, bits := 0, inSpace := false, current := none, abortPending := false } }
              c.handle (some { r with damaged := true })))))

/-- BURST_END: the last mark ends and no burst is being sent; the burst of a directory, planner or test burst changes
nothing else of the cell, but that a test burst which completed counts for its period. -/
def Obligations.BurstEndFreesTheTransmitter : Prop :=
  ∀ (s : State) (b : Burst), s.held = false → s.burst = some b →
    (b.part = .endMark ∨ b.part = .abortMark → (∃ bytes, b.source = .directory bytes ∨ b.source = .planner bytes) →
      exec .burstEnd s = .next (State.choose { s with burst := none }))
    ∧ (b.source = .hubControl → ∀ t, s.hub = .testing t →
        (b.part = .endMark → exec .burstEnd s = .next (State.choose { s with
          burst := none, hub := .testing { t with burstEnded := true } }))
        ∧ (b.part = .abortMark → exec .burstEnd s = .next (State.choose { s with burst := none })))
    ∧ (b.part ≠ .endMark → b.part ≠ .abortMark → exec .burstEnd s = .next s.choose)

/-- BURST_END of a FRAGMENT burst: the fragment leaves the air; a VOID record is freed with its context; a damaged record
still SENDING goes STALLED with a store error, its context freed and an urgent TRANSFER_FAILED posted. -/
def Obligations.FragmentBurstEndSettlesTheRecord : Prop :=
  ∀ (s : State) (b : Burst) (i : Nat) (tag : Byte) (c : Context) (r : Record),
    s.held = false → s.burst = some b → b.part = .endMark ∨ b.part = .abortMark → b.source = .transfer i tag →
    s.context i = some c → s.record c.handle = some r → s.contextOf c.handle = some i →
    (r.state = .sending → r.damaged = false →
      exec .burstEnd s = .next (State.choose
        (State.setContext { s with burst := none } i (some { c with onAir := none }))))
    ∧ (r.state = .void → ∃ t : State, exec .burstEnd s = .next t.choose
        ∧ t.record c.handle = none ∧ t.context i = none ∧ t.burst = none
        ∧ (∀ h, h ≠ c.handle → t.record h = s.record h) ∧ (∀ j, j ≠ i → t.context j = s.context j)
        ∧ t.link = s.link)
    ∧ (r.state = .sending → r.damaged = true → ∃ t : State, exec .burstEnd s = .next
          (t.post (.transferFailed r.address r.page r.generation .storeError)).choose
        ∧ t.record c.handle = some { r with state := .stalled .storeError } ∧ t.context i = none ∧ t.burst = none
        ∧ (∀ h, h ≠ c.handle → t.record h = s.record h) ∧ (∀ j, j ≠ i → t.context j = s.context j)
        ∧ t.link = s.link)

/-- BLANKING_END: the receiver leaves blanking at the present PDIN level, hunting, with no candidate and no transition
time; while a burst is being sent, or with no blanking to end, nothing happens (log 2). A blanking that is due since
the boundary that ended LISTENING begins with the beacon's first tick, as time passes or as an element of the beacon
ends, and closes an open assembly as a broken burst (R15; log 27). -/
def Obligations.BlankingEndLeavesTheReceiverHunting : Prop :=
  (∀ (level : Bool) (s : State), s.held = false →
    (s.receiver.blanked = true → s.burst = none →
      exec (.blankingEnd level) s = .next (State.choose { s with
        receiver := ⟨level, level, none, none, false, none, false⟩ }))
    ∧ (s.receiver.blanked = false ∨ s.burst.isSome = true → exec (.blankingEnd level) s = .next s.choose))
  ∧ (∀ s : State, (s.blankingDue = false → s.firstTick = s ∧ ∀ n, s.pass n = s.advance n)
      ∧ (s.blankingDue = true → s.pass 0 = s.advance 0 ∧ (∀ n, s.pass (n + 1) = s.firstTick.advance (n + 1))
          ∧ ((∀ t, s.hub ≠ .testing t) →
              (s.receiver.assembly = none → s.firstTick = { s with
                blankingDue := false, receiver := { s.receiver with blanked := true } })
              ∧ (∀ a, s.receiver.assembly = some a → s.firstTick = { s with
                  blankingDue := false
                  receiver := { s.receiver with blanked := true, assembly := none }
                  directory := { s.directory with accumulator := match a.window with
                    | some (.join _) => true
                    | _ => s.directory.accumulator } }))))

/-- Every measured element has the class that the table of R10 gives its level and its length. -/
def Obligations.ElementIsClassifiedByLength : Prop :=
  ∀ n : Nat,
    (6 ≤ n → n ≤ 10 → classifyElement true n = .dataMark ∧ classifyElement false n = .bit false)
    ∧ (12 ≤ n → n ≤ 20 → classifyElement true n = .endMark ∧ classifyElement false n = .bit true)
    ∧ (24 ≤ n → n ≤ 40 → classifyElement true n = .sync)
    ∧ (56 ≤ n → classifyElement true n = .abort)
    ∧ (n < 6 ∨ n = 11 ∨ (20 < n ∧ n < 24) ∨ (40 < n ∧ n < 56) → classifyElement true n = .violation)
    ∧ (96 < n → classifyElement false n = .silence)
    ∧ (n < 6 ∨ n = 11 ∨ (20 < n ∧ n ≤ 96) → classifyElement false n = .violation)

/-- TRANSITION, and the sampling of PDIN that accepts one. The microseconds before a TRANSITION pass as idle ones in which
PDIN stands at the accepted level and RXD is watched (R177; log 1). Then the element since the last accepted transition
is measured in whole microseconds and classified, and taken; the accepted level changes and the transition is dated. With no
transition time held, or the element decided already, no element is measured; a TRANSITION within two microseconds of
the last accepted one is not accepted, and time passes alone (log 25). Hunting outside a line test, a sync mark
opens an assembly of the window its date lies in and anything else is left. While the receiver is blanked time passes
alone. In
a line test every accepted transition counts as an edge and every violation is counted, and the first sync of a period
opens the period's burst. In a microsecond with no command a sample at the accepted level clears any candidate, the
first at the other level is a candidate, and the second in a row is an accepted transition dated at the first; a mark
of 56 or a space of 97 microseconds is decided at that instant, and so it is where many microseconds pass at once, in
SLOT_START, ROUND_BOUNDARY and TRANSITION: on a line that stands, with RXD idle and no level ahead, the element in progress is
decided if its instant falls among them, and otherwise they only pass. What an open assembly makes of an element is
ElementsOfABurstDeliverIt's. -/
def Obligations.TransitionClosesTheElement : Prop :=
  (∀ (n : Nat) (s u : State), s.held = false → u = s.standFor n →
    (u.receiver.blanked = true ∨ (∃ d, u.receiver.lastTransition = some d ∧ u.clock < d + 2) →
      exec (.transition n) s = .next u.choose)
    ∧ (u.receiver.blanked = false →
        (∀ d, u.receiver.lastTransition = some d → d + 2 ≤ u.clock) →
        ∀ r, r = { u.receiver with
            pdin := !u.receiver.accepted, accepted := !u.receiver.accepted, candidate := none
            lastTransition := some u.clock, decided := false } →
        ∀ e : Option ElementClass,
        ((u.receiver.lastTransition = none ∨ u.receiver.decided = true) → e = none) →
        (∀ d, u.receiver.lastTransition = some d → u.receiver.decided = false →
          e = some (classifyElement u.receiver.accepted (u.clock - d))) →
        (∀ v : State, (u.lineTest = none ∧ v = { u with receiver := r }
              ∨ ∃ t, u.hub = .testing t ∧ v = { u with
                  receiver := r
                  hub := .testing { t with counts := { t.counts with
                    edges := t.counts.edges + 1
                    violations := t.counts.violations + (if e = some .violation then 1 else 0) } } }) →
            (e = none → exec (.transition n) s = .next v.choose)
            ∧ ∀ c, e = some c → exec (.transition n) s = .next (v.takeElement c).choose)
        ∧ (u.lineTest = none → u.receiver.assembly = none →
          (e ≠ some .sync → exec (.transition n) s = .next (State.choose { u with receiver := r }))
          ∧ (e = some .sync → exec (.transition n) s = .next (State.choose { u with receiver := { r with
              assembly := some ⟨u.windowAt u.timebase.slotTime, .afterSync, [], [], false⟩ } })))
        ∧ (∀ t c, u.hub = .testing t → c = { t.counts with
              edges := t.counts.edges + 1
              violations := t.counts.violations + (if e = some .violation then 1 else 0) } →
            (∃ (v : State) (heard : PeriodBurst), exec (.transition n) s = .next v.choose
              ∧ v.hub = .testing { t with heard := heard, counts := c })
            ∧ (u.receiver.assembly = none →
                (e ≠ some .sync → exec (.transition n) s = .next (State.choose { u with
                  receiver := r, hub := .testing { t with counts := c } }))
                ∧ (e = some .sync → t.heard = .unheard → exec (.transition n) s = .next (State.choose { u with
                    receiver := { r with assembly := some ⟨none, .afterSync, [], [], true⟩ }
                    hub := .testing { t with counts := c, heard := .assembling } }))
                ∧ (e = some .sync → t.heard ≠ .unheard → exec (.transition n) s = .next (State.choose { u with
                    receiver := { r with assembly := some ⟨none, .afterSync, [], [], false⟩ }
                    hub := .testing { t with counts := c } }))))))
  ∧ (∀ (n : Nat) (s : State),
      (s.receiver.blanked = false → s.standFor n = { State.idleFor { s with
          receiver := { s.receiver with pdin := s.receiver.accepted, candidate := none }, pdinAhead := [] } n with
        pdinAhead := s.pdinAhead.drop n })
      ∧ (s.receiver.blanked = true →
          s.standFor n = { State.idleFor { s with pdinAhead := [] } n with pdinAhead := s.pdinAhead.drop n }))
  ∧ (∀ (s u v : State) (level : Bool) (rxd : State → State), s.held = false → s.pending = [] →
      level = s.pdinAhead.headD s.receiver.pdin → v = s.pass 1 →
      u = { v with receiver := { v.receiver with pdin := level } } →
      (∀ t, rxd t = (t.moveRxd s.rxdAhead).watchRxd) →
      (u.receiver.blanked = true → step s = .next (rxd u).choose)
      ∧ (u.receiver.blanked = false →
          ((∀ d, s.receiver.lastTransition = some d → s.receiver.decided = false →
              s.clock + 1 < d + (if s.receiver.accepted then 56 else 97)) →
            (level = s.receiver.accepted →
              step s = .next (State.choose (rxd { u with receiver := { u.receiver with candidate := none } })))
            ∧ (level ≠ s.receiver.accepted → (∀ c, s.receiver.candidate = some c → c.date ≠ s.clock) →
                step s = .next (State.choose (rxd { u with receiver := { u.receiver with
                  candidate := some ⟨level, 1, s.clock + 1⟩ } }))))
          ∧ (∀ c, level ≠ s.receiver.accepted → s.receiver.candidate = some c → c.date = s.clock →
              u.lineTest = none → ∀ r, r = { u.receiver with
                  accepted := level, candidate := none, lastTransition := some s.clock, decided := false } →
              (s.receiver.lastTransition = none ∨ s.receiver.decided = true →
                step s = .next (State.choose (rxd { u with receiver := r })))
              ∧ (∀ d e, s.receiver.lastTransition = some d → s.receiver.decided = false →
                  e = classifyElement s.receiver.accepted (s.clock - d) →
                  step s = .next (State.choose (rxd (State.takeElement { u with receiver := r } e)))
                  ∧ (u.receiver.assembly = none →
                      (e ≠ .sync → step s = .next (State.choose (rxd { u with receiver := r })))
                      ∧ (e = .sync → step s = .next (State.choose (rxd { u with receiver := { r with
                          assembly := some ⟨if 1 ≤ u.timebase.slotTime then u.windowAt (u.timebase.slotTime - 1)
                            else none, .afterSync, [], [], false⟩ } }))))))
          ∧ (∀ c t e counts, level ≠ s.receiver.accepted → s.receiver.candidate = some c → c.date = s.clock →
              u.hub = .testing t →
              (s.receiver.lastTransition = none ∨ s.receiver.decided = true → e = none) →
              (∀ d, s.receiver.lastTransition = some d → s.receiver.decided = false →
                e = some (classifyElement s.receiver.accepted (s.clock - d))) →
              counts = { t.counts with
                edges := t.counts.edges + 1
                violations := t.counts.violations + (if e = some .violation then 1 else 0) } →
              ∀ r : Receiver, r = { u.receiver with
                  accepted := level, candidate := none, lastTransition := some s.clock, decided := false } →
              ∀ v : State, v = { u with receiver := r, hub := .testing { t with counts := counts } } →
              (e = none → step s = .next (rxd v).choose)
              ∧ (∀ x, e = some x → step s = .next (rxd (v.takeElement x)).choose)
              ∧ (u.receiver.assembly = none →
                  (e ≠ some .sync → step s = .next (rxd v).choose)
                  ∧ (e = some .sync → t.heard = .unheard → step s = .next (State.choose (rxd { v with
                      receiver := { r with assembly := some ⟨none, .afterSync, [], [], true⟩ }
                      hub := .testing { t with counts := counts, heard := .assembling } })))
                  ∧ (e = some .sync → t.heard ≠ .unheard → step s = .next (State.choose (rxd { v with
                      receiver := { r with assembly := some ⟨none, .afterSync, [], [], false⟩ } })))))
          ∧ (∀ d k, (level = s.receiver.accepted ∧ k = none
                ∨ level ≠ s.receiver.accepted ∧ (∀ c, s.receiver.candidate = some c → c.date ≠ s.clock)
                  ∧ k = some ⟨level, 1, s.clock + 1⟩) → s.receiver.lastTransition = some d →
              s.receiver.decided = false → d + (if s.receiver.accepted then 56 else 97) ≤ s.clock + 1 →
              ∀ t : State, t = { u with receiver := { u.receiver with candidate := k, decided := true } } →
              step s = .next (rxd (t.takeElement (if s.receiver.accepted then .abort else .silence))).choose
              ∧ (u.receiver.assembly = none → step s = .next (rxd t).choose))))
  ∧ (∀ (n : Nat) (s u : State), 0 < n → s.pdinAhead = [] → s.rxdAhead = [] → s.serial = ⟨true, true, none⟩ →
      s.blankingDue = false → u = s.advance n →
      (s.receiver.blanked = true → s.idleFor n = u.choose)
      ∧ (s.receiver.blanked = false → s.receiver.pdin = s.receiver.accepted → s.receiver.candidate = none →
          (s.receiver.lastTransition = none ∨ s.receiver.decided = true → s.idleFor n = u.choose)
          ∧ ∀ d, s.receiver.lastTransition = some d → s.receiver.decided = false →
              (s.clock + n < d + (if s.receiver.accepted then 56 else 97) → s.idleFor n = u.choose)
              ∧ (d + (if s.receiver.accepted then 56 else 97) ≤ s.clock + n →
                  ∀ t : State, t = { u with receiver := { u.receiver with decided := true } } →
                  s.idleFor n = (t.takeElement (if s.receiver.accepted then .abort else .silence)).choose
                  ∧ (s.idleFor n).receiver.assembly = none)))

/-- What an open assembly makes of each element (R11), and how one that ends is judged (R12). The element after the
sync must be a space of bit 0; then marks of data bits pass, the spaces give bits, and eight bits give a byte, the
first its least significant bit. A Silence, an end mark inside a byte or with fewer than three bytes (TRUNCATED), an
Abort (ABORTED), a mismatch of the CRC (CRC), and a violation, a wrong element after the sync, a sync inside the burst
or a 65th byte (VIOLATION) end the assembly broken, which counts as energy in a join window and as nothing elsewhere;
a sync inside a burst then opens a new assembly. In a line test nothing is delivered and the period's burst is judged
by R17. The elements of a whole burst, one after another, deliver its data bytes to the owner of the window. -/
def Obligations.ElementsOfABurstDeliverIt : Prop :=
  (∀ (s : State) (w : Option Window) (d : List Byte), s.lineTest = none → 1 ≤ d.length → d.length ≤ 62 →
    s.receiver.assembly = some ⟨w, .afterSync, [], [], false⟩ →
    (ElementClass.bit false ::
      (((d ++ crcBytes (crcOf d)).flatMap bitsOfByte).flatMap fun x => [ElementClass.dataMark, .bit x])
      ++ [ElementClass.endMark]).foldl State.takeElement s = (s.setAssembly none).deliverWhole w d)
  ∧ (∀ (s broken : State) (a : Assembly), s.receiver.assembly = some a →
      ((∀ t, s.hub ≠ .testing t) ∧ broken = { s.setAssembly none with
            directory := { s.directory with accumulator := match a.window with
              | some (.join _) => true
              | _ => s.directory.accumulator } }
        ∨ ∃ t, s.hub = .testing t ∧ broken = { s.setAssembly none with
            hub := .testing { t with heard := if a.ofPeriod then .broken else t.heard } }) →
      (a.phase = .afterSync →
        s.takeElement (.bit false) = s.setAssembly (some { a with phase := .collecting })
        ∧ ∀ c, c ≠ .bit false → s.takeElement c = broken)
      ∧ (a.phase = .collecting →
          s.takeElement .dataMark = s
          ∧ (∀ b, a.bits.length < 7 →
              s.takeElement (.bit b) = s.setAssembly (some { a with bits := a.bits ++ [b] }))
          ∧ (∀ (b : Bool) (x : Byte), a.bits.length = 7 → (∀ i, i < 8 → x.getLsbD i = (a.bits ++ [b]).getD i false) →
              (a.bytes.length < 64 →
                s.takeElement (.bit b) = s.setAssembly (some { a with bits := [], bytes := a.bytes ++ [x] }))
              ∧ (64 ≤ a.bytes.length → s.takeElement (.bit b) = broken))
          ∧ s.takeElement .abort = broken ∧ s.takeElement .silence = broken ∧ s.takeElement .violation = broken
          ∧ s.takeElement .sync = broken.openAssembly
          ∧ ((∀ t, s.hub ≠ .testing t) → s.receiver.blanked = false →
              s.takeElement .sync = broken.setAssembly (some ⟨s.syncWindow, .afterSync, [], [], false⟩))
          ∧ ((∀ t, s.hub ≠ .testing t) →
              (a.bits ≠ [] ∨ a.bytes.length < 3 →
                a.verdict = .broken .truncated ∧ s.takeElement .endMark = broken)
              ∧ (∀ d x y, a.bits = [] → a.bytes = d ++ [x, y] → d ≠ [] →
                  ([x, y] = crcBytes (crcOf d) → s.takeElement .endMark = (s.setAssembly none).deliverWhole a.window d)
                  ∧ ([x, y] ≠ crcBytes (crcOf d) → a.verdict = .broken .crc ∧ s.takeElement .endMark = broken)))
          ∧ (∀ t, s.hub = .testing t → s.takeElement .endMark = { s.setAssembly none with
              hub := .testing { t with heard := if a.ofPeriod = false then t.heard
                else if a.bits = [] ∧ a.bytes.length = 48 then .whole a.bytes else .broken } })))

/-- BROKEN_BURST: in a join window it sets the round accumulator, in a reply window and in no window nothing; an
assembly that was open is gone. DISCARDED_BURST leaves everything but the assembly. A blanked receiver hears neither,
and in a line test nothing is delivered. The same becomes of a JOIN_REQ, a STATUS or a RECEIPT that fails its arrival
checks (R198), that has no window or one of the other kind, or, in a reply window, that names another label than the
slot serves or one whose entry is VACANT or COOLING (R48): nothing but the assembly changes. The window is that of the
open assembly, or else the one in which the sync mark ended, an operand of the row (log 4): a join slot, whole, or
12.0 to 15.5 ms of a data slot whose burst went out (log 23), in RUNNING and STOPPING and in a served round. -/
def Obligations.BrokenBurstCountsAsEnergy : Prop :=
  (∀ (n : Nat) (cause : BrokenCause) (s : State) (w : Option Window),
    (Hearing s n w →
      ((∃ i, w = some (.join i)) → exec (.brokenBurst ⟨n, cause⟩) s = .next (State.choose { s.endBurst with
          directory := { s.directory with accumulator := true } }))
      ∧ ((∀ i, w ≠ some (.join i)) → exec (.brokenBurst ⟨n, cause⟩) s = .next s.endBurst.choose)
      ∧ exec .discardedBurst s = .next s.endBurst.choose)
    ∧ (s.held = false → s.receiver.blanked = true → s.receiver.assembly = none →
        exec (.brokenBurst ⟨n, cause⟩) s = .next s.choose ∧ exec .discardedBurst s = .next s.choose)
    ∧ (s.held = false → ∀ t, s.hub = .testing t →
        (s.receiver.assembly = none → exec (.brokenBurst ⟨n, cause⟩) s = .next s.choose)
        ∧ (∀ a, s.receiver.assembly = some a → exec (.brokenBurst ⟨n, cause⟩) s = .next (State.choose
            { s.setAssembly none with
              hub := .testing { t with heard := if a.ofPeriod then .broken else t.heard } }))))
  ∧ (∀ (n : Nat) (s : State),
      (∀ a, s.receiver.assembly = some a → s.burstWindow n = a.window)
      ∧ (s.receiver.assembly = none →
          ((s.hub ≠ .running ∧ s.hub ≠ .stopping) ∨ s.plan = none ∨ s.timebase.slotTime < n → s.burstWindow n = none)
          ∧ (s.hub = .running ∨ s.hub = .stopping → s.plan.isSome = true → n ≤ s.timebase.slotTime →
              (1 ≤ s.timebase.slot → s.timebase.slot ≤ 3 → s.burstWindow n = some (.join s.timebase.slot))
              ∧ (s.timebase.slot = 0 ∨ 4 ≤ s.timebase.slot →
                  ((∀ d, s.dataSlot = some d → d.windowOpen = false) → s.burstWindow n = none)
                  ∧ (∀ d, s.dataSlot = some d → d.windowOpen = true →
                      s.burstWindow n = if 12000 ≤ s.timebase.slotTime - n ∧ s.timebase.slotTime - n < 15500
                        then some (.reply d.slot) else none)))))
  ∧ (∀ (b : HeardBurst) (s : State), s.held = false →
      (s.receiver.blanked = true ∨ (∃ t, s.hub = .testing t) →
        ∀ c ∈ [Instr.joinReq b, .status b, .receipt b], exec c s = .next s.choose)
      ∧ (s.hears = true →
          (s.burstWindow b.sinceSync = none →
            ∀ c ∈ [Instr.joinReq b, .status b, .receipt b], exec c s = .next s.endBurst.choose)
          ∧ (∀ i, s.burstWindow b.sinceSync = some (.join i) →
              ∀ c ∈ [Instr.status b, .receipt b], exec c s = .next s.endBurst.choose)
          ∧ (∀ i, s.burstWindow b.sinceSync = some (.reply i) → exec (.joinReq b) s = .next s.endBurst.choose)
          ∧ (arrives s.config.hubId (0x71 :: b.body) = false → exec (.joinReq b) s = .next s.endBurst.choose)
          ∧ (arrives s.config.hubId (0x73 :: b.body) = false → exec (.status b) s = .next s.endBurst.choose)
          ∧ (arrives s.config.hubId (0x72 :: b.body) = false → exec (.receipt b) s = .next s.endBurst.choose)
          ∧ (∀ d, s.dataSlot = some d → (∀ l, s.entry d.place.address ≠ .label l)
                ∨ (byteAt b.body 1).toNat ≠ d.place.address →
              ∀ c ∈ [Instr.status b, .receipt b], exec c s = .next s.endBurst.choose)))
  ∧ (∀ (id : Word16) (d : List Byte), arrives id d = true ↔ byteAt d 1 = id.setWidth 8
      ∧ ((byteAt d 0 = 0x71 ∧ d.length = 11 ∧ leNat ((d.drop 2).take 6) ≠ 0 ∧ leNat ((d.drop 2).take 6) ≠ 2 ^ 48 - 1
            ∧ 1 ≤ (byteAt d 8).toNat % 16 ∧ (byteAt d 8).toNat % 16 ≤ 4 ∧ 1 ≤ (byteAt d 9).toNat
            ∧ (byteAt d 9).toNat ≤ 16)
        ∨ (byteAt d 0 = 0x72 ∧ d.length = 9 ∧ 1 ≤ (byteAt d 2).toNat ∧ (byteAt d 2).toNat ≤ 240
            ∧ (byteAt d 3).toNat ≤ 3)
        ∨ (byteAt d 0 = 0x73 ∧ d.length = 16 ∧ 1 ≤ (byteAt d 2).toNat ∧ (byteAt d 2).toNat ≤ 240
            ∧ (byteAt d 3).toNat / 16 % 4 ≠ 3)))

/-! ## The label directory (03) -/

/-- ADMIT: the decision, the list and the room are checked in order. A refusal marks the list entry in its place; an
acceptance removes it and makes the lowest VACANT entry a JOINING one with what the list held, whose
reading, if there is one, posts BATTERY where it is not OK (R86). -/
def Obligations.AdmitDecidesAListedRequest : Prop :=
  ∀ (tag d : Byte) (idBytes : List Byte) (id : LongId) (s u : State), Ready s → idBytes.length = 6 →
    id = BitVec.ofNat 48 (leNat idBytes) → u = s.inHand ⟨0x10, tag, idBytes ++ [d]⟩ →
    (1 < d.toNat → exec (.admitJoin tag (idBytes ++ [d])) s = .next (u.reply 0x10 tag .badField []))
    ∧ (d.toNat ≤ 1 → (∀ x ∈ s.directory.admission, x.longId ≠ id) →
        exec (.admitJoin tag (idBytes ++ [d])) s = .next (u.reply 0x10 tag .noLabel []))
    ∧ (∀ x, s.asking id = some x →
        (d = 1 → exec (.admitJoin tag (idBytes ++ [d])) s = .next (State.reply
          { u with directory := { s.directory with
              admission := s.directory.admission.map fun y => if y.longId = id then { y with refused := true } else y } }
          0x10 tag .ok []))
        ∧ (d = 0 → (∀ a, 1 ≤ a → a ≤ 240 → s.entry a ≠ .vacant) →
            exec (.admitJoin tag (idBytes ++ [d])) s = .next (u.reply 0x10 tag .tableFull []))
        ∧ (d = 0 → ∀ a, 1 ≤ a → a ≤ 240 → s.entry a = .vacant → (∀ b, 1 ≤ b → b < a → s.entry b ≠ .vacant) →
            ∃ t : State, exec (.admitJoin tag (idBytes ++ [d])) s = .next (t.reply 0x10 tag .ok [byteOf a])
              ∧ NewJoining s a id x.capabilities x.batteryMv x.lastHeard (t.entry a)
              ∧ t.directory.admission = s.directory.admission.filter (fun y => y.longId != id)
              ∧ t.link = (u.postAll (firstReadingNotices s.config a x.batteryMv)).link
              ∧ LabelFrame a u { t with directory := { t.directory with admission := s.directory.admission } }
              ∧ SameRecords s t))

/-- LABEL_QUERY, LABEL_LIST and PAGE_QUERY answer from the state as it stands, or refuse, and change nothing. The
bytes of an entry and of a record are those of R195's tables, with the codes of R194 and the bytes of R197; of the byte
of a profile that is absent R195 gives bit 7 alone, and its other bits are 0 by the model's choice (log 33). -/
def Obligations.QueriesAnswerAndChangeNothing : Prop :=
  (∀ (tag a g : Byte) (idBytes : List Byte) (s : State), Ready s → idBytes.length = 6 →
    ((a = 0 ∨ 240 < a.toNat) →
      exec (.labelQuery tag [0, a]) s = .next ((s.inHand ⟨0x11, tag, [0, a]⟩).reply 0x11 tag .badField [])
      ∧ exec (.labelList tag [a]) s = .next ((s.inHand ⟨0x12, tag, [a]⟩).reply 0x12 tag .badField []))
    ∧ (1 ≤ a.toNat → a.toNat ≤ 240 →
        exec (.labelQuery tag [0, a]) s = .next ((s.inHand ⟨0x11, tag, [0, a]⟩).reply 0x11 tag .ok
          (match s.entry a.toNat with
           | .vacant => [a, 0]
           | .cooling id e => [a, 5] ++ leBytes 6 id.toNat ++ leBytes 2 e.toNat
           | .label l => [a, l.phase.code] ++ s.labelBytes a.toNat l))
        ∧ exec (.labelList tag [a]) s = .next ((s.inHand ⟨0x12, tag, [a]⟩).reply 0x12 tag .ok
            (byteOf (((List.range' 1 240).filter fun b => a.toNat ≤ b && s.entry b != .vacant).take 16).length
              :: (((List.range' 1 240).filter fun b => a.toNat ≤ b && s.entry b != .vacant).take 16).flatMap
                fun b => [byteOf b, (s.entry b).code])))
    ∧ (∀ b, s.holderOf (BitVec.ofNat 48 (leNat idBytes)) = some b →
        exec (.labelQuery tag (1 :: idBytes)) s = .next ((s.inHand ⟨0x11, tag, 1 :: idBytes⟩).reply 0x11 tag .ok
          (s.entryBytes b)))
    ∧ ((∀ b, 1 ≤ b → b ≤ 240 → (s.entry b).longId ≠ some (BitVec.ofNat 48 (leNat idBytes))) →
        exec (.labelQuery tag (1 :: idBytes)) s = .next ((s.inHand ⟨0x11, tag, 1 :: idBytes⟩).reply 0x11 tag
          .noLabel []))
    ∧ (128 ≤ a.toNat → exec (.pageQuery tag [0, a]) s = .next ((s.inHand ⟨0x27, tag, [0, a]⟩).reply 0x27 tag
        .badField []))
    ∧ (a.toNat < 128 → exec (.pageQuery tag [0, a]) s = .next ((s.inHand ⟨0x27, tag, [0, a]⟩).reply 0x27 tag
        (if (s.record a.toNat).isSome then .ok else .noRecord)
        (match s.record a.toNat with
         | some r => 1 :: s.recordBytes a.toNat r
         | none => [])))
    ∧ ((a = 0 ∨ 240 < a.toNat ∨ 3 < g.toNat) →
        exec (.pageQuery tag [1, a, g]) s = .next ((s.inHand ⟨0x27, tag, [1, a, g]⟩).reply 0x27 tag .badField []))
    ∧ (1 ≤ a.toNat → a.toNat ≤ 240 → g.toNat ≤ 3 →
        ∀ hs, hs = (s.liveOf a.toNat g.toNat).toList ++ (s.fillingOf a.toNat g.toNat).toList →
        (hs = [] → exec (.pageQuery tag [1, a, g]) s = .next ((s.inHand ⟨0x27, tag, [1, a, g]⟩).reply 0x27 tag
          .noRecord []))
        ∧ (hs ≠ [] → exec (.pageQuery tag [1, a, g]) s = .next ((s.inHand ⟨0x27, tag, [1, a, g]⟩).reply 0x27 tag
            .ok (byteOf hs.length :: hs.flatMap fun h => match s.record h with
              | some r => s.recordBytes h r
              | none => [])))))
  ∧ (∀ (s : State) (a : Nat) (l : Label), s.labelBytes a l =
      leBytes 6 l.longId.toNat
        ++ [byteOf (l.capabilities.pageCount + 16 * l.capabilities.displayClass), byteOf (l.capabilities.maxLength / 64),
            profileByte l.current]
        ++ (match l.planned with
            | some p => [profileByte p.profile, byteOf p.effective.toNat, byteOf (p.effective.toNat / 256)]
            | none => [0, 0, 0])
        ++ (match l.profileState with | .settled => [0, 0] | .uncertain p => [1, profileByte p])
        ++ [byteOf l.sequence.toNat, byteOf l.missCount, if l.drifted then 1 else 0]
        ++ (match l.phase with
            | .joining n r => [byteOf n, if r then 1 else 0, 0xFF]
            | .bound => [0xFF, 0xFF, 0xFF]
            | .missing => [0xFF, 0xFF, 0xFF]
            | .releasing n m => [byteOf n, 0xFF, if m then 1 else 0])
        ++ leBytes 2 (l.batteryMv.getD 0)
        ++ [(match l.batteryClass with | .ok => 0 | .low => 1 | .critical => 2),
            displayByte l.displayMode l.shownPage,
            byteOfBits ((List.range 8).map fun p => decide (p ∈ l.wanted))]
        ++ (match l.lastHeard with | some t => 1 :: leBytes 4 t.toNat | none => [0, 0, 0, 0, 0])
        ++ [byteOf l.queue.length]
        ++ l.queue.flatMap fun o =>
          [((match o.fields with | .ping => 0 | .setProfile _ => 1 | .setMode _ => 2 | .showPage _ => 3 | .release => 4) : Byte)]
            ++ leBytes 4 o.queued.toNat ++ [byteOf o.attempts, if s.opOnAir a l o then 1 else 0])
  ∧ (∀ (l : Label), l.phase.code = (match l.phase with
      | .joining _ _ => 1 | .bound => 2 | .missing => 3 | .releasing _ _ => 4))
  ∧ (∀ (s : State) (a : Nat) (l : Label) (o : Operation),
      (o.fields ≠ .release → (s.opOnAir a l o = true ↔
        ∃ w, l.openSend = some w ∧ w.attached = true ∧ w.fields.kind = o.fields.kind))
      ∧ (o.fields = .release → (s.opOnAir a l o = true ↔
          ∃ d, s.dataSlot = some d ∧ d.endDue = true ∧ d.place = ⟨a, .release⟩)))
  ∧ (∀ (p : Profile) (k : Nat), p.valid = true → p.period = 2 ^ k → (profileByte p).toNat = 128 + 16 * k + p.phase)
  ∧ (∀ (mode : Option DisplayMode) (page : Option Nat), (∀ p, page = some p → p < 4) →
      (displayByte mode page).toNat =
        (match mode with | none => 0 | some .normal => 1 | some .inverted => 2 | some .blank => 3 | some .allOn => 4)
          + 16 * (match page with | none => 0 | some p => p + 1))
  ∧ (∀ (bits : List Bool) (i : Nat), bits.length = 8 → i < 8 → (byteOfBits bits).getLsbD i = bits.getD i false)
  ∧ (∀ (s : State) (h : Nat) (r : Record), s.recordBytes h r =
      [byteOf h, byteOf r.address, byteOf r.page, r.generation, byteOf r.length, byteOf (r.length / 256),
        byteOf ((r.length + 47) / 48),
        (match r.state with
         | .filling _ => 0 | .ready => 1 | .sending => 2 | .stalled _ => 3 | .held => 4 | .void => 5),
        if r.urgent then 1 else 0, if r.pinned then 1 else 0, if r.damaged then 1 else 0, byteOf r.blocks.length]
        ++ leBytes 2 (r.blocks.getD 0 0) ++ leBytes 2 (r.blocks.getD 1 0) ++ leBytes 2 (r.blocks.getD 2 0)
        ++ leBytes 2 (r.blocks.getD 3 0)
        ++ (match r.state with
            | .filling w => leBytes 2 w.length
                ++ leBytes 2 (((List.range r.length).find? fun o => decide (o ∉ w)).getD r.length)
            | _ => [0, 0, 0, 0])
        ++ (match r.readyStamp with | some t => 1 :: leBytes 4 t.toNat | none => [0, 0, 0, 0, 0])
        ++ [(match r.state with
             | .stalled .noProgress => 0 | .stalled .labelBusy => 1 | .stalled .storeError => 2 | _ => 0xFF),
            byteOf (s.heldPosition h)]
        ++ (if r.state = .sending then (List.range 3).map fun i =>
              byteOfBits ((List.range 8).map fun j => decide (8 * i + j ∈ s.confirmedOf h))
            else [0, 0, 0]))
  ∧ (∀ (s : State) (h : Nat),
      (h ∉ s.store.heldOrder → s.heldPosition h = 0)
      ∧ (∀ before behind, s.store.heldOrder = before ++ h :: behind → h ∉ before →
          s.heldPosition h = before.length + 1)
      ∧ (s.contextOf h = none → s.confirmedOf h = [])
      ∧ (∀ i c, s.contextOf h = some i → s.context i = some c → s.confirmedOf h = c.confirmed))

/-- RELEASE and FORGET. A JOINING entry released, and any label forgotten, goes to COOLING for two epochs; a BOUND or
MISSING entry released goes to RELEASING with a RELEASE operation alone. The records of the address are removed, a
fragment burst of one on the air being cut, and each queued operation fails with a notice, in queue order. -/
def Obligations.ReleaseAndForgetStartLeaving : Prop :=
  ∀ (tag a : Byte) (s u v : State), Ready s → u = s.inHand ⟨0x14, tag, [a]⟩ → v = s.inHand ⟨0x15, tag, [a]⟩ →
    ((a = 0 ∨ 240 < a.toNat) → exec (.release tag [a]) s = .next (u.reply 0x14 tag .badField [])
      ∧ exec (.forget tag [a]) s = .next (v.reply 0x15 tag .badField []))
    ∧ (1 ≤ a.toNat → a.toNat ≤ 240 → s.label? a.toNat = none →
        exec (.release tag [a]) s = .next (u.reply 0x14 tag .wrongState [])
        ∧ exec (.forget tag [a]) s = .next (v.reply 0x15 tag .wrongState []))
    ∧ (∀ l, s.entry a.toNat = .label l → ∃ t : State, exec (.forget tag [a]) s = .next (t.reply 0x15 tag .ok [])
        ∧ t.entry a.toNat = .cooling l.longId (s.epoch + 2)
        ∧ t.link = (v.postAll ((l.queue.filter fun o => o.kind != .release).map
            fun o => .opFailed a.toNat o.kind .forgotten)).link
        ∧ RecordsGone a.toNat v t ∧ LabelFrame a.toNat v t)
    ∧ (∀ l, s.entry a.toNat = .label l →
        (l.phase.isReleasing = true → exec (.release tag [a]) s = .next (u.reply 0x14 tag .wrongState []))
        ∧ (l.phase.isJoining = true → ∃ t : State, exec (.release tag [a]) s = .next (t.reply 0x14 tag .ok [])
            ∧ t.entry a.toNat = .cooling l.longId (s.epoch + 2)
            ∧ t.link = (u.postAll (((l.queue.filter fun o => o.kind != .release).map
                fun o => .opFailed a.toNat o.kind .released) ++ [.labelReleased a.toNat false])).link
            ∧ RecordsGone a.toNat u t ∧ LabelFrame a.toNat u t)
        ∧ (l.phase = .bound ∨ l.phase = .missing → ∃ t : State, exec (.release tag [a]) s = .next (t.reply 0x14 tag .ok [])
            ∧ t.entry a.toNat = .label { l with
                phase := .releasing 2 (l.phase == .missing)
                queue := [⟨.release, s.timebase.stamp, 0, false⟩]
                openSend := l.openSend.map fun w => { w with attached := false } }
            ∧ t.link = (u.postAll ((l.queue.filter fun o => o.kind != .release).map
                fun o => .opFailed a.toNat o.kind .released)).link
            ∧ RecordsGone a.toNat u t ∧ LabelFrame a.toNat u t))

/-- JOIN_REQ under ASK from a label whose long id no entry holds: the four rows of R54. -/
def Obligations.JoinRequestUnderAskIsListed : Prop :=
  ∀ (cap len batt : Byte) (idBytes : List Byte) (id : LongId) (c : Capabilities) (mv : Option Nat) (n m : Nat)
    (s u : State) (body : List Byte),
    body = s.config.hubId.setWidth 8 :: idBytes ++ [cap, len, batt] →
    Hearing s m (some (.join n)) → s.config.joinPolicy = .ask → u = s.endBurst →
    idBytes.length = 6 → id = BitVec.ofNat 48 (leNat idBytes) → id ≠ 0 → id ≠ 0xFFFFFFFFFFFF →
    c = ⟨cap.toNat % 16, 64 * len.toNat, cap.toNat / 16⟩ → 1 ≤ c.pageCount → c.pageCount ≤ 4 → 1 ≤ len.toNat →
    len.toNat ≤ 16 → mv = (if batt = 0 then none else some (1500 + 10 * batt.toNat)) →
    (∀ a, 1 ≤ a → a ≤ 240 → (s.entry a).longId ≠ some id) →
    ((∀ x ∈ s.directory.admission, x.longId ≠ id) →
      (s.directory.admission.length < 8 → exec (.joinReq ⟨m, body⟩) s = .next (State.choose (State.post
        { u with directory := { s.directory with
            admission := s.directory.admission ++ [⟨id, c, mv, s.timebase.stamp, false⟩] } } (.joinAsked id c mv))))
      ∧ (8 ≤ s.directory.admission.length →
          exec (.joinReq ⟨m, body⟩) s = .next (State.choose (u.post (.joinRefused id .listFull)))))
    ∧ (∀ before x after, s.directory.admission = before ++ x :: after → x.longId = id →
        (∀ y ∈ before ++ after, y.longId ≠ id) →
        (x.refused = false → exec (.joinReq ⟨m, body⟩) s = .next (State.choose { u with directory := { s.directory with
          admission := before ++ { x with
            lastHeard := s.timebase.stamp, capabilities := c, batteryMv := mv } :: after } }))
        ∧ (x.refused = true → exec (.joinReq ⟨m, body⟩) s = .next (State.choose { u with directory := { s.directory with
            admission := before ++ { x with lastHeard := s.timebase.stamp } :: after } })))

/-- JOIN_REQ from a label whose long id an entry holds, and under OPEN and CLOSED. A BOUND or MISSING holder rejoins:
its SENDING and HELD records are READY again, the HELD ones out of the HELD order (R130), and the request's reading is
taken last, with the BATTERY notice and the saving profile of R86 and R87 or none. A JOINING one has its attempts
refreshed, a RELEASING or COOLING one ignores it. Under OPEN an id that is not refused takes the lowest VACANT entry,
or is refused for want of one; a refused one has its stamp refreshed, with the directory full as well (the model's
reading, log 12). The window is that of its sync mark (log 4). -/
def Obligations.JoinRequestGoesByHolderAndPolicy : Prop :=
  ∀ (s u : State) (body : List Byte) (q : JoinRequest) (n m : Nat), Hearing s m (some (.join n)) →
    arrives s.config.hubId (0x71 :: body) = true → q = joinRequestOf (0x71 :: body) → u = s.endBurst →
    (∀ a, s.holderOf q.longId = some a →
      (∀ id e, s.entry a = .cooling id e → exec (.joinReq ⟨m, body⟩) s = .next u.choose)
      ∧ (∀ l, s.entry a = .label l →
          (l.phase.isReleasing = true → exec (.joinReq ⟨m, body⟩) s = .next u.choose)
          ∧ (∀ k r, l.phase = .joining k r → exec (.joinReq ⟨m, body⟩) s = .next
              (u.setEntry a (.label { l with phase := .joining 4 r, lastHeard := some s.timebase.stamp })).choose)
          ∧ (l.phase = .bound ∨ l.phase = .missing → ∃ (t : State) (k : Label),
              exec (.joinReq ⟨m, body⟩) s = .next t.choose ∧ t.entry a = .label k
              ∧ { k with
                  queue := l.queue, batteryMv := l.batteryMv, batteryClass := l.batteryClass, openSend := l.openSend } =
                { l with
                  phase := .joining 4 true, planned := none, profileState := .settled, missCount := 0, drifted := false,
                  displayMode := none, shownPage := none, lastHeard := some s.timebase.stamp }
              ∧ (q.mv = none → k.batteryMv = l.batteryMv ∧ k.batteryClass = l.batteryClass ∧ k.openSend = l.openSend
                  ∧ ((l.planned = none ∨ ∃ o ∈ l.queue, o.kind = .setProfile) → k.queue = l.queue)
                  ∧ (∀ p, l.planned = some p → (∀ o ∈ l.queue, o.kind ≠ .setProfile) →
                      k.queue = l.queue ++ [⟨.setProfile p.profile, s.timebase.stamp, 0, false⟩]))
              ∧ (∀ v, q.mv = some v → k.batteryMv = some v ∧ k.batteryClass =
                  classify s.config.batteryLow s.config.batteryCritical l.batteryClass v)
              ∧ (∃ ns, ReadingTaken s.config s.timebase.stamp a q.mv { l with
                    phase := .joining 4 true, planned := none, profileState := .settled, missCount := 0
                    drifted := false, displayMode := none, shownPage := none, lastHeard := some s.timebase.stamp
                    queue := (match l.planned with
                      | some p => if ∃ o ∈ l.queue, o.kind = .setProfile then l.queue
                          else l.queue ++ [⟨.setProfile p.profile, s.timebase.stamp, 0, false⟩]
                      | none => l.queue) } k ns
                  ∧ t.link = (u.postAll ns).link)
              ∧ (∀ h, t.record h = (s.record h).map fun r =>
                  if r.address = a ∧ (r.state = .sending ∨ r.state = .held)
                  then { r with state := .ready, readyStamp := some s.timebase.stamp } else r)
              ∧ (∀ h r i, s.record h = some r → r.address = a → r.state = .sending → s.contextOf h = some i →
                  t.context i = none)
              ∧ (∀ i, (∀ h r, s.record h = some r → r.address = a → r.state = .sending → s.contextOf h ≠ some i) →
                  t.context i = s.context i)
              ∧ t.store.heldOrder = s.store.heldOrder.filter (fun h => !(match s.record h with
                  | some r => r.address == a && r.state == .held
                  | none => false))
              ∧ t.burst = s.burst ∧ LabelFrame a u t)))
    ∧ ((∀ a, 1 ≤ a → a ≤ 240 → (s.entry a).longId ≠ some q.longId) →
        (s.config.joinPolicy = .closed → exec (.joinReq ⟨m, body⟩) s = .next u.choose)
        ∧ (s.config.joinPolicy = .openAll →
            (∀ x, s.asking q.longId = some x → x.refused = true →
              exec (.joinReq ⟨m, body⟩) s = .next (State.choose { u with directory := { s.directory with
                admission := s.directory.admission.map fun y =>
                  if y.longId = q.longId then { y with lastHeard := s.timebase.stamp } else y } }))
            ∧ ((∀ x, s.asking q.longId = some x → x.refused = false) →
                ((∀ a, 1 ≤ a → a ≤ 240 → s.entry a ≠ .vacant) →
                  exec (.joinReq ⟨m, body⟩) s = .next (State.choose (u.post (.joinRefused q.longId .full))))
                ∧ (∀ a, 1 ≤ a → a ≤ 240 → s.entry a = .vacant → (∀ b, 1 ≤ b → b < a → s.entry b ≠ .vacant) →
                    ∃ t : State, exec (.joinReq ⟨m, body⟩) s = .next t.choose
                      ∧ NewJoining s a q.longId q.capabilities q.mv s.timebase.stamp (t.entry a)
                      ∧ t.directory.admission = s.directory.admission.filter (fun y => y.longId != q.longId)
                      ∧ t.link = (u.postAll (firstReadingNotices s.config a q.mv)).link
                      ∧ LabelFrame a u { t with directory := { t.directory with admission := s.directory.admission } }
                      ∧ SameRecords s t))))

/-- STATUS in the reply window of a data slot, attributed to the label of the slot. In a fragment slot the engine first
takes it as an answer: the answered and the plain-answer mark of its context are set (R160), and nothing else of the
cell changes by that. In every state of the entry the echo of the open send's sequence
is noted (log 28). A RELEASING entry takes the RELEASED flag alone, a JOINING one without the JOINED flag nothing; a
JOINING one with it and a MISSING one become BOUND with their notice, and then everything is taken as for BOUND, in this
order: the answer to the open send, the display, the profile report with its completion check, the reading, and the held
pages, each page by R127's table. One that is not attributed changes nothing. The fields are those of R197. -/
def Obligations.StatusIsTakenByTheEntryState : Prop :=
  (∀ (n : Nat) (s u : State) (body : List Byte) (r : StatusReport) (d : DataSlot) (l : Label) (a : Nat),
    Hearing s n (some (.reply d.slot)) → s.dataSlot = some d → d.place.address = a →
    s.entry a = .label l → arrives s.config.hubId (0x73 :: body) = true → r = statusOf (0x73 :: body) →
    u = s.endBurst →
    ((byteAt body 1).toNat ≠ a → exec (.status ⟨n, body⟩) s = .next u.choose)
    ∧ ((byteAt body 1).toNat = a →
        ∀ m : Label, m = { l with
            heardMark := true, lastHeard := some s.timebase.stamp
            openSend := l.openSend.map fun w =>
              if w.slot = d.slot ∧ w.sequence = r.echo then { w with echoed := true } else w } →
        ∀ v : State, ((∀ h, d.place.kind ≠ .fragment h) ∧ v = u
            ∨ ∃ h, d.place.kind = .fragment h ∧ v = u.engineReply a h (0x73 :: body)) →
          ((l.phase.isJoining = true ∧ r.joined = false) ∨ (l.phase.isReleasing = true ∧ r.released = false) →
              exec (.status ⟨n, body⟩) s = .next (v.setEntry a (.label m)).choose)
          ∧ (l.phase.isReleasing = true → r.released = true →
              exec (.status ⟨n, body⟩) s = .next (State.choose
                ((v.setEntry a (.cooling l.longId (s.epoch + 2))).post (.labelReleased a true))))
          ∧ (∀ first misses drifted,
              ((∃ k b, l.phase = .joining k b ∧ r.joined = true ∧ first = [Notice.labelJoined a l.longId b]
                  ∧ misses = 0 ∧ drifted = false)
                ∨ (l.phase = .missing ∧ first = [.labelBack a] ∧ misses = 0 ∧ drifted = false)
                ∨ (l.phase = .bound ∧ first = [] ∧ misses = l.missCount ∧ drifted = l.drifted)) →
              ∃ (l1 l2 l3 l4 : Label) (n1 n3 n4 : List Notice),
                Answered s.epoch a d.slot r { m with phase := .bound, missCount := misses, drifted := drifted } l1 n1
                ∧ l2 = { l1 with
                    displayMode := r.mode
                    shownPage := r.shown.filter fun p => decide (p < l.capabilities.pageCount) }
                ∧ ReportTaken s.epoch a r l2 l3 n3
                ∧ ReadingTaken s.config s.timebase.stamp a r.mv l3 l4 n4
                ∧ exec (.status ⟨n, body⟩) s = .next (State.choose
                    ((List.range l.capabilities.pageCount).foldl (State.reconcilePage a r)
                      ((v.setEntry a (.label l4)).postAll (first ++ n1 ++ n3 ++ n4)))))))
  ∧ (∀ (s : State) (a h : Nat) (body : List Byte),
      ((∀ q, s.record h = some q → q.state ≠ .sending ∨ q.address ≠ a) ∨ s.contextOf h = none →
        s.engineReply a h (0x73 :: body) = s)
      ∧ (∀ q i c, s.record h = some q → q.state = .sending → q.address = a → s.contextOf h = some i →
          s.context i = some c →
          s.engineReply a h (0x73 :: body) = s.setContext i (some { c with answered := true, plainAnswer := true })))
  ∧ (∀ (a p : Nat) (r : StatusReport) (s t : State), t = State.reconcilePage a r s p →
      (s.liveOf a p = none →
        (∀ g, r.holds p = some g → t = s)
        ∧ (∀ l, r.holds p = none → s.entry a = .label l →
            (p ∈ l.wanted → t = s)
            ∧ (p ∉ l.wanted → ∃ w, (∀ x, x ∈ w ↔ x = p ∨ x ∈ l.wanted)
                ∧ t = (s.setEntry a (.label { l with wanted := w })).post (.pageWanted a p))))
      ∧ (∀ h q, s.liveOf a p = some h → s.record h = some q →
          (r.holds p = some q.generation →
            (q.state = .held ∨ (∃ c, q.state = .stalled c) → t = s)
            ∧ (q.state = .ready ∨ q.state = .sending → ∀ v w : State,
                v = s.setRecord h (some { q with state := .held }) →
                (s.contextOf h = none ∧ w = v ∨ ∃ i, s.contextOf h = some i ∧ w = v.setContext i none) →
                t = (w.setHeldOrder (if q.pinned then s.store.heldOrder else s.store.heldOrder ++ [h])).post
                  (.pageDelivered q.address q.page q.generation)))
          ∧ (r.holds p ≠ some q.generation →
              (q.state ≠ .held → t = s)
              ∧ (q.state = .held → t = (s.setRecord h
                  (some { q with state := .ready, readyStamp := some s.timebase.stamp })).setHeldOrder
                    (s.store.heldOrder.filter fun x => x != h)))))
  ∧ (∀ (tag adr echo flags batt act pend e0 e1 disp mask g0 g1 g2 g3 : Byte) (r : StatusReport),
      r = statusOf [0x73, tag, adr, echo, flags, batt, act, pend, e0, e1, disp, mask, g0, g1, g2, g3] →
      r.echo.toNat = echo.toNat % 16 ∧ (r.result = .done ↔ echo.toNat / 16 % 4 = 1)
      ∧ (r.result = .refused ↔ echo.toNat / 16 % 4 = 2) ∧ r.joined = flags.getLsbD 0 ∧ r.released = flags.getLsbD 1
      ∧ r.mv = (if batt = 0 then none else some (1500 + 10 * batt.toNat))
      ∧ (∀ p, r.active = some p ↔ 128 ≤ act.toNat ∧ p.valid = true ∧ p.period = 2 ^ (act.toNat / 16 % 8)
          ∧ p.phase = act.toNat % 16)
      ∧ (r.pending = .absent ↔ pend.toNat < 128)
      ∧ (∀ q, r.pending = .named q ↔ 128 ≤ pend.toNat ∧ q.profile.valid = true
          ∧ q.profile.period = 2 ^ (pend.toNat / 16 % 8) ∧ q.profile.phase = pend.toNat % 16
          ∧ q.effective.toNat = e0.toNat + 256 * e1.toNat)
      ∧ (∀ k, r.mode = some k ↔ disp.toNat % 8 = (match k with | .normal => 1 | .inverted => 2 | .blank => 3 | .allOn => 4))
      ∧ (∀ p, r.shown = some p ↔ p < 4 ∧ disp.toNat / 16 % 8 = p + 1)
      ∧ (∀ p, p < 4 → r.holds p = if mask.getLsbD p then some ([g0, g1, g2, g3].getD p 0) else none))

/-- CALL_END: the directory judges a call whose burst went out and whose entry is in the state the call needs. A
judged service call without a reply is a miss, and at the miss limit the entry goes MISSING; a judged ASSIGN or
release call uses an attempt, and the last one ends the join or the release. The marks are cleared whether it is
judged or not, and a planned profile in force in the slot's round is folded (log 15). The engine judges the label's
transfer after the directory (log 17): the contexts, the records and TRANSFER_FAILED are those of
TransferIsJudgedByTheTable, but that at the miss limit the SENDING record is READY again with its context freed, and
nothing is left to judge (R63). An entry that has become VACANT or COOLING meanwhile is not judged and has no mark to
clear, and no transfer of it is left to judge. With the window held open by its assembly, with no data slot in
progress, or with no call end to come in it, nothing happens (log 2). -/
def Obligations.CallEndJudgesTheCall : Prop :=
  (∀ s : State, s.held = false → (s.dataSlot = none ∨ ∃ d, s.dataSlot = some d ∧ d.callEnd = none) →
    exec .callEnd s = .next s.choose)
  ∧
  (∀ (s u : State) (d : DataSlot) (c : Call) (l : Label) (after : Label → Label), s.held = false →
    s.dataSlot = some d → d.callEnd = some c → s.entry c.address = .label l →
    u = { s with dataSlot := some { d with windowOpen := false, callEnd := none } } →
    (∀ m : Label, after m = { m with
        sentMark := false, heardMark := false, queue := m.queue.map fun o => { o with sentThisRound := false }
        current := (match m.planned with
          | some p => if p.effective = epochOf d.round then p.profile else m.current
          | none => m.current)
        planned := m.planned.filter fun p => p.effective != epochOf d.round }) →
    (s.windowHeldOpen = true → exec .callEnd s = .next s.choose)
    ∧ (s.windowHeldOpen = false → ∃ t : State, exec .callEnd s = .next t.choose
        ∧ LabelFrame c.address u t ∧ (t.burst = s.burst ∨ l.phase.isJoining = true)
        ∧ ((l.sentMark = false ∨ c.kind.fits l.phase = false ∨ c.kind = .probe) →
            t.entry c.address = .label (after l))
        ∧ (l.sentMark = true → c.kind = .service → l.phase = .bound →
            (l.heardMark = true → t.entry c.address = .label (after { l with missCount := 0, drifted := false }))
            ∧ (l.heardMark = false → min 15 (l.missCount + 1) < s.config.missLimit →
                t.entry c.address = .label (after { l with missCount := min 15 (l.missCount + 1), drifted := true }))
            ∧ (l.heardMark = false → s.config.missLimit ≤ min 15 (l.missCount + 1) →
                t.entry c.address = .label (after { l with
                  missCount := min 15 (l.missCount + 1), drifted := true, phase := .missing })
                ∧ (∃ later, t.link = (u.postAll (.labelMissing c.address :: later)).link)
                ∧ (∀ h r, s.sendingOf c.address = some h → s.record h = some r →
                    t.record h = some { r with state := .ready, readyStamp := some s.timebase.stamp })))
        ∧ ((l.sentMark = true → c.kind.fits l.phase = true →
              (c.kind = .service → l.heardMark = true ∨ min 15 (l.missCount + 1) < s.config.missLimit)
              ∧ (∀ n b, c.kind = .assign → l.phase = .joining n b → 1 < n)
              ∧ (∀ n b, c.kind = .release → l.phase = .releasing n b → 1 < n)) →
            t.contexts = (u.judgeTransfer c.address).contexts ∧ t.store = (u.judgeTransfer c.address).store
              ∧ t.link = (u.judgeTransfer c.address).link)
        ∧ (l.sentMark = true → c.kind = .service → l.phase = .bound → l.heardMark = false →
            s.config.missLimit ≤ min 15 (l.missCount + 1) →
            (∀ h k r q, s.record h = some r → s.record k = some q → r.address = c.address → q.address = c.address →
              r.state = .sending → q.state = .sending → h = k) →
            t.link = (u.post (.labelMissing c.address)).link
              ∧ (∀ h, t.record h = (s.record h).map fun r => if r.address = c.address ∧ r.state = .sending
                  then { r with state := .ready, readyStamp := some s.timebase.stamp } else r)
              ∧ t.store.heldOrder = s.store.heldOrder
              ∧ (∀ i, t.context i = if ∃ h, s.sendingOf c.address = some h ∧ s.contextOf h = some i
                  then none else s.context i))
        ∧ (∀ n b, l.sentMark = true → c.kind = .assign → l.phase = .joining n b →
            (1 < n → t.entry c.address = .label (after { l with phase := .joining (n - 1) b }))
            ∧ (n ≤ 1 → t.entry c.address = .vacant ∧ RecordsGone c.address u t
                ∧ t.link = (u.postAll (((l.queue.filter fun o => o.kind != .release).map
                    fun o => .opFailed c.address o.kind .joinFailed) ++ [.joinFailed c.address l.longId])).link))
        ∧ (∀ n b, l.sentMark = true → c.kind = .release → l.phase = .releasing n b →
            (1 < n → t.entry c.address = .label (after { l with phase := .releasing (n - 1) b }))
            ∧ (n ≤ 1 → t.entry c.address = .cooling l.longId (s.epoch + 2)
                ∧ (∃ later, t.link = (u.postAll (.labelReleased c.address false :: later)).link)
                ∧ t.contexts = (u.judgeTransfer c.address).contexts ∧ t.store = (u.judgeTransfer c.address).store
                ∧ t.link = ((u.post (.labelReleased c.address false)).judgeTransfer c.address).link))))
  ∧ (∀ (s u : State) (d : DataSlot) (c : Call), s.held = false → s.dataSlot = some d → d.callEnd = some c →
      (∀ l, s.entry c.address ≠ .label l) →
      u = { s with dataSlot := some { d with windowOpen := false, callEnd := none } } →
      (s.windowHeldOpen = true → exec .callEnd s = .next s.choose)
      ∧ (s.windowHeldOpen = false → exec .callEnd s = .next (u.judgeTransfer c.address).choose
          ∧ ((∀ h r, s.record h = some r → r.address = c.address → r.state ≠ .sending) →
              exec .callEnd s = .next u.choose)))

/-! ## Label operations (05) and wake profiles (04) -/

/-- LABEL_OP: its checks in order, then a kind not yet queued joins the tail, and a kind already queued has its fields
replaced in its place, with no attempt used and a send of the old fields detached. The bytes 0 and 1
of the reply's two marks are the model's choice (log 31). -/
def Obligations.LabelOpIsQueuedOrReplaces : Prop :=
  ∀ (tag a : Byte) (bytes : List Byte) (s u : State), Ready s → payloadOk .labelOp (a :: bytes) = true →
    u = s.inHand ⟨0x13, tag, a :: bytes⟩ →
    ((a = 0 ∨ 240 < a.toNat) → exec (.labelOp tag (a :: bytes)) s = .next (u.reply 0x13 tag .badField []))
    ∧ (1 ≤ a.toNat → a.toNat ≤ 240 →
        (3 < (byteAt bytes 0).toNat → exec (.labelOp tag (a :: bytes)) s = .next (u.reply 0x13 tag .badField []))
        ∧ ((byteAt bytes 0).toNat ≤ 3 →
            ((∀ l, s.entry a.toNat = .label l → l.phase.isReleasing = true) →
              exec (.labelOp tag (a :: bytes)) s = .next (u.reply 0x13 tag .wrongState []))
            ∧ (∀ l, s.entry a.toNat = .label l → l.phase.isReleasing = false →
                ((∀ f, ¬ OpForm l.capabilities.pageCount bytes f) →
                  exec (.labelOp tag (a :: bytes)) s = .next (u.reply 0x13 tag .badField []))
                ∧ (∀ f, OpForm l.capabilities.pageCount bytes f →
                    ((∀ o ∈ l.queue, o.kind ≠ f.kind) →
                      exec (.labelOp tag (a :: bytes)) s = .next (State.reply
                        (u.setEntry a.toNat (.label { l with
                          queue := l.queue ++ [⟨f, s.timebase.stamp, 0, false⟩] }))
                        0x13 tag .ok [byteOf (l.queue.length + 1), 0, 0]))
                    ∧ (∀ before o behind, l.queue = before ++ o :: behind → o.kind = f.kind →
                        (∀ x ∈ before ++ behind, x.kind ≠ f.kind) →
                        exec (.labelOp tag (a :: bytes)) s = .next (State.reply
                          (u.setEntry a.toNat (.label { l with
                            queue := before ++ { o with fields := f, attempts := 0, sentThisRound := false } :: behind
                            openSend := l.openSend.map fun w =>
                              if w.fields.kind = f.kind then { w with attached := false } else w }))
                          0x13 tag .ok [byteOf (before.length + 1), 1, flagByte (match l.openSend with
                            | some w => w.attached && w.fields.kind == f.kind
                            | none => false)]))))))

/-- REPLY_WINDOW_END: the open send of the slot ends unanswered. A SET_PROFILE that no STATUS of the slot has echoed
leaves the entry UNCERTAIN (log 28); an attached send uses an attempt, and at the op attempts setting its operation
fails. With another slot's send or none, no send is touched, and an entry that has become VACANT or COOLING meanwhile
has none. With the window held open by an assembly of its own, or ended already, or with no data slot in progress,
nothing happens (log 2). -/
def Obligations.UnansweredSendUsesAnAttempt : Prop :=
  (∀ s : State, s.held = false → s.dataSlot = none → exec .replyWindowEnd s = .next s.choose)
  ∧
  (∀ s : State, s.windowHeldOpen = true ↔ ∃ d a, s.dataSlot = some d ∧ s.receiver.assembly = some a
      ∧ a.window = some (.reply d.slot))
  ∧
  (∀ (s u : State) (d : DataSlot), s.held = false → s.dataSlot = some d → (∀ l, s.entry d.place.address ≠ .label l) →
    u = { s with dataSlot := some { d with windowOpen := false, endDue := false } } →
    (d.endDue = false ∨ s.windowHeldOpen = true → exec .replyWindowEnd s = .next s.choose)
    ∧ (d.endDue = true → s.windowHeldOpen = false → exec .replyWindowEnd s = .next u.choose))
  ∧
  ∀ (s u : State) (d : DataSlot) (l m : Label) (w : OpenSend) (a : Nat), s.held = false → s.dataSlot = some d →
    a = d.place.address → s.entry a = .label l →
    u = { s with dataSlot := some { d with windowOpen := false, endDue := false } } →
    (d.endDue = false ∨ s.windowHeldOpen = true → exec .replyWindowEnd s = .next s.choose)
    ∧ (d.endDue = true → s.windowHeldOpen = false →
        ((∀ x, l.openSend = some x → x.slot ≠ d.slot) → exec .replyWindowEnd s = .next u.choose)
        ∧ (l.openSend = some w → w.slot = d.slot →
            m = { l with
              openSend := none
              profileState := (match w.fields with
                | .setProfile p => if l.phase.isJoining = true ∨ w.echoed = true then l.profileState else .uncertain p
                | _ => l.profileState) } →
            (w.attached = false → exec .replyWindowEnd s = .next (u.setEntry a (.label m)).choose)
            ∧ (∀ before o behind, w.attached = true → l.queue = before ++ o :: behind → o.kind = w.fields.kind →
                (∀ x ∈ before ++ behind, x.kind ≠ w.fields.kind) →
                (o.attempts + 1 < s.config.opAttempts → exec .replyWindowEnd s = .next (State.choose
                  (u.setEntry a (.label { m with
                    queue := before ++ { o with attempts := o.attempts + 1 } :: behind }))))
                ∧ (s.config.opAttempts ≤ o.attempts + 1 → exec .replyWindowEnd s = .next (State.choose (State.post
                    (u.setEntry a (.label { m with queue := before ++ behind }))
                    (.opFailed a w.fields.kind .noAnswer)))))))

/-- The wake rounds of a profile, and the applicable profile of an entry: a label wakes in round index 0 and in every
index that leaves its phase; the planned profile applies in its effective epoch alone. -/
def Obligations.ProfileWakesByPeriodAndPhase : Prop :=
  (∀ (p : Profile) (r : Nat), p.wakes r = true ↔ r = 0 ∨ r % p.period = p.phase)
    ∧ (∀ (p : Profile), p.valid = true ↔
        (p.period = 1 ∨ p.period = 2 ∨ p.period = 4 ∨ p.period = 8 ∨ p.period = 16) ∧ p.phase < p.period)
    ∧ (∀ (p : Profile), p.valid = true → ((List.range 16).filter fun r => p.wakes r).length =
        16 / p.period + (if p.phase = 0 then 0 else 1))
    ∧ (∀ (l : Label) (e : Epoch), (l.planned = none → l.applicable e = l.current)
        ∧ (∀ p, l.planned = some p → l.applicable e = if p.effective = e then p.profile else l.current))

/-- The battery class of a reading, for thresholds that CONFIGURE allows: the fifteen cases of R85's table. -/
def Obligations.BatteryClassFollowsTheTable : Prop :=
  ∀ (L C mv : Nat), C + 100 ≤ L →
    (mv < C → ∀ b, classify L C b mv = .critical)
    ∧ (C ≤ mv → mv < C + 50 → classify L C .ok mv = .low ∧ classify L C .low mv = .low
        ∧ classify L C .critical mv = .critical)
    ∧ (C + 50 ≤ mv → mv < L → ∀ b, classify L C b mv = .low)
    ∧ (L ≤ mv → mv < L + 50 → classify L C .ok mv = .ok ∧ classify L C .low mv = .low
        ∧ classify L C .critical mv = .low)
    ∧ (L + 50 ≤ mv → ∀ b, classify L C b mv = .ok)

/-! ## Round planning (07) -/

/-- The planner. The candidates of a round are R137's, each once, in the order of class, waiting stamp and short
address; each is taken in its turn with the slots of R139, R142 and R143, and its claim is kept: the state that holds
the plan is the one that the turns leave. The plan that comes of it has at most 8
calls, at most 3 of them ASSIGN calls, no short address twice; the runs follow one another from slot 4 with no gap and
end by slot 63, a run's own slots first and then its fragment slots; every slot of a run names its label, and no slot
after the last run names any. The beacon has the fields, flags, entries, lead and bytes of R34 to R36, R145, R197. -/
def Obligations.PlanKeepsItsBounds : Prop :=
  (∀ s : State, s.buildPlan.plan.isSome = true)
  ∧ (∀ (s : State) (p : Plan), s.buildPlan.plan = some p →
    p.calls.length ≤ 8 ∧ (p.calls.filter fun c => c.kind == .assign).length ≤ 3
    ∧ p.calls.Pairwise (fun x y => x.address ≠ y.address)
    ∧ (∀ c ∈ p.calls, 4 ≤ c.first ∧ 1 ≤ c.count ∧ c.first + c.count ≤ 64)
    ∧ (∀ before x y after, p.calls = before ++ x :: y :: after → y.first = x.first + x.count)
    ∧ (∀ c rest, p.calls = c :: rest → c.first = 4)
    ∧ (∀ c ∈ p.calls, ∀ slot, c.first ≤ slot → slot < c.first + c.count →
        ∃ place, p.placeOf slot = some place ∧ place.address = c.address)
    ∧ (∀ slot, (∀ c ∈ p.calls, slot < c.first ∨ c.first + c.count ≤ slot) → p.placeOf slot = none)
    ∧ (∃ turns shares, turns = s.candidates.foldl Allocation.turn ⟨s, 60, 0, []⟩ ∧ shares = turns.shares
        ∧ s.buildPlan = { turns.state with plan := some p }
        ∧ p.calls.map (fun c => (c.address, c.kind, c.count))
          = shares.map (fun x => (x.address, x.kind, x.own + x.fragments))
        ∧ p.slotMap = shares.flatMap fun x =>
            List.replicate x.own ⟨x.address, match x.kind with
              | .assign => .assign | .service => .control | .probe => .probe | .release => .release⟩
            ++ List.replicate x.fragments ⟨x.address, .fragment x.handle⟩)
    ∧ p.beacon.hubId = s.config.hubId ∧ p.beacon.epoch = s.epoch ∧ p.beacon.roundIndex = s.timebase.stamp.toNat % 16
    ∧ (p.beacon.epochStart = true ↔ s.timebase.stamp.toNat % 16 = 0)
    ∧ (p.beacon.joinOpen = true ↔ s.config.joinPolicy ≠ .closed ∧ ∃ a, 1 ≤ a ∧ a ≤ 240 ∧ s.entry a = .vacant)
    ∧ p.beacon.joinCrowded = s.directory.crowded
    ∧ p.beacon.entries.length = p.calls.length
    ∧ (∀ (i : Nat) (c : Call), p.calls[i]? = some c →
        (c.kind ≠ .assign → p.beacon.entries[i]? = some (.call c.address c.first c.count))
        ∧ (∀ l, c.kind = .assign → s.entry c.address = .label l →
            p.beacon.entries[i]? = some (.assign l.longId c.address c.first)))
    ∧ (s.timebase.stamp.toNat % 16 = 0 ∨ (∃ c ∈ p.calls, ∃ l, s.entry c.address = .label l ∧ l.drifted = true) →
        p.beacon.lead = min 128 (4 * s.config.normalLead))
    ∧ (s.timebase.stamp.toNat % 16 ≠ 0 → (∀ c ∈ p.calls, ∀ l, s.entry c.address = .label l → l.drifted = false) →
        p.beacon.lead = s.config.normalLead)
    ∧ ∃ flags : Byte, flags.toNat = (if p.beacon.epochStart then 1 else 0) + (if p.beacon.joinOpen then 2 else 0)
          + (if p.beacon.joinCrowded then 4 else 0)
        ∧ p.beacon.bytes = [0x51] ++ leBytes 2 s.config.hubId.toNat ++ leBytes 2 s.epoch.toNat
          ++ [byteOf p.beacon.roundIndex, flags, byteOf p.calls.length]
          ++ p.beacon.entries.flatMap fun e => match e with
            | .call a f n => [byteOf a, byteOf f, byteOf n]
            | .assign id a f => [0] ++ leBytes 6 id.toNat ++ [byteOf a, byteOf f])
  ∧ (∀ s : State,
      (∀ x, x ∈ s.candidates ↔ 1 ≤ x.address ∧ x.address ≤ 240 ∧ CalledAs s x.address x.kind
        ∧ x.age = s.waitingAge x.address
        ∧ (x.kind = .assign ∨ x.kind = .release → x.rank = 1)
        ∧ (x.kind = .service →
            (∀ h r, s.transferRecord x.address = some h → s.record h = some r → r.urgent = true → x.rank = 2)
            ∧ ((∀ h r, s.transferRecord x.address = some h → s.record h = some r → r.urgent = false) → x.rank = 3))
        ∧ (x.kind = .probe → x.rank = 3))
      ∧ s.candidates.Pairwise (fun x y => x.rank < y.rank
          ∨ (x.rank = y.rank ∧ (y.age < x.age ∨ (x.age = y.age ∧ x.address < y.address))))
      ∧ (∀ a, (∀ n, WaitsBy s a n → n ≤ s.waitingAge a)
          ∧ (WaitsBy s a (s.waitingAge a) ∨ ((∀ n, ¬ WaitsBy s a n) ∧ s.waitingAge a = 0)))
      ∧ (RecordsOk s → ∀ a h, s.transferRecord a = some h ↔ IsTransfer s a h))
  ∧ (∀ (c : Allocation) (x : Applicant) (own frag : Nat),
      (x.kind ≠ .service → own = 1 ∧ frag = 0) →
      (x.kind = .service →
        (∀ l, c.state.entry x.address = .label l → own = l.queue.length)
        ∧ ((∀ l, c.state.entry x.address ≠ .label l) → own = 0)
        ∧ (∀ h r, c.state.record h = some r → r.address = x.address →
            r.state = .sending ∨ (r.state = .ready ∧ ∃ i, i < 16 ∧ c.state.context i = none) →
            frag = c.state.config.burstAllowance)
        ∧ ((∀ h r, c.state.record h = some r → r.address = x.address →
            r.state ≠ .sending ∧ (r.state = .ready → ∀ i, i < 16 → c.state.context i ≠ none)) → frag = 0)) →
      (c.shares.length = 8 ∨ (x.kind = .assign ∧ c.assigns = 3) → c.turn x = c)
      ∧ (c.shares.length ≠ 8 → ¬ (x.kind = .assign ∧ c.assigns = 3) →
          (1 ≤ own + frag → own + frag ≤ c.left →
            c.turn x = ⟨if 0 < frag then c.state.claimFor x.address else c.state, c.left - (own + frag),
              if x.kind = .assign then c.assigns + 1 else c.assigns,
              c.shares ++ [⟨x.address, x.kind, own, (c.state.transferRecord x.address).getD 0, frag⟩]⟩)
          ∧ (x.kind = .service → c.left < own + frag → 1 ≤ own → own ≤ c.left →
              c.turn x = ⟨c.state, c.left - own, c.assigns, c.shares ++ [⟨x.address, x.kind, own, 0, 0⟩]⟩)
          ∧ (own + frag = 0 ∨ (c.left < own + frag ∧ (x.kind ≠ .service ∨ own = 0 ∨ c.left < own)) → c.turn x = c)))
  ∧ (∀ (s : State) (a : Nat),
      ((∃ h r, s.record h = some r ∧ r.address = a ∧ r.state = .sending) → s.claimFor a = s)
      ∧ (∀ h i r, s.transferRecord a = some h → s.record h = some r → r.state = .ready → i < 16 →
          s.context i = none → (∀ j, j < i → s.context j ≠ none) →
          s.claimFor a = (s.setRecord h (some { r with state := .sending })).setContext i
            (some ⟨h, a, [], [], 0, 0, false, false, false, none⟩)))

/-! ## Page transfers (08) -/

/-- RECEIPT in the reply window of a fragment slot: a busy answer sets the answered mark alone, a receipt for another
page or generation is a plain answer, a matched one adds its places below the fragment count to the confirmed set, and
a complete set makes the record HELD. A record that is not SENDING, a slot of another kind, and a receipt that is not
attributed leave the engine alone. -/
def Obligations.ReceiptConfirmsFragments : Prop :=
  ∀ (n : Nat) (s u : State) (d : DataSlot) (l : Label) (adr page gen flags : Byte) (bitmap : List Byte) (body : List Byte),
    body = [s.config.hubId.setWidth 8, adr, page, gen, flags] ++ bitmap → bitmap.length = 3 → 1 ≤ adr.toNat →
    adr.toNat ≤ 240 → page.toNat ≤ 3 → Hearing s n (some (.reply d.slot)) → s.dataSlot = some d →
    s.entry d.place.address = .label l →
    u = s.endBurst.setEntry d.place.address
      (.label { l with heardMark := true, lastHeard := some s.timebase.stamp }) →
    (adr.toNat ≠ d.place.address → exec (.receipt ⟨n, body⟩) s = .next s.endBurst.choose)
    ∧ (adr.toNat = d.place.address →
        ((∀ h r, d.place.kind = .fragment h → s.record h = some r → r.state ≠ .sending ∨ r.address ≠ adr.toNat) →
          exec (.receipt ⟨n, body⟩) s = .next u.choose)
        ∧ (∀ h r i c, d.place.kind = .fragment h → s.record h = some r → r.state = .sending → r.address = adr.toNat →
            s.contextOf h = some i → s.context i = some c →
            (flags.getLsbD 0 = true →
              exec (.receipt ⟨n, body⟩) s = .next (u.setContext i (some { c with answered := true })).choose)
            ∧ (flags.getLsbD 0 = false → page.toNat ≠ r.page ∨ gen ≠ r.generation →
                exec (.receipt ⟨n, body⟩) s = .next
                  (u.setContext i (some { c with answered := true, plainAnswer := true })).choose)
            ∧ (flags.getLsbD 0 = false → page.toNat = r.page → gen = r.generation →
                ∃ g : List Nat, (∀ f, f ∈ g ↔ f ∈ c.confirmed
                    ∨ (f < (r.length + 47) / 48 ∧ f < 22 ∧ (bitmap.getD (f / 8) 0).getLsbD (f % 8) = true))
                  ∧ ((∃ f, f < (r.length + 47) / 48 ∧ f ∉ g) → exec (.receipt ⟨n, body⟩) s = .next (State.choose
                      (u.setContext i (some { c with
                        answered := true, plainAnswer := true, confirmed := g
                        grew := c.grew || g.any fun f => !c.confirmed.contains f }))))
                  ∧ ((∀ f, f < (r.length + 47) / 48 → f ∈ g) → exec (.receipt ⟨n, body⟩) s = .next (State.choose (State.post
                      (((u.setRecord h (some { r with state := .held })).setContext i none).setHeldOrder
                        (if r.pinned then s.store.heldOrder else s.store.heldOrder ++ [h]))
                      (.pageDelivered r.address r.page r.generation)))))
            ∧ (∀ b, (u.engineReply r.address h (0x73 :: b)) =
                u.setContext i (some { c with answered := true, plainAnswer := true }))))

/-- The judgement of a transfer at its call end: the rows of R167, and what they do to the record and its context. With
no fragment sent in the call nothing is judged, and the round's marks are cleared; with no SENDING record in a context
nothing changes (R166). -/
def Obligations.TransferIsJudgedByTheTable : Prop :=
  (∀ (limit : Nat) (c : Context),
    (c.answered = true → c.grew = true → judge limit c = .counts 0 0)
    ∧ (c.answered = true → c.grew = false → c.plainAnswer = false →
        judge limit c = if 8 ≤ c.busyCount + 1 then .stall .labelBusy else .counts c.stallCount (c.busyCount + 1))
    ∧ (c.answered = true → c.grew = false → c.plainAnswer = true →
        judge limit c = if limit ≤ c.stallCount + 1 then .stall .noProgress else .counts (c.stallCount + 1) c.busyCount)
    ∧ (c.answered = false → judge limit c = .counts c.stallCount c.busyCount))
  ∧ (∀ (s : State) (a h i : Nat) (c : Context) (r : Record), s.sendingOf a = some h → s.record h = some r →
      s.contextOf h = some i → s.context i = some c →
      ∀ m : Context, m = { c with sentThisRound := [], answered := false, plainAnswer := false, grew := false } →
      (c.sentThisRound = [] → s.judgeTransfer a = s.setContext i (some m))
      ∧ (c.sentThisRound ≠ [] →
          (∀ x y, judge s.config.stallLimit c = .counts x y →
            s.judgeTransfer a = s.setContext i (some { m with stallCount := x, busyCount := y }))
          ∧ (∀ why, judge s.config.stallLimit c = .stall why → s.judgeTransfer a = State.post
              ((s.setRecord h (some { r with state := .stalled why })).setContext i none)
              (.transferFailed r.address r.page r.generation why))))
  ∧ (∀ (s : State) (a : Nat), (s.sendingOf a = none → s.judgeTransfer a = s)
      ∧ (∀ h, s.sendingOf a = some h → s.contextOf h = none → s.judgeTransfer a = s))

/-! ## The page store (06) -/

/-- PAGE_BEGIN: its checks in order; then the key's FILLING record is freed, records are evicted from the head of the HELD
order for as long as there is no room and no further, and the lowest free slot takes a FILLING record with the lowest
free blocks. With no room after every candidate, nothing changes. -/
def Obligations.PageBeginMakesItsRoom : Prop :=
  (∀ (s : State) (h : Nat) (r : Record), s.record h = some r → s.evict h = State.post
      ((s.setRecord h none).setHeldOrder (s.store.heldOrder.filter fun x => x != h))
      (.pageEvicted r.address r.page r.generation))
  ∧ ∀ (tag a g gen lo hi urg : Byte) (n k : Nat) (s u : State) (p : List Byte), Ready s → p = [a, g, gen, lo, hi, urg] →
      u = s.inHand ⟨0x20, tag, p⟩ → n = lo.toNat + 256 * hi.toNat → k = (n + 255) / 256 →
      ((a = 0 ∨ 240 < a.toNat ∨ 3 < g.toNat ∨ n = 0 ∨ 1024 < n ∨ 1 < urg.toNat) →
        exec (.pageBegin tag p) s = .next (u.reply 0x20 tag .badField []))
      ∧ (1 ≤ a.toNat → a.toNat ≤ 240 → g.toNat ≤ 3 → 1 ≤ n → n ≤ 1024 → urg.toNat ≤ 1 →
          ((∀ l, s.entry a.toNat = .label l → l.phase.isReleasing = true) →
            exec (.pageBegin tag p) s = .next (u.reply 0x20 tag .wrongState []))
          ∧ (∀ l, s.entry a.toNat = .label l → l.phase.isReleasing = false →
              (l.capabilities.pageCount ≤ g.toNat ∨ l.capabilities.maxLength < n →
                exec (.pageBegin tag p) s = .next (u.reply 0x20 tag .badField []))
              ∧ (g.toNat < l.capabilities.pageCount → n ≤ l.capabilities.maxLength →
                  (∀ h r, s.liveOf a.toNat g.toNat = some h → s.record h = some r → r.generation = gen →
                    exec (.pageBegin tag p) s = .next (u.reply 0x20 tag .duplicate []))
                  ∧ ((∀ h r, s.liveOf a.toNat g.toNat = some h → s.record h = some r → r.generation ≠ gen) →
                      ∀ v : State, (s.fillingOf a.toNat g.toNat = none ∧ v = u
                          ∨ ∃ h, s.fillingOf a.toNat g.toNat = some h ∧ v = u.freeRecord h) →
                      ∀ after : Nat → State, (∀ m, after m = (v.store.heldOrder.take m).foldl State.evict v) →
                      ((∀ m, (after m).freeSlots = [] ∨ (after m).freeBlocks.length < k) →
                        exec (.pageBegin tag p) s = .next (u.reply 0x20 tag .storeFull []))
                      ∧ (∀ m h rest, (after m).freeSlots = h :: rest → k ≤ (after m).freeBlocks.length →
                          (∀ j, j < m → (after j).freeSlots = [] ∨ (after j).freeBlocks.length < k) →
                          exec (.pageBegin tag p) s = .next (State.reply ((after m).setRecord h (some
                            ⟨a.toNat, g.toNat, gen, n, (after m).freeBlocks.take k, .filling [], urg.toNat == 1, false,
                              false, none⟩)) 0x20 tag .ok [byteOf h]))))))

/-- PAGE_DATA: the handle, the state and the range are checked in order; then each byte stands at its offset in the
record's blocks with its parity, every other byte of the store is as it was, and the offsets join the written map. -/
def Obligations.PageDataWritesItsBytesAlone : Prop :=
  ∀ (tag hb lo hi : Byte) (data : List Byte) (o h : Nat) (s u : State) (p : List Byte), Ready s → BlocksOk s →
    StoreOk s.store → 1 ≤ data.length → data.length ≤ 192 → p = [hb, lo, hi, byteOf data.length] ++ data →
    o = lo.toNat + 256 * hi.toNat → h = hb.toNat → u = s.inHand ⟨0x21, tag, p⟩ →
    (128 ≤ h → exec (.pageData tag p) s = .next (u.reply 0x21 tag .badField []))
    ∧ (h < 128 → (s.record h = none ∨ ∃ r, s.record h = some r ∧ r.state = .void) →
        exec (.pageData tag p) s = .next (u.reply 0x21 tag .noRecord []))
    ∧ (∀ r, s.record h = some r → r.state ≠ .void → r.state.isFilling = false →
        exec (.pageData tag p) s = .next (u.reply 0x21 tag .wrongState []))
    ∧ (∀ r w, s.record h = some r → r.state = .filling w →
        (r.length < o + data.length → exec (.pageData tag p) s = .next (u.reply 0x21 tag .badField []))
        ∧ (o + data.length ≤ r.length → ∃ (t : State) (v : List Nat),
            exec (.pageData tag p) s = .next (t.reply 0x21 tag .ok [])
            ∧ (∀ i x, data[i]? = some x → ∀ k, r.blocks[(o + i) / 256]? = some k →
                t.storeByte (k * 256 + (o + i) % 256) = x ∧ t.storeParity (k * 256 + (o + i) % 256) = parityOf x)
            ∧ (∀ c, (∀ i k, i < data.length → r.blocks[(o + i) / 256]? = some k → c ≠ k * 256 + (o + i) % 256) →
                t.storeByte c = s.storeByte c ∧ t.storeParity c = s.storeParity c)
            ∧ t.record h = some { r with state := .filling v }
            ∧ (∀ x, x ∈ v ↔ x ∈ w ∨ (o ≤ x ∧ x < o + data.length))
            ∧ (∀ j, j ≠ h → t.record j = s.record j) ∧ t.store.heldOrder = s.store.heldOrder
            ∧ { t with store := s.store } = u))

/-- PAGE_END and PAGE_DISCARD: the handle is checked; a FILLING record with every offset written becomes READY with
the current stamp, the key's live record is superseded (freed, out of the HELD order, with the context of a SENDING
one, or VOID with its fragment burst cut while that is on the air), and the page leaves the wanted-reported set; a
discarded record is freed, or cut if it is SENDING. -/
def Obligations.PageEndAndDiscardSettleTheRecord : Prop :=
  ∀ (tag hb : Byte) (h : Nat) (s u v : State), Ready s → h = hb.toNat → u = s.inHand ⟨0x22, tag, [hb]⟩ →
    v = s.inHand ⟨0x23, tag, [hb]⟩ →
    (128 ≤ h → exec (.pageEnd tag [hb]) s = .next (u.reply 0x22 tag .badField [])
      ∧ exec (.pageDiscard tag [hb]) s = .next (v.reply 0x23 tag .badField []))
    ∧ (h < 128 → (s.record h = none ∨ ∃ r, s.record h = some r ∧ r.state = .void) →
        exec (.pageEnd tag [hb]) s = .next (u.reply 0x22 tag .noRecord [])
        ∧ exec (.pageDiscard tag [hb]) s = .next (v.reply 0x23 tag .noRecord []))
    ∧ (∀ r, s.record h = some r → r.state ≠ .void → r.state.isFilling = false →
        exec (.pageEnd tag [hb]) s = .next (u.reply 0x22 tag .wrongState []))
    ∧ (∀ r w, s.record h = some r → r.state = .filling w → (∃ o, o < r.length ∧ o ∉ w) →
        exec (.pageEnd tag [hb]) s = .next (u.reply 0x22 tag .incomplete []))
    ∧ (∀ r w, s.record h = some r → r.state = .filling w → (∀ o, o < r.length → o ∈ w) →
        ∃ t : State, exec (.pageEnd tag [hb]) s = .next (t.reply 0x22 tag .ok [hb])
          ∧ t.record h = some { r with state := .ready, readyStamp := some s.timebase.stamp }
          ∧ (∀ j, j ≠ h → s.liveOf r.address r.page ≠ some j → t.record j = s.record j)
          ∧ (∀ j q, s.liveOf r.address r.page = some j → s.record j = some q →
              t.record j = if q.state = .sending ∧ s.fragmentOnAir j = true
                then some { q with state := .void, pinned := false } else none)
          ∧ (∀ j q, s.liveOf r.address r.page = some j → s.record j = some q →
              (q.state = .sending ∧ s.fragmentOnAir j = true → t.burst = s.cutRequest.burst
                ∧ t.contexts = s.contexts ∧ t.store.heldOrder = s.store.heldOrder)
              ∧ (q.state ≠ .sending ∨ s.fragmentOnAir j = false → t.burst = s.burst
                  ∧ t.store.heldOrder = s.store.heldOrder.filter fun x => x != j)
              ∧ (q.state = .sending → s.fragmentOnAir j = false → ∀ i,
                  t.context i = if s.contextOf j = some i then none else s.context i)
              ∧ (q.state ≠ .sending → t.contexts = s.contexts))
          ∧ (∀ l, s.entry r.address = .label l →
              t.entry r.address = .label { l with wanted := l.wanted.filter fun x => x != r.page })
          ∧ ((∀ l, s.entry r.address ≠ .label l) → t.entry r.address = s.entry r.address)
          ∧ (s.liveOf r.address r.page = none → t.store.heldOrder = s.store.heldOrder ∧ t.contexts = s.contexts
              ∧ t.burst = s.burst)
          ∧ t.link = u.link ∧ LabelFrame r.address u t)
    ∧ (∀ r, s.record h = some r → r.state ≠ .void →
        (r.state ≠ .sending → exec (.pageDiscard tag [hb]) s = .next (State.reply
          ((v.setRecord h none).setHeldOrder (s.store.heldOrder.filter fun x => x != h)) 0x23 tag .ok []))
        ∧ (r.state = .sending → s.fragmentOnAir h = true → exec (.pageDiscard tag [hb]) s = .next (State.reply
            (v.cutRequest.setRecord h (some { r with state := .void, pinned := false })) 0x23 tag .ok []))
        ∧ (r.state = .sending → s.fragmentOnAir h = false → ∀ i, s.contextOf h = some i →
            exec (.pageDiscard tag [hb]) s = .next (State.reply
              (((v.setRecord h none).setHeldOrder (s.store.heldOrder.filter fun x => x != h)).setContext i none)
              0x23 tag .ok []))
        ∧ (r.state = .sending → s.contextOf h = none → exec (.pageDiscard tag [hb]) s = .next (State.reply
            ((v.setRecord h none).setHeldOrder (s.store.heldOrder.filter fun x => x != h)) 0x23 tag .ok [])))

/-- PAGE_PIN, PAGE_UNPIN and PAGE_REQUEUE: the handle is checked, then the mark is set within the limit of 32 or cleared,
a HELD record leaving the HELD order or joining its tail, and an undamaged STALLED record becomes READY again. -/
def Obligations.PinUnpinAndRequeueMarkTheRecord : Prop :=
  ∀ (tag hb : Byte) (h : Nat) (s u v w : State), Ready s → h = hb.toNat → u = s.inHand ⟨0x24, tag, [hb]⟩ →
    v = s.inHand ⟨0x25, tag, [hb]⟩ → w = s.inHand ⟨0x26, tag, [hb]⟩ →
    (128 ≤ h → exec (.pagePin tag [hb]) s = .next (u.reply 0x24 tag .badField [])
      ∧ exec (.pageUnpin tag [hb]) s = .next (v.reply 0x25 tag .badField [])
      ∧ exec (.pageRequeue tag [hb]) s = .next (w.reply 0x26 tag .badField []))
    ∧ (h < 128 → (s.record h = none ∨ ∃ r, s.record h = some r ∧ r.state = .void) →
        exec (.pagePin tag [hb]) s = .next (u.reply 0x24 tag .noRecord [])
        ∧ exec (.pageUnpin tag [hb]) s = .next (v.reply 0x25 tag .noRecord [])
        ∧ exec (.pageRequeue tag [hb]) s = .next (w.reply 0x26 tag .noRecord []))
    ∧ (∀ r, s.record h = some r → r.state ≠ .void →
        (r.pinned = true → exec (.pagePin tag [hb]) s = .next (u.reply 0x24 tag .ok []))
        ∧ (r.pinned = false → 32 ≤ s.pinnedCount →
            exec (.pagePin tag [hb]) s = .next (u.reply 0x24 tag .pinLimit []))
        ∧ (r.pinned = false → s.pinnedCount < 32 → exec (.pagePin tag [hb]) s = .next (State.reply
            ((u.setRecord h (some { r with pinned := true })).setHeldOrder
              (s.store.heldOrder.filter fun x => x != h)) 0x24 tag .ok []))
        ∧ (r.pinned = false → exec (.pageUnpin tag [hb]) s = .next (v.reply 0x25 tag .ok []))
        ∧ (r.pinned = true → exec (.pageUnpin tag [hb]) s = .next (State.reply
            ((v.setRecord h (some { r with pinned := false })).setHeldOrder
              (if r.state = .held then s.store.heldOrder ++ [h] else s.store.heldOrder)) 0x25 tag .ok []))
        ∧ (r.pinned = true →
            (State.setRecord v h (some { r with pinned := false })).pinnedCount + 1 = s.pinnedCount)
        ∧ (r.damaged = true → exec (.pageRequeue tag [hb]) s = .next (w.reply 0x26 tag .damaged []))
        ∧ (r.damaged = false → (∀ c, r.state ≠ .stalled c) →
            exec (.pageRequeue tag [hb]) s = .next (w.reply 0x26 tag .wrongState []))
        ∧ (∀ c, r.damaged = false → r.state = .stalled c → exec (.pageRequeue tag [hb]) s = .next (State.reply
            (w.setRecord h (some { r with state := .ready, readyStamp := some s.timebase.stamp })) 0x26 tag .ok [])))

/-! ## The forms every step keeps -/

/-- The reset state has every form that `StepKeepsEveryForm` lists. The values the model names for it (log 21) are among
them. -/
def Obligations.ResetStateHasEveryForm : Prop := Sound State.reset

/-- Every step keeps every form: the stored bytes in canonical form, no block held twice; no long id in two entries,
the admission list in its bounds and apart from them, each entry's counts and its operation queue in form (R42, R43,
R55, R88); the records in their ranges, with their blocks, their keys, the entries they belong to, the HELD order and
the pin limit (R104 to R108, R116, R118, R122); the transfer contexts tied to their records, with their counts and
sets (R153); the configuration in its ranges, the position in its bounds, the urgent notices first and at most 32, the
queues in their bounds, and one reply for the command in hand. -/
def Obligations.StepKeepsEveryForm : Prop := ∀ s t : State, Sound s → step s = .next t → Sound t
end

