-- ==== Sys2Proof/Laws/State.lean ====
section
/-! SUPPORT. One lemma for each field that an update of the state leaves alone, so that no proof unfolds an update. -/

namespace Sys2Proof.Machine

@[simp] theorem setEntry_clock (s : State) (a : Nat) (e : Entry) : (s.setEntry a e).clock = s.clock := by unfold State.setEntry; split <;> rfl
@[simp] theorem setEntry_held (s : State) (a : Nat) (e : Entry) : (s.setEntry a e).held = s.held := by unfold State.setEntry; split <;> rfl
@[simp] theorem setEntry_hub (s : State) (a : Nat) (e : Entry) : (s.setEntry a e).hub = s.hub := by unfold State.setEntry; split <;> rfl
@[simp] theorem setEntry_config (s : State) (a : Nat) (e : Entry) : (s.setEntry a e).config = s.config := by unfold State.setEntry; split <;> rfl
@[simp] theorem setEntry_timebase (s : State) (a : Nat) (e : Entry) : (s.setEntry a e).timebase = s.timebase := by unfold State.setEntry; split <;> rfl
@[simp] theorem setEntry_foreignSeen (s : State) (a : Nat) (e : Entry) : (s.setEntry a e).foreignSeen = s.foreignSeen := by unfold State.setEntry; split <;> rfl
@[simp] theorem setEntry_dataSlot (s : State) (a : Nat) (e : Entry) : (s.setEntry a e).dataSlot = s.dataSlot := by unfold State.setEntry; split <;> rfl
@[simp] theorem setEntry_burst (s : State) (a : Nat) (e : Entry) : (s.setEntry a e).burst = s.burst := by unfold State.setEntry; split <;> rfl
@[simp] theorem setEntry_receiver (s : State) (a : Nat) (e : Entry) : (s.setEntry a e).receiver = s.receiver := by unfold State.setEntry; split <;> rfl
@[simp] theorem setEntry_store (s : State) (a : Nat) (e : Entry) : (s.setEntry a e).store = s.store := by unfold State.setEntry; split <;> rfl
@[simp] theorem setEntry_contexts (s : State) (a : Nat) (e : Entry) : (s.setEntry a e).contexts = s.contexts := by unfold State.setEntry; split <;> rfl
@[simp] theorem setEntry_plan (s : State) (a : Nat) (e : Entry) : (s.setEntry a e).plan = s.plan := by unfold State.setEntry; split <;> rfl
@[simp] theorem setEntry_link (s : State) (a : Nat) (e : Entry) : (s.setEntry a e).link = s.link := by unfold State.setEntry; split <;> rfl
@[simp] theorem setEntry_pending (s : State) (a : Nat) (e : Entry) : (s.setEntry a e).pending = s.pending := by unfold State.setEntry; split <;> rfl
@[simp] theorem setEntry_pdinAhead (s : State) (a : Nat) (e : Entry) : (s.setEntry a e).pdinAhead = s.pdinAhead := by unfold State.setEntry; split <;> rfl
@[simp] theorem setEntry_blankingDue (s : State) (a : Nat) (e : Entry) : (s.setEntry a e).blankingDue = s.blankingDue := by unfold State.setEntry; split <;> rfl
@[simp] theorem setEntry_firstServed (s : State) (a : Nat) (e : Entry) : (s.setEntry a e).firstServed = s.firstServed := by unfold State.setEntry; split <;> rfl
@[simp] theorem setEntry_serial (s : State) (a : Nat) (e : Entry) : (s.setEntry a e).serial = s.serial := by unfold State.setEntry; split <;> rfl
@[simp] theorem setEntry_rxdAhead (s : State) (a : Nat) (e : Entry) : (s.setEntry a e).rxdAhead = s.rxdAhead := by unfold State.setEntry; split <;> rfl

@[simp] theorem updateLabel_clock (s : State) (a : Nat) (f : Label → Label) : (s.updateLabel a f).clock = s.clock := by unfold State.updateLabel; split <;> simp
@[simp] theorem updateLabel_held (s : State) (a : Nat) (f : Label → Label) : (s.updateLabel a f).held = s.held := by unfold State.updateLabel; split <;> simp
@[simp] theorem updateLabel_hub (s : State) (a : Nat) (f : Label → Label) : (s.updateLabel a f).hub = s.hub := by unfold State.updateLabel; split <;> simp
@[simp] theorem updateLabel_config (s : State) (a : Nat) (f : Label → Label) : (s.updateLabel a f).config = s.config := by unfold State.updateLabel; split <;> simp
@[simp] theorem updateLabel_timebase (s : State) (a : Nat) (f : Label → Label) : (s.updateLabel a f).timebase = s.timebase := by unfold State.updateLabel; split <;> simp
@[simp] theorem updateLabel_foreignSeen (s : State) (a : Nat) (f : Label → Label) : (s.updateLabel a f).foreignSeen = s.foreignSeen := by unfold State.updateLabel; split <;> simp
@[simp] theorem updateLabel_dataSlot (s : State) (a : Nat) (f : Label → Label) : (s.updateLabel a f).dataSlot = s.dataSlot := by unfold State.updateLabel; split <;> simp
@[simp] theorem updateLabel_burst (s : State) (a : Nat) (f : Label → Label) : (s.updateLabel a f).burst = s.burst := by unfold State.updateLabel; split <;> simp
@[simp] theorem updateLabel_receiver (s : State) (a : Nat) (f : Label → Label) : (s.updateLabel a f).receiver = s.receiver := by unfold State.updateLabel; split <;> simp
@[simp] theorem updateLabel_store (s : State) (a : Nat) (f : Label → Label) : (s.updateLabel a f).store = s.store := by unfold State.updateLabel; split <;> simp
@[simp] theorem updateLabel_contexts (s : State) (a : Nat) (f : Label → Label) : (s.updateLabel a f).contexts = s.contexts := by unfold State.updateLabel; split <;> simp
@[simp] theorem updateLabel_plan (s : State) (a : Nat) (f : Label → Label) : (s.updateLabel a f).plan = s.plan := by unfold State.updateLabel; split <;> simp
@[simp] theorem updateLabel_link (s : State) (a : Nat) (f : Label → Label) : (s.updateLabel a f).link = s.link := by unfold State.updateLabel; split <;> simp
@[simp] theorem updateLabel_pending (s : State) (a : Nat) (f : Label → Label) : (s.updateLabel a f).pending = s.pending := by unfold State.updateLabel; split <;> simp
@[simp] theorem updateLabel_pdinAhead (s : State) (a : Nat) (f : Label → Label) : (s.updateLabel a f).pdinAhead = s.pdinAhead := by unfold State.updateLabel; split <;> simp
@[simp] theorem updateLabel_blankingDue (s : State) (a : Nat) (f : Label → Label) : (s.updateLabel a f).blankingDue = s.blankingDue := by unfold State.updateLabel; split <;> simp
@[simp] theorem updateLabel_firstServed (s : State) (a : Nat) (f : Label → Label) : (s.updateLabel a f).firstServed = s.firstServed := by unfold State.updateLabel; split <;> simp
@[simp] theorem updateLabel_serial (s : State) (a : Nat) (f : Label → Label) : (s.updateLabel a f).serial = s.serial := by unfold State.updateLabel; split <;> simp
@[simp] theorem updateLabel_rxdAhead (s : State) (a : Nat) (f : Label → Label) : (s.updateLabel a f).rxdAhead = s.rxdAhead := by unfold State.updateLabel; split <;> simp

@[simp] theorem setRecord_clock (s : State) (h : Nat) (r : Option Record) : (s.setRecord h r).clock = s.clock := rfl
@[simp] theorem setRecord_held (s : State) (h : Nat) (r : Option Record) : (s.setRecord h r).held = s.held := rfl
@[simp] theorem setRecord_hub (s : State) (h : Nat) (r : Option Record) : (s.setRecord h r).hub = s.hub := rfl
@[simp] theorem setRecord_config (s : State) (h : Nat) (r : Option Record) : (s.setRecord h r).config = s.config := rfl
@[simp] theorem setRecord_timebase (s : State) (h : Nat) (r : Option Record) : (s.setRecord h r).timebase = s.timebase := rfl
@[simp] theorem setRecord_foreignSeen (s : State) (h : Nat) (r : Option Record) : (s.setRecord h r).foreignSeen = s.foreignSeen := rfl
@[simp] theorem setRecord_dataSlot (s : State) (h : Nat) (r : Option Record) : (s.setRecord h r).dataSlot = s.dataSlot := rfl
@[simp] theorem setRecord_burst (s : State) (h : Nat) (r : Option Record) : (s.setRecord h r).burst = s.burst := rfl
@[simp] theorem setRecord_receiver (s : State) (h : Nat) (r : Option Record) : (s.setRecord h r).receiver = s.receiver := rfl
@[simp] theorem setRecord_directory (s : State) (h : Nat) (r : Option Record) : (s.setRecord h r).directory = s.directory := rfl
@[simp] theorem setRecord_contexts (s : State) (h : Nat) (r : Option Record) : (s.setRecord h r).contexts = s.contexts := rfl
@[simp] theorem setRecord_plan (s : State) (h : Nat) (r : Option Record) : (s.setRecord h r).plan = s.plan := rfl
@[simp] theorem setRecord_link (s : State) (h : Nat) (r : Option Record) : (s.setRecord h r).link = s.link := rfl
@[simp] theorem setRecord_pending (s : State) (h : Nat) (r : Option Record) : (s.setRecord h r).pending = s.pending := rfl
@[simp] theorem setRecord_pdinAhead (s : State) (h : Nat) (r : Option Record) : (s.setRecord h r).pdinAhead = s.pdinAhead := rfl
@[simp] theorem setRecord_blankingDue (s : State) (h : Nat) (r : Option Record) : (s.setRecord h r).blankingDue = s.blankingDue := rfl
@[simp] theorem setRecord_firstServed (s : State) (h : Nat) (r : Option Record) : (s.setRecord h r).firstServed = s.firstServed := rfl
@[simp] theorem setRecord_serial (s : State) (h : Nat) (r : Option Record) : (s.setRecord h r).serial = s.serial := rfl
@[simp] theorem setRecord_rxdAhead (s : State) (h : Nat) (r : Option Record) : (s.setRecord h r).rxdAhead = s.rxdAhead := rfl

@[simp] theorem updateRecord_clock (s : State) (h : Nat) (f : Record → Record) : (s.updateRecord h f).clock = s.clock := by unfold State.updateRecord; split <;> rfl
@[simp] theorem updateRecord_held (s : State) (h : Nat) (f : Record → Record) : (s.updateRecord h f).held = s.held := by unfold State.updateRecord; split <;> rfl
@[simp] theorem updateRecord_hub (s : State) (h : Nat) (f : Record → Record) : (s.updateRecord h f).hub = s.hub := by unfold State.updateRecord; split <;> rfl
@[simp] theorem updateRecord_config (s : State) (h : Nat) (f : Record → Record) : (s.updateRecord h f).config = s.config := by unfold State.updateRecord; split <;> rfl
@[simp] theorem updateRecord_timebase (s : State) (h : Nat) (f : Record → Record) : (s.updateRecord h f).timebase = s.timebase := by unfold State.updateRecord; split <;> rfl
@[simp] theorem updateRecord_foreignSeen (s : State) (h : Nat) (f : Record → Record) : (s.updateRecord h f).foreignSeen = s.foreignSeen := by unfold State.updateRecord; split <;> rfl
@[simp] theorem updateRecord_dataSlot (s : State) (h : Nat) (f : Record → Record) : (s.updateRecord h f).dataSlot = s.dataSlot := by unfold State.updateRecord; split <;> rfl
@[simp] theorem updateRecord_burst (s : State) (h : Nat) (f : Record → Record) : (s.updateRecord h f).burst = s.burst := by unfold State.updateRecord; split <;> rfl
@[simp] theorem updateRecord_receiver (s : State) (h : Nat) (f : Record → Record) : (s.updateRecord h f).receiver = s.receiver := by unfold State.updateRecord; split <;> rfl
@[simp] theorem updateRecord_directory (s : State) (h : Nat) (f : Record → Record) : (s.updateRecord h f).directory = s.directory := by unfold State.updateRecord; split <;> rfl
@[simp] theorem updateRecord_contexts (s : State) (h : Nat) (f : Record → Record) : (s.updateRecord h f).contexts = s.contexts := by unfold State.updateRecord; split <;> rfl
@[simp] theorem updateRecord_plan (s : State) (h : Nat) (f : Record → Record) : (s.updateRecord h f).plan = s.plan := by unfold State.updateRecord; split <;> rfl
@[simp] theorem updateRecord_link (s : State) (h : Nat) (f : Record → Record) : (s.updateRecord h f).link = s.link := by unfold State.updateRecord; split <;> rfl
@[simp] theorem updateRecord_pending (s : State) (h : Nat) (f : Record → Record) : (s.updateRecord h f).pending = s.pending := by unfold State.updateRecord; split <;> rfl
@[simp] theorem updateRecord_pdinAhead (s : State) (h : Nat) (f : Record → Record) : (s.updateRecord h f).pdinAhead = s.pdinAhead := by unfold State.updateRecord; split <;> rfl
@[simp] theorem updateRecord_blankingDue (s : State) (h : Nat) (f : Record → Record) : (s.updateRecord h f).blankingDue = s.blankingDue := by unfold State.updateRecord; split <;> rfl
@[simp] theorem updateRecord_firstServed (s : State) (h : Nat) (f : Record → Record) : (s.updateRecord h f).firstServed = s.firstServed := by unfold State.updateRecord; split <;> rfl
@[simp] theorem updateRecord_serial (s : State) (h : Nat) (f : Record → Record) : (s.updateRecord h f).serial = s.serial := by unfold State.updateRecord; split <;> rfl
@[simp] theorem updateRecord_rxdAhead (s : State) (h : Nat) (f : Record → Record) : (s.updateRecord h f).rxdAhead = s.rxdAhead := by unfold State.updateRecord; split <;> rfl

@[simp] theorem setHeldOrder_clock (s : State) (q : List Nat) : (s.setHeldOrder q).clock = s.clock := rfl
@[simp] theorem setHeldOrder_held (s : State) (q : List Nat) : (s.setHeldOrder q).held = s.held := rfl
@[simp] theorem setHeldOrder_hub (s : State) (q : List Nat) : (s.setHeldOrder q).hub = s.hub := rfl
@[simp] theorem setHeldOrder_config (s : State) (q : List Nat) : (s.setHeldOrder q).config = s.config := rfl
@[simp] theorem setHeldOrder_timebase (s : State) (q : List Nat) : (s.setHeldOrder q).timebase = s.timebase := rfl
@[simp] theorem setHeldOrder_foreignSeen (s : State) (q : List Nat) : (s.setHeldOrder q).foreignSeen = s.foreignSeen := rfl
@[simp] theorem setHeldOrder_dataSlot (s : State) (q : List Nat) : (s.setHeldOrder q).dataSlot = s.dataSlot := rfl
@[simp] theorem setHeldOrder_burst (s : State) (q : List Nat) : (s.setHeldOrder q).burst = s.burst := rfl
@[simp] theorem setHeldOrder_receiver (s : State) (q : List Nat) : (s.setHeldOrder q).receiver = s.receiver := rfl
@[simp] theorem setHeldOrder_directory (s : State) (q : List Nat) : (s.setHeldOrder q).directory = s.directory := rfl
@[simp] theorem setHeldOrder_contexts (s : State) (q : List Nat) : (s.setHeldOrder q).contexts = s.contexts := rfl
@[simp] theorem setHeldOrder_plan (s : State) (q : List Nat) : (s.setHeldOrder q).plan = s.plan := rfl
@[simp] theorem setHeldOrder_link (s : State) (q : List Nat) : (s.setHeldOrder q).link = s.link := rfl
@[simp] theorem setHeldOrder_pending (s : State) (q : List Nat) : (s.setHeldOrder q).pending = s.pending := rfl
@[simp] theorem setHeldOrder_pdinAhead (s : State) (q : List Nat) : (s.setHeldOrder q).pdinAhead = s.pdinAhead := rfl
@[simp] theorem setHeldOrder_blankingDue (s : State) (q : List Nat) : (s.setHeldOrder q).blankingDue = s.blankingDue := rfl
@[simp] theorem setHeldOrder_firstServed (s : State) (q : List Nat) : (s.setHeldOrder q).firstServed = s.firstServed := rfl
@[simp] theorem setHeldOrder_serial (s : State) (q : List Nat) : (s.setHeldOrder q).serial = s.serial := rfl
@[simp] theorem setHeldOrder_rxdAhead (s : State) (q : List Nat) : (s.setHeldOrder q).rxdAhead = s.rxdAhead := rfl

@[simp] theorem writeStoreByte_clock (s : State) (a : Nat) (b : Byte) : (s.writeStoreByte a b).clock = s.clock := rfl
@[simp] theorem writeStoreByte_held (s : State) (a : Nat) (b : Byte) : (s.writeStoreByte a b).held = s.held := rfl
@[simp] theorem writeStoreByte_hub (s : State) (a : Nat) (b : Byte) : (s.writeStoreByte a b).hub = s.hub := rfl
@[simp] theorem writeStoreByte_config (s : State) (a : Nat) (b : Byte) : (s.writeStoreByte a b).config = s.config := rfl
@[simp] theorem writeStoreByte_timebase (s : State) (a : Nat) (b : Byte) : (s.writeStoreByte a b).timebase = s.timebase := rfl
@[simp] theorem writeStoreByte_foreignSeen (s : State) (a : Nat) (b : Byte) : (s.writeStoreByte a b).foreignSeen = s.foreignSeen := rfl
@[simp] theorem writeStoreByte_dataSlot (s : State) (a : Nat) (b : Byte) : (s.writeStoreByte a b).dataSlot = s.dataSlot := rfl
@[simp] theorem writeStoreByte_burst (s : State) (a : Nat) (b : Byte) : (s.writeStoreByte a b).burst = s.burst := rfl
@[simp] theorem writeStoreByte_receiver (s : State) (a : Nat) (b : Byte) : (s.writeStoreByte a b).receiver = s.receiver := rfl
@[simp] theorem writeStoreByte_directory (s : State) (a : Nat) (b : Byte) : (s.writeStoreByte a b).directory = s.directory := rfl
@[simp] theorem writeStoreByte_contexts (s : State) (a : Nat) (b : Byte) : (s.writeStoreByte a b).contexts = s.contexts := rfl
@[simp] theorem writeStoreByte_plan (s : State) (a : Nat) (b : Byte) : (s.writeStoreByte a b).plan = s.plan := rfl
@[simp] theorem writeStoreByte_link (s : State) (a : Nat) (b : Byte) : (s.writeStoreByte a b).link = s.link := rfl
@[simp] theorem writeStoreByte_pending (s : State) (a : Nat) (b : Byte) : (s.writeStoreByte a b).pending = s.pending := rfl
@[simp] theorem writeStoreByte_pdinAhead (s : State) (a : Nat) (b : Byte) : (s.writeStoreByte a b).pdinAhead = s.pdinAhead := rfl
@[simp] theorem writeStoreByte_blankingDue (s : State) (a : Nat) (b : Byte) : (s.writeStoreByte a b).blankingDue = s.blankingDue := rfl
@[simp] theorem writeStoreByte_firstServed (s : State) (a : Nat) (b : Byte) : (s.writeStoreByte a b).firstServed = s.firstServed := rfl
@[simp] theorem writeStoreByte_serial (s : State) (a : Nat) (b : Byte) : (s.writeStoreByte a b).serial = s.serial := rfl
@[simp] theorem writeStoreByte_rxdAhead (s : State) (a : Nat) (b : Byte) : (s.writeStoreByte a b).rxdAhead = s.rxdAhead := rfl

@[simp] theorem setContext_clock (s : State) (i : Nat) (c : Option Context) : (s.setContext i c).clock = s.clock := rfl
@[simp] theorem setContext_held (s : State) (i : Nat) (c : Option Context) : (s.setContext i c).held = s.held := rfl
@[simp] theorem setContext_hub (s : State) (i : Nat) (c : Option Context) : (s.setContext i c).hub = s.hub := rfl
@[simp] theorem setContext_config (s : State) (i : Nat) (c : Option Context) : (s.setContext i c).config = s.config := rfl
@[simp] theorem setContext_timebase (s : State) (i : Nat) (c : Option Context) : (s.setContext i c).timebase = s.timebase := rfl
@[simp] theorem setContext_foreignSeen (s : State) (i : Nat) (c : Option Context) : (s.setContext i c).foreignSeen = s.foreignSeen := rfl
@[simp] theorem setContext_dataSlot (s : State) (i : Nat) (c : Option Context) : (s.setContext i c).dataSlot = s.dataSlot := rfl
@[simp] theorem setContext_burst (s : State) (i : Nat) (c : Option Context) : (s.setContext i c).burst = s.burst := rfl
@[simp] theorem setContext_receiver (s : State) (i : Nat) (c : Option Context) : (s.setContext i c).receiver = s.receiver := rfl
@[simp] theorem setContext_directory (s : State) (i : Nat) (c : Option Context) : (s.setContext i c).directory = s.directory := rfl
@[simp] theorem setContext_store (s : State) (i : Nat) (c : Option Context) : (s.setContext i c).store = s.store := rfl
@[simp] theorem setContext_plan (s : State) (i : Nat) (c : Option Context) : (s.setContext i c).plan = s.plan := rfl
@[simp] theorem setContext_link (s : State) (i : Nat) (c : Option Context) : (s.setContext i c).link = s.link := rfl
@[simp] theorem setContext_pending (s : State) (i : Nat) (c : Option Context) : (s.setContext i c).pending = s.pending := rfl
@[simp] theorem setContext_pdinAhead (s : State) (i : Nat) (c : Option Context) : (s.setContext i c).pdinAhead = s.pdinAhead := rfl
@[simp] theorem setContext_blankingDue (s : State) (i : Nat) (c : Option Context) : (s.setContext i c).blankingDue = s.blankingDue := rfl
@[simp] theorem setContext_firstServed (s : State) (i : Nat) (c : Option Context) : (s.setContext i c).firstServed = s.firstServed := rfl
@[simp] theorem setContext_serial (s : State) (i : Nat) (c : Option Context) : (s.setContext i c).serial = s.serial := rfl
@[simp] theorem setContext_rxdAhead (s : State) (i : Nat) (c : Option Context) : (s.setContext i c).rxdAhead = s.rxdAhead := rfl

@[simp] theorem freeContextOf_clock (s : State) (h : Nat) : (s.freeContextOf h).clock = s.clock := by unfold State.freeContextOf; split <;> rfl
@[simp] theorem freeContextOf_held (s : State) (h : Nat) : (s.freeContextOf h).held = s.held := by unfold State.freeContextOf; split <;> rfl
@[simp] theorem freeContextOf_hub (s : State) (h : Nat) : (s.freeContextOf h).hub = s.hub := by unfold State.freeContextOf; split <;> rfl
@[simp] theorem freeContextOf_config (s : State) (h : Nat) : (s.freeContextOf h).config = s.config := by unfold State.freeContextOf; split <;> rfl
@[simp] theorem freeContextOf_timebase (s : State) (h : Nat) : (s.freeContextOf h).timebase = s.timebase := by unfold State.freeContextOf; split <;> rfl
@[simp] theorem freeContextOf_foreignSeen (s : State) (h : Nat) : (s.freeContextOf h).foreignSeen = s.foreignSeen := by unfold State.freeContextOf; split <;> rfl
@[simp] theorem freeContextOf_dataSlot (s : State) (h : Nat) : (s.freeContextOf h).dataSlot = s.dataSlot := by unfold State.freeContextOf; split <;> rfl
@[simp] theorem freeContextOf_burst (s : State) (h : Nat) : (s.freeContextOf h).burst = s.burst := by unfold State.freeContextOf; split <;> rfl
@[simp] theorem freeContextOf_receiver (s : State) (h : Nat) : (s.freeContextOf h).receiver = s.receiver := by unfold State.freeContextOf; split <;> rfl
@[simp] theorem freeContextOf_directory (s : State) (h : Nat) : (s.freeContextOf h).directory = s.directory := by unfold State.freeContextOf; split <;> rfl
@[simp] theorem freeContextOf_store (s : State) (h : Nat) : (s.freeContextOf h).store = s.store := by unfold State.freeContextOf; split <;> rfl
@[simp] theorem freeContextOf_plan (s : State) (h : Nat) : (s.freeContextOf h).plan = s.plan := by unfold State.freeContextOf; split <;> rfl
@[simp] theorem freeContextOf_link (s : State) (h : Nat) : (s.freeContextOf h).link = s.link := by unfold State.freeContextOf; split <;> rfl
@[simp] theorem freeContextOf_pending (s : State) (h : Nat) : (s.freeContextOf h).pending = s.pending := by unfold State.freeContextOf; split <;> rfl
@[simp] theorem freeContextOf_pdinAhead (s : State) (h : Nat) : (s.freeContextOf h).pdinAhead = s.pdinAhead := by unfold State.freeContextOf; split <;> rfl
@[simp] theorem freeContextOf_blankingDue (s : State) (h : Nat) : (s.freeContextOf h).blankingDue = s.blankingDue := by unfold State.freeContextOf; split <;> rfl
@[simp] theorem freeContextOf_firstServed (s : State) (h : Nat) : (s.freeContextOf h).firstServed = s.firstServed := by unfold State.freeContextOf; split <;> rfl
@[simp] theorem freeContextOf_serial (s : State) (h : Nat) : (s.freeContextOf h).serial = s.serial := by unfold State.freeContextOf; split <;> rfl
@[simp] theorem freeContextOf_rxdAhead (s : State) (h : Nat) : (s.freeContextOf h).rxdAhead = s.rxdAhead := by unfold State.freeContextOf; split <;> rfl

@[simp] theorem post_clock (s : State) (n : Notice) : (s.post n).clock = s.clock := rfl
@[simp] theorem post_held (s : State) (n : Notice) : (s.post n).held = s.held := rfl
@[simp] theorem post_hub (s : State) (n : Notice) : (s.post n).hub = s.hub := rfl
@[simp] theorem post_config (s : State) (n : Notice) : (s.post n).config = s.config := rfl
@[simp] theorem post_timebase (s : State) (n : Notice) : (s.post n).timebase = s.timebase := rfl
@[simp] theorem post_foreignSeen (s : State) (n : Notice) : (s.post n).foreignSeen = s.foreignSeen := rfl
@[simp] theorem post_dataSlot (s : State) (n : Notice) : (s.post n).dataSlot = s.dataSlot := rfl
@[simp] theorem post_burst (s : State) (n : Notice) : (s.post n).burst = s.burst := rfl
@[simp] theorem post_receiver (s : State) (n : Notice) : (s.post n).receiver = s.receiver := rfl
@[simp] theorem post_directory (s : State) (n : Notice) : (s.post n).directory = s.directory := rfl
@[simp] theorem post_store (s : State) (n : Notice) : (s.post n).store = s.store := rfl
@[simp] theorem post_contexts (s : State) (n : Notice) : (s.post n).contexts = s.contexts := rfl
@[simp] theorem post_plan (s : State) (n : Notice) : (s.post n).plan = s.plan := rfl
@[simp] theorem post_pending (s : State) (n : Notice) : (s.post n).pending = s.pending := rfl
@[simp] theorem post_pdinAhead (s : State) (n : Notice) : (s.post n).pdinAhead = s.pdinAhead := rfl
@[simp] theorem post_blankingDue (s : State) (n : Notice) : (s.post n).blankingDue = s.blankingDue := rfl
@[simp] theorem post_firstServed (s : State) (n : Notice) : (s.post n).firstServed = s.firstServed := rfl
@[simp] theorem post_serial (s : State) (n : Notice) : (s.post n).serial = s.serial := rfl
@[simp] theorem post_rxdAhead (s : State) (n : Notice) : (s.post n).rxdAhead = s.rxdAhead := rfl

@[simp] theorem choose_clock (s : State) : (s.choose).clock = s.clock := rfl
@[simp] theorem choose_held (s : State) : (s.choose).held = s.held := rfl
@[simp] theorem choose_hub (s : State) : (s.choose).hub = s.hub := rfl
@[simp] theorem choose_config (s : State) : (s.choose).config = s.config := rfl
@[simp] theorem choose_timebase (s : State) : (s.choose).timebase = s.timebase := rfl
@[simp] theorem choose_foreignSeen (s : State) : (s.choose).foreignSeen = s.foreignSeen := rfl
@[simp] theorem choose_dataSlot (s : State) : (s.choose).dataSlot = s.dataSlot := rfl
@[simp] theorem choose_burst (s : State) : (s.choose).burst = s.burst := rfl
@[simp] theorem choose_receiver (s : State) : (s.choose).receiver = s.receiver := rfl
@[simp] theorem choose_directory (s : State) : (s.choose).directory = s.directory := rfl
@[simp] theorem choose_store (s : State) : (s.choose).store = s.store := rfl
@[simp] theorem choose_contexts (s : State) : (s.choose).contexts = s.contexts := rfl
@[simp] theorem choose_plan (s : State) : (s.choose).plan = s.plan := rfl
@[simp] theorem choose_pending (s : State) : (s.choose).pending = s.pending := rfl
@[simp] theorem choose_pdinAhead (s : State) : (s.choose).pdinAhead = s.pdinAhead := rfl
@[simp] theorem choose_blankingDue (s : State) : (s.choose).blankingDue = s.blankingDue := rfl
@[simp] theorem choose_firstServed (s : State) : (s.choose).firstServed = s.firstServed := rfl
@[simp] theorem choose_serial (s : State) : (s.choose).serial = s.serial := rfl
@[simp] theorem choose_rxdAhead (s : State) : (s.choose).rxdAhead = s.rxdAhead := rfl

@[simp] theorem setAdmission_clock (s : State) (q : List Asking) : (s.setAdmission q).clock = s.clock := rfl
@[simp] theorem setAdmission_held (s : State) (q : List Asking) : (s.setAdmission q).held = s.held := rfl
@[simp] theorem setAdmission_hub (s : State) (q : List Asking) : (s.setAdmission q).hub = s.hub := rfl
@[simp] theorem setAdmission_config (s : State) (q : List Asking) : (s.setAdmission q).config = s.config := rfl
@[simp] theorem setAdmission_timebase (s : State) (q : List Asking) : (s.setAdmission q).timebase = s.timebase := rfl
@[simp] theorem setAdmission_foreignSeen (s : State) (q : List Asking) : (s.setAdmission q).foreignSeen = s.foreignSeen := rfl
@[simp] theorem setAdmission_dataSlot (s : State) (q : List Asking) : (s.setAdmission q).dataSlot = s.dataSlot := rfl
@[simp] theorem setAdmission_burst (s : State) (q : List Asking) : (s.setAdmission q).burst = s.burst := rfl
@[simp] theorem setAdmission_receiver (s : State) (q : List Asking) : (s.setAdmission q).receiver = s.receiver := rfl
@[simp] theorem setAdmission_store (s : State) (q : List Asking) : (s.setAdmission q).store = s.store := rfl
@[simp] theorem setAdmission_contexts (s : State) (q : List Asking) : (s.setAdmission q).contexts = s.contexts := rfl
@[simp] theorem setAdmission_plan (s : State) (q : List Asking) : (s.setAdmission q).plan = s.plan := rfl
@[simp] theorem setAdmission_link (s : State) (q : List Asking) : (s.setAdmission q).link = s.link := rfl
@[simp] theorem setAdmission_pending (s : State) (q : List Asking) : (s.setAdmission q).pending = s.pending := rfl
@[simp] theorem setAdmission_pdinAhead (s : State) (q : List Asking) : (s.setAdmission q).pdinAhead = s.pdinAhead := rfl
@[simp] theorem setAdmission_blankingDue (s : State) (q : List Asking) : (s.setAdmission q).blankingDue = s.blankingDue := rfl
@[simp] theorem setAdmission_firstServed (s : State) (q : List Asking) : (s.setAdmission q).firstServed = s.firstServed := rfl
@[simp] theorem setAdmission_serial (s : State) (q : List Asking) : (s.setAdmission q).serial = s.serial := rfl
@[simp] theorem setAdmission_rxdAhead (s : State) (q : List Asking) : (s.setAdmission q).rxdAhead = s.rxdAhead := rfl

@[simp] theorem setAssembly_clock (s : State) (a : Option Assembly) : (s.setAssembly a).clock = s.clock := rfl
@[simp] theorem setAssembly_held (s : State) (a : Option Assembly) : (s.setAssembly a).held = s.held := rfl
@[simp] theorem setAssembly_hub (s : State) (a : Option Assembly) : (s.setAssembly a).hub = s.hub := rfl
@[simp] theorem setAssembly_config (s : State) (a : Option Assembly) : (s.setAssembly a).config = s.config := rfl
@[simp] theorem setAssembly_timebase (s : State) (a : Option Assembly) : (s.setAssembly a).timebase = s.timebase := rfl
@[simp] theorem setAssembly_foreignSeen (s : State) (a : Option Assembly) : (s.setAssembly a).foreignSeen = s.foreignSeen := rfl
@[simp] theorem setAssembly_dataSlot (s : State) (a : Option Assembly) : (s.setAssembly a).dataSlot = s.dataSlot := rfl
@[simp] theorem setAssembly_burst (s : State) (a : Option Assembly) : (s.setAssembly a).burst = s.burst := rfl
@[simp] theorem setAssembly_directory (s : State) (a : Option Assembly) : (s.setAssembly a).directory = s.directory := rfl
@[simp] theorem setAssembly_store (s : State) (a : Option Assembly) : (s.setAssembly a).store = s.store := rfl
@[simp] theorem setAssembly_contexts (s : State) (a : Option Assembly) : (s.setAssembly a).contexts = s.contexts := rfl
@[simp] theorem setAssembly_plan (s : State) (a : Option Assembly) : (s.setAssembly a).plan = s.plan := rfl
@[simp] theorem setAssembly_link (s : State) (a : Option Assembly) : (s.setAssembly a).link = s.link := rfl
@[simp] theorem setAssembly_pending (s : State) (a : Option Assembly) : (s.setAssembly a).pending = s.pending := rfl
@[simp] theorem setAssembly_pdinAhead (s : State) (a : Option Assembly) : (s.setAssembly a).pdinAhead = s.pdinAhead := rfl
@[simp] theorem setAssembly_blankingDue (s : State) (a : Option Assembly) : (s.setAssembly a).blankingDue = s.blankingDue := rfl
@[simp] theorem setAssembly_firstServed (s : State) (a : Option Assembly) : (s.setAssembly a).firstServed = s.firstServed := rfl
@[simp] theorem setAssembly_serial (s : State) (a : Option Assembly) : (s.setAssembly a).serial = s.serial := rfl
@[simp] theorem setAssembly_rxdAhead (s : State) (a : Option Assembly) : (s.setAssembly a).rxdAhead = s.rxdAhead := rfl

@[simp] theorem endBurst_clock (s : State) : s.endBurst.clock = s.clock := rfl
@[simp] theorem endBurst_held (s : State) : s.endBurst.held = s.held := rfl
@[simp] theorem endBurst_hub (s : State) : s.endBurst.hub = s.hub := rfl
@[simp] theorem endBurst_config (s : State) : s.endBurst.config = s.config := rfl
@[simp] theorem endBurst_timebase (s : State) : s.endBurst.timebase = s.timebase := rfl
@[simp] theorem endBurst_foreignSeen (s : State) : s.endBurst.foreignSeen = s.foreignSeen := rfl
@[simp] theorem endBurst_dataSlot (s : State) : s.endBurst.dataSlot = s.dataSlot := rfl
@[simp] theorem endBurst_burst (s : State) : s.endBurst.burst = s.burst := rfl
@[simp] theorem endBurst_directory (s : State) : s.endBurst.directory = s.directory := rfl
@[simp] theorem endBurst_store (s : State) : s.endBurst.store = s.store := rfl
@[simp] theorem endBurst_contexts (s : State) : s.endBurst.contexts = s.contexts := rfl
@[simp] theorem endBurst_plan (s : State) : s.endBurst.plan = s.plan := rfl
@[simp] theorem endBurst_link (s : State) : s.endBurst.link = s.link := rfl
@[simp] theorem endBurst_pending (s : State) : s.endBurst.pending = s.pending := rfl
@[simp] theorem endBurst_pdinAhead (s : State) : s.endBurst.pdinAhead = s.pdinAhead := rfl
@[simp] theorem endBurst_blankingDue (s : State) : s.endBurst.blankingDue = s.blankingDue := rfl
@[simp] theorem endBurst_firstServed (s : State) : s.endBurst.firstServed = s.firstServed := rfl
@[simp] theorem endBurst_serial (s : State) : s.endBurst.serial = s.serial := rfl
@[simp] theorem endBurst_rxdAhead (s : State) : s.endBurst.rxdAhead = s.rxdAhead := rfl

@[simp] theorem hearOn_clock (s : State) (r : Receiver) : (s.hearOn r).clock = s.clock := rfl
@[simp] theorem hearOn_held (s : State) (r : Receiver) : (s.hearOn r).held = s.held := rfl
@[simp] theorem hearOn_hub (s : State) (r : Receiver) : (s.hearOn r).hub = s.hub := rfl
@[simp] theorem hearOn_config (s : State) (r : Receiver) : (s.hearOn r).config = s.config := rfl
@[simp] theorem hearOn_timebase (s : State) (r : Receiver) : (s.hearOn r).timebase = s.timebase := rfl
@[simp] theorem hearOn_foreignSeen (s : State) (r : Receiver) : (s.hearOn r).foreignSeen = s.foreignSeen := rfl
@[simp] theorem hearOn_dataSlot (s : State) (r : Receiver) : (s.hearOn r).dataSlot = s.dataSlot := rfl
@[simp] theorem hearOn_burst (s : State) (r : Receiver) : (s.hearOn r).burst = s.burst := rfl
@[simp] theorem hearOn_directory (s : State) (r : Receiver) : (s.hearOn r).directory = s.directory := rfl
@[simp] theorem hearOn_store (s : State) (r : Receiver) : (s.hearOn r).store = s.store := rfl
@[simp] theorem hearOn_contexts (s : State) (r : Receiver) : (s.hearOn r).contexts = s.contexts := rfl
@[simp] theorem hearOn_plan (s : State) (r : Receiver) : (s.hearOn r).plan = s.plan := rfl
@[simp] theorem hearOn_link (s : State) (r : Receiver) : (s.hearOn r).link = s.link := rfl
@[simp] theorem hearOn_pending (s : State) (r : Receiver) : (s.hearOn r).pending = s.pending := rfl
@[simp] theorem hearOn_pdinAhead (s : State) (r : Receiver) : (s.hearOn r).pdinAhead = s.pdinAhead := rfl
@[simp] theorem hearOn_receiver (s : State) (r : Receiver) : (s.hearOn r).receiver = r := rfl
@[simp] theorem hearOn_blankingDue (s : State) (r : Receiver) : (s.hearOn r).blankingDue = s.burst.isSome := rfl
@[simp] theorem hearOn_firstServed (s : State) (r : Receiver) : (s.hearOn r).firstServed = s.firstServed := rfl
@[simp] theorem hearOn_serial (s : State) (r : Receiver) : (s.hearOn r).serial = s.serial := rfl
@[simp] theorem hearOn_rxdAhead (s : State) (r : Receiver) : (s.hearOn r).rxdAhead = s.rxdAhead := rfl

@[simp] theorem addReply_clock (s : State) (r : Reply) : (s.addReply r).clock = s.clock := rfl
@[simp] theorem addReply_held (s : State) (r : Reply) : (s.addReply r).held = s.held := rfl
@[simp] theorem addReply_hub (s : State) (r : Reply) : (s.addReply r).hub = s.hub := rfl
@[simp] theorem addReply_config (s : State) (r : Reply) : (s.addReply r).config = s.config := rfl
@[simp] theorem addReply_timebase (s : State) (r : Reply) : (s.addReply r).timebase = s.timebase := rfl
@[simp] theorem addReply_foreignSeen (s : State) (r : Reply) : (s.addReply r).foreignSeen = s.foreignSeen := rfl
@[simp] theorem addReply_dataSlot (s : State) (r : Reply) : (s.addReply r).dataSlot = s.dataSlot := rfl
@[simp] theorem addReply_burst (s : State) (r : Reply) : (s.addReply r).burst = s.burst := rfl
@[simp] theorem addReply_receiver (s : State) (r : Reply) : (s.addReply r).receiver = s.receiver := rfl
@[simp] theorem addReply_directory (s : State) (r : Reply) : (s.addReply r).directory = s.directory := rfl
@[simp] theorem addReply_store (s : State) (r : Reply) : (s.addReply r).store = s.store := rfl
@[simp] theorem addReply_contexts (s : State) (r : Reply) : (s.addReply r).contexts = s.contexts := rfl
@[simp] theorem addReply_plan (s : State) (r : Reply) : (s.addReply r).plan = s.plan := rfl
@[simp] theorem addReply_pending (s : State) (r : Reply) : (s.addReply r).pending = s.pending := rfl
@[simp] theorem addReply_pdinAhead (s : State) (r : Reply) : (s.addReply r).pdinAhead = s.pdinAhead := rfl
@[simp] theorem addReply_blankingDue (s : State) (r : Reply) : (s.addReply r).blankingDue = s.blankingDue := rfl
@[simp] theorem addReply_firstServed (s : State) (r : Reply) : (s.addReply r).firstServed = s.firstServed := rfl
@[simp] theorem addReply_serial (s : State) (r : Reply) : (s.addReply r).serial = s.serial := rfl
@[simp] theorem addReply_rxdAhead (s : State) (r : Reply) : (s.addReply r).rxdAhead = s.rxdAhead := rfl

@[simp] theorem setReceiver_clock (s : State) (r : FrameReceiver) : (s.setReceiver r).clock = s.clock := rfl
@[simp] theorem setReceiver_held (s : State) (r : FrameReceiver) : (s.setReceiver r).held = s.held := rfl
@[simp] theorem setReceiver_hub (s : State) (r : FrameReceiver) : (s.setReceiver r).hub = s.hub := rfl
@[simp] theorem setReceiver_config (s : State) (r : FrameReceiver) : (s.setReceiver r).config = s.config := rfl
@[simp] theorem setReceiver_timebase (s : State) (r : FrameReceiver) : (s.setReceiver r).timebase = s.timebase := rfl
@[simp] theorem setReceiver_foreignSeen (s : State) (r : FrameReceiver) : (s.setReceiver r).foreignSeen = s.foreignSeen := rfl
@[simp] theorem setReceiver_dataSlot (s : State) (r : FrameReceiver) : (s.setReceiver r).dataSlot = s.dataSlot := rfl
@[simp] theorem setReceiver_burst (s : State) (r : FrameReceiver) : (s.setReceiver r).burst = s.burst := rfl
@[simp] theorem setReceiver_receiver (s : State) (r : FrameReceiver) : (s.setReceiver r).receiver = s.receiver := rfl
@[simp] theorem setReceiver_directory (s : State) (r : FrameReceiver) : (s.setReceiver r).directory = s.directory := rfl
@[simp] theorem setReceiver_store (s : State) (r : FrameReceiver) : (s.setReceiver r).store = s.store := rfl
@[simp] theorem setReceiver_contexts (s : State) (r : FrameReceiver) : (s.setReceiver r).contexts = s.contexts := rfl
@[simp] theorem setReceiver_plan (s : State) (r : FrameReceiver) : (s.setReceiver r).plan = s.plan := rfl
@[simp] theorem setReceiver_pending (s : State) (r : FrameReceiver) : (s.setReceiver r).pending = s.pending := rfl
@[simp] theorem setReceiver_pdinAhead (s : State) (r : FrameReceiver) : (s.setReceiver r).pdinAhead = s.pdinAhead := rfl
@[simp] theorem setReceiver_blankingDue (s : State) (r : FrameReceiver) : (s.setReceiver r).blankingDue = s.blankingDue := rfl
@[simp] theorem setReceiver_firstServed (s : State) (r : FrameReceiver) : (s.setReceiver r).firstServed = s.firstServed := rfl
@[simp] theorem setReceiver_serial (s : State) (r : FrameReceiver) : (s.setReceiver r).serial = s.serial := rfl
@[simp] theorem setReceiver_rxdAhead (s : State) (r : FrameReceiver) : (s.setReceiver r).rxdAhead = s.rxdAhead := rfl

@[simp] theorem setCommands_clock (s : State) (q : List HostFrame) : (s.setCommands q).clock = s.clock := rfl
@[simp] theorem setCommands_held (s : State) (q : List HostFrame) : (s.setCommands q).held = s.held := rfl
@[simp] theorem setCommands_hub (s : State) (q : List HostFrame) : (s.setCommands q).hub = s.hub := rfl
@[simp] theorem setCommands_config (s : State) (q : List HostFrame) : (s.setCommands q).config = s.config := rfl
@[simp] theorem setCommands_timebase (s : State) (q : List HostFrame) : (s.setCommands q).timebase = s.timebase := rfl
@[simp] theorem setCommands_foreignSeen (s : State) (q : List HostFrame) : (s.setCommands q).foreignSeen = s.foreignSeen := rfl
@[simp] theorem setCommands_dataSlot (s : State) (q : List HostFrame) : (s.setCommands q).dataSlot = s.dataSlot := rfl
@[simp] theorem setCommands_burst (s : State) (q : List HostFrame) : (s.setCommands q).burst = s.burst := rfl
@[simp] theorem setCommands_receiver (s : State) (q : List HostFrame) : (s.setCommands q).receiver = s.receiver := rfl
@[simp] theorem setCommands_directory (s : State) (q : List HostFrame) : (s.setCommands q).directory = s.directory := rfl
@[simp] theorem setCommands_store (s : State) (q : List HostFrame) : (s.setCommands q).store = s.store := rfl
@[simp] theorem setCommands_contexts (s : State) (q : List HostFrame) : (s.setCommands q).contexts = s.contexts := rfl
@[simp] theorem setCommands_plan (s : State) (q : List HostFrame) : (s.setCommands q).plan = s.plan := rfl
@[simp] theorem setCommands_pending (s : State) (q : List HostFrame) : (s.setCommands q).pending = s.pending := rfl
@[simp] theorem setCommands_pdinAhead (s : State) (q : List HostFrame) : (s.setCommands q).pdinAhead = s.pdinAhead := rfl
@[simp] theorem setCommands_blankingDue (s : State) (q : List HostFrame) : (s.setCommands q).blankingDue = s.blankingDue := rfl
@[simp] theorem setCommands_firstServed (s : State) (q : List HostFrame) : (s.setCommands q).firstServed = s.firstServed := rfl
@[simp] theorem setCommands_serial (s : State) (q : List HostFrame) : (s.setCommands q).serial = s.serial := rfl
@[simp] theorem setCommands_rxdAhead (s : State) (q : List HostFrame) : (s.setCommands q).rxdAhead = s.rxdAhead := rfl

@[simp] theorem discardFrame_clock (s : State) : (s.discardFrame).clock = s.clock := rfl
@[simp] theorem discardFrame_held (s : State) : (s.discardFrame).held = s.held := rfl
@[simp] theorem discardFrame_hub (s : State) : (s.discardFrame).hub = s.hub := rfl
@[simp] theorem discardFrame_config (s : State) : (s.discardFrame).config = s.config := rfl
@[simp] theorem discardFrame_timebase (s : State) : (s.discardFrame).timebase = s.timebase := rfl
@[simp] theorem discardFrame_foreignSeen (s : State) : (s.discardFrame).foreignSeen = s.foreignSeen := rfl
@[simp] theorem discardFrame_dataSlot (s : State) : (s.discardFrame).dataSlot = s.dataSlot := rfl
@[simp] theorem discardFrame_burst (s : State) : (s.discardFrame).burst = s.burst := rfl
@[simp] theorem discardFrame_receiver (s : State) : (s.discardFrame).receiver = s.receiver := rfl
@[simp] theorem discardFrame_directory (s : State) : (s.discardFrame).directory = s.directory := rfl
@[simp] theorem discardFrame_store (s : State) : (s.discardFrame).store = s.store := rfl
@[simp] theorem discardFrame_contexts (s : State) : (s.discardFrame).contexts = s.contexts := rfl
@[simp] theorem discardFrame_plan (s : State) : (s.discardFrame).plan = s.plan := rfl
@[simp] theorem discardFrame_pending (s : State) : (s.discardFrame).pending = s.pending := rfl
@[simp] theorem discardFrame_pdinAhead (s : State) : (s.discardFrame).pdinAhead = s.pdinAhead := rfl
@[simp] theorem discardFrame_blankingDue (s : State) : (s.discardFrame).blankingDue = s.blankingDue := rfl
@[simp] theorem discardFrame_firstServed (s : State) : (s.discardFrame).firstServed = s.firstServed := rfl
@[simp] theorem discardFrame_serial (s : State) : (s.discardFrame).serial = s.serial := rfl
@[simp] theorem discardFrame_rxdAhead (s : State) : (s.discardFrame).rxdAhead = s.rxdAhead := rfl

@[simp] theorem advance_held (s : State) (n : Nat) : (s.advance n).held = s.held := rfl
@[simp] theorem advance_hub (s : State) (n : Nat) : (s.advance n).hub = s.hub := rfl
@[simp] theorem advance_config (s : State) (n : Nat) : (s.advance n).config = s.config := rfl
@[simp] theorem advance_foreignSeen (s : State) (n : Nat) : (s.advance n).foreignSeen = s.foreignSeen := rfl
@[simp] theorem advance_dataSlot (s : State) (n : Nat) : (s.advance n).dataSlot = s.dataSlot := rfl
@[simp] theorem advance_burst (s : State) (n : Nat) : (s.advance n).burst = s.burst := rfl
@[simp] theorem advance_receiver (s : State) (n : Nat) : (s.advance n).receiver = s.receiver := rfl
@[simp] theorem advance_directory (s : State) (n : Nat) : (s.advance n).directory = s.directory := rfl
@[simp] theorem advance_store (s : State) (n : Nat) : (s.advance n).store = s.store := rfl
@[simp] theorem advance_contexts (s : State) (n : Nat) : (s.advance n).contexts = s.contexts := rfl
@[simp] theorem advance_plan (s : State) (n : Nat) : (s.advance n).plan = s.plan := rfl
@[simp] theorem advance_link (s : State) (n : Nat) : (s.advance n).link = s.link := rfl
@[simp] theorem advance_pending (s : State) (n : Nat) : (s.advance n).pending = s.pending := rfl
@[simp] theorem advance_pdinAhead (s : State) (n : Nat) : (s.advance n).pdinAhead = s.pdinAhead.drop n := rfl
@[simp] theorem advance_blankingDue (s : State) (n : Nat) : (s.advance n).blankingDue = s.blankingDue := rfl
@[simp] theorem advance_firstServed (s : State) (n : Nat) : (s.advance n).firstServed = s.firstServed := rfl
@[simp] theorem advance_serial (s : State) (n : Nat) : (s.advance n).serial = s.serial := rfl
@[simp] theorem advance_rxdAhead (s : State) (n : Nat) : (s.advance n).rxdAhead = s.rxdAhead.drop n := rfl

@[simp] theorem setCharacter_clock (s : State) (c : Option SerialCharacter) : (s.setCharacter c).clock = s.clock := rfl
@[simp] theorem setCharacter_held (s : State) (c : Option SerialCharacter) : (s.setCharacter c).held = s.held := rfl
@[simp] theorem setCharacter_hub (s : State) (c : Option SerialCharacter) : (s.setCharacter c).hub = s.hub := rfl
@[simp] theorem setCharacter_config (s : State) (c : Option SerialCharacter) : (s.setCharacter c).config = s.config := rfl
@[simp] theorem setCharacter_timebase (s : State) (c : Option SerialCharacter) : (s.setCharacter c).timebase = s.timebase := rfl
@[simp] theorem setCharacter_foreignSeen (s : State) (c : Option SerialCharacter) : (s.setCharacter c).foreignSeen = s.foreignSeen := rfl
@[simp] theorem setCharacter_dataSlot (s : State) (c : Option SerialCharacter) : (s.setCharacter c).dataSlot = s.dataSlot := rfl
@[simp] theorem setCharacter_burst (s : State) (c : Option SerialCharacter) : (s.setCharacter c).burst = s.burst := rfl
@[simp] theorem setCharacter_receiver (s : State) (c : Option SerialCharacter) : (s.setCharacter c).receiver = s.receiver := rfl
@[simp] theorem setCharacter_directory (s : State) (c : Option SerialCharacter) : (s.setCharacter c).directory = s.directory := rfl
@[simp] theorem setCharacter_store (s : State) (c : Option SerialCharacter) : (s.setCharacter c).store = s.store := rfl
@[simp] theorem setCharacter_contexts (s : State) (c : Option SerialCharacter) : (s.setCharacter c).contexts = s.contexts := rfl
@[simp] theorem setCharacter_plan (s : State) (c : Option SerialCharacter) : (s.setCharacter c).plan = s.plan := rfl
@[simp] theorem setCharacter_link (s : State) (c : Option SerialCharacter) : (s.setCharacter c).link = s.link := rfl
@[simp] theorem setCharacter_pending (s : State) (c : Option SerialCharacter) : (s.setCharacter c).pending = s.pending := rfl
@[simp] theorem setCharacter_pdinAhead (s : State) (c : Option SerialCharacter) : (s.setCharacter c).pdinAhead = s.pdinAhead := rfl
@[simp] theorem setCharacter_blankingDue (s : State) (c : Option SerialCharacter) : (s.setCharacter c).blankingDue = s.blankingDue := rfl
@[simp] theorem setCharacter_firstServed (s : State) (c : Option SerialCharacter) : (s.setCharacter c).firstServed = s.firstServed := rfl
@[simp] theorem setCharacter_serial (s : State) (c : Option SerialCharacter) :
    (s.setCharacter c).serial = { s.serial with character := c } := rfl
@[simp] theorem setCharacter_rxdAhead (s : State) (c : Option SerialCharacter) : (s.setCharacter c).rxdAhead = s.rxdAhead := rfl

@[simp] theorem setPdinAhead_clock (s : State) (q : List Bool) : (s.setPdinAhead q).clock = s.clock := rfl
@[simp] theorem setPdinAhead_held (s : State) (q : List Bool) : (s.setPdinAhead q).held = s.held := rfl
@[simp] theorem setPdinAhead_hub (s : State) (q : List Bool) : (s.setPdinAhead q).hub = s.hub := rfl
@[simp] theorem setPdinAhead_config (s : State) (q : List Bool) : (s.setPdinAhead q).config = s.config := rfl
@[simp] theorem setPdinAhead_timebase (s : State) (q : List Bool) : (s.setPdinAhead q).timebase = s.timebase := rfl
@[simp] theorem setPdinAhead_foreignSeen (s : State) (q : List Bool) : (s.setPdinAhead q).foreignSeen = s.foreignSeen := rfl
@[simp] theorem setPdinAhead_dataSlot (s : State) (q : List Bool) : (s.setPdinAhead q).dataSlot = s.dataSlot := rfl
@[simp] theorem setPdinAhead_burst (s : State) (q : List Bool) : (s.setPdinAhead q).burst = s.burst := rfl
@[simp] theorem setPdinAhead_receiver (s : State) (q : List Bool) : (s.setPdinAhead q).receiver = s.receiver := rfl
@[simp] theorem setPdinAhead_directory (s : State) (q : List Bool) : (s.setPdinAhead q).directory = s.directory := rfl
@[simp] theorem setPdinAhead_store (s : State) (q : List Bool) : (s.setPdinAhead q).store = s.store := rfl
@[simp] theorem setPdinAhead_contexts (s : State) (q : List Bool) : (s.setPdinAhead q).contexts = s.contexts := rfl
@[simp] theorem setPdinAhead_plan (s : State) (q : List Bool) : (s.setPdinAhead q).plan = s.plan := rfl
@[simp] theorem setPdinAhead_link (s : State) (q : List Bool) : (s.setPdinAhead q).link = s.link := rfl
@[simp] theorem setPdinAhead_pending (s : State) (q : List Bool) : (s.setPdinAhead q).pending = s.pending := rfl
@[simp] theorem setPdinAhead_pdinAhead (s : State) (q : List Bool) : (s.setPdinAhead q).pdinAhead = q := rfl
@[simp] theorem setPdinAhead_blankingDue (s : State) (q : List Bool) : (s.setPdinAhead q).blankingDue = s.blankingDue := rfl
@[simp] theorem setPdinAhead_firstServed (s : State) (q : List Bool) : (s.setPdinAhead q).firstServed = s.firstServed := rfl
@[simp] theorem setPdinAhead_serial (s : State) (q : List Bool) : (s.setPdinAhead q).serial = s.serial := rfl
@[simp] theorem setPdinAhead_rxdAhead (s : State) (q : List Bool) : (s.setPdinAhead q).rxdAhead = s.rxdAhead := rfl

@[simp] theorem endCharacter_clock (s : State) : s.endCharacter.clock = s.clock := rfl
@[simp] theorem endCharacter_held (s : State) : s.endCharacter.held = s.held := rfl
@[simp] theorem endCharacter_hub (s : State) : s.endCharacter.hub = s.hub := rfl
@[simp] theorem endCharacter_config (s : State) : s.endCharacter.config = s.config := rfl
@[simp] theorem endCharacter_timebase (s : State) : s.endCharacter.timebase = s.timebase := rfl
@[simp] theorem endCharacter_foreignSeen (s : State) : s.endCharacter.foreignSeen = s.foreignSeen := rfl
@[simp] theorem endCharacter_dataSlot (s : State) : s.endCharacter.dataSlot = s.dataSlot := rfl
@[simp] theorem endCharacter_burst (s : State) : s.endCharacter.burst = s.burst := rfl
@[simp] theorem endCharacter_receiver (s : State) : s.endCharacter.receiver = s.receiver := rfl
@[simp] theorem endCharacter_directory (s : State) : s.endCharacter.directory = s.directory := rfl
@[simp] theorem endCharacter_store (s : State) : s.endCharacter.store = s.store := rfl
@[simp] theorem endCharacter_contexts (s : State) : s.endCharacter.contexts = s.contexts := rfl
@[simp] theorem endCharacter_plan (s : State) : s.endCharacter.plan = s.plan := rfl
@[simp] theorem endCharacter_link (s : State) : s.endCharacter.link = s.link := rfl
@[simp] theorem endCharacter_pending (s : State) : s.endCharacter.pending = s.pending := rfl
@[simp] theorem endCharacter_pdinAhead (s : State) : s.endCharacter.pdinAhead = s.pdinAhead := rfl
@[simp] theorem endCharacter_blankingDue (s : State) : s.endCharacter.blankingDue = s.blankingDue := rfl
@[simp] theorem endCharacter_firstServed (s : State) : s.endCharacter.firstServed = s.firstServed := rfl
@[simp] theorem endCharacter_serial (s : State) :
    s.endCharacter.serial = { s.serial with before := true, character := none } := rfl
@[simp] theorem endCharacter_rxdAhead (s : State) : s.endCharacter.rxdAhead = s.rxdAhead := rfl

@[simp] theorem seekStart_clock (s : State) : s.seekStart.clock = s.clock := rfl
@[simp] theorem seekStart_held (s : State) : s.seekStart.held = s.held := rfl
@[simp] theorem seekStart_hub (s : State) : s.seekStart.hub = s.hub := rfl
@[simp] theorem seekStart_config (s : State) : s.seekStart.config = s.config := rfl
@[simp] theorem seekStart_timebase (s : State) : s.seekStart.timebase = s.timebase := rfl
@[simp] theorem seekStart_foreignSeen (s : State) : s.seekStart.foreignSeen = s.foreignSeen := rfl
@[simp] theorem seekStart_dataSlot (s : State) : s.seekStart.dataSlot = s.dataSlot := rfl
@[simp] theorem seekStart_burst (s : State) : s.seekStart.burst = s.burst := rfl
@[simp] theorem seekStart_receiver (s : State) : s.seekStart.receiver = s.receiver := rfl
@[simp] theorem seekStart_directory (s : State) : s.seekStart.directory = s.directory := rfl
@[simp] theorem seekStart_store (s : State) : s.seekStart.store = s.store := rfl
@[simp] theorem seekStart_contexts (s : State) : s.seekStart.contexts = s.contexts := rfl
@[simp] theorem seekStart_plan (s : State) : s.seekStart.plan = s.plan := rfl
@[simp] theorem seekStart_link (s : State) : s.seekStart.link = s.link := rfl
@[simp] theorem seekStart_pending (s : State) : s.seekStart.pending = s.pending := rfl
@[simp] theorem seekStart_pdinAhead (s : State) : s.seekStart.pdinAhead = s.pdinAhead := rfl
@[simp] theorem seekStart_blankingDue (s : State) : s.seekStart.blankingDue = s.blankingDue := rfl
@[simp] theorem seekStart_firstServed (s : State) : s.seekStart.firstServed = s.firstServed := rfl
@[simp] theorem seekStart_rxdAhead (s : State) : s.seekStart.rxdAhead = s.rxdAhead := rfl

@[simp] theorem beginCandidate_clock (s : State) : s.beginCandidate.clock = s.clock := rfl
@[simp] theorem beginCandidate_held (s : State) : s.beginCandidate.held = s.held := rfl
@[simp] theorem beginCandidate_hub (s : State) : s.beginCandidate.hub = s.hub := rfl
@[simp] theorem beginCandidate_config (s : State) : s.beginCandidate.config = s.config := rfl
@[simp] theorem beginCandidate_timebase (s : State) : s.beginCandidate.timebase = s.timebase := rfl
@[simp] theorem beginCandidate_foreignSeen (s : State) : s.beginCandidate.foreignSeen = s.foreignSeen := rfl
@[simp] theorem beginCandidate_dataSlot (s : State) : s.beginCandidate.dataSlot = s.dataSlot := rfl
@[simp] theorem beginCandidate_burst (s : State) : s.beginCandidate.burst = s.burst := rfl
@[simp] theorem beginCandidate_directory (s : State) : s.beginCandidate.directory = s.directory := rfl
@[simp] theorem beginCandidate_store (s : State) : s.beginCandidate.store = s.store := rfl
@[simp] theorem beginCandidate_contexts (s : State) : s.beginCandidate.contexts = s.contexts := rfl
@[simp] theorem beginCandidate_plan (s : State) : s.beginCandidate.plan = s.plan := rfl
@[simp] theorem beginCandidate_link (s : State) : s.beginCandidate.link = s.link := rfl
@[simp] theorem beginCandidate_pending (s : State) : s.beginCandidate.pending = s.pending := rfl
@[simp] theorem beginCandidate_pdinAhead (s : State) : s.beginCandidate.pdinAhead = s.pdinAhead := rfl
@[simp] theorem beginCandidate_blankingDue (s : State) : s.beginCandidate.blankingDue = s.blankingDue := rfl
@[simp] theorem beginCandidate_firstServed (s : State) : s.beginCandidate.firstServed = s.firstServed := rfl
@[simp] theorem beginCandidate_serial (s : State) : s.beginCandidate.serial = s.serial := rfl
@[simp] theorem beginCandidate_rxdAhead (s : State) : s.beginCandidate.rxdAhead = s.rxdAhead := rfl

@[simp] theorem updateRecord_memory (s : State) (h : Nat) (f : Record → Record) :
    (s.updateRecord h f).store.memory = s.store.memory := by unfold State.updateRecord; split <;> rfl
@[simp] theorem updateRecord_parity (s : State) (h : Nat) (f : Record → Record) :
    (s.updateRecord h f).store.parity = s.store.parity := by unfold State.updateRecord; split <;> rfl
@[simp] theorem setRecord_memory (s : State) (h : Nat) (r : Option Record) :
    (s.setRecord h r).store.memory = s.store.memory := rfl
@[simp] theorem setRecord_parity (s : State) (h : Nat) (r : Option Record) :
    (s.setRecord h r).store.parity = s.store.parity := rfl
@[simp] theorem setHeldOrder_memory (s : State) (q : List Nat) :
    (s.setHeldOrder q).store.memory = s.store.memory := rfl
@[simp] theorem setHeldOrder_parity (s : State) (q : List Nat) :
    (s.setHeldOrder q).store.parity = s.store.parity := rfl

end Sys2Proof.Machine
end

