-- ==== Sys2Proof/Laws/CellStep.lean ====
section
/-! SUPPORT. What every operation of the cell can do to the rest of the part, said once: it leaves the stored bytes, the
configuration record, the position, the frame receiver, the command queue and the replies alone, and it keeps the form
of the notice queue. One lemma for each operation. -/

namespace Sys2Proof.Machine

/-- A record with the key, the length and the blocks of another. -/
structure SameShape (r q : Record) : Prop where
  address : q.address = r.address
  page : q.page = r.page
  length : q.length = r.length
  blocks : q.blocks = r.blocks

/-- Record slots are freed, or keep the key, the length and the blocks of their record; none is taken. -/
def Shrinks (p q : Vector (Option Record) 128) : Prop :=
  ∀ h : Nat, q[h]?.getD none = none
    ∨ ∃ r r', p[h]?.getD none = some r ∧ q[h]?.getD none = some r' ∧ SameShape r r'

namespace Shrinks

theorem refl (p : Vector (Option Record) 128) : Shrinks p p := fun h => by
  cases e : p[h]?.getD none with
  | none => exact Or.inl rfl
  | some r => exact Or.inr ⟨r, r, rfl, rfl, ⟨rfl, rfl, rfl, rfl⟩⟩

theorem trans {p q r : Vector (Option Record) 128} (a : Shrinks p q) (b : Shrinks q r) : Shrinks p r := fun h => by
  rcases b h with e | ⟨y, z, hy, hz, s2⟩
  · exact Or.inl e
  · rcases a h with e | ⟨x, y', hx, hy', s1⟩
    · rw [hy] at e; cases e
    · rw [hy] at hy'
      cases hy'
      exact Or.inr ⟨x, z, hx, hz, ⟨s2.1.trans s1.1, s2.2.trans s1.2, s2.3.trans s1.3, s2.4.trans s1.4⟩⟩

theorem slot_set (p : Vector (Option Record) 128) (h k : Nat) (o : Option Record) :
    (p.setIfInBounds h o)[k]?.getD none = if h = k ∧ k < 128 then o else p[k]?.getD none := by
  rw [Vector.getElem?_setIfInBounds]
  by_cases hk : h = k
  · subst hk
    by_cases hh : h < 128
    · simp [hh]
    · simp [hh]
  · simp [hk]

theorem free {p q : Vector (Option Record) 128} (a : Shrinks p q) (h : Nat) : Shrinks p (q.setIfInBounds h none) :=
  fun k => by
    rw [slot_set]
    split
    · exact Or.inl rfl
    · exact a k

theorem put {p q : Vector (Option Record) 128} (a : Shrinks p q) {h : Nat} {r r' : Record}
    (e : p[h]?.getD none = some r) (s : SameShape r r') : Shrinks p (q.setIfInBounds h (some r')) := fun k => by
  rw [slot_set]
  split
  · rename_i hk
    obtain ⟨rfl, _⟩ := hk
    exact Or.inr ⟨r, r', e, rfl, s⟩
  · exact a k

end Shrinks

/-- What an operation of the cell leaves alone while time stands still. -/
structure CellStep (s t : State) : Prop where
  memory : t.store.memory = s.store.memory
  parity : t.store.parity = s.store.parity
  config : t.config = s.config
  held : t.held = s.held
  pending : t.pending = s.pending
  clock : t.clock = s.clock
  serial : t.serial = s.serial
  link : t.link = { s.link with notices := t.link.notices, overflow := t.link.overflow }
  notices : NoticesOk s.link.notices → NoticesOk t.link.notices
  timebase : t.timebase = s.timebase
  records : Shrinks s.store.records t.store.records

namespace CellStep

theorem refl (s : State) : CellStep s s := ⟨rfl, rfl, rfl, rfl, rfl, rfl, rfl, rfl, id, rfl, Shrinks.refl _⟩

theorem trans {s t u : State} (h : CellStep s t) (k : CellStep t u) : CellStep s u where
  memory := k.memory.trans h.memory
  parity := k.parity.trans h.parity
  config := k.config.trans h.config
  held := k.held.trans h.held
  pending := k.pending.trans h.pending
  clock := k.clock.trans h.clock
  serial := k.serial.trans h.serial
  link := by rw [k.link, h.link]
  notices := k.notices ∘ h.notices
  timebase := k.timebase.trans h.timebase
  records := h.records.trans k.records

theorem fold {β : Type} {f : State → β → State} (h : ∀ s b, CellStep s (f s b)) (l : List β) (s : State) :
    CellStep s (l.foldl f s) := by
  induction l generalizing s with
  | nil => exact refl s
  | cons b l ih => exact (h s b).trans (ih _)

end CellStep

/-! ## Notices -/

theorem placeNotice_length (q : List Posted) (p : Posted) : (placeNotice q p).length = q.length + 1 := by
  unfold placeNotice
  split
  · have h := congrArg List.length (List.takeWhile_append_dropWhile (p := fun x : Posted => x.notice.urgent) (l := q))
    simp only [List.length_append, List.length_cons] at h ⊢
    omega
  · simp

theorem takeWhile_urgent {q : List Posted} {x : Posted} (h : x ∈ q.takeWhile fun x => x.notice.urgent) :
    x.notice.urgent = true := by
  induction q with
  | nil => simp at h
  | cons a q ih =>
    rw [List.takeWhile_cons] at h
    split at h
    · rcases List.mem_cons.1 h with rfl | h
      · assumption
      · exact ih h
    · simp at h

theorem dropWhile_ordinary {q : List Posted} (hq : UrgentFirst q) {x : Posted}
    (h : x ∈ q.dropWhile fun x => x.notice.urgent) : x.notice.urgent = false := by
  induction q with
  | nil => simp at h
  | cons a q ih =>
    rw [List.dropWhile_cons] at h
    split at h
    · exact ih (List.pairwise_cons.1 hq).2 h
    · rename_i ha
      rcases List.mem_cons.1 h with rfl | h
      · simpa using ha
      · cases hx : x.notice.urgent
        · rfl
        · exact absurd ((List.pairwise_cons.1 hq).1 x h hx) ha

theorem placeNotice_urgentFirst {q : List Posted} (hq : UrgentFirst q) (p : Posted) : UrgentFirst (placeNotice q p) := by
  unfold placeNotice
  split
  · rename_i hp
    refine List.pairwise_append.2 ⟨?_, ?_, ?_⟩
    · exact hq.sublist (List.takeWhile_sublist _)
    · refine List.pairwise_cons.2 ⟨fun _ _ _ => hp, ?_⟩
      exact hq.sublist (List.dropWhile_sublist _)
    · intro a ha _ _ _
      exact takeWhile_urgent ha
  · rename_i hp
    refine List.pairwise_append.2 ⟨hq, List.pairwise_singleton _ _, ?_⟩
    intro a _ b hb hu
    simp only [List.mem_singleton] at hb
    subst hb
    exact absurd hu hp

theorem NoticesOk.post {q : List Posted} (h : NoticesOk q) (o : Bool) (p : Posted) : NoticesOk (queueNotice q o p).1 := by
  have hl := placeNotice_length q p
  have hd := placeNotice_length q.dropLast p
  obtain ⟨hlen, hu⟩ := h
  unfold queueNotice
  split
  · exact ⟨by simp only; omega, placeNotice_urgentFirst hu p⟩
  · split
    · split
      · split
        · exact ⟨hlen, hu⟩
        · refine ⟨?_, placeNotice_urgentFirst (hu.sublist (List.dropLast_sublist q)) p⟩
          simp only [List.length_dropLast, Config.noticeQueue] at *
          omega
      · exact ⟨hlen, hu⟩
    · exact ⟨hlen, hu⟩

theorem NoticesOk.tail {p : Posted} {q : List Posted} (h : NoticesOk (p :: q)) : NoticesOk q :=
  ⟨by have := h.1; simp only [List.length_cons] at this; omega, (List.pairwise_cons.1 h.2).2⟩

/-! ## The shared operations -/

theorem post_cell (s : State) (n : Notice) : CellStep s (s.post n) :=
  ⟨rfl, rfl, rfl, rfl, rfl, rfl, rfl, rfl, fun h => h.post _ _, rfl, .refl _⟩

theorem postAll_cell (s : State) (ns : List Notice) : CellStep s (s.postAll ns) := CellStep.fold post_cell ns s

theorem setEntry_cell (s : State) (a : Nat) (e : Entry) : CellStep s (s.setEntry a e) := by
  unfold State.setEntry
  split <;> exact ⟨rfl, rfl, rfl, rfl, rfl, rfl, rfl, rfl, id, rfl, .refl _⟩

theorem updateLabel_cell (s : State) (a : Nat) (f : Label → Label) : CellStep s (s.updateLabel a f) := by
  unfold State.updateLabel
  split
  · exact setEntry_cell s a _
  · exact .refl s

/-- A record put in the place of one of the same shape. -/
theorem CellStep.put {s t : State} (k : CellStep s t) {h : Nat} {r r' : Record} (e : s.record h = some r)
    (c : SameShape r r') : CellStep s (t.setRecord h (some r')) :=
  ⟨k.memory, k.parity, k.config, k.held, k.pending, k.clock, k.serial, k.link, k.notices, k.timebase, k.records.put e c⟩

theorem setRecord_cell {s : State} {h : Nat} {r r' : Record} (e : s.record h = some r) (c : SameShape r r') :
    CellStep s (s.setRecord h (some r')) := (CellStep.refl s).put e c

theorem setFree_cell (s : State) (h : Nat) : CellStep s (s.setRecord h none) :=
  ⟨rfl, rfl, rfl, rfl, rfl, rfl, rfl, rfl, id, rfl, (Shrinks.refl _).free h⟩

theorem updateRecord_cell (s : State) (h : Nat) (f : Record → Record) (c : ∀ r, SameShape r (f r)) :
    CellStep s (s.updateRecord h f) := by
  unfold State.updateRecord
  split
  · rename_i r e
    exact setRecord_cell e (c r)
  · exact .refl s

theorem setHeldOrder_cell (s : State) (q : List Nat) : CellStep s (s.setHeldOrder q) :=
  ⟨rfl, rfl, rfl, rfl, rfl, rfl, rfl, rfl, id, rfl, .refl _⟩

theorem setContext_cell (s : State) (i : Nat) (c : Option Context) : CellStep s (s.setContext i c) :=
  ⟨rfl, rfl, rfl, rfl, rfl, rfl, rfl, rfl, id, rfl, .refl _⟩

theorem freeContextOf_cell (s : State) (h : Nat) : CellStep s (s.freeContextOf h) := by
  unfold State.freeContextOf
  split
  · exact setContext_cell s _ _
  · exact .refl s

/-! ## The transmitter -/

theorem deliverBroken_cell (s : State) (w : Option Window) (c : BrokenCause) : CellStep s (s.deliverBroken w c) := by
  unfold State.deliverBroken
  split
  · exact ⟨rfl, rfl, rfl, rfl, rfl, rfl, rfl, rfl, id, rfl, .refl _⟩
  · exact .refl s
  · exact .refl s

theorem endAssemblyBroken_cell (s : State) (c : BrokenCause) : CellStep s (s.endAssemblyBroken c) := by
  unfold State.endAssemblyBroken
  split
  · exact .refl s
  · dsimp only
    split
    · split <;> exact ⟨rfl, rfl, rfl, rfl, rfl, rfl, rfl, rfl, id, rfl, .refl _⟩
    · refine CellStep.trans ?_ (deliverBroken_cell _ _ _)
      exact ⟨rfl, rfl, rfl, rfl, rfl, rfl, rfl, rfl, id, rfl, .refl _⟩

theorem beginBlanking_cell (s : State) : CellStep s s.beginBlanking := by
  unfold State.beginBlanking
  split
  · exact .refl s
  · exact (endAssemblyBroken_cell s .truncated).trans ⟨rfl, rfl, rfl, rfl, rfl, rfl, rfl, rfl, id, rfl, .refl _⟩

theorem firstTick_cell (s : State) : CellStep s s.firstTick := by
  unfold State.firstTick
  split
  · exact CellStep.trans (t := { s with blankingDue := false }) ⟨rfl, rfl, rfl, rfl, rfl, rfl, rfl, rfl, id, rfl, .refl _⟩
      (beginBlanking_cell _)
  · exact .refl s

theorem sendRequest_cell {s t : State} {lead count : Nat} {source : BurstSource}
    (h : s.sendRequest lead count source = some t) : CellStep s t := by
  unfold State.sendRequest at h
  split at h
  · cases h
    exact (beginBlanking_cell s).trans ⟨rfl, rfl, rfl, rfl, rfl, rfl, rfl, rfl, id, rfl, .refl _⟩
  · cases h

theorem elementEnd_cell (s : State) : CellStep s s.elementEnd := by
  unfold State.elementEnd
  split
  · exact .refl s
  · split
    · refine (firstTick_cell s).trans ?_
      exact ⟨rfl, rfl, rfl, rfl, rfl, rfl, rfl, rfl, id, rfl, .refl _⟩
    · exact .refl s

theorem cutRequest_cell (s : State) : CellStep s s.cutRequest := by
  unfold State.cutRequest
  split
  · exact ⟨rfl, rfl, rfl, rfl, rfl, rfl, rfl, rfl, id, rfl, .refl _⟩
  · exact .refl s

/-! ## The page store -/

theorem freeRecord_cell (s : State) (h : Nat) : CellStep s (s.freeRecord h) :=
  (setFree_cell s h).trans (setHeldOrder_cell _ _)

theorem cutRecord_cell (s : State) (h : Nat) : CellStep s (s.cutRecord h) := by
  unfold State.cutRecord
  split
  · exact (cutRequest_cell s).trans (updateRecord_cell _ _ _ fun _ => ⟨rfl, rfl, rfl, rfl⟩)
  · exact (freeRecord_cell s h).trans (freeContextOf_cell _ _)

theorem discardRecord_cell (s : State) (h : Nat) : CellStep s (s.discardRecord h) := by
  unfold State.discardRecord
  split
  · exact .refl s
  · split
    · exact cutRecord_cell s h
    · exact .refl s
    all_goals exact freeRecord_cell s h

theorem discardIfOf_cell (a : Nat) (s : State) (h : Nat) : CellStep s (State.discardIfOf a s h) := by
  unfold State.discardIfOf
  split
  · split
    · exact discardRecord_cell s h
    · exact .refl s
  · exact .refl s

theorem removeRecords_cell (s : State) (a : Nat) : CellStep s (s.removeRecords a) :=
  CellStep.fold (discardIfOf_cell a) handles s

theorem enterHeld_cell (s : State) (h : Nat) : CellStep s (s.enterHeld h) := by
  unfold State.enterHeld
  split
  · exact .refl s
  · rename_i r e
    refine CellStep.trans ?_ (post_cell _ _)
    have k := (setRecord_cell (r' := { r with state := .held }) e ⟨rfl, rfl, rfl, rfl⟩).trans (freeContextOf_cell _ h)
    split
    · exact k
    · exact k.trans (setHeldOrder_cell _ _)

theorem enterStalled_cell (s : State) (h : Nat) (c : StallCause) : CellStep s (s.enterStalled h c) := by
  unfold State.enterStalled
  split
  · exact .refl s
  · rename_i r e
    refine CellStep.trans ?_ (post_cell _ _)
    refine CellStep.trans ?_ (freeContextOf_cell _ h)
    exact setRecord_cell e ⟨rfl, rfl, rfl, rfl⟩

theorem returnToReady_cell (s : State) (h : Nat) : CellStep s (s.returnToReady h) := by
  refine CellStep.trans ?_ (freeContextOf_cell _ h)
  exact updateRecord_cell s h _ fun _ => ⟨rfl, rfl, rfl, rfl⟩

theorem reopen_cell (s : State) (h : Nat) : CellStep s (s.reopen h) := by
  refine CellStep.trans ?_ (setHeldOrder_cell _ _)
  exact updateRecord_cell s h _ fun _ => ⟨rfl, rfl, rfl, rfl⟩

theorem returnSending_cell (s : State) (a : Nat) : CellStep s (s.returnSending a) := by
  unfold State.returnSending
  split
  · exact returnToReady_cell s _
  · exact .refl s

theorem rejoinRecord_cell (a : Nat) (s : State) (h : Nat) : CellStep s (State.rejoinRecord a s h) := by
  unfold State.rejoinRecord
  split
  · exact .refl s
  · split
    · split
      · exact returnToReady_cell s h
      · exact reopen_cell s h
      all_goals exact .refl s
    · exact .refl s

theorem rejoinRecords_cell (s : State) (a : Nat) : CellStep s (s.rejoinRecords a) :=
  CellStep.fold (rejoinRecord_cell a) handles s

theorem readyIfSending_cell (s : State) (h : Nat) : CellStep s (s.readyIfSending h) := by
  unfold State.readyIfSending
  split
  · split
    · exact returnToReady_cell s h
    · exact .refl s
  · exact .refl s

theorem endTransfers_cell (s : State) : CellStep s s.endTransfers := by
  have h := CellStep.fold readyIfSending_cell handles s
  unfold State.endTransfers
  generalize handles.foldl State.readyIfSending s = t at h ⊢
  exact h.trans ⟨rfl, rfl, rfl, rfl, rfl, rfl, rfl, rfl, id, rfl, .refl _⟩

theorem pageWanted_cell (s : State) (a p : Nat) : CellStep s (s.pageWanted a p) := by
  unfold State.pageWanted
  split
  · exact .refl s
  · split
    · exact .refl s
    · exact (updateLabel_cell s a _).trans (post_cell _ _)

theorem reconcilePage_cell (a : Nat) (r : StatusReport) (s : State) (p : Nat) :
    CellStep s (State.reconcilePage a r s p) := by
  unfold State.reconcilePage
  split
  · split
    · exact .refl s
    · exact pageWanted_cell s a p
  · split
    · exact .refl s
    · split
      · split
        · exact enterHeld_cell s _
        · exact enterHeld_cell s _
        all_goals exact .refl s
      · split
        · exact reopen_cell s _
        all_goals exact .refl s

theorem reconcile_cell (s : State) (a : Nat) (r : StatusReport) : CellStep s (s.reconcile a r) := by
  unfold State.reconcile
  split
  · exact CellStep.fold (reconcilePage_cell a r) _ s
  · exact .refl s

theorem evict_cell (s : State) (h : Nat) : CellStep s (s.evict h) := by
  unfold State.evict
  split
  · exact (freeRecord_cell s h).trans (post_cell _ _)
  · exact .refl s

theorem evictUntil_cell (k : Nat) (q : List Nat) (s : State) : CellStep s (State.evictUntil k q s) := by
  induction q generalizing s with
  | nil => exact .refl s
  | cons h q ih =>
    unfold State.evictUntil
    split
    · exact .refl s
    · exact (evict_cell s h).trans (ih _)

/-! ## The directory -/

theorem removeOperations_cell (s : State) (a : Nat) (c : OpFailure) : CellStep s (s.removeOperations a c) := by
  unfold State.removeOperations
  split
  · exact (updateLabel_cell s a _).trans (postAll_cell _ _)
  · exact .refl s

theorem completionCheck_cell (s : State) (a : Nat) (p : Profile) (q : Option PlannedProfile) :
    CellStep s (s.completionCheck a p q) := by
  unfold State.completionCheck
  split
  · exact .refl s
  · split
    · exact .refl s
    · cases q
      all_goals
        dsimp only
        split
        · exact (updateLabel_cell s a _).trans (post_cell _ _)
        · exact .refl s

theorem takeProfileReport_cell (s : State) (a : Nat) (r : StatusReport) : CellStep s (s.takeProfileReport a r) := by
  unfold State.takeProfileReport
  split
  · exact (updateLabel_cell s a _).trans (completionCheck_cell _ _ _ _)
  · exact .refl s

theorem takeReading_cell (s : State) (a : Nat) (mv : Option Nat) : CellStep s (s.takeReading a mv) := by
  unfold State.takeReading
  split
  · exact .refl s
  · split
    · exact .refl s
    · dsimp only
      split
      · exact updateLabel_cell s a _
      · exact (updateLabel_cell s a _).trans (post_cell _ _)

theorem setAdmission_cell (s : State) (q : List Asking) : CellStep s (s.setAdmission q) :=
  ⟨rfl, rfl, rfl, rfl, rfl, rfl, rfl, rfl, id, rfl, .refl _⟩

theorem createEntry_cell (s : State) (a : Nat) (id : LongId) (c : Capabilities) (mv : Option Nat) (heard : Stamp) :
    CellStep s (s.createEntry a id c mv heard) :=
  (setEntry_cell s a _).trans (takeReading_cell _ _ _)

theorem dropAsking_cell (s : State) (id : LongId) : CellStep s (s.dropAsking id) := setAdmission_cell s _

theorem updateAsking_cell (s : State) (id : LongId) (f : Asking → Asking) : CellStep s (s.updateAsking id f) :=
  setAdmission_cell s _

theorem refreshRefused_cell (s : State) (id : LongId) : CellStep s (s.refreshRefused id) := updateAsking_cell s id _

theorem joinOpenPolicy_cell (s : State) (q : JoinRequest) : CellStep s (s.joinOpenPolicy q) := by
  unfold State.joinOpenPolicy
  split
  · split
    · exact refreshRefused_cell s _
    · split
      · exact (dropAsking_cell s _).trans (createEntry_cell _ _ _ _ _ _)
      · exact post_cell s _
  · split
    · exact createEntry_cell s _ _ _ _ _
    · exact post_cell s _

theorem joinAskPolicy_cell (s : State) (q : JoinRequest) : CellStep s (s.joinAskPolicy q) := by
  unfold State.joinAskPolicy
  split
  · split
    · exact refreshRefused_cell s _
    · exact updateAsking_cell s _ _
  · split
    · exact (setAdmission_cell s _).trans (post_cell _ _)
    · exact post_cell s _

theorem rejoin_cell (s : State) (a : Nat) (mv : Option Nat) : CellStep s (s.rejoin a mv) :=
  ((updateLabel_cell s a _).trans (rejoinRecords_cell _ a)).trans (takeReading_cell _ _ _)

theorem takeJoinRequest_cell (s : State) (q : JoinRequest) : CellStep s (s.takeJoinRequest q) := by
  unfold State.takeJoinRequest
  split
  · split
    · split
      · exact rejoin_cell s _ _
      · exact rejoin_cell s _ _
      · exact updateLabel_cell s _ _
      · exact .refl s
    · exact .refl s
  · split
    · exact joinOpenPolicy_cell s q
    · exact joinAskPolicy_cell s q
    · exact .refl s

theorem enterCooling_cell (s : State) (a : Nat) : CellStep s (s.enterCooling a) := by
  unfold State.enterCooling
  split
  · exact setEntry_cell s a _
  · exact .refl s

theorem releaseJoining_cell (s : State) (a : Nat) : CellStep s (s.releaseJoining a) :=
  (((removeRecords_cell s a).trans (removeOperations_cell _ a _)).trans (enterCooling_cell _ a)).trans (post_cell _ _)

theorem releaseBound_cell (s : State) (a : Nat) (m : Bool) : CellStep s (s.releaseBound a m) :=
  ((removeRecords_cell s a).trans (removeOperations_cell _ a _)).trans (updateLabel_cell _ a _)

theorem forget_cell (s : State) (a : Nat) : CellStep s (s.forget a) :=
  ((removeRecords_cell s a).trans (removeOperations_cell _ a _)).trans (enterCooling_cell _ a)

theorem takeAnswer_cell (s : State) (a slot : Nat) (r : StatusReport) : CellStep s (s.takeAnswer a slot r) := by
  unfold State.takeAnswer
  split
  · exact .refl s
  · split
    · exact .refl s
    · split
      · dsimp only
        split
        · exact (updateLabel_cell s a _).trans (post_cell _ _)
        · exact updateLabel_cell s a _
      · exact .refl s

theorem takeBoundStatus_cell (s : State) (a slot : Nat) (r : StatusReport) : CellStep s (s.takeBoundStatus a slot r) :=
  ((((takeAnswer_cell s a slot r).trans (updateLabel_cell _ a _)).trans (takeProfileReport_cell _ a r)).trans
    (takeReading_cell _ a _)).trans (reconcile_cell _ a r)

theorem labelJoined_cell (s : State) (a : Nat) (id : LongId) (j : Bool) : CellStep s (s.labelJoined a id j) :=
  (updateLabel_cell s a _).trans (post_cell _ _)

theorem labelBack_cell (s : State) (a : Nat) : CellStep s (s.labelBack a) :=
  (updateLabel_cell s a _).trans (post_cell _ _)

theorem releaseConfirmed_cell (s : State) (a : Nat) : CellStep s (s.releaseConfirmed a) :=
  (enterCooling_cell s a).trans (post_cell _ _)

theorem takeParts_cell (s : State) (a slot : Nat) (r : StatusReport) : CellStep s (s.takeParts a slot r) := by
  unfold State.takeParts
  split
  · exact .refl s
  · split
    · split
      · exact (labelJoined_cell s a _ _).trans (takeBoundStatus_cell _ a slot r)
      · exact .refl s
    · exact takeBoundStatus_cell s a slot r
    · exact (labelBack_cell s a).trans (takeBoundStatus_cell _ a slot r)
    · split
      · exact releaseConfirmed_cell s a
      · exact .refl s

theorem takeStatus_cell (s : State) (a slot : Nat) (r : StatusReport) : CellStep s (s.takeStatus a slot r) :=
  (updateLabel_cell s a _).trans (takeParts_cell _ a slot r)

theorem sendUnanswered_cell (s : State) (a : Nat) (w : OpenSend) : CellStep s (s.sendUnanswered a w) := by
  unfold State.sendUnanswered
  extract_lets t
  have h : CellStep s t := updateLabel_cell s a _
  refine h.trans ?_
  split
  · split
    · split
      · exact (updateLabel_cell _ a _).trans (post_cell _ _)
      · exact updateLabel_cell _ a _
    · exact .refl _
  · exact .refl _

theorem windowSend_cell (s : State) (a slot : Nat) : CellStep s (s.windowSend a slot) := by
  unfold State.windowSend
  split
  · split
    · split
      · exact sendUnanswered_cell s a _
      · exact .refl s
    · exact .refl s
  · exact .refl s

theorem joinFailed_cell (s : State) (a : Nat) (id : LongId) : CellStep s (s.joinFailed a id) :=
  (((removeRecords_cell s a).trans (removeOperations_cell _ a _)).trans (post_cell _ _)).trans (setEntry_cell _ a _)

theorem useJoinAttempt_cell (s : State) (a : Nat) (l : Label) : CellStep s (s.useJoinAttempt a l) := by
  unfold State.useJoinAttempt
  split
  · split
    · exact joinFailed_cell s a _
    · exact updateLabel_cell s a _
  all_goals exact .refl s

theorem goMissing_cell (s : State) (a : Nat) : CellStep s (s.goMissing a) :=
  ((updateLabel_cell s a _).trans (returnSending_cell _ a)).trans (post_cell _ _)

theorem judgeMiss_cell (s : State) (a : Nat) (l : Label) : CellStep s (s.judgeMiss a l) := by
  unfold State.judgeMiss
  split
  · exact updateLabel_cell s a _
  · dsimp only
    split
    · exact (updateLabel_cell s a _).trans (goMissing_cell _ a)
    · exact updateLabel_cell s a _

theorem useReleaseAttempt_cell (s : State) (a : Nat) (l : Label) : CellStep s (s.useReleaseAttempt a l) := by
  unfold State.useReleaseAttempt
  split
  · split
    · exact (enterCooling_cell s a).trans (post_cell _ _)
    · exact updateLabel_cell s a _
  all_goals exact .refl s

theorem judgeCall_cell (s : State) (c : Call) : CellStep s (s.judgeCall c) := by
  unfold State.judgeCall
  split
  · exact .refl s
  · refine CellStep.trans ?_ (updateLabel_cell _ c.address _)
    split
    · split
      · exact useJoinAttempt_cell s _ _
      · exact judgeMiss_cell s _ _
      · exact .refl s
      · exact useReleaseAttempt_cell s _ _
    · exact .refl s

theorem ageAdmission_cell (s : State) : CellStep s s.ageAdmission := setAdmission_cell s _

theorem updateCrowded_cell (s : State) : CellStep s s.updateCrowded := ⟨rfl, rfl, rfl, rfl, rfl, rfl, rfl, rfl, id, rfl, .refl _⟩

theorem entriesAtEpoch_cell (s : State) (e b : Epoch) : CellStep s (s.entriesAtEpoch e b) :=
  ⟨rfl, rfl, rfl, rfl, rfl, rfl, rfl, rfl, id, rfl, .refl _⟩

/-! ## The transfer engine -/

theorem claim_cell (s : State) (h : Nat) : CellStep s (s.claim h) := by
  unfold State.claim
  split
  · refine CellStep.trans ?_ (setContext_cell _ _ _)
    exact updateRecord_cell s h _ fun _ => ⟨rfl, rfl, rfl, rfl⟩
  · exact .refl s

theorem sendFragment_cell {s t : State} {a h : Nat} (e : s.sendFragment a h = some t) : CellStep s t := by
  unfold State.sendFragment at e
  repeat' split at e
  all_goals first
    | contradiction
    | (rename_i hs
       rw [Option.some.injEq] at e
       subst e
       exact ((sendRequest_cell hs).trans (setContext_cell _ _ _)).trans (updateLabel_cell _ _ _))

theorem drawTestByte_cell (s : State) : CellStep s s.drawTestByte := by
  unfold State.drawTestByte
  split
  · exact ⟨rfl, rfl, rfl, rfl, rfl, rfl, rfl, rfl, id, rfl, .refl _⟩
  · exact .refl s

theorem sourceMoved_cell (s : State) (b : Burst) : CellStep s (s.sourceMoved b) := by
  unfold State.sourceMoved
  split
  · exact drawTestByte_cell s
  all_goals exact .refl s

theorem fragmentBurstEnd_cell (s : State) (i : Nat) : CellStep s (s.fragmentBurstEnd i) := by
  unfold State.fragmentBurstEnd
  split
  · exact .refl s
  · extract_lets t
    have h : CellStep s t := setContext_cell s i _
    refine h.trans ?_
    split
    · exact .refl _
    · split
      · exact (freeRecord_cell _ _).trans (setContext_cell _ _ _)
      · split
        · exact enterStalled_cell _ _ _
        · exact .refl _
      all_goals exact .refl _

theorem testBurstEnd_cell (s : State) (o : BurstOutcome) : CellStep s (s.testBurstEnd o) := by
  unfold State.testBurstEnd
  split
  · split
    · exact ⟨rfl, rfl, rfl, rfl, rfl, rfl, rfl, rfl, id, rfl, .refl _⟩
    · exact .refl s
  · exact .refl s

theorem reportBurstEnd_cell (s : State) (b : Burst) (o : BurstOutcome) : CellStep s (s.reportBurstEnd b o) := by
  unfold State.reportBurstEnd
  split
  · exact .refl s
  · exact .refl s
  · exact fragmentBurstEnd_cell s _
  · exact testBurstEnd_cell s o

theorem takeReceipt_cell (s : State) (i : Nat) (c : Context) (r : Record) (q : ReceiptReport) :
    CellStep s (s.takeReceipt i c r q) := by
  unfold State.takeReceipt
  split
  · exact setContext_cell s i _
  · dsimp only
    split
    · split
      · exact (setContext_cell s i _).trans (enterHeld_cell _ _)
      · exact setContext_cell s i _
    · exact setContext_cell s i _

theorem engineReply_cell (s : State) (a h : Nat) (d : List Byte) : CellStep s (s.engineReply a h d) := by
  unfold State.engineReply
  split
  · exact .refl s
  · split
    · split
      · exact .refl s
      · split
        · exact .refl s
        · split
          · exact takeReceipt_cell s _ _ _ _
          · exact setContext_cell s _ _
    · exact .refl s

theorem judgeTransfer_cell (s : State) (a : Nat) : CellStep s (s.judgeTransfer a) := by
  unfold State.judgeTransfer
  split
  · exact .refl s
  · split
    · exact .refl s
    · split
      · exact .refl s
      · split
        · exact setContext_cell s _ _
        · split
          · exact enterStalled_cell s _ _
          · exact setContext_cell s _ _

/-! ## The planner -/

theorem claimFor_cell (s : State) (a : Nat) : CellStep s (s.claimFor a) := by
  unfold State.claimFor
  split
  · exact .refl s
  · split
    · exact claim_cell s _
    · exact .refl s

theorem turn_cell (c : Allocation) (x : Applicant) : CellStep c.state (c.turn x).state := by
  unfold Allocation.turn
  dsimp only
  split
  · exact .refl _
  · split
    · exact .refl _
    · split
      · dsimp only
        split
        · exact claimFor_cell _ _
        · exact .refl _
      · split
        · exact .refl _
        · exact .refl _

theorem turns_cell (q : List Applicant) (c : Allocation) : CellStep c.state (q.foldl Allocation.turn c).state := by
  induction q generalizing c with
  | nil => exact .refl _
  | cons x q ih => exact (turn_cell c x).trans (ih _)

theorem allocate_cell (s : State) : CellStep s s.allocate.state := turns_cell s.candidates ⟨s, _, _, _⟩

theorem buildPlan_cell (s : State) : CellStep s s.buildPlan :=
  (allocate_cell s).trans ⟨rfl, rfl, rfl, rfl, rfl, rfl, rfl, rfl, id, rfl, .refl _⟩

theorem sendBeacon_cell (s : State) : CellStep s s.sendBeacon := by
  unfold State.sendBeacon
  split
  · exact .refl s
  · split
    · rename_i h
      exact sendRequest_cell h
    · exact .refl s

/-! ## Hub control -/

theorem sendDirectory_cell {s t : State} {a : Nat} {bytes : List Byte} {f : Label → Label}
    (e : s.sendDirectory a bytes f = some t) : CellStep s t := by
  unfold State.sendDirectory at e
  split at e
  · rename_i h
    cases e
    exact (sendRequest_cell h).trans (updateLabel_cell _ _ _)
  · cases e

theorem sendPlace_cell {s t : State} {slot : Nat} {p : Place} (e : s.sendPlace slot p = some t) : CellStep s t := by
  unfold State.sendPlace at e
  split at e
  · unfold State.sendAssign at e
    repeat' split at e
    all_goals first
      | contradiction
      | exact sendDirectory_cell e
  · unfold State.sendControl at e
    repeat' split at e
    all_goals first
      | contradiction
      | exact sendDirectory_cell e
  · unfold State.sendProbe at e
    repeat' split at e
    all_goals first
      | contradiction
      | exact sendDirectory_cell e
  · unfold State.sendRelease at e
    repeat' split at e
    all_goals first
      | contradiction
      | exact sendDirectory_cell e
  · exact sendFragment_cell e

theorem closeWindowAssembly_cell (s : State) : CellStep s s.closeWindowAssembly := by
  unfold State.closeWindowAssembly
  split
  · exact .refl s
  · split
    · exact endAssemblyBroken_cell s _
    · exact .refl s

theorem takeWindowEnd_cell (s : State) : CellStep s s.takeWindowEnd := by
  unfold State.takeWindowEnd
  split
  · exact .refl s
  · split
    · refine CellStep.trans ?_ (windowSend_cell _ _ _)
      exact ⟨rfl, rfl, rfl, rfl, rfl, rfl, rfl, rfl, id, rfl, .refl _⟩
    · exact .refl s

theorem takeCallEnd_cell (s : State) : CellStep s s.takeCallEnd := by
  unfold State.takeCallEnd
  split
  · exact .refl s
  · split
    · exact .refl s
    · refine CellStep.trans ?_ (updateLabel_cell _ _ _)
      refine CellStep.trans ?_ (judgeTransfer_cell _ _)
      refine CellStep.trans ?_ (judgeCall_cell _ _)
      exact ⟨rfl, rfl, rfl, rfl, rfl, rfl, rfl, rfl, id, rfl, .refl _⟩

theorem replyWindowEnd_cell (s : State) : CellStep s s.replyWindowEnd := by
  unfold State.replyWindowEnd
  split
  · exact .refl s
  · exact takeWindowEnd_cell s

theorem callEnd_cell (s : State) : CellStep s s.callEnd := by
  unfold State.callEnd
  split
  · exact .refl s
  · exact takeCallEnd_cell s

theorem openSlot_cell (s : State) : CellStep s s.openSlot := by
  unfold State.openSlot
  split
  · exact ⟨rfl, rfl, rfl, rfl, rfl, rfl, rfl, rfl, id, rfl, .refl _⟩
  · split
    · exact ⟨rfl, rfl, rfl, rfl, rfl, rfl, rfl, rfl, id, rfl, .refl _⟩
    · split
      · rename_i h
        exact (sendPlace_cell h).trans ⟨rfl, rfl, rfl, rfl, rfl, rfl, rfl, rfl, id, rfl, .refl _⟩
      · exact ⟨rfl, rfl, rfl, rfl, rfl, rfl, rfl, rfl, id, rfl, .refl _⟩

theorem settleHub_cell (s : State) : CellStep s s.settleHub := by
  unfold State.settleHub
  split
  · exact .refl s
  · split
    · refine CellStep.trans ?_ (post_cell _ _)
      exact ⟨rfl, rfl, rfl, rfl, rfl, rfl, rfl, rfl, id, rfl, .refl _⟩
    · exact .refl s
  · exact .refl s
  · refine CellStep.trans ?_ (post_cell _ _)
    refine CellStep.trans ?_ (endTransfers_cell _)
    exact ⟨rfl, rfl, rfl, rfl, rfl, rfl, rfl, rfl, id, rfl, .refl _⟩
  · exact .refl s

theorem clearForeignSeen_cell (s : State) : CellStep s s.clearForeignSeen := by
  unfold State.clearForeignSeen
  split
  · exact ⟨rfl, rfl, rfl, rfl, rfl, rfl, rfl, rfl, id, rfl, .refl _⟩
  · exact .refl s

theorem directoryBoundary_cell (s : State) (e : Epoch) : CellStep s (s.directoryBoundary e) := by
  unfold State.directoryBoundary
  dsimp only
  have h := (ageAdmission_cell s).trans (updateCrowded_cell _)
  split
  · exact h.trans (entriesAtEpoch_cell _ _ _)
  · exact h

theorem plannerBoundary_cell (s : State) : CellStep s s.plannerBoundary := by
  have h : CellStep s { s with plan := none } := ⟨rfl, rfl, rfl, rfl, rfl, rfl, rfl, rfl, id, rfl, .refl _⟩
  unfold State.plannerBoundary
  split
  · exact h.trans ((buildPlan_cell _).trans (sendBeacon_cell _))
  all_goals exact h

theorem foreignInService_cell (s : State) (id : Word16) : CellStep s (s.foreignInService id) := by
  unfold State.foreignInService
  split
  · exact .refl s
  · refine CellStep.trans ?_ (post_cell _ _)
    exact ⟨rfl, rfl, rfl, rfl, rfl, rfl, rfl, rfl, fun h => h, rfl, .refl _⟩

/-- With no assembly open the receiver goes into a period as it stands. -/
theorem intoPeriod_closed {r : Receiver} (h : r.assembly = none) : r.intoPeriod = r := by
  unfold Receiver.intoPeriod
  rw [h, Option.map_none, ← h]

theorem beginPeriod_cell (s : State) (t : LineTest) : CellStep s (s.beginPeriod t) := by
  unfold State.beginPeriod
  extract_lets u
  have h : CellStep s u := ⟨rfl, rfl, rfl, rfl, rfl, rfl, rfl, rfl, id, rfl, .refl _⟩
  split
  · exact h
  · split
    · rename_i e
      exact h.trans (sendRequest_cell e)
    · exact h

theorem endTest_cell (s : State) (c : TestCounts) (b : Bool) (k : LinkCause) : CellStep s (s.endTest c b k) := by
  unfold State.endTest
  refine CellStep.trans ?_ (post_cell _ _)
  refine CellStep.trans ?_ (post_cell _ _)
  exact ⟨rfl, rfl, rfl, rfl, rfl, rfl, rfl, rfl, id, rfl, .refl _⟩

theorem testPeriodEnd_cell (s : State) : CellStep s s.testPeriodEnd := by
  unfold State.testPeriodEnd
  dsimp only
  split
  · exact .refl s
  · split
    · exact (endAssemblyBroken_cell s _).trans (endTest_cell _ _ _ _)
    · exact (endAssemblyBroken_cell s _).trans (beginPeriod_cell _ _)

theorem dropBurst_cell (s : State) : CellStep s s.dropBurst := by
  unfold State.dropBurst
  split
  · exact .refl s
  · exact ⟨rfl, rfl, rfl, rfl, rfl, rfl, rfl, rfl, id, rfl, .refl _⟩

theorem stopTest_cell (s : State) (t : LineTest) : CellStep s (s.stopTest t) :=
  (dropBurst_cell s).trans (endTest_cell _ _ _ _)

/-! ## Burst ends -/

theorem burstEnd_cell (s : State) : CellStep s s.burstEnd := by
  unfold State.burstEnd
  split
  · exact .refl s
  · split
    · exact .refl s
    · refine CellStep.trans ?_ (reportBurstEnd_cell _ _ _)
      exact ⟨rfl, rfl, rfl, rfl, rfl, rfl, rfl, rfl, id, rfl, .refl _⟩

theorem blankingEnd_cell (s : State) (level : Bool) : CellStep s (s.blankingEnd level) := by
  unfold State.blankingEnd
  split
  · exact ⟨rfl, rfl, rfl, rfl, rfl, rfl, rfl, rfl, id, rfl, .refl _⟩
  · exact .refl s

/-! ## Commands of hub control, the directory and the page store -/

theorem stopHub_cell (s : State) : CellStep s s.stopHub := by
  unfold State.stopHub
  split
  · exact .refl s
  · refine CellStep.trans ?_ (post_cell _ _)
    exact ⟨rfl, rfl, rfl, rfl, rfl, rfl, rfl, rfl, id, rfl, .refl _⟩
  · refine CellStep.trans ?_ (post_cell _ _)
    exact ⟨rfl, rfl, rfl, rfl, rfl, rfl, rfl, rfl, id, rfl, .refl _⟩
  · exact .refl s
  · exact stopTest_cell s _

theorem startTest_cell (s : State) (m : TestMode) (n : Nat) : CellStep s (s.startTest m n) := by
  unfold State.startTest
  refine CellStep.trans ?_ (beginPeriod_cell _ _)
  refine CellStep.trans ?_ (post_cell _ _)
  exact ⟨rfl, rfl, rfl, rfl, rfl, rfl, rfl, rfl, id, rfl, .refl _⟩

theorem doLineTest_cell (s : State) (p : List Byte) : CellStep s (s.doLineTest p).state := by
  unfold State.doLineTest
  split
  · split
    · exact .refl s
    · split
      · exact .refl s
      · exact startTest_cell s _ _
  · exact .refl s

theorem doAdmit_cell (s : State) (p : List Byte) : CellStep s (s.doAdmit p).state := by
  unfold State.doAdmit
  dsimp only
  split
  · exact .refl s
  · split
    · exact .refl s
    · split
      · exact updateAsking_cell s _ _
      · split
        · exact .refl s
        · exact (dropAsking_cell s _).trans (createEntry_cell _ _ _ _ _ _)

theorem doLabelQuery_cell (s : State) (p : List Byte) : CellStep s (s.doLabelQuery p).state := by
  unfold State.doLabelQuery
  repeat' split
  all_goals exact .refl s

theorem doLabelList_cell (s : State) (p : List Byte) : CellStep s (s.doLabelList p).state := by
  unfold State.doLabelList
  split <;> exact .refl s

theorem doLabelOp_cell (s : State) (p : List Byte) : CellStep s (s.doLabelOp p).state := by
  unfold State.doLabelOp
  dsimp only
  repeat' split
  all_goals first
    | exact .refl s
    | exact updateLabel_cell s _ _

theorem doRelease_cell (s : State) (p : List Byte) : CellStep s (s.doRelease p).state := by
  unfold State.doRelease
  dsimp only
  repeat' split
  all_goals first
    | exact .refl s
    | exact releaseJoining_cell s _
    | exact releaseBound_cell s _ _

theorem doForget_cell (s : State) (p : List Byte) : CellStep s (s.doForget p).state := by
  unfold State.doForget
  dsimp only
  repeat' split
  all_goals first
    | exact .refl s
    | exact forget_cell s _

theorem makeRoom_cell (s : State) (q : BeginRequest) : CellStep s (s.makeRoom q) := by
  unfold State.makeRoom
  refine CellStep.trans ?_ (evictUntil_cell _ _ _)
  split
  · exact freeRecord_cell s _
  · exact .refl s

theorem supersede_cell (s : State) (a p : Nat) : CellStep s (s.supersede a p) := by
  unfold State.supersede
  split
  · exact discardRecord_cell s _
  · exact .refl s

theorem named_record {s : State} {h : Nat} {r : Record} (e : s.named h = .ok r) : s.record h = some r := by
  unfold State.named at e
  split at e
  · cases e
  · split at e
    · cases e
    · split at e
      · cases e
      · rename_i k _
        cases e
        exact k

theorem endPage_cell {s : State} {h : Nat} {r : Record} (e : s.record h = some r) : CellStep s (s.endPage h r) := by
  refine CellStep.trans ?_ (updateLabel_cell _ _ _)
  exact (supersede_cell s _ _).put e ⟨rfl, rfl, rfl, rfl⟩

theorem doPageEnd_cell (s : State) (p : List Byte) : CellStep s (s.doPageEnd p).state := by
  unfold State.doPageEnd
  dsimp only
  split
  · exact .refl s
  · rename_i r e
    repeat' split
    all_goals first
      | exact .refl s
      | exact endPage_cell (named_record e)

theorem doPageDiscard_cell (s : State) (p : List Byte) : CellStep s (s.doPageDiscard p).state := by
  unfold State.doPageDiscard
  dsimp only
  split
  · exact .refl s
  · exact discardRecord_cell s _

theorem pin_cell {s : State} {h : Nat} {r : Record} (e : s.record h = some r) : CellStep s (s.pin h r) := by
  refine CellStep.trans ?_ (setHeldOrder_cell _ _)
  exact setRecord_cell e ⟨rfl, rfl, rfl, rfl⟩

theorem doPagePin_cell (s : State) (p : List Byte) : CellStep s (s.doPagePin p).state := by
  unfold State.doPagePin
  dsimp only
  split
  · exact .refl s
  · rename_i r e
    repeat' split
    all_goals first
      | exact .refl s
      | exact pin_cell (named_record e)

theorem unpin_cell {s : State} {h : Nat} {r : Record} (e : s.record h = some r) : CellStep s (s.unpin h r) := by
  have k := setRecord_cell (r' := { r with pinned := false }) e ⟨rfl, rfl, rfl, rfl⟩
  unfold State.unpin
  dsimp only
  split
  · exact k.trans (setHeldOrder_cell _ _)
  · exact k

theorem doPageUnpin_cell (s : State) (p : List Byte) : CellStep s (s.doPageUnpin p).state := by
  unfold State.doPageUnpin
  dsimp only
  split
  · exact .refl s
  · rename_i r e
    repeat' split
    all_goals first
      | exact .refl s
      | exact unpin_cell (named_record e)

theorem doPageRequeue_cell (s : State) (p : List Byte) : CellStep s (s.doPageRequeue p).state := by
  unfold State.doPageRequeue
  dsimp only
  split
  · exact .refl s
  · rename_i r e
    repeat' split
    all_goals first
      | exact .refl s
      | exact setRecord_cell (named_record e) ⟨rfl, rfl, rfl, rfl⟩

theorem doPageQuery_cell (s : State) (p : List Byte) : CellStep s (s.doPageQuery p).state := by
  unfold State.doPageQuery
  dsimp only
  repeat' split
  all_goals exact .refl s

end Sys2Proof.Machine
end

