-- ==== Sys2Proof/Laws/Events.lean ====
section
/-! SUPPORT. What the events of the line and of the clock can do: as CellStep, but the position may move, within its
bounds. -/

namespace Sys2Proof.Machine

/-- What an event of the cell leaves alone. -/
structure EventStep (s t : State) : Prop where
  memory : t.store.memory = s.store.memory
  parity : t.store.parity = s.store.parity
  config : t.config = s.config
  held : t.held = s.held
  pending : t.pending = s.pending
  serial : t.serial = s.serial
  link : t.link = { s.link with notices := t.link.notices, overflow := t.link.overflow }
  notices : NoticesOk s.link.notices → NoticesOk t.link.notices
  position : PositionOk s.timebase → PositionOk t.timebase
  records : Shrinks s.store.records t.store.records

theorem CellStep.event {s t : State} (h : CellStep s t) : EventStep s t where
  memory := h.memory
  parity := h.parity
  config := h.config
  held := h.held
  pending := h.pending
  serial := h.serial
  link := h.link
  notices := h.notices
  position := fun k => by rw [h.timebase]; exact k
  records := h.records

namespace EventStep

theorem refl (s : State) : EventStep s s := (CellStep.refl s).event

theorem trans {s t u : State} (h : EventStep s t) (k : EventStep t u) : EventStep s u where
  memory := k.memory.trans h.memory
  parity := k.parity.trans h.parity
  config := k.config.trans h.config
  held := k.held.trans h.held
  pending := k.pending.trans h.pending
  serial := k.serial.trans h.serial
  link := by rw [k.link, h.link]
  notices := k.notices ∘ h.notices
  position := k.position ∘ h.position
  records := h.records.trans k.records

end EventStep

/-! ## Time and rounds -/

theorem advance_event (s : State) (n : Nat) : EventStep s (s.advance n) := by
  refine ⟨rfl, rfl, rfl, rfl, rfl, rfl, rfl, id, fun h => ?_, .refl _⟩
  simp only [State.advance]
  split
  · exact ⟨h.1, Nat.min_le_left _ _⟩
  · exact h

theorem pass_event (s : State) (n : Nat) : EventStep s (s.pass n) := by
  unfold State.pass
  refine EventStep.trans ?_ (advance_event _ n)
  split
  · exact .refl s
  · exact (firstTick_cell s).event

theorem nextSlot_event {s : State} (h : s.timebase.slot < Config.lastSlot) : EventStep s s.nextSlot :=
  ⟨rfl, rfl, rfl, rfl, rfl, rfl, rfl, id, fun _ => ⟨h, Nat.zero_le _⟩, .refl _⟩

theorem slotStart_event (s : State) : EventStep s s.slotStart := by
  unfold State.slotStart
  split
  · rename_i h
    have k := (((firstTick_cell s).trans (closeWindowAssembly_cell _)).trans (takeWindowEnd_cell _)).trans
      (takeCallEnd_cell _)
    exact k.event.trans ((nextSlot_event (by rw [k.timebase]; exact h.2)).trans (openSlot_cell _).event)
  · exact .refl s

theorem beginRound_event (s : State) : EventStep s s.beginRound :=
  ⟨rfl, rfl, rfl, rfl, rfl, rfl, rfl, id, fun _ => ⟨Nat.zero_le _, Nat.zero_le _⟩, .refl _⟩

theorem takeBoundary_event (s : State) : EventStep s s.takeBoundary := by
  have k := ((closeWindowAssembly_cell s).trans (takeWindowEnd_cell _)).event.trans (beginRound_event _)
  exact k.trans ((((settleHub_cell _).trans (clearForeignSeen_cell _)).trans (directoryBoundary_cell _ _)).trans
    (plannerBoundary_cell _)).event

theorem setAssembly_cell (s : State) (a : Option Assembly) : CellStep s (s.setAssembly a) :=
  ⟨rfl, rfl, rfl, rfl, rfl, rfl, rfl, rfl, id, rfl, .refl _⟩

theorem hearOn_cell (s : State) (r : Receiver) : CellStep s (s.hearOn r) :=
  ⟨rfl, rfl, rfl, rfl, rfl, rfl, rfl, rfl, id, rfl, .refl _⟩

theorem endBurst_cell (s : State) : CellStep s s.endBurst := ⟨rfl, rfl, rfl, rfl, rfl, rfl, rfl, rfl, id, rfl, .refl _⟩

theorem roundBoundary_event (s : State) : EventStep s s.roundBoundary := by
  unfold State.roundBoundary
  split
  · split
    · exact (takeBoundary_event s).trans (hearOn_cell _ _).event
    · exact takeBoundary_event s
  · exact .refl s

/-! ## The receiver -/

theorem takeBeacon_event (s : State) (d : List Byte) : EventStep s (s.takeBeacon d) := by
  unfold State.takeBeacon
  split
  · split
    · unfold State.takeForeign
      split
      · exact .refl s
      · unfold State.channelBusy
        refine EventStep.trans ?_ (post_cell _ _).event
        refine ⟨rfl, rfl, rfl, rfl, rfl, rfl, rfl, id, fun h => ?_, .refl _⟩
        dsimp only
        split
        · exact ⟨Nat.zero_le _, Nat.zero_le _⟩
        · exact h
      · exact (foreignInService_cell s _).event
      · exact (foreignInService_cell s _).event
      · exact .refl s
    · exact .refl s
  · exact .refl s

theorem takeAttributed_cell (s : State) (p : Place) (n : Nat) (d : List Byte) :
    CellStep s (s.takeAttributed p n d) := by
  unfold State.takeAttributed
  extract_lets t u
  have h : CellStep s t := updateLabel_cell s _ _
  have k : CellStep t u := by
    show CellStep t (match p.kind with
      | .fragment h => t.engineReply p.address h d
      | .assign => t | .control => t | .probe => t | .release => t)
    split
    · exact engineReply_cell t _ _ _
    all_goals exact .refl t
  split
  · exact (h.trans k).trans (takeStatus_cell _ _ _ _)
  · exact h.trans k

theorem deliverInWindow_cell (s : State) (w : Window) (d : List Byte) : CellStep s (s.deliverInWindow w d) := by
  unfold State.deliverInWindow
  split
  · split
    · exact takeJoinRequest_cell s _
    · exact .refl s
  · split
    · split
      · exact takeAttributed_cell s _ _ _
      · exact .refl s
    · exact .refl s

theorem deliverWhole_event (s : State) (w : Option Window) (d : List Byte) : EventStep s (s.deliverWhole w d) := by
  unfold State.deliverWhole
  split
  · exact takeBeacon_event s d
  · split
    · split
      · exact (deliverInWindow_cell s _ _).event
      · exact .refl s
    · exact .refl s

theorem openAssembly_cell (s : State) : CellStep s s.openAssembly := by
  unfold State.openAssembly
  split
  · exact .refl s
  · split
    · split
      · exact ⟨rfl, rfl, rfl, rfl, rfl, rfl, rfl, rfl, id, rfl, .refl _⟩
      · exact setAssembly_cell s _
    · exact setAssembly_cell s _

theorem takeEndMark_event (s : State) (a : Assembly) : EventStep s (s.takeEndMark a) := by
  unfold State.takeEndMark
  dsimp only
  split
  · split
    · exact ⟨rfl, rfl, rfl, rfl, rfl, rfl, rfl, id, id, .refl _⟩
    · exact (setAssembly_cell s _).event
  · split
    · exact (setAssembly_cell s _).event.trans (deliverWhole_event _ _ _)
    · exact ((setAssembly_cell s _).trans (deliverBroken_cell _ _ _)).event

theorem takeBit_cell (s : State) (a : Assembly) (b : Bool) : CellStep s (s.takeBit a b) := by
  unfold State.takeBit
  dsimp only
  split
  · exact setAssembly_cell s _
  · split
    · exact setAssembly_cell s _
    · exact endAssemblyBroken_cell s _

theorem takeElement_event (s : State) (c : ElementClass) : EventStep s (s.takeElement c) := by
  unfold State.takeElement
  split
  · split
    · exact (openAssembly_cell s).event
    · exact .refl s
  · split
    · unfold State.takeAfterSync
      split
      · exact (setAssembly_cell s _).event
      all_goals exact (endAssemblyBroken_cell s _).event
    · unfold State.takeCollecting
      split
      · exact .refl s
      · exact takeEndMark_event s _
      · exact ((endAssemblyBroken_cell s _).trans (openAssembly_cell _)).event
      · exact (endAssemblyBroken_cell s _).event
      · exact (takeBit_cell s _ _).event
      · exact (endAssemblyBroken_cell s _).event
      · exact (endAssemblyBroken_cell s _).event

theorem closeElement_event (s : State) (mark : Bool) (n : Nat) : EventStep s (s.closeElement mark n) := by
  unfold State.closeElement
  dsimp only
  refine EventStep.trans ?_ (takeElement_event _ _)
  unfold State.countViolation
  split
  · split
    · exact ⟨rfl, rfl, rfl, rfl, rfl, rfl, rfl, id, id, .refl _⟩
    · exact .refl s
  · exact .refl s

theorem acceptTransition_event (s : State) (date : Nat) (level : Bool) : EventStep s (s.acceptTransition date level) := by
  unfold State.acceptTransition
  extract_lets t
  have h : EventStep s t := by
    show EventStep s (State.countEdge _)
    unfold State.countEdge
    split <;> exact ⟨rfl, rfl, rfl, rfl, rfl, rfl, rfl, id, id, .refl _⟩
  split
  · exact h
  · split
    · exact h
    · exact h.trans (closeElement_event _ _ _)

theorem transition_event (s : State) : EventStep s s.transition := by
  unfold State.transition
  split
  · exact .refl s
  · exact acceptTransition_event s _ _

theorem beginCandidate_event (s : State) : EventStep s s.beginCandidate :=
  ⟨rfl, rfl, rfl, rfl, rfl, rfl, rfl, id, id, .refl _⟩

theorem samplePdin_event (s : State) : EventStep s s.samplePdin := by
  unfold State.samplePdin
  split
  · exact ⟨rfl, rfl, rfl, rfl, rfl, rfl, rfl, id, id, .refl _⟩
  · split
    · exact beginCandidate_event s
    · split
      · exact acceptTransition_event s _ _
      · exact beginCandidate_event s

theorem decideElement_event (s : State) : EventStep s s.decideElement := by
  unfold State.decideElement
  split
  · exact .refl s
  · split
    · refine EventStep.trans ?_ (takeElement_event _ _)
      exact ⟨rfl, rfl, rfl, rfl, rfl, rfl, rfl, id, id, .refl _⟩
    · exact .refl s

theorem movePin_event (s : State) (q : List Bool) : EventStep s (s.movePin q) := by
  unfold State.movePin
  split
  · exact .refl s
  · exact ⟨rfl, rfl, rfl, rfl, rfl, rfl, rfl, id, id, .refl _⟩

theorem lineTick_event (s : State) : EventStep s s.lineTick := by
  have h := (pass_event s 1).trans (movePin_event _ s.pdinAhead)
  unfold State.lineTick
  dsimp only
  split
  · exact h
  · exact h.trans ((samplePdin_event _).trans (decideElement_event _))

/-! ## What the receiver does takes no time -/

theorem takeBeacon_clock (s : State) (d : List Byte) : (s.takeBeacon d).clock = s.clock := by
  unfold State.takeBeacon
  split
  · split
    · unfold State.takeForeign
      split
      · rfl
      · exact (post_cell _ _).clock
      · exact (foreignInService_cell s _).clock
      · exact (foreignInService_cell s _).clock
      · rfl
    · rfl
  · rfl

theorem deliverWhole_clock (s : State) (w : Option Window) (d : List Byte) : (s.deliverWhole w d).clock = s.clock := by
  unfold State.deliverWhole
  split
  · exact takeBeacon_clock s d
  · split
    · split
      · exact (deliverInWindow_cell s _ _).clock
      · rfl
    · rfl

theorem takeElement_clock (s : State) (c : ElementClass) : (s.takeElement c).clock = s.clock := by
  unfold State.takeElement
  split
  · split
    · exact (openAssembly_cell s).clock
    · rfl
  · split
    · unfold State.takeAfterSync
      split
      · rfl
      all_goals exact (endAssemblyBroken_cell s _).clock
    · unfold State.takeCollecting
      split
      · rfl
      · unfold State.takeEndMark
        dsimp only
        split
        · split <;> rfl
        · split
          · exact deliverWhole_clock _ _ _
          · exact (deliverBroken_cell _ _ _).clock
      · exact ((endAssemblyBroken_cell s _).trans (openAssembly_cell _)).clock
      · exact (endAssemblyBroken_cell s _).clock
      · exact (takeBit_cell s _ _).clock
      · exact (endAssemblyBroken_cell s _).clock
      · exact (endAssemblyBroken_cell s _).clock

theorem acceptTransition_clock (s : State) (date : Nat) (level : Bool) :
    (s.acceptTransition date level).clock = s.clock := by
  have key : ∀ u : State, u.countEdge.clock = u.clock := by
    intro u
    unfold State.countEdge
    split <;> rfl
  unfold State.acceptTransition
  dsimp only
  split
  · exact key _
  · split
    · exact key _
    · unfold State.closeElement
      dsimp only
      rw [takeElement_clock]
      unfold State.countViolation
      repeat' split
      all_goals exact key _

theorem decideElement_clock (s : State) : s.decideElement.clock = s.clock := by
  unfold State.decideElement
  repeat' split
  all_goals first
    | rfl
    | exact takeElement_clock _ _

theorem pass_clock (s : State) (n : Nat) : (s.pass n).clock = s.clock + n := by
  unfold State.pass State.advance
  dsimp only
  split
  · rfl
  · rw [(firstTick_cell s).clock]

theorem lineTick_clock (s : State) : s.lineTick.clock = s.clock + 1 := by
  have k : ((s.pass 1).movePin s.pdinAhead).clock = s.clock + 1 := by
    rw [← pass_clock]
    unfold State.movePin
    split <;> rfl
  unfold State.lineTick
  dsimp only
  split
  · exact k
  · rw [decideElement_clock, ← k]
    unfold State.samplePdin
    repeat' split
    all_goals first
      | rfl
      | exact acceptTransition_clock _ _ _

/-! ## What the receiver does to the timebase -/

/-- The timebase stays, and so does the hub state, but for the counts and marks of a line test. -/
structure TimeKept (s t : State) : Prop where
  timebase : t.timebase = s.timebase
  hub : (∀ m, s.hub ≠ .testing m) → t.hub = s.hub
  test : (∃ m, s.hub = .testing m) → ∃ m, t.hub = .testing m

theorem TimeKept.refl (s : State) : TimeKept s s := ⟨rfl, fun _ => rfl, id⟩

theorem TimeKept.trans {s t u : State} (h : TimeKept s t) (k : TimeKept t u) : TimeKept s u where
  timebase := k.timebase.trans h.timebase
  hub n := by
    have e := h.hub n
    rw [k.hub (by rwa [e]), e]
  test m := k.test (h.test m)

/-- The timebase stays, or a foreign beacon has undone what a START began (R32). -/
def TimeKeptOrUndone (s t : State) : Prop :=
  t.timebase = s.timebase ∨ (∃ e, s.hub = .listening e true) ∧ t.hub = .offline ∧ t.timebase = ⟨false, 0, 0, 0⟩

theorem TimeKept.listening {s t : State} (h : TimeKept s t) (k : ∃ e, t.hub = .listening e true) :
    ∃ e, s.hub = .listening e true := by
  obtain ⟨e, l⟩ := k
  refine ⟨e, ?_⟩
  rw [← h.hub, l]
  intro m i
  obtain ⟨n, j⟩ := h.test ⟨m, i⟩
  rw [l] at j
  exact nomatch j

theorem TimeKept.before {s t u : State} (h : TimeKept s t) (k : TimeKeptOrUndone t u) : TimeKeptOrUndone s u := by
  rcases k with k | ⟨l, o⟩
  · exact .inl (k.trans h.timebase)
  · exact .inr ⟨h.listening l, o⟩

theorem TimeKeptOrUndone.after {s t u : State} (h : TimeKeptOrUndone s t) (k : TimeKept t u) : TimeKeptOrUndone s u := by
  rcases h with h | ⟨l, o, z⟩
  · exact .inl (k.timebase.trans h)
  · refine .inr ⟨l, ?_, k.timebase.trans z⟩
    rw [k.hub, o]
    intro m i
    rw [o] at i
    exact nomatch i

theorem lineTest_some {s : State} {t : LineTest} (h : s.lineTest = some t) : s.hub = .testing t := by
  unfold State.lineTest at h
  cases e : s.hub <;> rw [e] at h <;> cases h
  rfl

/-- Any change of the hub state within a line test keeps the time. -/
theorem TimeKept.ofTest {s t : State} {m n : LineTest} (h : s.lineTest = some m) (b : t.timebase = s.timebase)
    (k : t.hub = .testing n) : TimeKept s t :=
  ⟨b, fun q => absurd (lineTest_some h) (q m), fun _ => ⟨n, k⟩⟩

theorem endAssemblyBroken_time (s : State) (c : BrokenCause) : TimeKept s (s.endAssemblyBroken c) := by
  unfold State.endAssemblyBroken
  split
  · exact .refl s
  · dsimp only
    split
    · rename_i e
      split
      · exact .ofTest e rfl rfl
      · exact ⟨rfl, fun _ => rfl, id⟩
    · unfold State.deliverBroken
      split <;> exact ⟨rfl, fun _ => rfl, id⟩

theorem openAssembly_time (s : State) : TimeKept s s.openAssembly := by
  unfold State.openAssembly
  split
  · exact .refl s
  · split
    · rename_i e
      split
      · exact .ofTest e rfl rfl
      · exact ⟨rfl, fun _ => rfl, id⟩
    · exact ⟨rfl, fun _ => rfl, id⟩

theorem firstTick_time (s : State) : TimeKept s s.firstTick := by
  have k : ∀ u : State, TimeKept u u.beginBlanking := by
    intro u
    unfold State.beginBlanking
    split
    · exact .refl u
    · exact (endAssemblyBroken_time u _).trans ⟨rfl, fun _ => rfl, id⟩
  unfold State.firstTick
  split
  · exact TimeKept.trans (t := { s with blankingDue := false }) ⟨rfl, fun _ => rfl, id⟩ (k _)
  · exact .refl s

theorem deliverWhole_time (s : State) (w : Option Window) (d : List Byte) : TimeKeptOrUndone s (s.deliverWhole w d) := by
  unfold State.deliverWhole
  split
  · unfold State.takeBeacon
    split
    · split
      · unfold State.takeForeign
        split
        · exact .inl rfl
        · rename_i e started l
          cases started
          · exact .inl rfl
          · exact .inr ⟨⟨e, l⟩, rfl, rfl⟩
        · exact .inl (foreignInService_cell s _).timebase
        · exact .inl (foreignInService_cell s _).timebase
        · exact .inl rfl
      · exact .inl rfl
    · exact .inl rfl
  · split
    · split
      · exact .inl (deliverInWindow_cell s _ _).timebase
      · exact .inl rfl
    · exact .inl rfl

theorem takeEndMark_time (s : State) (a : Assembly) : TimeKeptOrUndone s (s.takeEndMark a) := by
  have k : TimeKept s (s.setAssembly none) := ⟨rfl, fun _ => rfl, id⟩
  unfold State.takeEndMark
  dsimp only
  split
  · split <;> exact .inl rfl
  · split
    · exact k.before (deliverWhole_time _ _ _)
    · exact .inl (deliverBroken_cell _ _ _).timebase

theorem takeElement_time (s : State) (c : ElementClass) : TimeKeptOrUndone s (s.takeElement c) := by
  unfold State.takeElement
  split
  · split
    · exact .inl (openAssembly_cell s).timebase
    · exact .inl rfl
  · split
    · unfold State.takeAfterSync
      split
      · exact .inl rfl
      all_goals exact .inl (endAssemblyBroken_cell s _).timebase
    · unfold State.takeCollecting
      split
      · exact .inl rfl
      · exact takeEndMark_time s _
      · exact .inl ((endAssemblyBroken_cell s _).trans (openAssembly_cell _)).timebase
      · exact .inl (endAssemblyBroken_cell s _).timebase
      · exact .inl (takeBit_cell s _ _).timebase
      · exact .inl (endAssemblyBroken_cell s _).timebase
      · exact .inl (endAssemblyBroken_cell s _).timebase

theorem instantClass_cases (mark : Bool) : instantClass mark = .abort ∨ instantClass mark = .silence := by
  cases mark
  · exact .inr rfl
  · exact .inl rfl

/-- The two elements that are decided at their instant (R10) deliver nothing. -/
theorem takeDecided_time (s : State) (mark : Bool) : TimeKept s (s.takeElement (instantClass mark)) := by
  unfold State.takeElement
  rcases instantClass_cases mark with h | h <;> rw [h] <;> split
  all_goals first
    | exact .refl s
    | (split <;> exact endAssemblyBroken_time s _)

theorem decideElement_time (s : State) : TimeKept s s.decideElement := by
  unfold State.decideElement
  split
  · exact .refl s
  · split
    · exact TimeKept.trans (t := { s with receiver := { s.receiver with decided := true } }) ⟨rfl, fun _ => rfl, id⟩
        (takeDecided_time _ _)
    · exact .refl s

theorem acceptTransition_time (s : State) (date : Nat) (level : Bool) :
    TimeKeptOrUndone s (s.acceptTransition date level) := by
  have edge : ∀ u : State, TimeKept u u.countEdge := by
    intro u
    unfold State.countEdge
    split
    · rename_i e
      exact .ofTest e rfl rfl
    · exact .refl u
  have k : TimeKept s (State.countEdge { s with receiver := s.receiver.accept date level }) :=
    TimeKept.trans (t := { s with receiver := s.receiver.accept date level }) ⟨rfl, fun _ => rfl, id⟩ (edge _)
  unfold State.acceptTransition
  dsimp only
  split
  · exact .inl k.timebase
  · split
    · exact .inl k.timebase
    · unfold State.closeElement
      refine (k.trans ?_).before (takeElement_time _ _)
      unfold State.countViolation
      split
      · rename_i e
        split
        · exact .ofTest e rfl rfl
        · exact .refl _
      · exact .refl _

theorem samplePdin_time (s : State) : TimeKeptOrUndone s s.samplePdin := by
  unfold State.samplePdin
  repeat' split
  all_goals first
    | exact .inl rfl
    | exact acceptTransition_time s _ _

/-- Time passes on the line, and then the receiver acts, which takes none. -/
theorem TimePassed.ofPass {s t : State} {n : Nat} (c : t.clock = s.clock + n) (r : TimeKeptOrUndone (s.pass n) t) :
    TimePassed n s t := by
  obtain ⟨u, k, e⟩ : ∃ u, TimeKept s u ∧ s.pass n = u.advance n := by
    unfold State.pass
    split
    · exact ⟨s, .refl s, rfl⟩
    · exact ⟨_, firstTick_time s, rfl⟩
  rw [e] at r
  refine ⟨c, ?_⟩
  rcases r with r | ⟨l, o⟩
  · refine .inl (r.trans ?_)
    unfold State.advance
    dsimp only
    rw [k.timebase]
    split
    · rename_i h
      rw [h]
      rfl
    · rfl
  · exact .inr ⟨k.listening l, o⟩

theorem transition_clock (s : State) : s.transition.clock = s.clock := by
  unfold State.transition
  split
  · rfl
  · exact acceptTransition_clock s _ _

theorem transition_time (s : State) : TimeKeptOrUndone s s.transition := by
  unfold State.transition
  split
  · exact .inl rfl
  · exact acceptTransition_time s _ _

theorem lineTick_time (s : State) : TimePassed 1 s s.lineTick := by
  refine .ofPass (lineTick_clock s) ?_
  have k : TimeKept (s.pass 1) ((s.pass 1).movePin s.pdinAhead) := by
    unfold State.movePin
    split
    · exact .refl _
    · exact ⟨rfl, fun _ => rfl, id⟩
  unfold State.lineTick
  dsimp only
  split
  · exact .inl k.timebase
  · exact k.before ((samplePdin_time _).after (decideElement_time _))

theorem beaconBurst_event (s : State) (b : HeardBurst) : EventStep s (s.beaconBurst b) := by
  unfold State.beaconBurst
  split
  · exact (endBurst_cell s).event.trans (deliverWhole_event _ _ _)
  · exact .refl s

theorem wholeBurst_event (s : State) (w : Option Window) (d : List Byte) : EventStep s (s.wholeBurst w d) := by
  unfold State.wholeBurst
  split
  · exact (endBurst_cell s).event.trans (deliverWhole_event _ _ _)
  · exact .refl s

theorem brokenBurst_cell (s : State) (n : Nat) (c : BrokenCause) : CellStep s (s.brokenBurst n c) := by
  unfold State.brokenBurst
  split
  · exact (endBurst_cell s).trans (deliverBroken_cell _ _ _)
  · exact endAssemblyBroken_cell s c

theorem discardedBurst_cell (s : State) : CellStep s s.discardedBurst := by
  unfold State.discardedBurst
  split
  · exact endBurst_cell s
  · exact .refl s

end Sys2Proof.Machine
end

