-- ==== Sys2Proof/Laws/Blocks.lean ====
section
/-! SUPPORT. The blocks that records hold: an operation that takes no record slot can only free blocks, and a PAGE_BEGIN
gives the new record blocks of the free pool. -/

namespace Sys2Proof.Machine

/-- The blocks of a slot's record. -/
def slotBlocks (o : Option Record) : List Nat :=
  match o with
  | some r => r.blocks
  | none => []

theorem usedBlocks_eq (s : State) : s.usedBlocks = handles.flatMap fun h => slotBlocks (s.record h) := by
  unfold State.usedBlocks slotBlocks
  rfl

theorem Shrinks.slot {p q : Vector (Option Record) 128} (k : Shrinks p q) (h : Nat) :
    (slotBlocks (q[h]?.getD none)).Sublist (slotBlocks (p[h]?.getD none)) := by
  rcases k h with e | ⟨r, r', e, e', c⟩
  · rw [e]
    exact List.nil_sublist _
  · rw [e, e']
    simp only [slotBlocks, c.blocks]
    exact List.Sublist.refl _

theorem Shrinks.usedBlocks {s t : State} (k : Shrinks s.store.records t.store.records) :
    t.usedBlocks.Sublist s.usedBlocks := by
  rw [usedBlocks_eq, usedBlocks_eq]
  generalize handles = l
  induction l with
  | nil => exact List.Sublist.refl _
  | cons h l ih =>
    rw [List.flatMap_cons, List.flatMap_cons]
    exact (k.slot h).append ih

theorem BlocksOk.shrink {s t : State} (h : BlocksOk s) (k : Shrinks s.store.records t.store.records) : BlocksOk t :=
  ⟨h.1.sublist k.usedBlocks, fun b hb => h.2 b (k.usedBlocks.subset hb)⟩

theorem mem_freeBlocks {s : State} {b : Nat} (h : b ∈ s.freeBlocks) : b < Config.storeBlocks ∧ b ∉ s.usedBlocks := by
  unfold State.freeBlocks at h
  simpa using h

theorem freeBlocks_nodup (s : State) : s.freeBlocks.Nodup := List.nodup_range.filter _

theorem mem_freeSlots {s : State} {h : Nat} (m : h ∈ s.freeSlots) : h < 128 ∧ s.record h = none := by
  unfold State.freeSlots handles at m
  rw [List.mem_filter, List.mem_range] at m
  exact ⟨m.1, by simpa using m.2⟩

theorem record_setRecord (s : State) (h k : Nat) (o : Option Record) :
    (s.setRecord h o).record k = if h = k ∧ k < 128 then o else s.record k := Shrinks.slot_set _ h k o

/-- The blocks held once a free slot takes a record. -/
theorem flatMap_put (s : State) {h : Nat} (r : Record) (free : s.record h = none) (l : List Nat) (hl : l.Nodup) :
    (l.flatMap fun k => slotBlocks ((s.setRecord h (some r)).record k)).Perm
      ((if h ∈ l ∧ h < 128 then r.blocks else []) ++ l.flatMap fun k => slotBlocks (s.record k)) := by
  induction l with
  | nil => simp
  | cons k l ih =>
    obtain ⟨hk, hl⟩ := List.nodup_cons.1 hl
    have ih := ih hl
    rw [List.flatMap_cons, List.flatMap_cons, record_setRecord]
    by_cases e : h = k
    · subst e
      rw [free]
      by_cases b : h < 128
      · simp only [b, and_true, if_true, List.mem_cons, true_or]
        rw [if_neg (by simp [hk])] at ih
        exact List.Perm.append_left _ ih
      · simp only [b, and_false, if_false] at ih ⊢
        exact List.Perm.append_left _ ih
    · rw [if_neg (fun c => e c.1)]
      have m : (h ∈ k :: l ∧ h < 128) ↔ (h ∈ l ∧ h < 128) := by
        rw [List.mem_cons]
        exact and_congr_left fun _ => ⟨fun c => c.resolve_left e, Or.inr⟩
      simp only [m]
      refine (List.Perm.append_left _ ih).trans ?_
      rw [← List.append_assoc, ← List.append_assoc]
      exact List.Perm.append_right _ List.perm_append_comm

theorem BlocksOk.put {s : State} (ok : BlocksOk s) {h : Nat} (m : h ∈ s.freeSlots) {r : Record}
    (sub : ∀ b ∈ r.blocks, b ∈ s.freeBlocks) (nd : r.blocks.Nodup) : BlocksOk (s.setRecord h (some r)) := by
  obtain ⟨hlt, free⟩ := mem_freeSlots m
  have p := flatMap_put s r free handles List.nodup_range
  rw [← usedBlocks_eq, ← usedBlocks_eq] at p
  rw [if_pos ⟨List.mem_range.2 hlt, hlt⟩] at p
  refine ⟨p.nodup_iff.2 ?_, fun b hb => ?_⟩
  · refine List.nodup_append.2 ⟨nd, ok.1, fun a ha b hb e => ?_⟩
    subst e
    exact (mem_freeBlocks (sub a ha)).2 hb
  · rcases List.mem_append.1 (p.mem_iff.1 hb) with hb | hb
    · exact (mem_freeBlocks (sub b hb)).1
    · exact ok.2 b hb

/-- PAGE_BEGIN keeps every block in at most one record. -/
theorem beginPage_blocks {s : State} (ok : BlocksOk s) (q : BeginRequest) : BlocksOk (s.beginPage q).state := by
  unfold State.beginPage
  dsimp only
  have ok2 := ok.shrink (makeRoom_cell s q).records
  split
  · exact ok
  · rename_i h rest e
    split
    · refine ok2.put (by rw [e]; exact List.mem_cons_self ..) ?_ ?_
      · intro b hb
        exact List.mem_of_mem_take hb
      · exact (freeBlocks_nodup _).sublist (List.take_sublist _ _)
    · exact ok

end Sys2Proof.Machine
end

