-- ==== Sys2Proof/Laws/Forms.lean ====
section
/-! SUPPORT. The forms of the directory, the page records and the transfer contexts (R43, R55, R88, R106, R108, R118,
R122, R153): what each operation needs in order to keep them, said once. -/

namespace Sys2Proof.Machine

/-! ## Sets and ranges -/

theorem mem_setInsert (x : Nat) (l : List Nat) (y : Nat) : y ∈ setInsert x l ↔ y = x ∨ y ∈ l := by
  induction l with
  | nil => simp [setInsert]
  | cons z l ih =>
    unfold setInsert
    split
    · simp
    · split
      · rename_i e
        subst e
        simp
      · rw [List.mem_cons, ih, List.mem_cons]
        tauto

theorem mem_setUnion (xs l : List Nat) (y : Nat) : y ∈ setUnion xs l ↔ y ∈ xs ∨ y ∈ l := by
  unfold setUnion
  induction xs generalizing l with
  | nil => simp
  | cons x xs ih =>
    rw [List.foldl_cons, ih, mem_setInsert, List.mem_cons]
    tauto

theorem ConfigOk.attempts {c : Configuration} (h : ConfigOk c) : c.opAttempts ≤ 7 := by
  obtain ⟨⟨_, _, _, _, _, _, _, _, h, _⟩, _⟩ := h
  exact h.2

theorem ConfigOk.stalls {c : Configuration} (h : ConfigOk c) : c.stallLimit ≤ 15 := by
  obtain ⟨⟨_, _, _, _, _, _, _, h, _⟩, _⟩ := h
  exact h.2

/-! ## What the three arrays read as after a write -/

theorem entry_setEntry (s : State) (a b : Nat) (e : Entry) :
    (s.setEntry a e).entry b = if b = a ∧ 1 ≤ a ∧ a ≤ 240 then e else s.entry b := by
  unfold State.setEntry State.entry
  by_cases ha : a = 0
  · subst ha
    simp
  · rw [if_neg ha]
    by_cases hb : b = 0
    · subst hb
      have : ¬ (0 = a) := fun h => ha h.symm
      simp [this]
    · rw [if_neg hb, if_neg hb]
      dsimp only
      rw [Vector.getElem?_setIfInBounds]
      by_cases e1 : a = b
      · subst e1
        by_cases h : a - 1 < 240
        · have h2 : a ≤ 240 := by omega
          have h1 : 1 ≤ a := by omega
          simp [h, h1, h2]
        · have h2 : ¬ a ≤ 240 := by omega
          simp [h, h2]
      · have h1 : ¬ a - 1 = b - 1 := by omega
        have h2 : ¬ b = a := fun h => e1 h.symm
        simp [h1, h2]

theorem entry_range {s : State} {a : Nat} (h : s.entry a ≠ .vacant) : 1 ≤ a ∧ a ≤ 240 := by
  unfold State.entry at h
  by_cases e : a = 0
  · rw [if_pos e] at h; exact absurd rfl h
  · rw [if_neg e] at h
    refine ⟨by omega, ?_⟩
    by_contra c
    have : ¬ a - 1 < 240 := by omega
    simp [this] at h

theorem label_entry {s : State} {a : Nat} {l : Label} (h : s.label? a = some l) : s.entry a = .label l := by
  unfold State.label? Entry.label? at h
  cases e : s.entry a with
  | vacant => rw [e] at h; cases h
  | cooling i c => rw [e] at h; cases h
  | label m => rw [e] at h; cases h; rfl

theorem entry_label {s : State} {a : Nat} {l : Label} (h : s.entry a = .label l) : s.label? a = some l := by
  unfold State.label? Entry.label?
  rw [h]

theorem entry_updateLabel (s : State) (a b : Nat) (f : Label → Label) :
    (s.updateLabel a f).entry b = if b = a then (match s.entry a with
      | .label l => .label (f l)
      | .vacant => .vacant
      | .cooling i e => .cooling i e) else s.entry b := by
  unfold State.updateLabel
  cases e : s.entry a with
  | vacant =>
    have : s.label? a = none := by unfold State.label? Entry.label?; rw [e]
    rw [this]
    by_cases h : b = a
    · subst h; simp [e]
    · simp [h]
  | cooling i c =>
    have : s.label? a = none := by unfold State.label? Entry.label?; rw [e]
    rw [this]
    by_cases h : b = a
    · subst h; simp [e]
    · simp [h]
  | label l =>
    rw [entry_label e]
    dsimp only
    rw [entry_setEntry]
    have r := entry_range (s := s) (a := a) (by rw [e]; simp)
    by_cases h : b = a
    · simp [h, r]
    · simp [h]

theorem record_lt {s : State} {h : Nat} {r : Record} (e : s.record h = some r) : h < 128 := by
  by_contra c
  simp [State.record, c] at e

theorem record_set {s : State} {h k : Nat} {o : Option Record} (lt : h < 128) :
    (s.setRecord h o).record k = if k = h then o else s.record k := by
  rw [record_setRecord]
  by_cases e : h = k
  · subst e; simp [lt]
  · have : ¬ k = h := fun c => e c.symm
    simp [e, this]

theorem record_update {s : State} {h k : Nat} {r : Record} (e : s.record h = some r) (f : Record → Record) :
    (s.updateRecord h f).record k = if k = h then some (f r) else s.record k := by
  unfold State.updateRecord
  rw [e]
  exact record_set (record_lt e)

theorem context_lt {s : State} {i : Nat} {c : Context} (e : s.context i = some c) : i < 16 := by
  by_contra h
  simp [State.context, h] at e

theorem context_setContext (s : State) (i j : Nat) (o : Option Context) :
    (s.setContext i o).context j = if j = i ∧ i < 16 then o else s.context j := by
  unfold State.setContext State.context
  dsimp only
  rw [Vector.getElem?_setIfInBounds]
  by_cases e : i = j
  · subst e
    by_cases h : i < 16
    · simp [h]
    · simp [h]
  · have : ¬ j = i := fun c => e c.symm
    simp [e, this]

theorem contextOf_some {s : State} {h i : Nat} (e : s.contextOf h = some i) :
    ∃ c, s.context i = some c ∧ c.handle = h := by
  have p := List.find?_some e
  cases hc : s.context i with
  | none => simp [hc] at p
  | some c => exact ⟨c, rfl, by simpa [hc] using p⟩

theorem contextOf_none {s : State} {h i : Nat} {c : Context} (e : s.contextOf h = none) (k : s.context i = some c) :
    c.handle ≠ h := by
  unfold State.contextOf at e
  rw [List.find?_eq_none] at e
  have := e i (List.mem_range.2 (context_lt k))
  simpa [k] using this

theorem freeContext_none {s : State} {i : Nat} (e : s.freeContext = some i) : i < 16 ∧ s.context i = none := by
  have p := List.find?_some e
  have m := List.mem_range.1 (List.mem_of_find?_eq_some e)
  exact ⟨m, by simpa using p⟩

theorem sendingOf_some {s : State} {a h : Nat} (e : s.sendingOf a = some h) :
    ∃ r, s.record h = some r ∧ r.address = a ∧ r.state = .sending := by
  have p := List.find?_some e
  cases hc : s.record h with
  | none => simp [hc] at p
  | some r => exact ⟨r, rfl, by simpa [hc] using p⟩

theorem sendingOf_none {s : State} {a h : Nat} {r : Record} (e : s.sendingOf a = none) (k : s.record h = some r)
    (ha : r.address = a) : r.state ≠ .sending := by
  unfold State.sendingOf at e
  rw [List.find?_eq_none] at e
  have := e h (List.mem_range.2 (record_lt k))
  simpa [k, ha] using this

theorem liveOf_some {s : State} {a p h : Nat} (e : s.liveOf a p = some h) :
    ∃ r, s.record h = some r ∧ r.address = a ∧ r.page = p ∧ r.state.isLive = true := by
  have q := List.find?_some e
  cases hc : s.record h with
  | none => simp [hc] at q
  | some r =>
    simp only [hc, Record.hasKey, Bool.and_eq_true, beq_iff_eq] at q
    exact ⟨r, rfl, q.1.1, q.1.2, q.2⟩

theorem liveOf_none {s : State} {a p h : Nat} {r : Record} (e : s.liveOf a p = none) (k : s.record h = some r)
    (ha : r.address = a) (hp : r.page = p) : r.state.isLive = false := by
  unfold State.liveOf at e
  rw [List.find?_eq_none] at e
  have := e h (List.mem_range.2 (record_lt k))
  simpa [k, ha, hp, Record.hasKey] using this

theorem fillingOf_some {s : State} {a p h : Nat} (e : s.fillingOf a p = some h) :
    ∃ r, s.record h = some r ∧ r.address = a ∧ r.page = p ∧ r.state.isFilling = true := by
  have q := List.find?_some e
  cases hc : s.record h with
  | none => simp [hc] at q
  | some r =>
    simp only [hc, Record.hasKey, Bool.and_eq_true, beq_iff_eq] at q
    exact ⟨r, rfl, q.1.1, q.1.2, q.2⟩

theorem fillingOf_none {s : State} {a p h : Nat} {r : Record} (e : s.fillingOf a p = none) (k : s.record h = some r)
    (ha : r.address = a) (hp : r.page = p) : r.state.isFilling = false := by
  unfold State.fillingOf at e
  rw [List.find?_eq_none] at e
  have := e h (List.mem_range.2 (record_lt k))
  simpa [k, ha, hp, Record.hasKey] using this

theorem not_void {x : RecordState} : x ≠ .void ↔ x.isFilling = true ∨ x.isLive = true := by
  cases x <;> simp [RecordState.isFilling, RecordState.isLive]

theorem pinnedCount_le {s t : State} (h : ∀ k r, t.record k = some r → r.pinned = true →
    ∃ q, s.record k = some q ∧ q.pinned = true) : t.pinnedCount ≤ s.pinnedCount := by
  unfold State.pinnedCount
  rw [← List.countP_eq_length_filter, ← List.countP_eq_length_filter]
  refine List.countP_mono_left fun k _ p => ?_
  cases e : t.record k with
  | none => simp [e] at p
  | some r =>
    obtain ⟨q, hq, hp⟩ := h k r e (by simpa [e] using p)
    simp [hq, hp]

/-- A set with one member more, at most, is longer by one at most. -/
theorem filter_succ {p q : Nat → Bool} {j : Nat} (h : ∀ k, p k = true → k = j ∨ q k = true) {l : List Nat}
    (nd : l.Nodup) : (l.filter p).length ≤ (l.filter q).length + 1 := by
  induction l with
  | nil => simp
  | cons k l ih =>
    obtain ⟨nk, nd⟩ := List.nodup_cons.1 nd
    by_cases e : k = j
    · subst e
      have le : (l.filter p).length ≤ (l.filter q).length := by
        rw [← List.countP_eq_length_filter, ← List.countP_eq_length_filter]
        refine List.countP_mono_left fun x m y => ?_
        rcases h x y with rfl | z
        · exact absurd m nk
        · exact z
      rw [List.filter_cons, List.filter_cons]
      split <;> split <;> (try simp only [List.length_cons]) <;> omega
    · have ih := ih nd
      rw [List.filter_cons, List.filter_cons]
      split
      · rename_i y
        rw [if_pos ((h k y).resolve_left e)]
        simp only [List.length_cons]
        omega
      · split
        · simp only [List.length_cons]; omega
        · exact ih

theorem pinnedCount_succ {s t : State} (j : Nat) (h : ∀ k r, t.record k = some r → r.pinned = true →
    k = j ∨ ∃ q, s.record k = some q ∧ q.pinned = true) : t.pinnedCount ≤ s.pinnedCount + 1 := by
  refine filter_succ (j := j) (fun k p => ?_) List.nodup_range
  cases e : t.record k with
  | none => simp [e] at p
  | some r =>
    refine (h k r e (by simpa [e] using p)).imp_right fun ⟨q, hq, hp⟩ => ?_
    simp [hq, hp]

/-! ## The forms, with the entries that are just leaving BOUND named -/

/-- The forms of the directory, the records and the contexts; a SENDING record of an address in `ex` may stand for a
moment beside an entry that is no longer BOUND. -/
structure Forms (ex : Nat → Prop) (s : State) : Prop where
  dir : DirectoryOk s
  ranges : ∀ h r, s.record h = some r → 1 ≤ r.address ∧ r.address ≤ 240 ∧ r.page ≤ 3 ∧ 1 ≤ r.length ∧ r.length ≤ 1024
    ∧ r.blocks.length = (r.length + 255) / 256
  filling : ∀ h k r q, s.record h = some r → s.record k = some q → r.address = q.address → r.page = q.page →
    r.state.isFilling = true → q.state.isFilling = true → h = k
  live : ∀ h k r q, s.record h = some r → s.record k = some q → r.address = q.address → r.page = q.page →
    r.state.isLive = true → q.state.isLive = true → h = k
  owned : ∀ h r, s.record h = some r → r.state ≠ .void → ∃ l, s.entry r.address = .label l
    ∧ l.phase.isReleasing = false ∧ (r.state = .sending → l.phase = .bound ∨ ex r.address)
  single : ∀ h k r q, s.record h = some r → s.record k = some q → r.address = q.address → r.state = .sending →
    q.state = .sending → h = k
  once : s.store.heldOrder.Nodup
  held : ∀ h, h ∈ s.store.heldOrder ↔ ∃ r, s.record h = some r ∧ r.state = .held ∧ r.pinned = false
  pins : s.pinnedCount ≤ Config.maxPinned
  void : ∀ h r, s.record h = some r → r.state = .void → r.pinned = false
  ctx : ContextsOk s

/-- No entry is leaving BOUND. -/
abbrev CellOk (s : State) : Prop := Forms (fun _ => False) s

theorem CellOk.of {s : State} (d : DirectoryOk s) (r : RecordsOk s) (c : ContextsOk s) : CellOk s :=
  ⟨d, r.ranges, r.filling, r.live, fun h x e v => by
    obtain ⟨l, a, b, k⟩ := r.owned h x e v
    exact ⟨l, a, b, fun y => .inl (k y)⟩, r.single, r.once, r.held, r.pins, r.void, c⟩

theorem CellOk.records {s : State} (F : CellOk s) : RecordsOk s :=
  ⟨F.ranges, F.filling, F.live, fun h x e v => by
    obtain ⟨l, a, b, k⟩ := F.owned h x e v
    exact ⟨l, a, b, fun y => (k y).resolve_right id⟩, F.single, F.once, F.held, F.pins, F.void⟩

theorem Forms.mono {p q : Nat → Prop} {s : State} (F : Forms p s) (h : ∀ a, p a → q a) : Forms q s :=
  ⟨F.dir, F.ranges, F.filling, F.live, fun k x e v => by
    obtain ⟨l, a, b, c⟩ := F.owned k x e v
    exact ⟨l, a, b, fun y => (c y).imp id (h _)⟩, F.single, F.once, F.held, F.pins, F.void, F.ctx⟩

/-- Once no record of the addresses named is SENDING, the forms hold outright. -/
theorem Forms.settle {p : Nat → Prop} {s : State} (F : Forms p s)
    (h : ∀ k r, s.record k = some r → p r.address → r.state ≠ .sending) : CellOk s :=
  ⟨F.dir, F.ranges, F.filling, F.live, fun k x e v => by
    obtain ⟨l, a, b, c⟩ := F.owned k x e v
    exact ⟨l, a, b, fun y => (c y).imp id fun z => h k x e z y⟩, F.single, F.once, F.held, F.pins, F.void, F.ctx⟩

theorem DirectoryOk.same {s t : State} (D : DirectoryOk s) (he : ∀ b, t.entry b = s.entry b)
    (ha : t.directory.admission = s.directory.admission) : DirectoryOk t where
  ids := by simpa only [he] using D.ids
  room := by rw [ha]; exact D.room
  listed := by rw [ha]; exact D.listed
  apart := by rw [ha]; simpa only [he] using D.apart
  labels := by simpa only [he] using D.labels

theorem ContextsOk.same {s t : State} (C : ContextsOk s) (hr : ∀ h, t.record h = s.record h)
    (hc : ∀ i, t.context i = s.context i) : ContextsOk t where
  tied := by simpa only [hr, hc] using C.tied
  apart := by simpa only [hc] using C.apart
  carried := by simpa only [hr, hc] using C.carried
  counts := by simpa only [hc] using C.counts
  sets := by simpa only [hr, hc] using C.sets

theorem pinnedCount_same {s t : State} (hr : ∀ h, t.record h = s.record h) : t.pinnedCount = s.pinnedCount := by
  unfold State.pinnedCount
  simp only [hr]

/-- The forms with another directory. -/
theorem Forms.withDir {p q : Nat → Prop} {s t : State} (F : Forms p s) (D : DirectoryOk t)
    (ho : ∀ h r, s.record h = some r → r.state ≠ .void → ∃ l, t.entry r.address = .label l
      ∧ l.phase.isReleasing = false ∧ (r.state = .sending → l.phase = .bound ∨ q r.address))
    (hr : ∀ h, t.record h = s.record h) (hh : t.store.heldOrder = s.store.heldOrder)
    (hc : ∀ i, t.context i = s.context i) : Forms q t where
  dir := D
  ranges := by simpa only [hr] using F.ranges
  filling := by simpa only [hr] using F.filling
  live := by simpa only [hr] using F.live
  owned := by simpa only [hr] using ho
  single := by simpa only [hr] using F.single
  once := by rw [hh]; exact F.once
  held := by rw [hh]; simpa only [hr] using F.held
  pins := by rw [pinnedCount_same hr]; exact F.pins
  void := by simpa only [hr] using F.void
  ctx := F.ctx.same hr hc

/-- An operation that leaves the entries, the admission list, the records, their order and the contexts. -/
theorem Forms.same {p : Nat → Prop} {s t : State} (F : Forms p s) (he : t.directory.entries = s.directory.entries)
    (ha : t.directory.admission = s.directory.admission) (hr : t.store.records = s.store.records)
    (hh : t.store.heldOrder = s.store.heldOrder) (hc : t.contexts = s.contexts) : Forms p t := by
  have he : ∀ b, t.entry b = s.entry b := fun b => by unfold State.entry; rw [he]
  have hr : ∀ h, t.record h = s.record h := fun b => by unfold State.record; rw [hr]
  have hc : ∀ i, t.context i = s.context i := fun b => by unfold State.context; rw [hc]
  exact F.withDir (F.dir.same he ha) (by simpa only [he] using F.owned) hr hh hc

/-! ## Entries -/

/-- An entry that holds a label's fields takes others of the same long id. -/
theorem DirectoryOk.setLabel {s : State} (D : DirectoryOk s) {a : Nat} {l m : Label} (e : s.entry a = .label l)
    (id : m.longId = l.longId) (ok : LabelOk m) : DirectoryOk (s.setEntry a (.label m)) := by
  have key : ∀ b, ((s.setEntry a (.label m)).entry b).longId = (s.entry b).longId := by
    intro b
    rw [entry_setEntry]
    split
    · rename_i h
      rw [h.1, e]
      simp [Entry.longId, id]
    · rfl
  refine ⟨by simpa only [key] using D.ids, ?_, ?_, ?_, ?_⟩
  · have : (s.setEntry a (.label m)).directory.admission = s.directory.admission := by
      unfold State.setEntry; split <;> rfl
    rw [this]; exact D.room
  · have : (s.setEntry a (.label m)).directory.admission = s.directory.admission := by
      unfold State.setEntry; split <;> rfl
    rw [this]; exact D.listed
  · have : (s.setEntry a (.label m)).directory.admission = s.directory.admission := by
      unfold State.setEntry; split <;> rfl
    rw [this]; simpa only [key] using D.apart
  · intro b k hk
    rw [entry_setEntry] at hk
    split at hk
    · cases hk; exact ok
    · exact D.labels b k hk

theorem record_setEntry (s : State) (a h : Nat) (e : Entry) : (s.setEntry a e).record h = s.record h := by
  unfold State.record; rw [setEntry_store]

theorem context_setEntry (s : State) (a i : Nat) (e : Entry) : (s.setEntry a e).context i = s.context i := by
  unfold State.context; rw [setEntry_contexts]

/-- An entry's fields change and its phase with them. -/
theorem Forms.setLabel {p q : Nat → Prop} {s : State} (F : Forms p s) {a : Nat} {l m : Label}
    (e : s.entry a = .label l) (id : m.longId = l.longId) (ok : LabelOk m)
    (rel : m.phase.isReleasing = true → ∀ h r, s.record h = some r → r.address = a → r.state = .void)
    (snd : m.phase = .bound ∨ q a ∨ ∀ h r, s.record h = some r → r.address = a → r.state ≠ .sending)
    (mono : ∀ b, b ≠ a → p b → q b) : Forms q (s.setEntry a (.label m)) := by
  have ra := entry_range (s := s) (a := a) (by rw [e]; simp)
  refine F.withDir (F.dir.setLabel e id ok) ?_ (record_setEntry s a · _) (by rw [setEntry_store]) (context_setEntry s a · _)
  intro h r hr hv
  obtain ⟨k, he, hk, hb⟩ := F.owned h r hr hv
  rw [entry_setEntry]
  by_cases x : r.address = a
  · rw [if_pos ⟨x, ra⟩]
    refine ⟨m, rfl, ?_, fun y => ?_⟩
    · cases z : m.phase.isReleasing
      · rfl
      · exact absurd (rel z h r hr x) hv
    · rw [x]
      rcases snd with z | z | z
      · exact .inl z
      · exact .inr z
      · exact absurd y (z h r hr x)
  · rw [if_neg (fun c => x c.1)]
    exact ⟨k, he, hk, fun y => (hb y).imp_right (mono _ x)⟩

/-- The fields of an entry change and its phase stays. -/
theorem Forms.label {p : Nat → Prop} {s : State} (F : Forms p s) (a : Nat) (f : Label → Label)
    (h : ∀ l, s.entry a = .label l → (f l).longId = l.longId ∧ (f l).phase = l.phase ∧ LabelOk (f l)) :
    Forms p (s.updateLabel a f) := by
  unfold State.updateLabel
  split
  · rename_i l hl
    have e := label_entry hl
    obtain ⟨h1, h2, h3⟩ := h l e
    refine F.setLabel e h1 h3 ?_ ?_ (fun _ _ => id)
    · intro x k r hr ha
      by_contra c
      obtain ⟨m, he, hm, _⟩ := F.owned k r hr c
      rw [ha, e] at he
      cases he
      rw [← h2, x] at hm
      cases hm
    · by_cases b : (f l).phase = .bound
      · exact .inl b
      · by_cases y : p a
        · exact .inr (.inl y)
        · refine .inr (.inr fun k r hr ha c => ?_)
          obtain ⟨m, he, _, hm⟩ := F.owned k r hr (by rw [c]; simp)
          rw [ha, e] at he
          cases he
          rcases hm c with hm | hm
          · exact b (h2.trans hm)
          · rw [ha] at hm; exact y hm
  · exact F

/-- An entry gives up its label's fields once every record of its address is gone or VOID. -/
theorem Forms.clear {p : Nat → Prop} {s : State} (F : Forms p s) {a : Nat} {e : Entry}
    (id : e.longId = (s.entry a).longId ∨ e.longId = none) (nl : ∀ l, e ≠ .label l)
    (gone : ∀ h r, s.record h = some r → r.address = a → r.state = .void) : Forms p (s.setEntry a e) := by
  have key : ∀ b x, ((s.setEntry a e).entry b).longId = some x → (s.entry b).longId = some x := by
    intro b x hx
    rw [entry_setEntry] at hx
    split at hx
    · rename_i h
      rw [h.1]
      rcases id with id | id
      · rw [← id]; exact hx
      · rw [id] at hx; cases hx
    · exact hx
  have adm : (s.setEntry a e).directory.admission = s.directory.admission := by
    unfold State.setEntry; split <;> rfl
  refine F.withDir ⟨?_, ?_, ?_, ?_, ?_⟩ ?_ (record_setEntry s a · _) (by rw [setEntry_store]) (context_setEntry s a · _)
  · exact fun b c x hb hc => F.dir.ids b c x (key b x hb) (key c x hc)
  · rw [adm]; exact F.dir.room
  · rw [adm]; exact F.dir.listed
  · rw [adm]
    exact fun x hx b hb => F.dir.apart x hx b (key b _ hb)
  · intro b l hl
    rw [entry_setEntry] at hl
    split at hl
    · exact absurd hl (nl l)
    · exact F.dir.labels b l hl
  · intro h r hr hv
    obtain ⟨k, he, hk, hb⟩ := F.owned h r hr hv
    rw [entry_setEntry, if_neg (fun c => hv (gone h r hr c.1))]
    exact ⟨k, he, hk, hb⟩

/-- A VACANT entry takes the fields of a label whose long id no entry holds and no list entry carries. -/
theorem Forms.create {p : Nat → Prop} {s : State} (F : Forms p s) {a : Nat} {m : Label} (e : s.entry a = .vacant)
    (new : ∀ b, (s.entry b).longId ≠ some m.longId) (off : ∀ x ∈ s.directory.admission, x.longId ≠ m.longId)
    (ok : LabelOk m) : Forms p (s.setEntry a (.label m)) := by
  have key : ∀ b x, ((s.setEntry a (.label m)).entry b).longId = some x →
      (b = a ∧ x = m.longId) ∨ (s.entry b).longId = some x := by
    intro b x hx
    rw [entry_setEntry] at hx
    split at hx
    · rename_i h
      exact .inl ⟨h.1, by simpa [Entry.longId] using hx.symm⟩
    · exact .inr hx
  have adm : (s.setEntry a (.label m)).directory.admission = s.directory.admission := by
    unfold State.setEntry; split <;> rfl
  refine F.withDir ⟨?_, ?_, ?_, ?_, ?_⟩ ?_ (record_setEntry s a · _) (by rw [setEntry_store]) (context_setEntry s a · _)
  · intro b c x hb hc
    rcases key b x hb with ⟨hb1, hb2⟩ | hb'
    · rcases key c x hc with ⟨hc1, _⟩ | hc'
      · exact hb1.trans hc1.symm
      · exact absurd (hb2 ▸ hc') (new c)
    · rcases key c x hc with ⟨_, hc2⟩ | hc'
      · exact absurd (hc2 ▸ hb') (new b)
      · exact F.dir.ids b c x hb' hc'
  · rw [adm]; exact F.dir.room
  · rw [adm]; exact F.dir.listed
  · rw [adm]
    intro x hx b hb
    rcases key b _ hb with ⟨_, h⟩ | hb
    · exact off x hx h
    · exact F.dir.apart x hx b hb
  · intro b l hl
    rw [entry_setEntry] at hl
    split at hl
    · cases hl; exact ok
    · exact F.dir.labels b l hl
  · intro h r hr hv
    obtain ⟨k, he, hk, hb⟩ := F.owned h r hr hv
    rw [entry_setEntry, if_neg]
    · exact ⟨k, he, hk, hb⟩
    · rintro ⟨c, _⟩
      rw [c, e] at he
      cases he

/-- The admission list changes. -/
theorem Forms.admission {p : Nat → Prop} {s : State} (F : Forms p s) {q : List Asking}
    (room : q.length ≤ Config.admissionPlaces) (once : (q.map Asking.longId).Nodup)
    (apart : ∀ x ∈ q, ∀ a, (s.entry a).longId ≠ some x.longId) : Forms p (s.setAdmission q) :=
  F.withDir ⟨F.dir.ids, room, once, apart, F.dir.labels⟩ F.owned (fun _ => rfl) rfl (fun _ => rfl)

/-- List entries leave, and the others keep their long ids. -/
theorem Forms.admissionSub {p : Nat → Prop} {s : State} (F : Forms p s) {q : List Asking}
    (sub : (q.map Asking.longId).Sublist (s.directory.admission.map Asking.longId)) : Forms p (s.setAdmission q) := by
  refine F.admission ?_ (F.dir.listed.sublist sub) ?_
  · have := sub.length_le
    simp only [List.length_map] at this
    exact this.trans F.dir.room
  · intro x hx a ha
    have m := sub.subset (List.mem_map_of_mem hx)
    obtain ⟨y, hy, e⟩ := List.mem_map.1 m
    exact F.dir.apart y hy a (by rw [ha, e])

/-! ## Contexts -/

/-- Freeing the context of a record frees that one and no other. -/
theorem freeContextOf_spec {s : State}
    (ap : ∀ i j c d, s.context i = some c → s.context j = some d → c.handle = d.handle → i = j) (h : Nat) :
    (∀ i c, (s.freeContextOf h).context i = some c → s.context i = some c ∧ c.handle ≠ h)
      ∧ ∀ i c, s.context i = some c → c.handle ≠ h → (s.freeContextOf h).context i = some c := by
  unfold State.freeContextOf
  cases e : s.contextOf h with
  | none => exact ⟨fun i c k => ⟨k, contextOf_none e k⟩, fun i c k _ => k⟩
  | some j =>
    obtain ⟨d, hd, dh⟩ := contextOf_some e
    have lt := context_lt hd
    dsimp only
    refine ⟨fun i c k => ?_, fun i c k n => ?_⟩
    · rw [context_setContext] at k
      split at k
      · cases k
      · rename_i x
        refine ⟨k, fun y => x ⟨?_, lt⟩⟩
        exact ap i j c d k hd (y.trans dh.symm)
    · rw [context_setContext, if_neg]
      · exact k
      · rintro ⟨rfl, _⟩
        rw [hd] at k
        cases k
        exact n dh

/-- A record changes, or goes, and the contexts tied to it go with it. -/
theorem ContextsOk.drop {s t : State} (C : ContextsOk s) {h : Nat} {o : Option Record}
    (hr : ∀ k, t.record k = if k = h then o else s.record k) (ns : ∀ r, o = some r → r.state ≠ .sending)
    (gone : ∀ i c, t.context i = some c → s.context i = some c ∧ c.handle ≠ h)
    (stay : ∀ i c, s.context i = some c → c.handle ≠ h → t.context i = some c) : ContextsOk t where
  tied := fun i c e => by
    obtain ⟨e, n⟩ := gone i c e
    rw [hr, if_neg n]
    exact C.tied i c e
  apart := fun i j c d e f x => C.apart i j c d (gone i c e).1 (gone j d f).1 x
  carried := fun k r e x => by
    rw [hr] at e
    split at e
    · exact absurd x (ns r e)
    · rename_i n
      obtain ⟨i, c, f, y⟩ := C.carried k r e x
      exact ⟨i, c, stay i c f (by rw [y]; exact n), y⟩
  counts := fun i c e => C.counts i c (gone i c e).1
  sets := fun i c r e f => by
    obtain ⟨e, n⟩ := gone i c e
    rw [hr, if_neg n] at f
    exact C.sets i c r e f

/-- A record changes and the contexts stay. -/
theorem ContextsOk.keep {s t : State} (C : ContextsOk s) {h : Nat} {r q : Record} (e : s.record h = some r)
    (hr : ∀ k, t.record k = if k = h then some q else s.record k) (shape : SameShape r q)
    (sv : r.state = .sending ∨ r.state = .void → q.state = .sending ∨ q.state = .void)
    (sn : q.state = .sending → r.state = .sending) (hc : ∀ i, t.context i = s.context i) : ContextsOk t where
  tied := fun i c f => by
    rw [hc] at f
    obtain ⟨x, hx, ax, sx⟩ := C.tied i c f
    rw [hr]
    by_cases n : c.handle = h
    · rw [n, e] at hx
      cases hx
      rw [if_pos n]
      exact ⟨q, rfl, shape.address.trans ax, sv sx⟩
    · rw [if_neg n]
      exact ⟨x, hx, ax, sx⟩
  apart := by simpa only [hc] using C.apart
  carried := fun k x f y => by
    rw [hr] at f
    simp only [hc]
    split at f
    · rename_i n
      cases f
      exact n ▸ C.carried h r e (sn y)
    · exact C.carried k x f y
  counts := by simpa only [hc] using C.counts
  sets := fun i c x f g => by
    rw [hc] at f
    rw [hr] at g
    split at g
    · rename_i n
      cases g
      rw [shape.length]
      exact C.sets i c r f (by rw [n]; exact e)
    · exact C.sets i c x f g

/-- A context's fields change and it stays tied as it was. -/
theorem ContextsOk.put {s : State} (C : ContextsOk s) {i : Nat} {c d : Context} (e : s.context i = some c)
    (h : d.handle = c.handle) (a : d.address = c.address) (n : d.stallCount ≤ 15 ∧ d.busyCount ≤ 8)
    (k : ∀ r, s.record c.handle = some r → ∀ f, f ∈ d.confirmed ∨ f ∈ d.sentThisRound →
      (f ∈ c.confirmed ∨ f ∈ c.sentThisRound) ∨ f < (r.length + 47) / 48) :
    ContextsOk (s.setContext i (some d)) where
  tied := fun j x f => by
    rw [context_setContext] at f
    split at f
    · cases f
      rw [h, a]
      exact C.tied i c e
    · exact C.tied j x f
  apart := fun j k x y f g z => by
    rw [context_setContext] at f g
    have lt := context_lt e
    split at f
    · rename_i n
      cases f
      split at g
      · rename_i m
        exact n.1.trans m.1.symm
      · exact n.1.trans (C.apart i k c y e g (h.symm.trans z))
    · split at g
      · rename_i m
        cases g
        exact (C.apart j i x c f e (z.trans h)).trans m.1.symm
      · exact C.apart j k x y f g z
  carried := fun k r f g => by
    obtain ⟨j, x, hx, y⟩ := C.carried k r f g
    by_cases n : j = i
    · subst n
      rw [e] at hx
      cases hx
      exact ⟨j, d, by rw [context_setContext, if_pos ⟨rfl, context_lt e⟩], h.trans y⟩
    · exact ⟨j, x, by rw [context_setContext, if_neg (fun c => n c.1)]; exact hx, y⟩
  counts := fun j x f => by
    rw [context_setContext] at f
    split at f
    · cases f; exact n
    · exact C.counts j x f
  sets := fun j x r f g y m => by
    rw [context_setContext] at f
    split at f
    · cases f
      rw [h] at g
      exact (k r g y m).elim (C.sets i c r e g y) id
    · exact C.sets j x r f g y m

theorem Forms.withContexts {p : Nat → Prop} {s t : State} (F : Forms p s) (C : ContextsOk t)
    (hd : t.directory = s.directory) (hs : t.store = s.store) : Forms p t := by
  have he : ∀ b, t.entry b = s.entry b := fun b => by unfold State.entry; rw [hd]
  have hr : ∀ h, t.record h = s.record h := fun b => by unfold State.record; rw [hs]
  exact ⟨F.dir.same he (by rw [hd]), by simpa only [hr] using F.ranges, by simpa only [hr] using F.filling,
    by simpa only [hr] using F.live, by simpa only [hr, he] using F.owned, by simpa only [hr] using F.single,
    by rw [hs]; exact F.once, by rw [hs]; simpa only [hr] using F.held, by rw [pinnedCount_same hr]; exact F.pins,
    by simpa only [hr] using F.void, C⟩

theorem Forms.setContext {p : Nat → Prop} {s : State} (F : Forms p s) {i : Nat} {c d : Context}
    (e : s.context i = some c) (h : d.handle = c.handle) (a : d.address = c.address)
    (n : d.stallCount ≤ 15 ∧ d.busyCount ≤ 8)
    (k : ∀ r, s.record c.handle = some r → ∀ f, f ∈ d.confirmed ∨ f ∈ d.sentThisRound →
      (f ∈ c.confirmed ∨ f ∈ c.sentThisRound) ∨ f < (r.length + 47) / 48) :
    Forms p (s.setContext i (some d)) := F.withContexts (F.ctx.put e h a n k) rfl rfl

/-- Marks of a context change, not its counts, and its sets keep within what they held. -/
theorem Forms.markContext {p : Nat → Prop} {s : State} (F : Forms p s) {i : Nat} {c d : Context}
    (e : s.context i = some c) (h : d.handle = c.handle) (a : d.address = c.address)
    (n : d.stallCount = c.stallCount ∧ d.busyCount = c.busyCount)
    (k : d.confirmed = c.confirmed ∧ (d.sentThisRound = c.sentThisRound ∨ d.sentThisRound = [])) :
    Forms p (s.setContext i (some d)) :=
  F.setContext e h a (by rw [n.1, n.2]; exact F.ctx.counts i c e) fun r _ f m => by
    rw [k.1] at m
    rcases k.2 with x | x
    · rw [x] at m; exact .inl m
    · rw [x] at m; exact .inl (m.imp_right (by simp))

/-! ## Records -/

/-- A record changes its state and its marks, and the HELD order and the contexts with it; it may become live where its
key has no live record. -/
theorem Forms.replace {p : Nat → Prop} {s t : State} (F : Forms p s) {h : Nat} {r q : Record}
    (e : s.record h = some r) (hr : ∀ k, t.record k = if k = h then some q else s.record k)
    (hd : t.directory = s.directory) (shape : SameShape r q)
    (fil : q.state.isFilling = true → r.state.isFilling = true)
    (liv : q.state.isLive = true → r.state.isLive = true ∨ ∀ k x, s.record k = some x → x.address = r.address →
      x.page = r.page → x.state.isLive = false)
    (rv : q.state ≠ .void → r.state ≠ .void)
    (snd : q.state = .sending → r.state = .sending ∨ ((∃ l, s.entry r.address = .label l ∧ l.phase = .bound)
      ∧ ∀ k x, s.record k = some x → x.address = r.address → x.state ≠ .sending))
    (pins : t.pinnedCount ≤ Config.maxPinned) (vd : q.state = .void → q.pinned = false)
    (once : t.store.heldOrder.Nodup)
    (held : ∀ x, x ∈ t.store.heldOrder ↔ if x = h then (q.state = .held ∧ q.pinned = false) else x ∈ s.store.heldOrder)
    (C : ContextsOk t) : Forms p t := by
  have he : ∀ b, t.entry b = s.entry b := fun b => by unfold State.entry; rw [hd]
  have only : ∀ k x, t.record k = some x → (k = h ∧ x = q) ∨ (k ≠ h ∧ s.record k = some x) := by
    intro k x f
    rw [hr] at f
    split at f
    · rename_i n; cases f; exact .inl ⟨n, rfl⟩
    · rename_i n; exact .inr ⟨n, f⟩
  refine ⟨F.dir.same he (by rw [hd]), ?_, ?_, ?_, ?_, ?_, once, ?_, pins, ?_, C⟩
  · intro k x f
    rcases only k x f with ⟨rfl, rfl⟩ | ⟨_, f⟩
    · rw [shape.address, shape.page, shape.length, shape.blocks]
      exact F.ranges k r e
    · exact F.ranges k x f
  · intro j k x y f g a b c d
    rcases only j x f with ⟨rfl, rfl⟩ | ⟨_, f⟩ <;> rcases only k y g with ⟨rfl, rfl⟩ | ⟨_, g⟩
    · rfl
    · exact F.filling j k r y e g (shape.address ▸ a) (shape.page ▸ b) (fil c) d
    · exact F.filling j k x r f e (shape.address ▸ a) (shape.page ▸ b) c (fil d)
    · exact F.filling j k x y f g a b c d
  · intro j k x y f g a b c d
    rcases only j x f with ⟨rfl, rfl⟩ | ⟨_, f⟩ <;> rcases only k y g with ⟨rfl, rfl⟩ | ⟨_, g⟩
    · rfl
    · rcases liv c with z | z
      · exact F.live j k r y e g (shape.address ▸ a) (shape.page ▸ b) z d
      · rw [z k y g (a.symm.trans shape.address) (b.symm.trans shape.page)] at d
        cases d
    · rcases liv d with z | z
      · exact F.live j k x r f e (shape.address ▸ a) (shape.page ▸ b) c z
      · rw [z j x f (a.trans shape.address) (b.trans shape.page)] at c
        cases c
    · exact F.live j k x y f g a b c d
  · intro k x f v
    rw [he]
    rcases only k x f with ⟨rfl, rfl⟩ | ⟨_, f⟩
    · obtain ⟨l, hl, nl, bl⟩ := F.owned k r e (rv v)
      rw [shape.address]
      refine ⟨l, hl, nl, fun z => ?_⟩
      rcases snd z with z | ⟨⟨m, hm, bm⟩, _⟩
      · exact bl z
      · rw [hl] at hm; cases hm; exact .inl bm
    · exact F.owned k x f v
  · intro j k x y f g a b c
    rcases only j x f with ⟨rfl, rfl⟩ | ⟨_, f⟩ <;> rcases only k y g with ⟨rfl, rfl⟩ | ⟨_, g⟩
    · rfl
    · rcases snd b with z | ⟨_, z⟩
      · exact F.single j k r y e g (shape.address ▸ a) z c
      · exact absurd c (z k y g (a.symm.trans shape.address))
    · rcases snd c with z | ⟨_, z⟩
      · exact F.single j k x r f e (shape.address ▸ a) b z
      · exact absurd b (z j x f (a.trans shape.address))
    · exact F.single j k x y f g a b c
  · intro x
    rw [held, hr]
    split
    · simp
    · exact F.held x
  · intro k x f v
    rcases only k x f with ⟨rfl, rfl⟩ | ⟨_, f⟩
    · exact vd v
    · exact F.void k x f v

/-- A record changes its state and its marks, and the HELD order and the contexts with it. -/
theorem Forms.change {p : Nat → Prop} {s t : State} (F : Forms p s) {h : Nat} {r q : Record}
    (e : s.record h = some r) (hr : ∀ k, t.record k = if k = h then some q else s.record k)
    (hd : t.directory = s.directory) (shape : SameShape r q)
    (fil : q.state.isFilling = true → r.state.isFilling = true)
    (liv : q.state.isLive = true → r.state.isLive = true)
    (snd : q.state = .sending → r.state = .sending ∨ ((∃ l, s.entry r.address = .label l ∧ l.phase = .bound)
      ∧ ∀ k x, s.record k = some x → x.address = r.address → x.state ≠ .sending))
    (pins : t.pinnedCount ≤ Config.maxPinned) (vd : q.state = .void → q.pinned = false)
    (once : t.store.heldOrder.Nodup)
    (held : ∀ x, x ∈ t.store.heldOrder ↔ if x = h then (q.state = .held ∧ q.pinned = false) else x ∈ s.store.heldOrder)
    (C : ContextsOk t) : Forms p t :=
  F.replace e hr hd shape fil (fun c => .inl (liv c)) (fun v => not_void.2 ((not_void.1 v).imp fil liv)) snd pins vd once
    held C

/-- A record is freed. -/
theorem Forms.free {p : Nat → Prop} {s t : State} (F : Forms p s) {h : Nat}
    (hr : ∀ k, t.record k = if k = h then none else s.record k) (hd : t.directory = s.directory)
    (ho : t.store.heldOrder = s.store.heldOrder.filter fun x => x != h) (C : ContextsOk t) : Forms p t := by
  have he : ∀ b, t.entry b = s.entry b := fun b => by unfold State.entry; rw [hd]
  have only : ∀ k x, t.record k = some x → k ≠ h ∧ s.record k = some x := by
    intro k x f
    rw [hr] at f
    split at f
    · cases f
    · rename_i n; exact ⟨n, f⟩
  refine ⟨F.dir.same he (by rw [hd]), fun k x f => F.ranges k x (only k x f).2, ?_, ?_, ?_, ?_, ?_, ?_, ?_, ?_, C⟩
  · exact fun j k x y f g => F.filling j k x y (only j x f).2 (only k y g).2
  · exact fun j k x y f g => F.live j k x y (only j x f).2 (only k y g).2
  · intro k x f v
    rw [he]
    exact F.owned k x (only k x f).2 v
  · exact fun j k x y f g => F.single j k x y (only j x f).2 (only k y g).2
  · rw [ho]; exact F.once.filter _
  · intro x
    rw [ho, hr, List.mem_filter, F.held]
    split
    · rename_i n; simp [n]
    · rename_i n; simp [n]
  · exact (pinnedCount_le fun k x f q => ⟨x, (only k x f).2, q⟩).trans F.pins
  · exact fun k x f => F.void k x (only k x f).2

/-- A free slot takes a new FILLING record of a key that has none. -/
theorem Forms.new {p : Nat → Prop} {s t : State} (F : Forms p s) {h : Nat} {q : Record} (free : s.record h = none)
    (hr : ∀ k, t.record k = if k = h then some q else s.record k) (hd : t.directory = s.directory)
    (ho : t.store.heldOrder = s.store.heldOrder) (hc : t.contexts = s.contexts) (fil : q.state = .filling [])
    (pin : q.pinned = false)
    (ranges : 1 ≤ q.address ∧ q.address ≤ 240 ∧ q.page ≤ 3 ∧ 1 ≤ q.length ∧ q.length ≤ 1024
      ∧ q.blocks.length = (q.length + 255) / 256)
    (own : ∃ l, s.entry q.address = .label l ∧ l.phase.isReleasing = false)
    (only : ∀ k x, s.record k = some x → x.address = q.address → x.page = q.page → x.state.isFilling = false) :
    Forms p t := by
  have he : ∀ b, t.entry b = s.entry b := fun b => by unfold State.entry; rw [hd]
  have hx : ∀ i, t.context i = s.context i := fun i => by unfold State.context; rw [hc]
  have cases' : ∀ k x, t.record k = some x → (k = h ∧ x = q) ∨ (k ≠ h ∧ s.record k = some x) := by
    intro k x f
    rw [hr] at f
    split at f
    · rename_i n; cases f; exact .inl ⟨n, rfl⟩
    · rename_i n; exact .inr ⟨n, f⟩
  have old : ∀ k x, s.record k = some x → k ≠ h := fun k x f n => by rw [n, free] at f; cases f
  refine ⟨F.dir.same he (by rw [hd]), ?_, ?_, ?_, ?_, ?_, by rw [ho]; exact F.once, ?_, ?_, ?_, ?_⟩
  · intro k x f
    rcases cases' k x f with ⟨rfl, rfl⟩ | ⟨_, f⟩
    · exact ranges
    · exact F.ranges k x f
  · intro j k x y f g a b c d
    rcases cases' j x f with ⟨rfl, rfl⟩ | ⟨_, f⟩ <;> rcases cases' k y g with ⟨rfl, rfl⟩ | ⟨_, g⟩
    · rfl
    · rw [only k y g a.symm b.symm] at d; cases d
    · rw [only j x f a b] at c; cases c
    · exact F.filling j k x y f g a b c d
  · intro j k x y f g a b c d
    rcases cases' j x f with ⟨rfl, rfl⟩ | ⟨_, f⟩ <;> rcases cases' k y g with ⟨rfl, rfl⟩ | ⟨_, g⟩
    · rfl
    · rw [fil] at c; cases c
    · rw [fil] at d; cases d
    · exact F.live j k x y f g a b c d
  · intro k x f v
    rw [he]
    rcases cases' k x f with ⟨rfl, rfl⟩ | ⟨_, f⟩
    · obtain ⟨l, hl, nl⟩ := own
      exact ⟨l, hl, nl, fun z => by rw [fil] at z; cases z⟩
    · exact F.owned k x f v
  · intro j k x y f g a b c
    rcases cases' j x f with ⟨rfl, rfl⟩ | ⟨_, f⟩ <;> rcases cases' k y g with ⟨rfl, rfl⟩ | ⟨_, g⟩
    · rfl
    · rw [fil] at b; cases b
    · rw [fil] at c; cases c
    · exact F.single j k x y f g a b c
  · intro x
    rw [ho, hr, F.held]
    split
    · rename_i n
      subst n
      simp [free, fil]
    · rfl
  · refine (pinnedCount_le fun k x f y => ?_).trans F.pins
    rcases cases' k x f with ⟨rfl, rfl⟩ | ⟨_, f⟩
    · rw [pin] at y; cases y
    · exact ⟨x, f, y⟩
  · intro k x f v
    rcases cases' k x f with ⟨rfl, rfl⟩ | ⟨_, f⟩
    · rw [fil] at v; cases v
    · exact F.void k x f v
  · refine ⟨fun i c e => ?_, by simpa only [hx] using F.ctx.apart, fun k x f g => ?_,
      by simpa only [hx] using F.ctx.counts, fun i c x e f => ?_⟩
    · rw [hx] at e
      obtain ⟨r, a, b⟩ := F.ctx.tied i c e
      refine ⟨r, ?_, b⟩
      rw [hr, if_neg (old _ r a)]
      exact a
    · rcases cases' k x f with ⟨rfl, rfl⟩ | ⟨_, f⟩
      · rw [fil] at g; cases g
      · simp only [hx]
        exact F.ctx.carried k x f g
    · rw [hx] at e
      rcases cases' _ x f with ⟨n, _⟩ | ⟨_, f⟩
      · obtain ⟨r, a, _⟩ := F.ctx.tied i c e
        rw [n, free] at a
        cases a
      · exact F.ctx.sets i c x e f

/-- A READY record of a BOUND entry that has no SENDING record is claimed, with a free context (R118, R154). -/
theorem Forms.claimed {p : Nat → Prop} {s t : State} (F : Forms p s) {h i : Nat} {r q : Record} {c : Context}
    (e : s.record h = some r) (n : r.state = .ready) (hr : ∀ k, t.record k = if k = h then some q else s.record k)
    (shape : SameShape r q) (qs : q.state = .sending) (pin : q.pinned = r.pinned)
    (hd : t.directory = s.directory) (ho : t.store.heldOrder = s.store.heldOrder)
    (free : s.context i = none) (hc : ∀ j, t.context j = if j = i then some c else s.context j)
    (cn : c = newContext h r.address)
    (bound : ∃ l, s.entry r.address = .label l ∧ l.phase = .bound)
    (alone : ∀ k x, s.record k = some x → x.address = r.address → x.state ≠ .sending) : Forms p t := by
  have ch : c.handle = h := by rw [cn]; rfl
  have ca : c.address = r.address := by rw [cn]; rfl
  have off : ∀ j d, s.context j = some d → d.handle ≠ h := by
    intro j d f m
    obtain ⟨x, hx, _, sx⟩ := F.ctx.tied j d f
    rw [m, e] at hx
    cases hx
    rw [n] at sx
    simp at sx
  have split' : ∀ j d, t.context j = some d → (j = i ∧ d = c) ∨ (j ≠ i ∧ s.context j = some d) := by
    intro j d f
    rw [hc] at f
    split at f
    · rename_i m; cases f; exact .inl ⟨m, rfl⟩
    · rename_i m; exact .inr ⟨m, f⟩
  have nh : h ∉ s.store.heldOrder := by
    intro m
    obtain ⟨x, hx, a, _⟩ := (F.held h).1 m
    rw [e] at hx
    cases hx
    rw [n] at a
    cases a
  refine F.change e hr hd shape (fun z => by rw [qs] at z; cases z) (fun _ => by rw [n]; rfl)
    (fun _ => .inr ⟨bound, alone⟩) ?_ (fun z => by rw [qs] at z; cases z) (by rw [ho]; exact F.once) ?_ ⟨?_, ?_, ?_, ?_, ?_⟩
  · refine (pinnedCount_le fun k x f y => ?_).trans F.pins
    rw [hr] at f
    split at f
    · rename_i z
      cases f
      exact ⟨r, z ▸ e, pin ▸ y⟩
    · exact ⟨x, f, y⟩
  · intro x
    rw [ho]
    split
    · rename_i k
      subst k
      simp [nh, qs]
    · rfl
  · intro j d f
    rcases split' j d f with ⟨_, rfl⟩ | ⟨_, f⟩
    · exact ⟨q, by rw [hr, if_pos ch], shape.address.trans ca.symm, .inl qs⟩
    · obtain ⟨x, hx, b⟩ := F.ctx.tied j d f
      exact ⟨x, by rw [hr, if_neg (off j d f)]; exact hx, b⟩
  · intro j k x y f g z
    rcases split' j x f with ⟨rfl, rfl⟩ | ⟨_, f⟩ <;> rcases split' k y g with ⟨rfl, rfl⟩ | ⟨_, g⟩
    · rfl
    · exact absurd (z.symm.trans ch) (off k y g)
    · exact absurd (z.trans ch) (off j x f)
    · exact F.ctx.apart j k x y f g z
  · intro k x f g
    rw [hr] at f
    split at f
    · rename_i m
      exact ⟨i, c, by rw [hc, if_pos rfl], ch.trans m.symm⟩
    · obtain ⟨j, d, hj, m⟩ := F.ctx.carried k x f g
      refine ⟨j, d, ?_, m⟩
      rw [hc, if_neg]
      · exact hj
      · rintro rfl
        rw [free] at hj
        cases hj
  · intro j d f
    rcases split' j d f with ⟨_, rfl⟩ | ⟨_, f⟩
    · rw [cn]; exact ⟨Nat.zero_le _, Nat.zero_le _⟩
    · exact F.ctx.counts j d f
  · intro j d x f g y m
    rcases split' j d f with ⟨_, rfl⟩ | ⟨_, f⟩
    · rw [cn] at m
      simp [newContext] at m
    · rw [hr, if_neg (off j d f)] at g
      exact F.ctx.sets j d x f g y m

end Sys2Proof.Machine
end

