-- ==== Sys2Proof/Laws/Kept.lean ====
section
/-! SUPPORT. Every operation of the cell keeps the forms of the directory, the records and the contexts: one lemma for
each operation, with what it needs where it needs something. -/

namespace Sys2Proof.Machine

variable {p : Nat → Prop} {s : State}

/-! ## Operations that touch none of it -/

theorem Forms.post (F : Forms p s) (n : Notice) : Forms p (s.post n) := F.same rfl rfl rfl rfl rfl

theorem Forms.fold {β : Type} {f : State → β → State} (l : List β) (h : ∀ s b, b ∈ l → Forms p s → Forms p (f s b))
    (F : Forms p s) : Forms p (l.foldl f s) := by
  induction l generalizing s with
  | nil => exact F
  | cons b l ih => exact ih (fun s x m => h s x (List.mem_cons_of_mem b m)) (h s b List.mem_cons_self F)

theorem Forms.postAll (F : Forms p s) (ns : List Notice) : Forms p (s.postAll ns) :=
  Forms.fold ns (fun _ n _ k => k.post n) F

theorem Forms.deliverBroken (F : Forms p s) (w : Option Window) (c : BrokenCause) : Forms p (s.deliverBroken w c) := by
  unfold State.deliverBroken
  split
  · exact F.same rfl rfl rfl rfl rfl
  · exact F
  · exact F

theorem Forms.endAssemblyBroken (F : Forms p s) (c : BrokenCause) : Forms p (s.endAssemblyBroken c) := by
  unfold State.endAssemblyBroken
  split
  · exact F
  · dsimp only
    split
    · split <;> exact F.same rfl rfl rfl rfl rfl
    · refine Forms.deliverBroken (p := p) ?_ _ _
      exact F.same rfl rfl rfl rfl rfl

theorem Forms.beginBlanking (F : Forms p s) : Forms p s.beginBlanking := by
  unfold State.beginBlanking
  split
  · exact F
  · exact (F.endAssemblyBroken .truncated).same rfl rfl rfl rfl rfl

theorem Forms.firstTick (F : Forms p s) : Forms p s.firstTick := by
  unfold State.firstTick
  split
  · exact Forms.beginBlanking (s := { s with blankingDue := false }) (F.same rfl rfl rfl rfl rfl)
  · exact F

theorem Forms.sendRequest (F : Forms p s) {t : State} {lead count : Nat} {source : BurstSource}
    (h : s.sendRequest lead count source = some t) : Forms p t := by
  unfold State.sendRequest at h
  split at h
  · cases h
    exact F.beginBlanking.same rfl rfl rfl rfl rfl
  · cases h

theorem Forms.cutRequest (F : Forms p s) : Forms p s.cutRequest := by
  unfold State.cutRequest
  split
  · exact F.same rfl rfl rfl rfl rfl
  · exact F

theorem cutRequest_frame (s : State) : s.cutRequest.directory = s.directory ∧ s.cutRequest.store = s.store
    ∧ s.cutRequest.contexts = s.contexts := by
  unfold State.cutRequest
  split <;> exact ⟨rfl, rfl, rfl⟩

/-! ## Records -/

theorem Forms.untied (F : Forms p s) {h : Nat} {r : Record} (e : s.record h = some r) (n : r.state ≠ .sending)
    (v : r.state ≠ .void) {i : Nat} {c : Context} (k : s.context i = some c) : c.handle ≠ h := by
  intro x
  obtain ⟨q, hq, _, sq⟩ := F.ctx.tied i c k
  rw [x, e] at hq
  cases hq
  exact sq.elim n v

theorem Forms.notHeld (F : Forms p s) {h : Nat} {r : Record} (e : s.record h = some r) (n : r.state ≠ .held) :
    h ∉ s.store.heldOrder := by
  intro m
  obtain ⟨q, hq, a, _⟩ := (F.held h).1 m
  rw [e] at hq
  cases hq
  exact n a

theorem Forms.freeRecord (F : Forms p s) {h : Nat} {r : Record} (e : s.record h = some r) (n : r.state ≠ .sending)
    (v : r.state ≠ .void) : Forms p (s.freeRecord h) := by
  have hr : ∀ k, (s.freeRecord h).record k = if k = h then none else s.record k :=
    fun k => record_set (s := s) (k := k) (o := none) (record_lt e)
  exact F.free hr rfl rfl
    (F.ctx.drop hr (by simp) (fun i c k => ⟨k, F.untied e n v k⟩) fun i c k _ => k)

theorem record_eq {s t : State} (h : t.store.records = s.store.records) (k : Nat) : t.record k = s.record k := by
  unfold State.record; rw [h]

theorem context_eq {s t : State} (h : t.contexts = s.contexts) (i : Nat) : t.context i = s.context i := by
  unfold State.context; rw [h]

theorem cutRequest_record (s : State) (k : Nat) : s.cutRequest.record k = s.record k :=
  record_eq (congrArg PageStore.records (cutRequest_frame s).2.1) k

theorem freeContextOf_frame (s : State) (h : Nat) : (s.freeContextOf h).directory = s.directory
    ∧ (s.freeContextOf h).store = s.store := by
  unfold State.freeContextOf
  split <;> exact ⟨rfl, rfl⟩

theorem freeContextOf_record (s : State) (h k : Nat) : (s.freeContextOf h).record k = s.record k :=
  record_eq (congrArg PageStore.records (freeContextOf_frame s h).2) k

/-- A record changes and its context, if it has one, is freed. -/
theorem Forms.changeFree (F : Forms p s) {u : State} {h : Nat} {r q : Record} (e : s.record h = some r)
    (hr : ∀ k, u.record k = if k = h then some q else s.record k) (hc : u.contexts = s.contexts)
    (hd : u.directory = s.directory) (shape : SameShape r q) (pin : q.pinned = r.pinned)
    (fil : q.state.isFilling = true → r.state.isFilling = true)
    (liv : q.state.isLive = true → r.state.isLive = true) (snd : q.state ≠ .sending) (vd : q.state ≠ .void)
    (once : u.store.heldOrder.Nodup)
    (held : ∀ x, x ∈ u.store.heldOrder ↔ if x = h then (q.state = .held ∧ q.pinned = false) else x ∈ s.store.heldOrder) :
    Forms p (u.freeContextOf h) := by
  have ap : ∀ i j c d, u.context i = some c → u.context j = some d → c.handle = d.handle → i = j := by
    intro i j c d
    rw [context_eq hc, context_eq hc]
    exact F.ctx.apart i j c d
  obtain ⟨gone, stay⟩ := freeContextOf_spec ap h
  obtain ⟨fd, fs⟩ := freeContextOf_frame u h
  have hr' : ∀ k, (u.freeContextOf h).record k = if k = h then some q else s.record k := by
    intro k
    rw [freeContextOf_record, hr]
  refine F.change e hr' (fd.trans hd) shape fil liv (fun x => absurd x snd) ?_ (fun x => absurd x vd) (by rw [fs]; exact once)
    (by rw [fs]; exact held) (F.ctx.drop hr' (fun x k => by cases k; exact snd) ?_ ?_)
  · refine (pinnedCount_le fun k x f y => ?_).trans F.pins
    rw [hr'] at f
    split at f
    · rename_i z
      cases f
      exact ⟨r, z ▸ e, pin ▸ y⟩
    · exact ⟨x, f, y⟩
  · intro i c k
    have := gone i c k
    rw [context_eq hc] at this
    exact this
  · intro i c k
    exact stay i c (by rw [context_eq hc]; exact k)

theorem Forms.cutRecord (F : Forms p s) {h : Nat} {r : Record} (e : s.record h = some r) (n : r.state = .sending) :
    Forms p (s.cutRecord h) := by
  obtain ⟨cd, cs, cc⟩ := cutRequest_frame s
  unfold State.cutRecord
  split
  · have e' : s.cutRequest.record h = some r := by rw [cutRequest_record]; exact e
    unfold State.updateRecord
    rw [e']
    dsimp only
    have hr : ∀ k, (s.cutRequest.setRecord h (some { r with state := .void, pinned := false })).record k
        = if k = h then some { r with state := .void, pinned := false } else s.record k := by
      intro k
      rw [record_set (record_lt e), cutRequest_record]
    refine F.change e hr cd ⟨rfl, rfl, rfl, rfl⟩ (by simp [RecordState.isFilling]) (by simp [RecordState.isLive])
      (by simp) ?_ (fun _ => rfl) ?_ ?_ ?_
    · refine (pinnedCount_le fun k x f y => ?_).trans F.pins
      rw [hr] at f
      split at f
      · cases f; simp at y
      · exact ⟨x, f, y⟩
    · show s.cutRequest.store.heldOrder.Nodup
      rw [cs]; exact F.once
    · intro x
      show x ∈ s.cutRequest.store.heldOrder ↔ _
      rw [cs]
      split
      · rename_i k
        subst k
        simp [F.notHeld e (by rw [n]; simp)]
      · rfl
    · refine F.ctx.keep e hr ⟨rfl, rfl, rfl, rfl⟩ (fun _ => .inr rfl) (by simp) ?_
      intro i
      show s.cutRequest.context i = _
      exact context_eq cc i
  · have lt := record_lt e
    have hr : ∀ k, (s.freeRecord h).record k = if k = h then none else s.record k :=
      fun k => record_set (s := s) (k := k) (o := none) lt
    obtain ⟨gone, stay⟩ := freeContextOf_spec (s := s.freeRecord h) F.ctx.apart h
    obtain ⟨fd, fs⟩ := freeContextOf_frame (s.freeRecord h) h
    have hr' : ∀ k, ((s.freeRecord h).freeContextOf h).record k = if k = h then none else s.record k := by
      intro k
      rw [freeContextOf_record, hr]
    exact F.free hr' fd (by rw [fs]; rfl) (F.ctx.drop hr' (by simp) gone stay)

theorem Forms.discardRecord (F : Forms p s) (h : Nat) : Forms p (s.discardRecord h) := by
  unfold State.discardRecord
  split
  · exact F
  · rename_i r e
    split
    · rename_i n
      exact F.cutRecord e n
    · exact F
    all_goals
      rename_i n
      exact F.freeRecord e (by rw [n]; simp) (by rw [n]; simp)

theorem Forms.discardIfOf (F : Forms p s) (a h : Nat) : Forms p (State.discardIfOf a s h) := by
  unfold State.discardIfOf
  split
  · split
    · exact F.discardRecord h
    · exact F
  · exact F

theorem Forms.removeRecords (F : Forms p s) (a : Nat) : Forms p (s.removeRecords a) :=
  Forms.fold handles (fun _ h _ k => k.discardIfOf a h) F

/-- Records are freed, or become VOID, and the others stay as they are. -/
def Fades (s t : State) : Prop := ∀ k r, t.record k = some r →
  ∃ q, s.record k = some q ∧ r.address = q.address ∧ (r.state = q.state ∨ r.state = .void)

theorem Fades.refl (s : State) : Fades s s := fun _ r e => ⟨r, e, rfl, .inl rfl⟩

theorem Fades.trans {s t u : State} (a : Fades s t) (b : Fades t u) : Fades s u := fun k r e => by
  obtain ⟨q, hq, aq, sq⟩ := b k r e
  obtain ⟨x, hx, ax, sx⟩ := a k q hq
  refine ⟨x, hx, aq.trans ax, ?_⟩
  rcases sq with sq | sq
  · rcases sx with sx | sx
    · exact .inl (sq.trans sx)
    · exact .inr (sq.trans sx)
  · exact .inr sq

theorem discardRecord_fades (s : State) (h : Nat) : Fades s (s.discardRecord h)
    ∧ ∀ r, (s.discardRecord h).record h = some r → r.state = .void := by
  have fr : ∀ {r}, s.record h = some r → ∀ k, (s.freeRecord h).record k = if k = h then none else s.record k :=
    fun e k => record_set (s := s) (k := k) (o := none) (record_lt e)
  have free : ∀ {r t}, s.record h = some r → (∀ k, t.record k = (s.freeRecord h).record k) → Fades s t
      ∧ ∀ q, t.record h = some q → q.state = .void := by
    intro r t e ht
    refine ⟨fun k q f => ?_, fun q f => ?_⟩
    · rw [ht, fr e] at f
      split at f
      · cases f
      · exact ⟨q, f, rfl, .inl rfl⟩
    · rw [ht, fr e, if_pos rfl] at f
      cases f
  unfold State.discardRecord
  split
  · rename_i e
    exact ⟨.refl s, fun r k => by rw [e] at k; cases k⟩
  · rename_i r e
    split
    · unfold State.cutRecord
      split
      · obtain ⟨cd, cs, cc⟩ := cutRequest_frame s
        have e' : s.cutRequest.record h = some r := by rw [cutRequest_record]; exact e
        have hr : ∀ k, (s.cutRequest.updateRecord h fun r => { r with state := .void, pinned := false }).record k
            = if k = h then some { r with state := .void, pinned := false } else s.record k := by
          intro k
          rw [record_update e', cutRequest_record]
        refine ⟨fun k q f => ?_, fun q f => ?_⟩
        · rw [hr] at f
          split at f
          · rename_i n
            cases f
            exact ⟨r, n ▸ e, rfl, .inr rfl⟩
          · exact ⟨q, f, rfl, .inl rfl⟩
        · rw [hr, if_pos rfl] at f
          cases f
          rfl
      · obtain ⟨fd, fs⟩ := freeContextOf_frame (s.freeRecord h) h
        exact free e fun k => freeContextOf_record _ h k
    · rename_i n
      exact ⟨.refl s, fun q k => by rw [e] at k; cases k; exact n⟩
    all_goals exact free e fun _ => rfl

theorem discardIfOf_fades (a : Nat) (s : State) (h : Nat) : Fades s (State.discardIfOf a s h)
    ∧ ∀ r, (State.discardIfOf a s h).record h = some r → r.address = a → r.state = .void := by
  unfold State.discardIfOf
  split
  · rename_i r e
    split
    · exact ⟨(discardRecord_fades s h).1, fun q f _ => (discardRecord_fades s h).2 q f⟩
    · rename_i n
      exact ⟨.refl s, fun q f x => by rw [e] at f; cases f; exact absurd x n⟩
  · rename_i e
    exact ⟨.refl s, fun q f => by rw [e] at f; cases f⟩

theorem removeRecords_fades (s : State) (a : Nat) : Fades s (s.removeRecords a)
    ∧ ∀ h r, (s.removeRecords a).record h = some r → r.address = a → r.state = .void := by
  have key : ∀ (l : List Nat) (s : State), Fades s (l.foldl (State.discardIfOf a) s)
      ∧ ∀ h ∈ l, ∀ r, (l.foldl (State.discardIfOf a) s).record h = some r → r.address = a → r.state = .void := by
    intro l
    induction l with
    | nil => exact fun s => ⟨.refl s, by simp⟩
    | cons k l ih =>
      intro s
      obtain ⟨f1, v1⟩ := discardIfOf_fades a s k
      obtain ⟨f2, v2⟩ := ih (State.discardIfOf a s k)
      refine ⟨f1.trans f2, fun h m r e x => ?_⟩
      rcases List.mem_cons.1 m with rfl | m
      · obtain ⟨q, hq, aq, sq⟩ := f2 h r e
        rcases sq with sq | sq
        · rw [sq]; exact v1 q hq (aq.symm.trans x)
        · exact sq
      · exact v2 h m r e x
  refine ⟨(key handles s).1, fun h r e => (key handles s).2 h (List.mem_range.2 (record_lt e)) r e⟩

theorem Forms.enterHeld (F : Forms p s) {h : Nat} {r : Record} (e : s.record h = some r)
    (n : r.state = .ready ∨ r.state = .sending) : Forms p (s.enterHeld h) := by
  unfold State.enterHeld
  rw [e]
  dsimp only
  refine Forms.post ?_ _
  have nh : h ∉ s.store.heldOrder := F.notHeld e (by rcases n with n | n <;> rw [n] <;> simp)
  have hr : ∀ k, (s.setRecord h (some { r with state := .held })).record k
      = if k = h then some { r with state := .held } else s.record k := fun k => record_set (record_lt e)
  have rl : r.state.isLive = true := by rcases n with n | n <;> rw [n] <;> rfl
  split
  · rename_i pn
    refine F.changeFree e hr rfl rfl ⟨rfl, rfl, rfl, rfl⟩ rfl (by simp [RecordState.isFilling]) (fun _ => rl) (by simp)
      (by simp) F.once fun x => ?_
    show x ∈ s.store.heldOrder ↔ _
    split
    · rename_i k
      subst k
      simp [nh, pn]
    · rfl
  · rename_i pn
    have hr2 : ∀ k, ((s.setRecord h (some { r with state := .held })).setHeldOrder (s.store.heldOrder ++ [h])).record k
        = if k = h then some { r with state := .held } else s.record k := hr
    have K := F.changeFree e hr2 rfl rfl ⟨rfl, rfl, rfl, rfl⟩ rfl (by simp [RecordState.isFilling]) (fun _ => rl)
      (by simp) (by simp) (List.nodup_append.2 ⟨F.once, by simp, by
        intro a ha b hb
        simp only [List.mem_singleton] at hb
        subst hb
        rintro rfl
        exact nh ha⟩) (fun x => by
        show x ∈ s.store.heldOrder ++ [h] ↔ _
        rw [List.mem_append, List.mem_singleton]
        split
        · rename_i k; subst k; simp [pn]
        · rename_i k; simp [k])
    have comm : ∀ (u : State) (q : List Nat), (u.setHeldOrder q).freeContextOf h = (u.freeContextOf h).setHeldOrder q := by
      intro u q
      unfold State.freeContextOf
      have : (u.setHeldOrder q).contextOf h = u.contextOf h := rfl
      rw [this]
      split <;> rfl
    have st : ((s.setRecord h (some { r with state := .held })).freeContextOf h).store.heldOrder = s.store.heldOrder := by
      rw [(freeContextOf_frame _ h).2]; rfl
    rw [st, ← comm]
    exact K

theorem Forms.enterStalled (F : Forms p s) {h : Nat} {r : Record} (e : s.record h = some r) (n : r.state = .sending)
    (c : StallCause) : Forms p (s.enterStalled h c) := by
  unfold State.enterStalled
  rw [e]
  dsimp only
  refine Forms.post ?_ _
  have nh : h ∉ s.store.heldOrder := F.notHeld e (by rw [n]; simp)
  refine F.changeFree e (fun k => record_set (record_lt e)) rfl rfl ⟨rfl, rfl, rfl, rfl⟩ rfl
    (by simp [RecordState.isFilling]) (fun _ => by rw [n]; rfl) (by simp) (by simp) F.once fun x => ?_
  show x ∈ s.store.heldOrder ↔ _
  split
  · rename_i k; subst k; simp [nh]
  · rfl

theorem Forms.returnToReady (F : Forms p s) {h : Nat} {r : Record} (e : s.record h = some r) (n : r.state = .sending) :
    Forms p (s.returnToReady h) := by
  unfold State.returnToReady
  have nh : h ∉ s.store.heldOrder := F.notHeld e (by rw [n]; simp)
  unfold State.updateRecord
  rw [e]
  dsimp only
  refine F.changeFree e (fun k => record_set (record_lt e)) rfl rfl ⟨rfl, rfl, rfl, rfl⟩ rfl
    (by simp [RecordState.isFilling]) (fun _ => by rw [n]; rfl) (by simp) (by simp) F.once fun x => ?_
  show x ∈ s.store.heldOrder ↔ _
  split
  · rename_i k; subst k; simp [nh]
  · rfl

theorem returnToReady_record {s : State} {h : Nat} {r : Record} (e : s.record h = some r) (k : Nat) :
    (s.returnToReady h).record k = if k = h then some { r with state := .ready, readyStamp := some s.stamp }
      else s.record k := by
  unfold State.returnToReady
  rw [freeContextOf_record, record_update e]

/-- A record of a state that no context goes with changes its state and its marks. -/
theorem Forms.mark (F : Forms p s) {t : State} {h : Nat} {r q : Record} (e : s.record h = some r)
    (hr : ∀ k, t.record k = if k = h then some q else s.record k) (hd : t.directory = s.directory)
    (hc : t.contexts = s.contexts) (shape : SameShape r q)
    (same : q.state = r.state ∨ (r.state ≠ .sending ∧ r.state ≠ .void ∧ q.state ≠ .sending ∧ q.state ≠ .void
      ∧ (q.state.isFilling = true → r.state.isFilling = true) ∧ (q.state.isLive = true → r.state.isLive = true)))
    (pins : t.pinnedCount ≤ Config.maxPinned) (vd : q.state = .void → q.pinned = false)
    (once : t.store.heldOrder.Nodup)
    (held : ∀ x, x ∈ t.store.heldOrder ↔ if x = h then (q.state = .held ∧ q.pinned = false) else x ∈ s.store.heldOrder) :
    Forms p t := by
  have C : ContextsOk t := by
    refine F.ctx.keep e hr shape ?_ ?_ (context_eq hc)
    · rcases same with k | k
      · rw [k]; exact id
      · exact fun x => (x.elim k.1 k.2.1).elim
    · rcases same with k | k
      · rw [k]; exact id
      · exact fun x => absurd x k.2.2.1
  refine F.change e hr hd shape ?_ ?_ ?_ pins vd once held C
  · rcases same with k | k
    · rw [k]; exact id
    · exact k.2.2.2.2.1
  · rcases same with k | k
    · rw [k]; exact id
    · exact k.2.2.2.2.2
  · rcases same with k | k
    · rw [k]; exact .inl
    · exact fun x => absurd x k.2.2.1

theorem pins_same {s t : State} {h : Nat} {r q : Record} (e : s.record h = some r)
    (hr : ∀ k, t.record k = if k = h then some q else s.record k) (pin : q.pinned = true → r.pinned = true) :
    t.pinnedCount ≤ s.pinnedCount :=
  pinnedCount_le fun k x f y => by
    rw [hr] at f
    split at f
    · rename_i z
      cases f
      exact ⟨r, z ▸ e, pin y⟩
    · exact ⟨x, f, y⟩

theorem Forms.reopen (F : Forms p s) {h : Nat} {r : Record} (e : s.record h = some r) (n : r.state = .held) :
    Forms p (s.reopen h) := by
  unfold State.reopen
  have hr : ∀ k, ((s.updateRecord h fun r => { r with state := .ready, readyStamp := some s.stamp }).setHeldOrder
      (s.store.heldOrder.filter fun x => x != h)).record k
      = if k = h then some { r with state := .ready, readyStamp := some s.stamp } else s.record k :=
    fun k => record_update e _
  refine F.mark e hr ?_ ?_ ⟨rfl, rfl, rfl, rfl⟩ (.inr ?_) ((pins_same e hr id).trans F.pins) (by simp) (F.once.filter _) ?_
  · unfold State.updateRecord; rw [e]; rfl
  · unfold State.updateRecord; rw [e]; rfl
  · simp [n, RecordState.isFilling, RecordState.isLive]
  · intro x
    show x ∈ s.store.heldOrder.filter _ ↔ _
    rw [List.mem_filter]
    split
    · rename_i k; simp [k]
    · rename_i k; simp [k]

theorem reopen_record {s : State} {h : Nat} {r : Record} (e : s.record h = some r) (k : Nat) :
    (s.reopen h).record k = if k = h then some { r with state := .ready, readyStamp := some s.stamp }
      else s.record k := record_update e _

theorem Forms.returnSending (F : Forms p s) (a : Nat) : Forms p (s.returnSending a) := by
  unfold State.returnSending
  split
  · rename_i h e
    obtain ⟨r, hr, _, n⟩ := sendingOf_some e
    exact F.returnToReady hr n
  · exact F

theorem returnSending_none (F : Forms p s) (a : Nat) : ∀ h r, (s.returnSending a).record h = some r → r.address = a →
    r.state ≠ .sending := by
  intro h r e ha
  unfold State.returnSending at e
  split at e
  · rename_i k ek
    obtain ⟨q, hq, aq, n⟩ := sendingOf_some ek
    rw [returnToReady_record hq] at e
    split at e
    · cases e; simp
    · rename_i ne
      intro c
      exact ne (F.single h k r q e hq (ha.trans aq.symm) c n)
  · rename_i ek
    exact sendingOf_none ek e ha

theorem Forms.rejoinRecord (F : Forms p s) (a h : Nat) : Forms p (State.rejoinRecord a s h) := by
  unfold State.rejoinRecord
  split
  · exact F
  · rename_i r e
    split
    · split
      · rename_i n; exact F.returnToReady e n
      · rename_i n; exact F.reopen e n
      all_goals exact F
    · exact F

theorem Forms.rejoinRecords (F : Forms p s) (a : Nat) : Forms p (s.rejoinRecords a) :=
  Forms.fold handles (fun _ h _ k => k.rejoinRecord a h) F

/-- Records leave SENDING, and none enters it. -/
def Calms (s t : State) : Prop := ∀ k r, t.record k = some r →
  ∃ q, s.record k = some q ∧ r.address = q.address ∧ (r.state = .sending → q.state = .sending)

theorem Calms.refl (s : State) : Calms s s := fun _ r e => ⟨r, e, rfl, id⟩

theorem Calms.trans {s t u : State} (a : Calms s t) (b : Calms t u) : Calms s u := fun k r e => by
  obtain ⟨q, hq, aq, sq⟩ := b k r e
  obtain ⟨x, hx, ax, sx⟩ := a k q hq
  exact ⟨x, hx, aq.trans ax, sx ∘ sq⟩

theorem Calms.at {s t : State} {h : Nat} {r q : Record} (e : s.record h = some r)
    (hr : ∀ k, t.record k = if k = h then some q else s.record k) (a : q.address = r.address) (n : q.state ≠ .sending) :
    Calms s t := fun k x f => by
  rw [hr] at f
  split at f
  · rename_i z
    cases f
    exact ⟨r, z ▸ e, a, fun c => absurd c n⟩
  · exact ⟨x, f, rfl, id⟩

/-- A fold of operations on one record each that leave it out of SENDING leaves none of them SENDING. -/
theorem calm_fold {P : Record → Prop} {f : State → Nat → State} (one : ∀ s h, Calms s (f s h)
      ∧ ∀ r, (f s h).record h = some r → P r → r.state ≠ .sending) (mono : ∀ r q : Record, r.address = q.address → (P r ↔ P q))
    (s : State) : Calms s (handles.foldl f s) ∧ ∀ h r, (handles.foldl f s).record h = some r → P r →
      r.state ≠ .sending := by
  have key : ∀ (l : List Nat) (s : State), Calms s (l.foldl f s)
      ∧ ∀ h ∈ l, ∀ r, (l.foldl f s).record h = some r → P r → r.state ≠ .sending := by
    intro l
    induction l with
    | nil => exact fun s => ⟨.refl s, by simp⟩
    | cons k l ih =>
      intro s
      obtain ⟨c1, v1⟩ := one s k
      obtain ⟨c2, v2⟩ := ih (f s k)
      refine ⟨c1.trans c2, fun h m r e x => ?_⟩
      rcases List.mem_cons.1 m with rfl | m
      · obtain ⟨q, hq, aq, sq⟩ := c2 h r e
        exact fun y => v1 q hq ((mono r q aq).1 x) (sq y)
      · exact v2 h m r e x
  exact ⟨(key handles s).1, fun h r e => (key handles s).2 h (List.mem_range.2 (record_lt e)) r e⟩

theorem rejoinRecords_none (s : State) (a : Nat) : ∀ h r, (s.rejoinRecords a).record h = some r → r.address = a →
    r.state ≠ .sending := by
  refine (calm_fold (P := fun r => r.address = a) (fun s h => ?_) (fun r q e => by rw [e]) s).2
  unfold State.rejoinRecord
  split
  · rename_i e
    exact ⟨.refl s, fun r k => by rw [e] at k; cases k⟩
  · rename_i r e
    split
    · split
      · exact ⟨.at e (returnToReady_record e) rfl (by simp),
          fun q k _ => by rw [returnToReady_record e, if_pos rfl] at k; cases k; simp⟩
      · exact ⟨.at e (reopen_record e) rfl (by simp),
          fun q k _ => by rw [reopen_record e, if_pos rfl] at k; cases k; simp⟩
      all_goals
        rename_i n
        exact ⟨.refl s, fun q k _ => by rw [e] at k; cases k; rw [n]; simp⟩
    · rename_i n
      exact ⟨.refl s, fun q k x => by rw [e] at k; cases k; exact absurd x n⟩

theorem Forms.readyIfSending (F : Forms p s) (h : Nat) : Forms p (s.readyIfSending h) := by
  unfold State.readyIfSending
  split
  · rename_i r e
    split
    · rename_i n; exact F.returnToReady e n
    · exact F
  · exact F

theorem Forms.endTransfers (F : Forms p s) : Forms p s.endTransfers := by
  unfold State.endTransfers
  have K : Forms p (handles.foldl State.readyIfSending s) := Forms.fold handles (fun _ h _ k => k.readyIfSending h) F
  have N := (calm_fold (P := fun _ => True) (f := State.readyIfSending) (fun s h => by
    unfold State.readyIfSending
    split
    · rename_i r e
      split
      · exact ⟨.at e (returnToReady_record e) rfl (by simp),
          fun q k _ => by rw [returnToReady_record e, if_pos rfl] at k; cases k; simp⟩
      · rename_i n
        exact ⟨.refl s, fun q k _ => by rw [e] at k; cases k; exact n⟩
    · rename_i e
      exact ⟨.refl s, fun r k => by rw [e] at k; cases k⟩) (fun _ _ _ => Iff.rfl) s).2
  generalize handles.foldl State.readyIfSending s = t at K N
  have hc : ∀ i, ({ t with contexts := Vector.replicate 16 none } : State).context i = none := by
    intro i
    unfold State.context
    simp only [Vector.getElem?_replicate]
    split <;> rfl
  refine K.withContexts ⟨?_, ?_, ?_, ?_, ?_⟩ rfl rfl
  · intro i c e; rw [hc] at e; cases e
  · intro i j c d e; rw [hc] at e; cases e
  · intro h r e n
    exact absurd n (N h r e trivial)
  · intro i c e; rw [hc] at e; cases e
  · intro i c r e; rw [hc] at e; cases e

/-! ## Entries -/

/-- Fields outside the queue, the phase and the miss count change. -/
theorem LabelOk.same {l m : Label} (k : LabelOk l) (q : m.queue = l.queue) (ph : m.phase = l.phase)
    (mc : m.missCount = l.missCount) : LabelOk m :=
  ⟨by rw [q]; exact k.kinds, by rw [q, ph]; exact k.release, by rw [q]; exact k.attempts, by rw [mc]; exact k.misses, by rw [ph]; exact k.joins,
    by rw [ph]; exact k.releases⟩

/-- Operations leave the queue, or change in their places. -/
theorem LabelOk.sub {l m : Label} (k : LabelOk l) (q : (m.queue.map Operation.kind).Sublist (l.queue.map Operation.kind))
    (at_ : ∀ o ∈ m.queue, o.attempts ≤ 7) (ph : m.phase = l.phase) (mc : m.missCount = l.missCount) : LabelOk m := by
  refine ⟨k.kinds.sublist q, fun o ho ko => ?_, at_, by rw [mc]; exact k.misses, by rw [ph]; exact k.joins,
    by rw [ph]; exact k.releases⟩
  obtain ⟨x, hx, e⟩ := List.mem_map.1 (q.subset (List.mem_map_of_mem ho))
  obtain ⟨len, rel⟩ := k.release x hx (e.trans ko)
  refine ⟨?_, by rw [ph]; exact rel⟩
  have l1 := q.length_le
  have l2 := List.length_pos_of_mem ho
  simp only [List.length_map] at l1
  omega

theorem LabelOk.mapQueue {l m : Label} (k : LabelOk l) {f : Operation → Operation} (hf : ∀ o, (f o).kind = o.kind)
    (at_ : ∀ o ∈ l.queue, (f o).attempts ≤ 7) (q : m.queue = l.queue.map f) (ph : m.phase = l.phase)
    (mc : m.missCount = l.missCount) : LabelOk m := by
  refine k.sub ?_ (fun o ho => ?_) ph mc
  · rw [q, List.map_map]
    have : Operation.kind ∘ f = Operation.kind := funext hf
    rw [this]
  · rw [q] at ho
    obtain ⟨x, hx, rfl⟩ := List.mem_map.1 ho
    exact at_ x hx

theorem LabelOk.filterQueue {l m : Label} (k : LabelOk l) {f : Operation → Bool} (q : m.queue = l.queue.filter f)
    (ph : m.phase = l.phase) (mc : m.missCount = l.missCount) : LabelOk m :=
  k.sub (by rw [q]; exact List.filter_sublist.map _)
    (fun o ho => k.attempts o (by rw [q] at ho; exact (List.mem_filter.1 ho).1)) ph mc

theorem replace_kind (f : OpFields) (o : Operation) : (Operation.replace f o).kind = o.kind := by
  unfold Operation.replace
  split
  · rename_i h; exact h.symm
  · rfl

theorem enqueue_frame (l : Label) (f : OpFields) (now : Stamp) : (l.enqueue f now).phase = l.phase
    ∧ (l.enqueue f now).longId = l.longId ∧ (l.enqueue f now).missCount = l.missCount := by
  unfold Label.enqueue
  split <;> exact ⟨rfl, rfl, rfl⟩

theorem LabelOk.enqueue {l : Label} (k : LabelOk l) {f : OpFields} (now : Stamp) (ph : l.phase.isReleasing = false)
    (nf : f.kind ≠ .release) : LabelOk (l.enqueue f now) := by
  unfold Label.enqueue
  split
  · refine k.mapQueue (replace_kind f) (fun o ho => ?_) rfl rfl rfl
    unfold Operation.replace
    split
    · exact Nat.zero_le _
    · exact k.attempts o ho
  · rename_i h
    have off : ∀ o ∈ l.queue, o.kind ≠ f.kind := by
      intro o ho c
      refine h (List.any_eq_true.2 ⟨o, ho, ?_⟩)
      simp [c]
    refine ⟨?_, ?_, ?_, k.misses, k.joins, k.releases⟩
    · show ((l.queue ++ [(⟨f, now, 0, false⟩ : Operation)]).map Operation.kind).Nodup
      rw [List.map_append, List.nodup_append]
      refine ⟨k.kinds, by simp, ?_⟩
      intro a ha b hb
      obtain ⟨o, ho, rfl⟩ := List.mem_map.1 ha
      simp only [List.map_cons, List.map_nil, List.mem_singleton] at hb
      rw [hb]
      exact off o ho
    · intro o ho ko
      rcases List.mem_append.1 ho with ho | ho
      · have := (k.release o ho ko).2
        rw [ph] at this
        cases this
      · simp only [List.mem_singleton] at ho
        subst ho
        exact absurd ko nf
    · intro o ho
      rcases List.mem_append.1 ho with ho | ho
      · exact k.attempts o ho
      · simp only [List.mem_singleton] at ho
        subst ho
        exact Nat.zero_le _

/-- A change of an entry's fields that keeps its form. -/
structure Tame (f : Label → Label) : Prop where
  longId : ∀ l, (f l).longId = l.longId
  phase : ∀ l, (f l).phase = l.phase
  ok : ∀ l, LabelOk l → LabelOk (f l)

theorem Tame.same {f : Label → Label} (h : ∀ l, (f l).longId = l.longId ∧ (f l).phase = l.phase
    ∧ (f l).queue = l.queue ∧ (f l).missCount = l.missCount) : Tame f :=
  ⟨fun l => (h l).1, fun l => (h l).2.1, fun l k => k.same (h l).2.2.1 (h l).2.1 (h l).2.2.2⟩

theorem Tame.comp {f g : Label → Label} (a : Tame f) (b : Tame g) : Tame (fun l => f (g l)) :=
  ⟨fun l => (a.longId _).trans (b.longId l), fun l => (a.phase _).trans (b.phase l), fun l k => a.ok _ (b.ok l k)⟩

theorem Forms.tame (F : Forms p s) (a : Nat) {f : Label → Label} (h : Tame f) : Forms p (s.updateLabel a f) :=
  F.label a f fun l e => ⟨h.longId l, h.phase l, h.ok l (F.dir.labels a l e)⟩

/-- The phases of the entries are as they were. -/
def SamePhases (s t : State) : Prop := ∀ a l, t.entry a = .label l → ∃ m, s.entry a = .label m ∧ l.phase = m.phase

theorem SamePhases.refl (s : State) : SamePhases s s := fun _ l e => ⟨l, e, rfl⟩

theorem SamePhases.trans {s t u : State} (a : SamePhases s t) (b : SamePhases t u) : SamePhases s u := fun x l e => by
  obtain ⟨m, hm, pm⟩ := b x l e
  obtain ⟨n, hn, pn⟩ := a x m hm
  exact ⟨n, hn, pm.trans pn⟩

theorem SamePhases.eq {s t : State} (h : t.directory.entries = s.directory.entries) : SamePhases s t := fun a l e =>
  ⟨l, by unfold State.entry at e ⊢; rw [← h]; exact e, rfl⟩

theorem SamePhases.update (s : State) (a : Nat) {f : Label → Label} (h : ∀ l, (f l).phase = l.phase) :
    SamePhases s (s.updateLabel a f) := fun b l e => by
  rw [entry_updateLabel] at e
  split at e
  · rename_i n
    subst n
    split at e
    · rename_i m hm
      cases e
      exact ⟨m, hm, h m⟩
    · cases e
    · cases e
  · exact ⟨l, e, rfl⟩

theorem postAll_entries (s : State) (ns : List Notice) : (s.postAll ns).directory = s.directory := by
  unfold State.postAll
  induction ns generalizing s with
  | nil => rfl
  | cons n ns ih => exact (ih (s.post n)).trans rfl

theorem tame_markSent (q : BitVec 4) : Tame (Label.markSent q) := .same fun _ => ⟨rfl, rfl, rfl, rfl⟩

theorem tame_markOpSent (k : OpKind) : Tame (Label.markOpSent k) :=
  ⟨fun _ => rfl, fun _ => rfl, fun l h => h.mapQueue (f := fun o => if o.kind = k then { o with sentThisRound := true } else o)
    (fun o => by split <;> rfl) (fun o ho => by split <;> exact h.attempts o ho) rfl rfl rfl⟩

theorem Forms.removeOperations (F : Forms p s) (a : Nat) (c : OpFailure) : Forms p (s.removeOperations a c) := by
  unfold State.removeOperations
  split
  · refine Forms.postAll ?_ _
    refine F.tame a ⟨fun _ => rfl, fun _ => rfl, fun l k => ?_⟩
    exact ⟨List.nodup_nil, by simp, by simp, k.misses, k.joins, k.releases⟩
  · exact F

theorem removeOperations_frame (s : State) (a : Nat) (c : OpFailure) :
    (s.removeOperations a c).store = s.store ∧ SamePhases s (s.removeOperations a c)
      ∧ ∀ b, ((s.removeOperations a c).entry b).longId = (s.entry b).longId := by
  unfold State.removeOperations
  split
  · refine ⟨?_, ?_, fun b => ?_⟩
    · have : ∀ (ns : List Notice) (t : State), (t.postAll ns).store = t.store := by
        intro ns
        induction ns with
        | nil => exact fun _ => rfl
        | cons n ns ih => exact fun t => (ih (t.post n)).trans rfl
      rw [this, updateLabel_store]
    · refine SamePhases.trans ?_ (SamePhases.eq (congrArg Directory.entries (postAll_entries _ _)))
      exact SamePhases.update s a fun _ => rfl
    · have : ∀ t : State, ∀ ns, (State.postAll t ns).entry b = t.entry b := by
        intro t ns
        unfold State.entry; rw [postAll_entries]
      rw [this, entry_updateLabel]
      split
      · rename_i n
        subst n
        cases e : s.entry b <;> simp [Entry.longId]
      · rfl
  · exact ⟨rfl, .refl s, fun _ => rfl⟩

/-! ## Profiles, readings and answers -/

theorem tame_foldPlanned (e : Epoch) : Tame (fun l => l.foldPlanned e) := .same fun l => by
  unfold Label.foldPlanned
  split
  · split <;> exact ⟨rfl, rfl, rfl, rfl⟩
  · exact ⟨rfl, rfl, rfl, rfl⟩

theorem writePlanned_frame (l : Label) (e : Epoch) (q : PlannedProfile) : (l.writePlanned e q).longId = l.longId
    ∧ (l.writePlanned e q).phase = l.phase ∧ (l.writePlanned e q).queue = l.queue
    ∧ (l.writePlanned e q).missCount = l.missCount := by
  unfold Label.writePlanned
  split
  · split <;> exact ⟨rfl, rfl, rfl, rfl⟩
  · exact ⟨rfl, rfl, rfl, rfl⟩

theorem tame_adopt (e : Epoch) (x : Profile) (q : Option PlannedProfile) : Tame (fun l => l.adopt e x q) :=
  .same fun l => by
    unfold Label.adopt
    split
    · exact writePlanned_frame l e _
    · exact ⟨rfl, rfl, rfl, rfl⟩

theorem tame_dequeue (k : OpKind) : Tame (fun l => l.dequeue k) :=
  ⟨fun _ => rfl, fun _ => rfl, fun _ h => h.filterQueue rfl rfl rfl⟩

theorem Forms.completionCheck (F : Forms p s) (a : Nat) (x : Profile) (q : Option PlannedProfile) :
    Forms p (s.completionCheck a x q) := by
  unfold State.completionCheck
  split
  · exact F
  · split
    · exact F
    · cases q
      all_goals
        dsimp only
        split
        · refine Forms.post ?_ _
          refine F.tame a ⟨fun _ => rfl, fun _ => rfl, fun l h => ?_⟩
          exact h.filterQueue rfl rfl rfl
        · exact F

theorem completionCheck_phases (s : State) (a : Nat) (x : Profile) (q : Option PlannedProfile) :
    SamePhases s (s.completionCheck a x q) := by
  unfold State.completionCheck
  split
  · exact .refl s
  · split
    · exact .refl s
    · cases q
      all_goals
        dsimp only
        split
        · refine SamePhases.trans ?_ (SamePhases.eq rfl)
          exact SamePhases.update s a fun _ => rfl
        · exact .refl s

theorem Forms.takeProfileReport (F : Forms p s) (a : Nat) (r : StatusReport) : Forms p (s.takeProfileReport a r) := by
  unfold State.takeProfileReport
  split
  · exact (F.tame a (tame_adopt _ _ _)).completionCheck _ _ _
  · exact F

theorem takeProfileReport_phases (s : State) (a : Nat) (r : StatusReport) : SamePhases s (s.takeProfileReport a r) := by
  unfold State.takeProfileReport
  split
  · exact (SamePhases.update s a (tame_adopt _ _ _).phase).trans (completionCheck_phases _ _ _ _)
  · exact .refl s

theorem applySaving_frame (l : Label) (a : Nat) (now : Stamp) : (l.applySaving a now).phase = l.phase
    ∧ (l.applySaving a now).longId = l.longId := by
  unfold Label.applySaving
  split
  · exact ⟨rfl, rfl⟩
  · exact ⟨(enqueue_frame l _ now).1, (enqueue_frame l _ now).2.1⟩

theorem Forms.takeReading (F : Forms p s) (a : Nat) (mv : Option Nat)
    (ph : ∀ l, s.entry a = .label l → l.phase.isReleasing = false) : Forms p (s.takeReading a mv) := by
  unfold State.takeReading
  split
  · exact F
  · split
    · exact F
    · dsimp only
      split
      · exact F.tame a (.same fun _ => ⟨rfl, rfl, rfl, rfl⟩)
      · refine Forms.post (F.label a _ fun l e => ?_) _
        have ok := F.dir.labels a l e
        split
        · refine ⟨(applySaving_frame _ a _).2, (applySaving_frame _ a _).1, ?_⟩
          unfold Label.applySaving
          split
          · exact ok.same rfl rfl rfl
          · refine LabelOk.enqueue ?_ _ (ph l e) (by simp [OpFields.kind])
            exact ok.same rfl rfl rfl
        · exact ⟨rfl, rfl, ok.same rfl rfl rfl⟩

theorem takeReading_phases (s : State) (a : Nat) (mv : Option Nat) : SamePhases s (s.takeReading a mv) := by
  unfold State.takeReading
  split
  · exact .refl s
  · split
    · exact .refl s
    · dsimp only
      split
      · exact .update s a fun _ => rfl
      · refine (SamePhases.update s a fun l => ?_).trans (.eq rfl)
        split
        · exact (applySaving_frame _ a _).1
        · rfl

theorem tame_noteEcho (n : Nat) (r : StatusReport) : Tame (Label.noteEcho n r) := .same fun _ => ⟨rfl, rfl, rfl, rfl⟩

theorem tame_answered (e : Epoch) (w : OpenSend) (d : Bool) : Tame (fun l => l.answered e w d) := by
  have key : ∀ l : Label, ∀ q : Label, q.longId = l.longId ∧ q.phase = l.phase ∧ q.queue = l.queue
      ∧ q.missCount = l.missCount → ((if w.attached then q.dequeue w.fields.kind else q).longId = l.longId
        ∧ (if w.attached then q.dequeue w.fields.kind else q).phase = l.phase
        ∧ (LabelOk l → LabelOk (if w.attached then q.dequeue w.fields.kind else q))) := by
    intro l q ⟨h1, h2, h3, h4⟩
    split
    · exact ⟨h1, h2, fun k => (tame_dequeue _).ok _ (k.same h3 h2 h4)⟩
    · exact ⟨h1, h2, fun k => k.same h3 h2 h4⟩
  have part : ∀ l : Label, (l.answered e w d).longId = l.longId ∧ (l.answered e w d).phase = l.phase
      ∧ (LabelOk l → LabelOk (l.answered e w d)) := by
    intro l
    unfold Label.answered
    extract_lets m q
    refine key l q ?_
    show (match w.fields with
      | .setProfile pr => if d then m.writePlanned e ⟨pr, w.effective⟩ else m
      | .ping => m | .setMode _ => m | .showPage _ => m | .release => m).longId = _ ∧ _
    cases hf : w.fields with
    | setProfile pr =>
      have : q = if d then m.writePlanned e ⟨pr, w.effective⟩ else m := by simp only [q, hf]
      rw [this]
      dsimp only
      cases d
      · exact ⟨rfl, rfl, rfl, rfl⟩
      · exact writePlanned_frame m e _
    | _ =>
      have : q = m := by simp only [q, hf]
      rw [this]
      exact ⟨rfl, rfl, rfl, rfl⟩
  exact ⟨fun l => (part l).1, fun l => (part l).2.1, fun l => (part l).2.2⟩

theorem Forms.takeAnswer (F : Forms p s) (a slot : Nat) (r : StatusReport) : Forms p (s.takeAnswer a slot r) := by
  unfold State.takeAnswer
  split
  · exact F
  · split
    · exact F
    · split
      · dsimp only
        have k := F.tame a (tame_answered s.epoch (by assumption) (r.result == .done))
        split
        · exact k.post _
        · exact k
      · exact F

theorem takeAnswer_phases (s : State) (a slot : Nat) (r : StatusReport) : SamePhases s (s.takeAnswer a slot r) := by
  unfold State.takeAnswer
  split
  · exact .refl s
  · split
    · exact .refl s
    · split
      · dsimp only
        have k := SamePhases.update s a (tame_answered s.epoch (by assumption) (r.result == .done)).phase
        split
        · exact k.trans (.eq rfl)
        · exact k
      · exact .refl s

/-! ## Reconciliation -/

theorem Forms.pageWanted (F : Forms p s) (a g : Nat) : Forms p (s.pageWanted a g) := by
  unfold State.pageWanted
  split
  · exact F
  · split
    · exact F
    · refine Forms.post ?_ _
      exact F.tame a (.same fun _ => ⟨rfl, rfl, rfl, rfl⟩)

theorem Forms.reconcilePage (F : Forms p s) (a : Nat) (r : StatusReport) (g : Nat) :
    Forms p (State.reconcilePage a r s g) := by
  unfold State.reconcilePage
  split
  · split
    · exact F
    · exact F.pageWanted a g
  · split
    · exact F
    · rename_i q e
      split
      · split
        · rename_i n; exact F.enterHeld e (.inl n)
        · rename_i n; exact F.enterHeld e (.inr n)
        all_goals exact F
      · split
        · rename_i n; exact F.reopen e n
        all_goals exact F

theorem Forms.reconcile (F : Forms p s) (a : Nat) (r : StatusReport) : Forms p (s.reconcile a r) := by
  unfold State.reconcile
  split
  · exact Forms.fold _ (fun _ g _ k => k.reconcilePage a r g) F
  · exact F

theorem Forms.takeBoundStatus (F : Forms p s) (a slot : Nat) (r : StatusReport)
    (ph : ∀ l, s.entry a = .label l → l.phase.isReleasing = false) : Forms p (s.takeBoundStatus a slot r) := by
  unfold State.takeBoundStatus
  dsimp only
  refine Forms.reconcile (Forms.takeReading ?_ a r.mv ?_) a r
  · refine Forms.takeProfileReport ?_ a r
    exact (F.takeAnswer a slot r).tame a (.same fun _ => ⟨rfl, rfl, rfl, rfl⟩)
  · intro l e
    have k := (takeAnswer_phases s a slot r).trans (SamePhases.trans
      (SamePhases.update _ a (f := fun l => l.takeDisplay r) fun _ => rfl) (takeProfileReport_phases _ a r))
    obtain ⟨m, hm, pm⟩ := k a l e
    rw [pm]
    exact ph m hm

end Sys2Proof.Machine
end

