-- ==== Sys2Proof/Laws/Memory.lean ====
section
/-! SUPPORT. The sparse memory: a write keeps the canonical form, changes the one cell it names, and the page store's
writes keep the form of its bytes and parity bits. -/

namespace Sys2Proof.Machine

section
variable {α : Type} [DecidableEq α] (d : α)

omit [DecidableEq α] in
theorem read_below {m : List (Nat × α)} {a : Nat} (h : ∀ c ∈ m, a < c.1) : Cells.read d m a = d := by
  induction m with
  | nil => rfl
  | cons c m ih =>
    have hc := h c (List.mem_cons_self ..)
    unfold Cells.read
    rw [if_neg (by omega), ih fun x hx => h x (List.mem_cons_of_mem _ hx)]

theorem write_mem {m : List (Nat × α)} {a : Nat} {v : α} {c : Nat × α} (h : c ∈ Cells.write d a v m) :
    c ∈ m ∨ (c = (a, v) ∧ v ≠ d) := by
  induction m with
  | nil =>
    unfold Cells.write at h
    split at h
    · simp at h
    · rename_i hv
      exact Or.inr ⟨by simpa using h, hv⟩
  | cons k m ih =>
    obtain ⟨k, w⟩ := k
    unfold Cells.write at h
    split at h
    · split at h
      · exact Or.inl h
      · rename_i hv
        rcases List.mem_cons.1 h with rfl | h
        · exact Or.inr ⟨rfl, hv⟩
        · exact Or.inl h
    · split at h
      · split at h
        · exact Or.inl (List.mem_cons_of_mem _ h)
        · rename_i hv
          rcases List.mem_cons.1 h with rfl | h
          · exact Or.inr ⟨rfl, hv⟩
          · exact Or.inl (List.mem_cons_of_mem _ h)
      · rcases List.mem_cons.1 h with rfl | h
        · exact Or.inl (List.mem_cons_self ..)
        · rcases ih h with h | h
          · exact Or.inl (List.mem_cons_of_mem _ h)
          · exact Or.inr h

theorem write_pairwise {m : List (Nat × α)} (h : m.Pairwise fun x y => x.1 < y.1) (a : Nat) (v : α) :
    (Cells.write d a v m).Pairwise fun x y => x.1 < y.1 := by
  induction m with
  | nil => unfold Cells.write; split <;> simp
  | cons k m ih =>
    obtain ⟨k, w⟩ := k
    obtain ⟨hk, hm⟩ := List.pairwise_cons.1 h
    unfold Cells.write
    split
    · rename_i ha
      split
      · exact h
      · refine List.pairwise_cons.2 ⟨fun c hc => ?_, h⟩
        rcases List.mem_cons.1 hc with rfl | hc
        · exact ha
        · exact Nat.lt_trans ha (hk c hc)
    · split
      · split
        · exact hm
        · rename_i ha _
          exact List.pairwise_cons.2 ⟨fun c hc => by simpa [ha] using hk c hc, hm⟩
      · rename_i h1 h2
        refine List.pairwise_cons.2 ⟨fun c hc => ?_, ih hm⟩
        rcases write_mem d hc with hc | ⟨rfl, _⟩
        · exact hk c hc
        · simp only
          omega

theorem write_wf {m : List (Nat × α)} (h : Cells.wf d m) (a : Nat) (v : α) : Cells.wf d (Cells.write d a v m) := by
  refine ⟨write_pairwise d h.1 a v, fun c hc => ?_⟩
  rcases write_mem d hc with hc | ⟨rfl, hv⟩
  · exact h.2 c hc
  · exact hv

theorem read_write_same {m : List (Nat × α)} (h : m.Pairwise fun x y => x.1 < y.1) (a : Nat) (v : α) :
    Cells.read d (Cells.write d a v m) a = v := by
  induction m with
  | nil => unfold Cells.write; split <;> simp_all [Cells.read]
  | cons k m ih =>
    obtain ⟨k, w⟩ := k
    obtain ⟨hk, hm⟩ := List.pairwise_cons.1 h
    unfold Cells.write
    split
    · rename_i ha
      split
      · rename_i hv
        rw [hv]
        refine read_below d fun c hc => ?_
        rcases List.mem_cons.1 hc with rfl | hc
        · exact ha
        · exact Nat.lt_trans ha (hk c hc)
      · simp [Cells.read]
    · split
      · rename_i ha
        split
        · rename_i hv
          rw [hv]
          exact read_below d fun c hc => by simpa [ha] using hk c hc
        · simp [Cells.read]
      · rename_i h1 h2
        unfold Cells.read
        rw [if_neg (fun e => h2 e.symm)]
        exact ih hm

theorem read_write_other (m : List (Nat × α)) {a b : Nat} (v : α) (hb : b ≠ a) :
    Cells.read d (Cells.write d a v m) b = Cells.read d m b := by
  have hab : ¬ a = b := fun e => hb e.symm
  induction m with
  | nil => unfold Cells.write; split <;> simp [Cells.read, hab]
  | cons k m ih =>
    obtain ⟨k, w⟩ := k
    unfold Cells.write
    split
    · split
      · rfl
      · simp [Cells.read, hab]
    · split
      · rename_i ha
        subst ha
        split <;> simp [Cells.read, hab]
      · simp only [Cells.read, ih]

end

/-! ## The page store -/

/-- A write keeps the canonical form of the bytes and of the parity bits. -/
theorem writeStoreByte_ok {s : State} (h : StoreOk s.store) (a : Nat) (b : Byte) : StoreOk (s.writeStoreByte a b).store :=
  ⟨write_wf _ h.1 a b, write_wf _ h.2 a _⟩

/-- A page's bytes keep the canonical form. -/
theorem writePage_ok (r : Record) (data : List Byte) (o : Nat) {s : State} (h : StoreOk s.store) :
    StoreOk (State.writePage r o data s).store := by
  induction data generalizing o s with
  | nil => exact h
  | cons b data ih =>
    unfold State.writePage
    apply ih
    split
    · exact writeStoreByte_ok h _ _
    · exact h

/-- The store after reset is in canonical form. -/
theorem reset_storeOk : StoreOk State.reset.store := ⟨⟨.nil, by simp [State.reset, State.blank]⟩,
  ⟨.nil, by simp [State.reset, State.blank]⟩⟩

/-- A byte just written reads back. -/
theorem storeByte_write_same {s : State} (h : StoreOk s.store) (a : Nat) (b : Byte) :
    (s.writeStoreByte a b).storeByte a = b := read_write_same _ h.1.1 a b

/-- Every other byte reads as before. -/
theorem storeByte_write_other (s : State) {a c : Nat} (b : Byte) (hc : c ≠ a) :
    (s.writeStoreByte a b).storeByte c = s.storeByte c := read_write_other _ _ b hc

/-- A byte that no offset of the write names reads as before. -/
theorem writePage_other (r : Record) (data : List Byte) (o : Nat) (s : State) {c : Nat}
    (hc : ∀ i < data.length, r.byteAddress (o + i) ≠ some c) :
    (State.writePage r o data s).storeByte c = s.storeByte c := by
  induction data generalizing o s with
  | nil => rfl
  | cons b data ih =>
    unfold State.writePage
    rw [ih]
    · split
      · rename_i a ha
        refine storeByte_write_other s b fun e => ?_
        have := hc 0 (by simp)
        rw [Nat.add_zero, ha, e] at this
        exact this rfl
      · rfl
    · intro i hi
      have := hc (i + 1) (by simpa using hi)
      rwa [← Nat.add_assoc, Nat.add_right_comm] at this

/-- A page write changes nothing but the store's bytes and parity bits. -/
theorem writePage_frame (r : Record) (data : List Byte) (o : Nat) (s : State) :
    State.writePage r o data s =
      { s with store := { s.store with
          memory := (State.writePage r o data s).store.memory
          parity := (State.writePage r o data s).store.parity } } := by
  induction data generalizing o s with
  | nil => rfl
  | cons b data ih =>
    unfold State.writePage
    split
    · rw [ih]; rfl
    · exact ih _ _

end Sys2Proof.Machine
end

