-- ==== Sys2Proof/Laws/KeptEvents.lean ====
section
/-! SUPPORT. Every event of the directory, the planner, the transfer engine and the line keeps the forms of the
directory, the records and the contexts. -/

namespace Sys2Proof.Machine

variable {s : State}

/-! ## What the forms say of an entry -/

/-- A RELEASING entry has no record that is not VOID. -/
theorem Forms.releasing {p : Nat → Prop} (F : Forms p s) {a : Nat} {l : Label} (e : s.entry a = .label l)
    (n : l.phase.isReleasing = true) : ∀ h r, s.record h = some r → r.address = a → r.state = .void := by
  intro h r hr ha
  by_contra c
  obtain ⟨m, hm, nm, _⟩ := F.owned h r hr c
  rw [ha, e] at hm
  cases hm
  rw [n] at nm
  cases nm

/-- An entry that is not BOUND has no SENDING record. -/
theorem Forms.unbound (F : CellOk s) {a : Nat} {l : Label} (e : s.entry a = .label l) (n : l.phase ≠ .bound) :
    ∀ h r, s.record h = some r → r.address = a → r.state ≠ .sending := by
  intro h r hr ha c
  obtain ⟨m, hm, _, bm⟩ := F.owned h r hr (by rw [c]; simp)
  rw [ha, e] at hm
  cases hm
  exact n ((bm c).resolve_right id)

/-- The fields of an entry change, its phase too. -/
theorem Forms.relabel (F : CellOk s) {q : Nat → Prop} (a : Nat) (f : Label → Label)
    (id : ∀ l, (f l).longId = l.longId) (ok : ∀ l, s.entry a = .label l → LabelOk (f l))
    (rel : ∀ l, s.entry a = .label l → (f l).phase.isReleasing = true → ∀ h r, s.record h = some r → r.address = a →
      r.state = .void)
    (snd : ∀ l, s.entry a = .label l → (f l).phase = .bound ∨ q a ∨ ∀ h r, s.record h = some r → r.address = a →
      r.state ≠ .sending) : Forms q (s.updateLabel a f) := by
  unfold State.updateLabel
  split
  · rename_i l hl
    have e := label_entry hl
    exact F.setLabel e (id l) (ok l e) (rel l e) (snd l e) (fun _ _ => False.elim)
  · exact F.mono fun _ => False.elim

/-- An entry that is not RELEASING changes its phase and its counts, not its queue. -/
theorem LabelOk.rephase {l m : Label} (k : LabelOk l) (n : l.phase.isReleasing = false) (q : m.queue = l.queue)
    (misses : m.missCount ≤ 15) (joins : ∀ n b, m.phase = .joining n b → n ≤ 4)
    (releases : ∀ n b, m.phase = .releasing n b → n ≤ 2) : LabelOk m := by
  refine ⟨by rw [q]; exact k.kinds, fun o ho ko => ?_, by rw [q]; exact k.attempts, misses, joins, releases⟩
  rw [q] at ho
  have := (k.release o ho ko).2
  rw [n] at this
  cases this

theorem updateLabel_at {a : Nat} {f : Label → Label} {m : Label} (h : (s.updateLabel a f).entry a = .label m) :
    ∃ l, s.entry a = .label l ∧ m = f l := by
  rw [entry_updateLabel, if_pos rfl] at h
  split at h
  · rename_i l e
    cases h
    exact ⟨l, e, rfl⟩
  · cases h
  · cases h

/-! ## Joining -/

theorem lowestVacant_vacant {a : Nat} (h : s.lowestVacant = some a) : s.entry a = .vacant := by
  have k := List.find?_some h
  cases e : s.entry a with
  | vacant => rfl
  | cooling i c => simp [e, Entry.isVacant] at k
  | label l => simp [e, Entry.isVacant] at k

theorem holderOf_none {id : LongId} (h : s.holderOf id = none) (b : Nat) : (s.entry b).longId ≠ some id := by
  intro c
  have r := entry_range (s := s) (a := b) (by intro e; rw [e] at c; cases c)
  unfold State.holderOf at h
  rw [List.find?_eq_none] at h
  refine h b ?_ (by simp [c])
  unfold addresses
  rw [List.mem_range'_1]
  exact ⟨r.1, by unfold Config.directoryEntries; omega⟩

theorem holderOf_some {id : LongId} {a : Nat} (h : s.holderOf id = some a) : (s.entry a).longId = some id := by
  have k := List.find?_some h
  simpa using k

theorem asking_some {id : LongId} {x : Asking} (h : s.asking id = some x) : x ∈ s.directory.admission ∧ x.longId = id :=
  ⟨List.mem_of_find?_eq_some h, by simpa using List.find?_some h⟩

theorem asking_none {id : LongId} (h : s.asking id = none) : ∀ x ∈ s.directory.admission, x.longId ≠ id := by
  intro x hx c
  unfold State.asking at h
  rw [List.find?_eq_none] at h
  exact h x hx (by simp [c])

theorem newLabel_ok (d a : Nat) (id : LongId) (c : Capabilities) (heard : Stamp) : LabelOk (newLabel d a id c heard) :=
  ⟨List.nodup_nil, by simp [newLabel], by simp [newLabel], by simp [newLabel], by
    intro n b h
    simp only [newLabel, Phase.joining.injEq] at h
    omega, by
    intro n b h
    simp [newLabel] at h⟩

theorem Forms.createEntry {p : Nat → Prop} (F : Forms p s) {a : Nat} (e : s.entry a = .vacant) {id : LongId}
    (c : Capabilities) (mv : Option Nat) (heard : Stamp) (new : ∀ b, (s.entry b).longId ≠ some id)
    (off : ∀ x ∈ s.directory.admission, x.longId ≠ id) : Forms p (s.createEntry a id c mv heard) := by
  refine (F.create (m := newLabel s.config.defaultPeriod a id c heard) e new off (newLabel_ok _ _ _ _ _)).takeReading a mv ?_
  intro l h
  rw [entry_setEntry] at h
  split at h
  · cases h; rfl
  · rw [e] at h; cases h

theorem Forms.dropAsking {p : Nat → Prop} (F : Forms p s) (id : LongId) : Forms p (s.dropAsking id) :=
  F.admissionSub (List.filter_sublist.map _)

theorem Forms.updateAsking {p : Nat → Prop} (F : Forms p s) (id : LongId) {f : Asking → Asking}
    (h : ∀ x, (f x).longId = x.longId) : Forms p (s.updateAsking id f) := by
  refine F.admissionSub ?_
  rw [List.map_map]
  have : Asking.longId ∘ (fun x => if x.longId = id then f x else x) = Asking.longId := by
    funext x
    simp only [Function.comp]
    split
    · exact h x
    · rfl
  rw [this]

theorem dropAsking_off (id : LongId) : ∀ x ∈ (s.dropAsking id).directory.admission, x.longId ≠ id := by
  intro x hx
  have := (List.mem_filter.1 hx).2
  simpa using this

theorem Forms.joinOpenPolicy {p : Nat → Prop} (F : Forms p s) {q : JoinRequest} (n : s.holderOf q.longId = none) :
    Forms p (s.joinOpenPolicy q) := by
  unfold State.joinOpenPolicy
  split
  · split
    · exact F.updateAsking _ fun _ => rfl
    · split
      · rename_i a ha
        exact (F.dropAsking q.longId).createEntry (lowestVacant_vacant ha) _ _ _ (holderOf_none n) (dropAsking_off _)
      · exact F.post _
  · rename_i hx
    split
    · rename_i a ha
      exact F.createEntry (lowestVacant_vacant ha) _ _ _ (holderOf_none n) (asking_none hx)
    · exact F.post _

theorem Forms.joinAskPolicy {p : Nat → Prop} (F : Forms p s) {q : JoinRequest} (n : s.holderOf q.longId = none) :
    Forms p (s.joinAskPolicy q) := by
  unfold State.joinAskPolicy
  split
  · split
    · exact F.updateAsking _ fun _ => rfl
    · exact F.updateAsking _ fun _ => rfl
  · rename_i hx
    split
    · rename_i room
      refine Forms.post (F.admission ?_ ?_ ?_) _
      · rw [List.length_append]
        exact room
      · rw [List.map_append, List.nodup_append]
        refine ⟨F.dir.listed, by simp, ?_⟩
        intro a ha b hb
        obtain ⟨x, hm, rfl⟩ := List.mem_map.1 ha
        simp only [List.map_cons, List.map_nil, List.mem_singleton] at hb
        rw [hb]
        exact asking_none hx x hm
      · intro x hm a
        rcases List.mem_append.1 hm with hm | hm
        · exact F.dir.apart x hm a
        · simp only [List.mem_singleton] at hm
          subst hm
          exact holderOf_none n a
    · exact F.post _

theorem rejoinRecord_directory (a : Nat) (s : State) (h : Nat) : (State.rejoinRecord a s h).directory = s.directory := by
  unfold State.rejoinRecord
  split
  · rfl
  · split
    · split
      · unfold State.returnToReady
        rw [(freeContextOf_frame _ h).1]
        unfold State.updateRecord
        split <;> rfl
      · unfold State.reopen State.updateRecord
        split <;> rfl
      all_goals rfl
    · rfl

theorem fold_directory {β : Type} {f : State → β → State} (h : ∀ s b, (f s b).directory = s.directory) (l : List β)
    (s : State) : (l.foldl f s).directory = s.directory := by
  induction l generalizing s with
  | nil => rfl
  | cons b l ih => exact (ih (f s b)).trans (h s b)

theorem entry_eq {s t : State} (h : t.directory = s.directory) (a : Nat) : t.entry a = s.entry a := by
  unfold State.entry; rw [h]

theorem rejoin_ok {l : Label} (k : LabelOk l) (n : l.phase.isReleasing = false) (now : Stamp) :
    LabelOk (l.rejoin now) := by
  unfold Label.rejoin
  extract_lets m
  have key : LabelOk m ∧ m.phase.isReleasing = false := by
    show LabelOk (match l.planned with
      | some p => if l.queued .setProfile then l else l.enqueue (.setProfile p.profile) now
      | none => l) ∧ (match l.planned with
      | some p => if l.queued .setProfile then l else l.enqueue (.setProfile p.profile) now
      | none => l).phase.isReleasing = false
    split
    · split
      · exact ⟨k, n⟩
      · exact ⟨k.enqueue now n (by simp [OpFields.kind]), by rw [(enqueue_frame l _ now).1]; exact n⟩
    · exact ⟨k, n⟩
  refine key.1.rephase key.2 rfl (Nat.zero_le _) ?_ ?_
  · intro n b h
    simp only [Phase.joining.injEq] at h
    omega
  · intro n b h
    simp at h

theorem rejoin_id (l : Label) (now : Stamp) : (l.rejoin now).longId = l.longId := by
  unfold Label.rejoin
  extract_lets m
  show m.longId = l.longId
  show (match l.planned with
      | some p => if l.queued .setProfile then l else l.enqueue (.setProfile p.profile) now
      | none => l).longId = l.longId
  split
  · split
    · rfl
    · exact (enqueue_frame l _ now).2.1
  · rfl

theorem Forms.rejoin (F : CellOk s) (a : Nat) (mv : Option Nat)
    (ph : ∀ l, s.entry a = .label l → l.phase.isReleasing = false) : CellOk (s.rejoin a mv) := by
  unfold State.rejoin
  have K : Forms (fun b => b = a) (s.updateLabel a fun l => l.rejoin s.stamp) :=
    F.relabel a _ (fun l => rejoin_id l _) (fun l e => rejoin_ok (F.dir.labels a l e) (ph l e) _)
      (fun l e c => by simp [Label.rejoin, Phase.isReleasing] at c) (fun _ _ => .inr (.inl rfl))
  have R : CellOk ((s.updateLabel a fun l => l.rejoin s.stamp).rejoinRecords a) :=
    (K.rejoinRecords a).settle fun h r e ha => rejoinRecords_none _ a h r e ha
  refine R.takeReading a mv fun l e => ?_
  unfold State.rejoinRecords at e
  rw [entry_eq (fold_directory (rejoinRecord_directory a) handles _)] at e
  obtain ⟨m, _, rfl⟩ := updateLabel_at e
  rfl

theorem Forms.joinRefresh (F : CellOk s) (a : Nat) (b : Bool)
    (ph : ∀ l, s.entry a = .label l → ∃ n c, l.phase = .joining n c) : CellOk (s.joinRefresh a b) := by
  refine F.relabel a _ (fun _ => rfl) (fun l e => ?_) (fun _ _ c => by simp [Phase.isReleasing] at c) (fun l e => ?_)
  · obtain ⟨n, c, h⟩ := ph l e
    have ok := F.dir.labels a l e
    refine ok.rephase (by rw [h]; rfl) rfl ok.misses ?_ ?_
    · intro n b h
      simp only [Phase.joining.injEq] at h
      omega
    · intro n b h
      simp at h
  · obtain ⟨n, c, h⟩ := ph l e
    exact .inr (.inr (F.unbound e (by rw [h]; simp)))

theorem Forms.takeJoinRequest (F : CellOk s) (q : JoinRequest) : CellOk (s.takeJoinRequest q) := by
  unfold State.takeJoinRequest
  split
  · rename_i a _
    split
    · rename_i l hl
      have e := label_entry hl
      have uniq : ∀ m, s.entry a = .label m → m = l := fun m hm => by rw [e] at hm; cases hm; rfl
      split
      · rename_i h
        exact F.rejoin a _ fun m hm => by rw [uniq m hm, h]; rfl
      · rename_i h
        exact F.rejoin a _ fun m hm => by rw [uniq m hm, h]; rfl
      · rename_i h
        exact F.joinRefresh a _ fun m hm => ⟨_, _, (uniq m hm) ▸ h⟩
      · exact F
    · exact F
  · rename_i n
    split
    · exact F.joinOpenPolicy n
    · exact F.joinAskPolicy n
    · exact F

/-! ## Leaving -/

theorem Forms.enterCooling {p : Nat → Prop} (F : Forms p s) {a : Nat}
    (gone : ∀ h r, s.record h = some r → r.address = a → r.state = .void) : Forms p (s.enterCooling a) := by
  unfold State.enterCooling
  split
  · rename_i l hl
    refine F.clear (.inl ?_) (by simp) gone
    rw [label_entry hl]
    rfl
  · exact F

/-- With an address's records removed and its operations, each record of it that is left is VOID. -/
theorem removed_gone (s : State) (a : Nat) (c : OpFailure) : ∀ h r,
    ((s.removeRecords a).removeOperations a c).record h = some r → r.address = a → r.state = .void := by
  intro h r e
  rw [record_eq (congrArg PageStore.records (removeOperations_frame _ a c).1)] at e
  exact (removeRecords_fades s a).2 h r e

theorem Forms.removed {p : Nat → Prop} (F : Forms p s) (a : Nat) (c : OpFailure) :
    Forms p ((s.removeRecords a).removeOperations a c) := (F.removeRecords a).removeOperations a c

theorem Forms.releaseJoining {p : Nat → Prop} (F : Forms p s) (a : Nat) : Forms p (s.releaseJoining a) :=
  ((F.removed a .released).enterCooling (removed_gone s a _)).post _

theorem Forms.forget {p : Nat → Prop} (F : Forms p s) (a : Nat) : Forms p (s.forget a) :=
  (F.removed a .forgotten).enterCooling (removed_gone s a _)

theorem Forms.releaseBound (F : CellOk s) (a : Nat) (m : Bool) : CellOk (s.releaseBound a m) := by
  have R := F.removed a .released
  have G := removed_gone s a .released
  unfold State.releaseBound
  refine R.relabel a _ (fun _ => rfl) (fun l e => ?_) (fun _ _ _ => G) (fun _ _ => .inr (.inr fun h r e ha => by rw [G h r e ha]; simp))
  refine ⟨by simp, ?_, by simp, (R.dir.labels a l e).misses, ?_, ?_⟩
  · intro o _ _
    exact ⟨rfl, rfl⟩
  · intro n b h
    simp at h
  · intro n b h
    simp only [Phase.releasing.injEq] at h
    omega

theorem Forms.joinFailed {p : Nat → Prop} (F : Forms p s) (a : Nat) (id : LongId) : Forms p (s.joinFailed a id) :=
  ((F.removed a .joinFailed).post _).clear (.inr rfl) (by simp) (removed_gone s a _)

/-! ## What a STATUS does -/

theorem Forms.toBound (F : CellOk s) {a : Nat} {l : Label} (e : s.entry a = .label l)
    (n : l.phase.isReleasing = false) :
    CellOk (s.updateLabel a fun l => { l with phase := .bound, missCount := 0, drifted := false }) := by
  refine F.relabel a _ (fun _ => rfl) (fun m hm => ?_) (fun m hm c => by simp [Phase.isReleasing] at c)
    (fun _ _ => .inl rfl)
  rw [e] at hm
  cases hm
  exact (F.dir.labels a l e).rephase n rfl (Nat.zero_le _) (by simp) (by simp)

theorem toBound_phase {a : Nat} {m : Label}
    (h : (s.updateLabel a fun l => { l with phase := .bound, missCount := 0, drifted := false }).entry a = .label m) :
    m.phase.isReleasing = false := by
  obtain ⟨l, _, rfl⟩ := updateLabel_at h
  rfl

theorem Forms.takeParts (F : CellOk s) (a slot : Nat) (r : StatusReport) : CellOk (s.takeParts a slot r) := by
  unfold State.takeParts
  split
  · exact F
  · rename_i l hl
    have e := label_entry hl
    split
    · rename_i h
      split
      · refine Forms.takeBoundStatus ((F.toBound e (by rw [h]; rfl)).post _) a slot r fun m hm => ?_
        exact toBound_phase hm
      · exact F
    · rename_i h
      refine F.takeBoundStatus a slot r fun m hm => ?_
      rw [e] at hm
      cases hm
      rw [h]
      rfl
    · rename_i h
      refine Forms.takeBoundStatus ((F.toBound e (by rw [h]; rfl)).post _) a slot r fun m hm => ?_
      exact toBound_phase hm
    · rename_i h
      split
      · exact (F.enterCooling (F.releasing e (by rw [h]; rfl))).post _
      · exact F

theorem Forms.takeStatus (F : CellOk s) (a slot : Nat) (r : StatusReport) : CellOk (s.takeStatus a slot r) :=
  (F.tame a (tame_noteEcho slot r)).takeParts a slot r

/-! ## The end of a reply window and of a call -/

theorem tame_unanswered (w : OpenSend) : Tame fun l => { l.unansweredProfile w with openSend := none } :=
  .same fun l => by
    unfold Label.unansweredProfile
    split
    · split <;> exact ⟨rfl, rfl, rfl, rfl⟩
    all_goals exact ⟨rfl, rfl, rfl, rfl⟩

/-- The operation of a kind is the only one of its kind, so its attempts are those the count names. -/
theorem LabelOk.attemptsOf {l : Label} (h : LabelOk l) {o : Operation} (m : o ∈ l.queue) :
    l.attemptsOf o.kind = o.attempts := by
  unfold Label.attemptsOf
  cases e : l.queue.find? fun x => x.kind == o.kind with
  | none =>
    rw [List.find?_eq_none] at e
    exact absurd (beq_self_eq_true o.kind) (e o m)
  | some x =>
    have k : x.kind = o.kind := by simpa using List.find?_some e
    have : x = o := List.inj_on_of_nodup_map h.kinds (List.mem_of_find?_eq_some e) m k
    rw [this]

theorem LabelOk.chargeAttempt {l : Label} (h : LabelOk l) {k : OpKind} (lt : l.attemptsOf k + 1 ≤ 7) :
    LabelOk (l.chargeAttempt k) :=
  h.mapQueue (f := fun o => if o.kind = k then { o with attempts := o.attempts + 1 } else o) (fun o => by split <;> rfl)
    (fun o ho => by
      split
      · rename_i e
        have := h.attemptsOf ho
        rw [e] at this
        show o.attempts + 1 ≤ 7
        omega
      · exact h.attempts o ho) rfl rfl rfl

theorem tame_clearMarks : Tame Label.clearMarks :=
  ⟨fun _ => rfl, fun _ => rfl, fun _ h => h.mapQueue (f := fun o => { o with sentThisRound := false }) (fun _ => rfl)
    (fun o ho => h.attempts o ho) rfl rfl rfl⟩

theorem Forms.sendUnanswered {p : Nat → Prop} (F : Forms p s) (c : s.config.opAttempts ≤ 7) (a : Nat) (w : OpenSend) :
    Forms p (s.sendUnanswered a w) := by
  have K := F.tame a (tame_unanswered w)
  unfold State.sendUnanswered
  extract_lets t k
  split
  · split
    · rename_i l hl
      split
      · exact Forms.post (K.tame a (tame_dequeue _)) _
      · rename_i lt
        refine K.label a _ fun m hm => ⟨rfl, rfl, (K.dir.labels a m hm).chargeAttempt ?_⟩
        rw [label_entry hl] at hm
        cases hm
        show l.attemptsOf k + 1 ≤ 7
        omega
    · exact K
  · exact K

theorem Forms.windowSend {p : Nat → Prop} (F : Forms p s) (c : s.config.opAttempts ≤ 7) (a slot : Nat) : Forms p (s.windowSend a slot) := by
  unfold State.windowSend
  split
  · split
    · split
      · exact F.sendUnanswered c a _
      · exact F
    · exact F
  · exact F

theorem Forms.goMissing (F : CellOk s) {a : Nat} (ph : ∀ l, s.entry a = .label l → l.phase.isReleasing = false) :
    CellOk (s.goMissing a) := by
  have K : Forms (fun b => b = a) (s.updateLabel a fun l => { l with phase := .missing }) :=
    F.relabel a _ (fun _ => rfl) (fun l e => by
      have ok := F.dir.labels a l e
      exact ok.rephase (ph l e) rfl ok.misses (by simp) (by simp))
      (fun l e c => by simp [Phase.isReleasing] at c) (fun _ _ => .inr (.inl rfl))
  refine Forms.post ?_ _
  exact (K.returnSending a).settle fun h r e ha => returnSending_none K a h r e ha

theorem Forms.judgeMiss (F : CellOk s) {a : Nat} {l : Label} (e : s.entry a = .label l) (b : l.phase = .bound) :
    CellOk (s.judgeMiss a l) := by
  have two : ∀ n, n ≤ 15 → ∀ d, CellOk (s.updateLabel a fun l => { l with missCount := n, drifted := d }) := by
    intro n hn d
    refine F.label a _ fun m hm => ⟨rfl, rfl, ?_⟩
    rw [e] at hm
    cases hm
    exact (F.dir.labels a l e).rephase (by rw [b]; rfl) rfl hn (fun n c h => by rw [b] at h; cases h)
      (fun n c h => by rw [b] at h; cases h)
  unfold State.judgeMiss
  split
  · exact two 0 (Nat.zero_le _) false
  · dsimp only
    have K := two (min 15 (l.missCount + 1)) (Nat.min_le_left _ _) true
    split
    · refine K.goMissing fun m hm => ?_
      obtain ⟨x, hx, rfl⟩ := updateLabel_at hm
      rw [e] at hx
      cases hx
      show l.phase.isReleasing = false
      rw [b]
      rfl
    · exact K

theorem Forms.useJoinAttempt (F : CellOk s) {a : Nat} {l : Label} (e : s.entry a = .label l) :
    CellOk (s.useJoinAttempt a l) := by
  unfold State.useJoinAttempt
  split
  · rename_i n r h
    split
    · exact F.joinFailed a _
    · have ok := F.dir.labels a l e
      have le := ok.joins n r h
      refine F.relabel a _ (fun _ => rfl) (fun m hm => ?_) (fun m hm c => by simp [Phase.isReleasing] at c)
        (fun m hm => .inr (.inr (F.unbound e (by rw [h]; simp))))
      rw [e] at hm
      cases hm
      refine ok.rephase (by rw [h]; rfl) rfl ok.misses ?_ (by simp)
      intro k c x
      simp only [Phase.joining.injEq] at x
      omega
  all_goals exact F

theorem Forms.useReleaseAttempt (F : CellOk s) {a : Nat} {l : Label} (e : s.entry a = .label l) :
    CellOk (s.useReleaseAttempt a l) := by
  unfold State.useReleaseAttempt
  split
  · rename_i n r h
    have G := F.releasing e (by rw [h]; rfl)
    split
    · exact (F.enterCooling G).post _
    · have ok := F.dir.labels a l e
      have le := ok.releases n r h
      refine F.relabel a _ (fun _ => rfl) (fun m hm => ?_) (fun m hm c => G)
        (fun m hm => .inr (.inr (F.unbound e (by rw [h]; simp))))
      rw [e] at hm
      cases hm
      refine ⟨ok.kinds, fun o ho ko => ⟨(ok.release o ho ko).1, rfl⟩, ok.attempts, ok.misses, by simp, ?_⟩
      intro k c x
      simp only [Phase.releasing.injEq] at x
      omega
  all_goals exact F

theorem Forms.judgeCall (F : CellOk s) (c : Call) : CellOk (s.judgeCall c) := by
  unfold State.judgeCall
  split
  · exact F
  · rename_i l hl
    have e := label_entry hl
    dsimp only
    refine Forms.tame ?_ _ tame_clearMarks
    split
    · rename_i hf
      split
      · exact F.useJoinAttempt e
      · rename_i hk
        rw [hk] at hf
        have : l.phase.isBound = true := by simpa [CallKind.fits] using (Bool.and_eq_true _ _ ▸ hf).2
        refine F.judgeMiss e ?_
        cases hp : l.phase <;> rw [hp] at this <;> simp [Phase.isBound] at this ⊢
      · exact F
      · exact F.useReleaseAttempt e
    · exact F

/-! ## The transfer engine -/

theorem judge_counts {limit : Nat} (h : limit ≤ 15) {c : Context} (k : c.stallCount ≤ 15 ∧ c.busyCount ≤ 8) {x y : Nat}
    (e : judge limit c = .counts x y) : x ≤ 15 ∧ y ≤ 8 := by
  unfold judge Config.busyLimit at e
  repeat' split at e
  all_goals cases e
  all_goals omega

theorem Forms.judgeTransfer {p : Nat → Prop} (F : Forms p s) (limit : s.config.stallLimit ≤ 15) (a : Nat) :
    Forms p (s.judgeTransfer a) := by
  unfold State.judgeTransfer
  split
  · exact F
  · rename_i h e
    obtain ⟨r, hr, _, n⟩ := sendingOf_some e
    split
    · exact F
    · split
      · exact F
      · rename_i c hc
        split
        · exact F.markContext hc rfl rfl ⟨rfl, rfl⟩ ⟨rfl, .inr rfl⟩
        · split
          · exact F.enterStalled hr n _
          · rename_i e
            exact F.setContext hc rfl rfl (judge_counts limit (F.ctx.counts _ c hc) e) fun _ _ f m =>
              .inl (m.imp_right (by simp [Context.clearMarks]))

/-- A record freed with its context, whose last write is forgotten: the other records and contexts stay. -/
theorem freed_spec {h i : Nat} (o : Option Context) (lt : h < 128) (li : i < 16) :
    (∀ k, (((s.setContext i o).freeRecord h).setContext i none).record k = if k = h then none else s.record k)
    ∧ (∀ j, (((s.setContext i o).freeRecord h).setContext i none).context j = if j = i then none else s.context j)
    ∧ (((s.setContext i o).freeRecord h).setContext i none).directory = s.directory
    ∧ (((s.setContext i o).freeRecord h).setContext i none).store.heldOrder
      = s.store.heldOrder.filter fun x => x != h := by
  refine ⟨fun k => record_set (s := s) (k := k) (o := none) lt, ?_, ?_, ?_⟩
  · intro j
    rw [context_setContext]
    by_cases n : j = i
    · rw [if_pos ⟨n, li⟩, if_pos n]
    · rw [if_neg (fun k => n k.1), if_neg n]
      show (s.setContext i o).context j = _
      rw [context_setContext, if_neg (fun k => n k.1)]
  · unfold State.freeRecord
    rw [setContext_directory, setHeldOrder_directory, setRecord_directory, setContext_directory]
  · unfold State.freeRecord
    rw [setContext_store]
    rfl

theorem Forms.fragmentBurstEnd {p : Nat → Prop} (F : Forms p s) (i : Nat) : Forms p (s.fragmentBurstEnd i) := by
  unfold State.fragmentBurstEnd
  split
  · exact F
  · rename_i c hc
    have K : Forms p (s.setContext i (some { c with onAir := none })) :=
      F.markContext hc rfl rfl ⟨rfl, rfl⟩ ⟨rfl, .inl rfl⟩
    dsimp only
    split
    · exact K
    · rename_i r hr
      have hr' : (s.setContext i (some { c with onAir := none })).record c.handle = some r := hr
      split
      · have lt := record_lt hr
        obtain ⟨hrec, hctx, hdir, hord⟩ := freed_spec (s := s) (some { c with onAir := none }) lt (context_lt hc)
        refine F.free hrec hdir hord (F.ctx.drop hrec (by simp) ?_ ?_)
        · intro j d e
          rw [hctx] at e
          split at e
          · cases e
          · rename_i n
            exact ⟨e, fun k => n (F.ctx.apart j i d c e hc k)⟩
        · intro j d e n
          rw [hctx, if_neg]
          · exact e
          · rintro rfl
            rw [hc] at e
            cases e
            exact n rfl
      · rename_i n
        split
        · exact K.enterStalled hr' n _
        · exact K
      all_goals exact K

theorem Forms.takeReceipt {p : Nat → Prop} (F : Forms p s) {i : Nat} {c : Context} {r : Record}
    (hc : s.context i = some c) (hr : s.record c.handle = some r) (n : r.state = .sending) (q : ReceiptReport) :
    Forms p (s.takeReceipt i c r q) := by
  unfold State.takeReceipt
  split
  · exact F.markContext hc rfl rfl ⟨rfl, rfl⟩ ⟨rfl, .inl rfl⟩
  · extract_lets m u t
    split
    · have K : Forms p t := by
        refine F.setContext hc rfl rfl (F.ctx.counts _ c hc) fun x hx f m => ?_
        rw [hr] at hx
        cases hx
        rcases m with m | m
        · rcases (mem_setUnion _ _ f).1 m with m | m
          · exact .inr (of_decide_eq_true (List.mem_filter.1 m).2)
          · exact .inl (.inl m)
        · exact .inl (.inr m)
      split
      · have hr' : t.record c.handle = some r := hr
        exact K.enterHeld hr' (.inr n)
      · exact K
    · exact F.markContext hc rfl rfl ⟨rfl, rfl⟩ ⟨rfl, .inl rfl⟩

theorem Forms.engineReply {p : Nat → Prop} (F : Forms p s) (a h : Nat) (d : List Byte) :
    Forms p (s.engineReply a h d) := by
  unfold State.engineReply
  split
  · exact F
  · rename_i r hr
    split
    · rename_i hn
      split
      · exact F
      · rename_i i hi
        split
        · exact F
        · rename_i c hc
          obtain ⟨x, hx, hh⟩ := contextOf_some hi
          rw [hc] at hx
          cases hx
          split
          · exact F.takeReceipt hc (by rw [hh]; exact hr) hn.1 _
          · exact F.markContext hc rfl rfl ⟨rfl, rfl⟩ ⟨rfl, .inl rfl⟩
    · exact F

theorem sendRequest_frame {t : State} {lead count : Nat} {source : BurstSource}
    (h : s.sendRequest lead count source = some t) : t.contexts = s.contexts ∧ t.store = s.store
      ∧ t.directory.entries = s.directory.entries := by
  have key : ∀ c, (s.endAssemblyBroken c).contexts = s.contexts ∧ (s.endAssemblyBroken c).store = s.store
      ∧ (s.endAssemblyBroken c).directory.entries = s.directory.entries := by
    intro c
    unfold State.endAssemblyBroken
    split
    · exact ⟨rfl, rfl, rfl⟩
    · dsimp only
      split
      · split <;> exact ⟨rfl, rfl, rfl⟩
      · unfold State.deliverBroken
        split <;> exact ⟨rfl, rfl, rfl⟩
  unfold State.sendRequest at h
  split at h
  · cases h
    unfold State.beginBlanking
    split
    · exact ⟨rfl, rfl, rfl⟩
    · exact key _
  · cases h

theorem chooseFragment_lt {n f : Nat} {c : Context} (h : chooseFragment n c = some f) : f < n := by
  unfold chooseFragment at h
  split at h
  · rename_i g e
    cases h
    exact List.mem_range.1 (List.mem_of_find?_eq_some e)
  · exact List.mem_range.1 (List.mem_of_find?_eq_some h)

theorem Forms.sendFragment {p : Nat → Prop} (F : Forms p s) {t : State} {a h : Nat}
    (e : s.sendFragment a h = some t) : Forms p t := by
  unfold State.sendFragment at e
  split at e
  · cases e
  · rename_i r hr
    split at e
    · split at e
      · cases e
      · rename_i i hi
        split at e
        · cases e
        · rename_i c hc
          split at e
          · cases e
          · rename_i f hf
            split at e
            · cases e
            · rename_i u hu
              cases e
              have hc' : u.context i = some c := by rw [context_eq (sendRequest_frame hu).1]; exact hc
              refine Forms.tame ?_ a (.same fun _ => ⟨rfl, rfl, rfl, rfl⟩)
              have K := F.sendRequest hu
              refine K.setContext hc' rfl rfl (K.ctx.counts _ c hc') fun x hx y m => ?_
              rcases m with m | m
              · exact .inl (.inl m)
              · rcases (mem_setInsert _ _ y).1 m with rfl | m
                · obtain ⟨z, hz, hh⟩ := contextOf_some hi
                  rw [hc] at hz
                  cases hz
                  rw [record_eq (congrArg PageStore.records (sendRequest_frame hu).2.1), hh, hr] at hx
                  cases hx
                  exact .inr (chooseFragment_lt hf)
                · exact .inl (.inr m)
    · cases e

/-! ## The directory's slots -/

theorem Forms.sendDirectory {p : Nat → Prop} (F : Forms p s) {t : State} {a : Nat} {bytes : List Byte}
    {f : Label → Label} (tf : Tame f) (e : s.sendDirectory a bytes f = some t) : Forms p t := by
  unfold State.sendDirectory at e
  split at e
  · rename_i u hu
    cases e
    exact (F.sendRequest hu).tame a tf
  · cases e

theorem tame_openSend (q : BitVec 4) (k : OpKind) (w : OpenSend) :
    Tame fun l => { (l.markSent q).markOpSent k with openSend := some w } :=
  Tame.comp (f := fun l => { l with openSend := some w }) (.same fun _ => ⟨rfl, rfl, rfl, rfl⟩)
    (Tame.comp (tame_markOpSent k) (tame_markSent q))

theorem Forms.sendPlace {p : Nat → Prop} (F : Forms p s) {t : State} {slot : Nat} {x : Place}
    (e : s.sendPlace slot x = some t) : Forms p t := by
  unfold State.sendPlace at e
  split at e
  · unfold State.sendAssign at e
    split at e
    · cases e
    · split at e
      · exact F.sendDirectory (tame_markSent _) e
      · cases e
  · unfold State.sendControl at e
    split at e
    · cases e
    · split at e
      · split at e
        · cases e
        · exact F.sendDirectory (tame_openSend _ _ _) e
      · cases e
  · unfold State.sendProbe at e
    split at e
    · cases e
    · split at e
      · exact F.sendDirectory (tame_markSent _) e
      · cases e
  · unfold State.sendRelease at e
    split at e
    · cases e
    · split at e
      · exact F.sendDirectory (Tame.comp (tame_markOpSent _) (tame_markSent _)) e
      · cases e
  · exact F.sendFragment e

/-! ## The planner -/

theorem bestReady_some {a h : Nat} (e : s.bestReady a = some h) : ∃ r, s.record h = some r ∧ r.address = a
    ∧ r.state = .ready := by
  have key : ∀ (l : List Nat) (b : Option Nat), (∀ k, b = some k → ∃ r, s.record k = some r ∧ r.address = a
      ∧ r.state = .ready) → ∀ k, l.foldl (s.betterReady a) b = some k → ∃ r, s.record k = some r ∧ r.address = a
      ∧ r.state = .ready := by
    intro l
    induction l with
    | nil => exact fun b hb k e => hb k e
    | cons x l ih =>
      intro b hb k e
      refine ih _ (fun y hy => ?_) k e
      unfold State.betterReady at hy
      split at hy
      · exact hb y hy
      · rename_i r hr
        split at hy
        · rename_i hn
          have hit : ∀ z, some x = some z → ∃ r, s.record z = some r ∧ r.address = a ∧ r.state = .ready := by
            intro z hz
            cases hz
            exact ⟨r, hr, hn⟩
          split at hy
          · exact hit y hy
          · split at hy
            · exact hit y hy
            · split at hy
              · exact hit y hy
              · exact hb y hy
        · exact hb y hy
  exact key handles none (by simp) h e

theorem Forms.claimFor {p : Nat → Prop} (F : Forms p s) {a : Nat} (b : ∃ l, s.entry a = .label l ∧ l.phase = .bound) :
    Forms p (s.claimFor a) := by
  unfold State.claimFor
  split
  · exact F
  · rename_i none'
    split
    · rename_i h e
      obtain ⟨r, hr, ha, n⟩ := bestReady_some e
      unfold State.claim
      split
      · rename_i x i hx hi
        rw [hr] at hx
        cases hx
        obtain ⟨lt, free⟩ := freeContext_none hi
        refine F.claimed (h := h) (i := i) (q := { r with state := .sending }) (c := newContext h r.address) hr n ?_
          ⟨rfl, rfl, rfl, rfl⟩ rfl rfl ?_ ?_ free ?_ rfl (by rw [ha]; exact b) (fun k y hy hya => ?_)
        · intro k
          exact record_update hr _ (k := k)
        · unfold State.updateRecord; rw [hr]; rfl
        · unfold State.updateRecord; rw [hr]; rfl
        · intro j
          rw [context_setContext]
          have : ∀ j, (s.updateRecord h fun r => { r with state := .sending }).context j = s.context j := by
            intro j
            unfold State.updateRecord; rw [hr]; rfl
          simp [lt, this]
        · exact sendingOf_none none' hy (hya.trans ha)
      · exact F
    · exact F

theorem claimFor_directory (s : State) (a : Nat) : (s.claimFor a).directory = s.directory := by
  unfold State.claimFor
  split
  · rfl
  · split
    · unfold State.claim
      split
      · unfold State.updateRecord
        split <;> rfl
      · rfl
    · rfl

theorem mem_placeApplicant (x y : Applicant) (l : List Applicant) : y ∈ placeApplicant x l ↔ y = x ∨ y ∈ l := by
  induction l with
  | nil => simp [placeApplicant]
  | cons z l ih =>
    unfold placeApplicant
    split
    · simp
    · rw [List.mem_cons, ih, List.mem_cons]
      tauto

theorem mem_candidates {x : Applicant} : x ∈ s.candidates ↔ ∃ a ∈ addresses, s.applicant a = some x := by
  have key : ∀ (l q : List Applicant), x ∈ l.foldl (fun q x => placeApplicant x q) q ↔ x ∈ l ∨ x ∈ q := by
    intro l
    induction l with
    | nil => simp
    | cons y l ih =>
      intro q
      rw [List.foldl_cons, ih, mem_placeApplicant, List.mem_cons]
      tauto
  unfold State.candidates
  rw [key, List.mem_filterMap]
  simp

theorem applicant_some {a : Nat} {x : Applicant} (h : s.applicant a = some x) : x.address = a
    ∧ s.callKind a = some x.kind ∧ x.rank = s.candidateClass a x.kind ∧ x.age = s.waitingAge a := by
  unfold State.applicant at h
  split at h
  · rename_i k hk
    cases h
    exact ⟨rfl, hk, rfl, rfl⟩
  · cases h

theorem callKind_service {a : Nat} (h : s.callKind a = some .service) : ∃ l, s.entry a = .label l ∧ l.phase = .bound := by
  unfold State.callKind at h
  split at h
  · cases h
  · rename_i l hl
    refine ⟨l, label_entry hl, ?_⟩
    split at h
    · cases h
    · repeat' split at h
      all_goals cases h
    · split at h <;> cases h
    · assumption

theorem Forms.turn {p : Nat → Prop} {c : Allocation} (F : Forms p c.state) (x : Applicant)
    (b : x.kind = .service → ∃ l, c.state.entry x.address = .label l ∧ l.phase = .bound) : Forms p (c.turn x).state := by
  unfold Allocation.turn
  dsimp only
  repeat' split
  all_goals first
    | exact F
    | refine F.claimFor (b ?_)
      cases hk : x.kind <;> simp_all [State.fragmentSlots]

theorem turn_directory (c : Allocation) (x : Applicant) : (c.turn x).state.directory = c.state.directory := by
  unfold Allocation.turn
  dsimp only
  repeat' split
  all_goals first
    | rfl
    | exact claimFor_directory _ _

theorem Forms.turns {p : Nat → Prop} (q : List Applicant) {c : Allocation} (F : Forms p c.state)
    (b : ∀ x ∈ q, x.kind = .service → ∃ l, c.state.entry x.address = .label l ∧ l.phase = .bound) :
    Forms p (q.foldl Allocation.turn c).state := by
  induction q generalizing c with
  | nil => exact F
  | cons x q ih =>
    refine ih (F.turn x (b x List.mem_cons_self)) fun y hy hk => ?_
    rw [entry_eq (turn_directory c x)]
    exact b y (List.mem_cons_of_mem x hy) hk

theorem Forms.buildPlan {p : Nat → Prop} (F : Forms p s) : Forms p s.buildPlan := by
  have K : Forms p s.allocate.state := by
    refine Forms.turns s.candidates (c := ⟨s, Config.dataSlots, 0, []⟩) F fun x hx hk => ?_
    obtain ⟨a, _, ha⟩ := mem_candidates.1 hx
    obtain ⟨e, k, _⟩ := applicant_some ha
    rw [e]
    exact callKind_service (by rw [k, hk])
  exact K.same rfl rfl rfl rfl rfl

theorem Forms.sendBeacon {p : Nat → Prop} (F : Forms p s) : Forms p s.sendBeacon := by
  unfold State.sendBeacon
  split
  · exact F
  · split
    · rename_i t h
      exact F.sendRequest h
    · exact F

/-! ## Slots and rounds -/

theorem Forms.closeWindowAssembly {p : Nat → Prop} (F : Forms p s) : Forms p s.closeWindowAssembly := by
  unfold State.closeWindowAssembly
  split
  · exact F
  · split
    · exact F.endAssemblyBroken _
    · exact F

theorem Forms.takeWindowEnd {p : Nat → Prop} (F : Forms p s) (c : s.config.opAttempts ≤ 7) :
    Forms p s.takeWindowEnd := by
  unfold State.takeWindowEnd
  split
  · exact F
  · split
    · refine Forms.windowSend ?_ ?_ _ _
      rotate_left
      · exact c
      exact F.same rfl rfl rfl rfl rfl
    · exact F

theorem Forms.takeCallEnd (F : CellOk s) (limit : s.config.stallLimit ≤ 15) : CellOk s.takeCallEnd := by
  unfold State.takeCallEnd
  split
  · exact F
  · split
    · exact F
    · dsimp only
      refine Forms.tame ?_ _ (tame_foldPlanned _)
      refine Forms.judgeTransfer ?_ (by rw [(judgeCall_cell _ _).config]; exact limit) _
      refine Forms.judgeCall ?_ _
      exact F.same rfl rfl rfl rfl rfl

theorem Forms.openSlot {p : Nat → Prop} (F : Forms p s) : Forms p s.openSlot := by
  unfold State.openSlot
  split
  · exact F.same rfl rfl rfl rfl rfl
  · split
    · exact F.same rfl rfl rfl rfl rfl
    · split
      · rename_i t h
        exact (F.sendPlace h).same rfl rfl rfl rfl rfl
      · exact F.same rfl rfl rfl rfl rfl

theorem Forms.slotStart (F : CellOk s) (c : ConfigOk s.config) : CellOk s.slotStart := by
  have k1 := ((firstTick_cell s).trans (closeWindowAssembly_cell _)).config
  have k2 := (takeWindowEnd_cell s.firstTick.closeWindowAssembly).config.trans k1
  unfold State.slotStart
  split
  · refine Forms.openSlot ?_
    have K := (F.firstTick.closeWindowAssembly.takeWindowEnd (by rw [k1]; exact c.attempts)).takeCallEnd
      (by rw [k2]; exact c.stalls)
    exact K.same rfl rfl rfl rfl rfl
  · exact F

theorem Forms.settleHub {p : Nat → Prop} (F : Forms p s) : Forms p s.settleHub := by
  unfold State.settleHub
  split
  · exact F
  · split
    · exact F.same rfl rfl rfl rfl rfl
    · exact F
  · exact F
  · refine Forms.post (Forms.endTransfers ?_) _
    exact F.same rfl rfl rfl rfl rfl
  · exact F

theorem Forms.clearForeignSeen {p : Nat → Prop} (F : Forms p s) : Forms p s.clearForeignSeen := by
  unfold State.clearForeignSeen
  split
  · exact F.same rfl rfl rfl rfl rfl
  · exact F

theorem entry_atEpoch (s : State) (ended begun : Epoch) (a : Nat) :
    (s.entriesAtEpoch ended begun).entry a = (s.entry a).epochBoundary ended begun := by
  unfold State.entry State.entriesAtEpoch
  by_cases h : a = 0
  · rw [if_pos h, if_pos h]; rfl
  · rw [if_neg h, if_neg h]
    dsimp only
    rw [Vector.getElem?_map]
    cases e : s.directory.entries[a - 1]? with
    | none => rfl
    | some x => rfl

theorem Forms.entriesAtEpoch {p : Nat → Prop} (F : Forms p s) (ended begun : Epoch) :
    Forms p (s.entriesAtEpoch ended begun) := by
  have lab : ∀ l, (Entry.label l).epochBoundary ended begun = .label (l.foldPlanned ended) := fun _ => rfl
  have sub : ∀ a id, ((s.entriesAtEpoch ended begun).entry a).longId = some id → (s.entry a).longId = some id := by
    intro a id h
    rw [entry_atEpoch] at h
    cases e : s.entry a with
    | vacant => rw [e] at h; exact h
    | cooling i c =>
      rw [e] at h
      unfold Entry.epochBoundary Entry.endCooling at h
      dsimp only at h
      by_cases k : c = begun
      · rw [if_pos k] at h; cases h
      · rw [if_neg k] at h; exact h
    | label l =>
      rw [e, lab] at h
      have := (tame_foldPlanned ended).longId l
      simp only [Entry.longId] at h ⊢
      rw [← this]; exact h
  have back : ∀ a l, (s.entriesAtEpoch ended begun).entry a = .label l →
      ∃ m, s.entry a = .label m ∧ l = m.foldPlanned ended := by
    intro a l h
    rw [entry_atEpoch] at h
    cases e : s.entry a with
    | vacant => rw [e] at h; cases h
    | cooling i c =>
      rw [e] at h
      unfold Entry.epochBoundary Entry.endCooling at h
      dsimp only at h
      by_cases k : c = begun
      · rw [if_pos k] at h; cases h
      · rw [if_neg k] at h; cases h
    | label m =>
      rw [e, lab] at h
      cases h
      exact ⟨m, rfl, rfl⟩
  refine F.withDir ⟨?_, F.dir.room, F.dir.listed, ?_, ?_⟩ ?_ (fun _ => rfl) rfl (fun _ => rfl)
  · exact fun a b id ha hb => F.dir.ids a b id (sub a id ha) (sub b id hb)
  · exact fun x hx a h => F.dir.apart x hx a (sub a _ h)
  · intro a l h
    obtain ⟨m, hm, rfl⟩ := back a l h
    exact (tame_foldPlanned ended).ok m (F.dir.labels a m hm)
  · intro h r hr hv
    obtain ⟨l, e, n, b⟩ := F.owned h r hr hv
    refine ⟨l.foldPlanned ended, by rw [entry_atEpoch, e]; rfl, ?_, ?_⟩
    · rw [(tame_foldPlanned ended).phase]; exact n
    · rw [(tame_foldPlanned ended).phase]; exact b

theorem Forms.directoryBoundary {p : Nat → Prop} (F : Forms p s) (e : Epoch) : Forms p (s.directoryBoundary e) := by
  unfold State.directoryBoundary
  have K : Forms p s.ageAdmission.updateCrowded := by
    refine Forms.same (s := s.ageAdmission) ?_ rfl rfl rfl rfl rfl
    exact F.admissionSub (List.filter_sublist.map _)
  dsimp only
  split
  · exact K.entriesAtEpoch _ _
  · exact K

theorem Forms.plannerBoundary {p : Nat → Prop} (F : Forms p s) : Forms p s.plannerBoundary := by
  have K : Forms p ({ s with plan := none } : State) := F.same rfl rfl rfl rfl rfl
  unfold State.plannerBoundary
  dsimp only
  split
  · exact K.buildPlan.sendBeacon
  all_goals exact K

theorem Forms.takeBoundary {p : Nat → Prop} (F : Forms p s) (c : ConfigOk s.config) : Forms p s.takeBoundary := by
  unfold State.takeBoundary
  refine Forms.plannerBoundary (Forms.directoryBoundary (Forms.clearForeignSeen (Forms.settleHub ?_)) _)
  exact (F.closeWindowAssembly.takeWindowEnd (by rw [(closeWindowAssembly_cell s).config]; exact c.attempts)).same rfl rfl
    rfl rfl rfl

theorem Forms.roundBoundary {p : Nat → Prop} (F : Forms p s) (c : ConfigOk s.config) : Forms p s.roundBoundary := by
  unfold State.roundBoundary
  split
  · split
    · exact (F.takeBoundary c).same rfl rfl rfl rfl rfl
    · exact F.takeBoundary c
  · exact F

theorem Forms.replyWindowEnd {p : Nat → Prop} (F : Forms p s) (c : ConfigOk s.config) : Forms p s.replyWindowEnd := by
  unfold State.replyWindowEnd
  split
  · exact F
  · exact F.takeWindowEnd c.attempts

theorem Forms.callEnd (F : CellOk s) (c : ConfigOk s.config) : CellOk s.callEnd := by
  unfold State.callEnd
  split
  · exact F
  · exact F.takeCallEnd c.stalls

/-! ## Test periods and burst ends -/

theorem Forms.beginPeriod {p : Nat → Prop} (F : Forms p s) (t : LineTest) : Forms p (s.beginPeriod t) := by
  unfold State.beginPeriod
  extract_lets u
  have K : Forms p u := F.same rfl rfl rfl rfl rfl
  split
  · exact K
  · split
    · rename_i v h
      exact K.sendRequest h
    · exact K

theorem Forms.endTest {p : Nat → Prop} (F : Forms p s) (c : TestCounts) (b : Bool) (k : LinkCause) :
    Forms p (s.endTest c b k) := F.same rfl rfl rfl rfl rfl

theorem Forms.testPeriodEnd {p : Nat → Prop} (F : Forms p s) : Forms p s.testPeriodEnd := by
  unfold State.testPeriodEnd
  dsimp only
  split
  · exact F
  · split
    · exact (F.endAssemblyBroken _).endTest _ _ _
    · exact (F.endAssemblyBroken _).beginPeriod _

theorem Forms.reportBurstEnd {p : Nat → Prop} (F : Forms p s) (b : Burst) (o : BurstOutcome) :
    Forms p (s.reportBurstEnd b o) := by
  unfold State.reportBurstEnd
  split
  · exact F
  · exact F
  · exact F.fragmentBurstEnd _
  · unfold State.testBurstEnd
    split
    · split
      · exact F.same rfl rfl rfl rfl rfl
      · exact F
    · exact F

theorem Forms.burstEnd {p : Nat → Prop} (F : Forms p s) : Forms p s.burstEnd := by
  unfold State.burstEnd
  split
  · exact F
  · split
    · exact F
    · refine Forms.reportBurstEnd ?_ _ _
      exact F.same rfl rfl rfl rfl rfl

theorem Forms.blankingEnd {p : Nat → Prop} (F : Forms p s) (b : Bool) : Forms p (s.blankingEnd b) := by
  unfold State.blankingEnd
  split
  · exact F.same rfl rfl rfl rfl rfl
  · exact F

theorem Forms.elementEnd {p : Nat → Prop} (F : Forms p s) : Forms p s.elementEnd := by
  unfold State.elementEnd
  split
  · exact F
  · split
    · exact F.firstTick.same rfl rfl rfl rfl rfl
    · exact F

theorem Forms.sourceMoved {p : Nat → Prop} (F : Forms p s) (b : Burst) : Forms p (s.sourceMoved b) := by
  unfold State.sourceMoved
  split
  · unfold State.drawTestByte
    split
    · exact F.same rfl rfl rfl rfl rfl
    · exact F
  all_goals exact F

/-- A record is marked damaged (R158). -/
theorem Forms.damage {p : Nat → Prop} (F : Forms p s) (h : Nat) :
    Forms p (s.updateRecord h fun r => { r with damaged := true }) := by
  cases e : s.record h with
  | none =>
    unfold State.updateRecord
    rw [e]
    exact F
  | some r =>
    have hr : ∀ k, (s.updateRecord h fun r => { r with damaged := true }).record k
        = if k = h then some { r with damaged := true } else s.record k := fun k => record_update e _
    have same : (s.updateRecord h fun r => { r with damaged := true }).directory = s.directory
        ∧ (s.updateRecord h fun r => { r with damaged := true }).contexts = s.contexts
        ∧ (s.updateRecord h fun r => { r with damaged := true }).store.heldOrder = s.store.heldOrder := by
      unfold State.updateRecord
      rw [e]
      exact ⟨rfl, rfl, rfl⟩
    refine F.mark e hr same.1 same.2.1 ⟨rfl, rfl, rfl, rfl⟩ (.inl rfl) ((pins_same e hr id).trans F.pins) (F.void h r e)
      (by rw [same.2.2]; exact F.once) fun x => ?_
    rw [same.2.2]
    split
    · rename_i k
      subst k
      rw [F.held]
      constructor
      · rintro ⟨q, hq, a⟩
        rw [e] at hq
        cases hq
        exact a
      · exact fun a => ⟨r, e, a⟩
    · rfl

/-! ## The receiver -/

theorem Forms.takeBeacon {p : Nat → Prop} (F : Forms p s) (d : List Byte) : Forms p (s.takeBeacon d) := by
  unfold State.takeBeacon
  split
  · split
    · unfold State.takeForeign State.foreignInService
      split
      · exact F
      · exact F.same rfl rfl rfl rfl rfl
      · split
        · exact F
        · exact F.same rfl rfl rfl rfl rfl
      · split
        · exact F
        · exact F.same rfl rfl rfl rfl rfl
      · exact F
    · exact F
  · exact F

theorem tame_hear (now : Stamp) : Tame (Label.hear now) := .same fun _ => ⟨rfl, rfl, rfl, rfl⟩

theorem Forms.takeAttributed (F : CellOk s) (x : Place) (n : Nat) (d : List Byte) : CellOk (s.takeAttributed x n d) := by
  unfold State.takeAttributed
  extract_lets t u
  have T : CellOk t := F.tame _ (tame_hear _)
  have U : CellOk u := by
    show CellOk (match x.kind with
      | .fragment h => t.engineReply x.address h d
      | .assign => t | .control => t | .probe => t | .release => t)
    split
    · exact T.engineReply _ _ _
    all_goals exact T
  split
  · exact U.takeStatus _ _ _
  · exact U

theorem Forms.deliverInWindow (F : CellOk s) (w : Window) (d : List Byte) : CellOk (s.deliverInWindow w d) := by
  unfold State.deliverInWindow
  split
  · split
    · exact F.takeJoinRequest _
    · exact F
  · split
    · split
      · exact F.takeAttributed _ _ _
      · exact F
    · exact F

theorem Forms.deliverWhole (F : CellOk s) (w : Option Window) (d : List Byte) : CellOk (s.deliverWhole w d) := by
  unfold State.deliverWhole
  split
  · exact F.takeBeacon d
  · split
    · split
      · exact F.deliverInWindow _ _
      · exact F
    · exact F

theorem Forms.setAssembly {p : Nat → Prop} (F : Forms p s) (a : Option Assembly) : Forms p (s.setAssembly a) :=
  F.same rfl rfl rfl rfl rfl

theorem Forms.openAssembly {p : Nat → Prop} (F : Forms p s) : Forms p s.openAssembly := by
  unfold State.openAssembly
  split
  · exact F
  · split
    · split
      · exact F.same rfl rfl rfl rfl rfl
      · exact F.setAssembly _
    · exact F.setAssembly _

theorem Forms.takeEndMark (F : CellOk s) (a : Assembly) : CellOk (s.takeEndMark a) := by
  unfold State.takeEndMark
  dsimp only
  split
  · split
    · exact F.same rfl rfl rfl rfl rfl
    · exact F.setAssembly _
  · split
    · exact (F.setAssembly none).deliverWhole _ _
    · exact (F.setAssembly none).deliverBroken _ _

theorem Forms.takeBit {p : Nat → Prop} (F : Forms p s) (a : Assembly) (b : Bool) : Forms p (s.takeBit a b) := by
  unfold State.takeBit
  dsimp only
  split
  · exact F.setAssembly _
  · split
    · exact F.setAssembly _
    · exact F.endAssemblyBroken _

theorem Forms.takeElement (F : CellOk s) (c : ElementClass) : CellOk (s.takeElement c) := by
  unfold State.takeElement
  split
  · split
    · exact F.openAssembly
    · exact F
  · split
    · unfold State.takeAfterSync
      split
      · exact F.setAssembly _
      all_goals exact F.endAssemblyBroken _
    · unfold State.takeCollecting
      split
      · exact F
      · exact F.takeEndMark _
      · exact (F.endAssemblyBroken _).openAssembly
      · exact F.endAssemblyBroken _
      · exact F.takeBit _ _
      · exact F.endAssemblyBroken _
      · exact F.endAssemblyBroken _

theorem Forms.acceptTransition (F : CellOk s) (date : Nat) (level : Bool) : CellOk (s.acceptTransition date level) := by
  unfold State.acceptTransition
  extract_lets t
  have K : CellOk t := by
    show CellOk (State.countEdge _)
    unfold State.countEdge
    split <;> exact F.same rfl rfl rfl rfl rfl
  split
  · exact K
  · split
    · exact K
    · unfold State.closeElement
      dsimp only
      refine Forms.takeElement ?_ _
      unfold State.countViolation
      split
      · split
        · exact K.same rfl rfl rfl rfl rfl
        · exact K
      · exact K

theorem Forms.advance {p : Nat → Prop} (F : Forms p s) (n : Nat) : Forms p (s.advance n) := F.same rfl rfl rfl rfl rfl

theorem Forms.pass {p : Nat → Prop} (F : Forms p s) (n : Nat) : Forms p (s.pass n) := by
  unfold State.pass
  refine Forms.advance ?_ n
  split
  · exact F
  · exact F.firstTick

theorem Forms.transition (F : CellOk s) : CellOk s.transition := by
  unfold State.transition
  split
  · exact F
  · exact F.acceptTransition _ _

theorem Forms.samplePdin (F : CellOk s) : CellOk s.samplePdin := by
  unfold State.samplePdin
  split
  · exact F.same rfl rfl rfl rfl rfl
  · split
    · exact F.same rfl rfl rfl rfl rfl
    · split
      · exact F.acceptTransition _ _
      · exact F.same rfl rfl rfl rfl rfl

theorem Forms.decideElement (F : CellOk s) : CellOk s.decideElement := by
  have K : ∀ r c, CellOk (State.takeElement { s with receiver := r } c) := fun r c =>
    Forms.takeElement (s := { s with receiver := r }) (F.same rfl rfl rfl rfl rfl) c
  unfold State.decideElement
  repeat' split
  all_goals first
    | exact F
    | exact K _ _

theorem Forms.lineTick (F : CellOk s) : CellOk s.lineTick := by
  have K : CellOk ((s.pass 1).movePin s.pdinAhead) := by
    unfold State.movePin
    split
    · exact F.pass 1
    · exact (F.pass 1).same rfl rfl rfl rfl rfl
  unfold State.lineTick
  dsimp only
  split
  · exact K
  · exact K.samplePdin.decideElement

theorem Forms.endBurst {p : Nat → Prop} (F : Forms p s) : Forms p s.endBurst := F.same rfl rfl rfl rfl rfl

theorem Forms.beaconBurst (F : CellOk s) (b : HeardBurst) : CellOk (s.beaconBurst b) := by
  unfold State.beaconBurst
  split
  · exact F.endBurst.deliverWhole _ _
  · exact F

theorem Forms.wholeBurst (F : CellOk s) (w : Option Window) (d : List Byte) : CellOk (s.wholeBurst w d) := by
  unfold State.wholeBurst
  split
  · exact F.endBurst.deliverWhole _ _
  · exact F

theorem Forms.brokenBurst {p : Nat → Prop} (F : Forms p s) (n : Nat) (c : BrokenCause) : Forms p (s.brokenBurst n c) := by
  unfold State.brokenBurst
  split
  · exact F.endBurst.deliverBroken _ _
  · exact F.endAssemblyBroken c

theorem Forms.discardedBurst {p : Nat → Prop} (F : Forms p s) : Forms p s.discardedBurst := by
  unfold State.discardedBurst
  split
  · exact F.endBurst
  · exact F

end Sys2Proof.Machine
end

