-- ==== Sys2Proof/Laws/KeptCommands.lean ====
section
/-! SUPPORT. Every host command and every reset keeps the forms of the directory, the records and the contexts. -/

namespace Sys2Proof.Machine

variable {p : Nat → Prop} {s : State}

/-! ## Hub and label commands -/

theorem Forms.startListening (F : Forms p s) : Forms p s.startListening := by
  unfold State.startListening
  split <;> exact F.same rfl rfl rfl rfl rfl

theorem Forms.dropBurst (F : Forms p s) : Forms p s.dropBurst := by
  unfold State.dropBurst
  split
  · exact F
  · exact F.same rfl rfl rfl rfl rfl

theorem Forms.stopHub (F : Forms p s) : Forms p s.stopHub := by
  unfold State.stopHub
  split
  · exact F
  · exact F.same rfl rfl rfl rfl rfl
  · exact F.same rfl rfl rfl rfl rfl
  · exact F
  · exact F.dropBurst.endTest _ _ _

theorem Forms.doLineTest (F : Forms p s) (q : List Byte) : Forms p (s.doLineTest q).state := by
  unfold State.doLineTest
  split
  · split
    · exact F
    · split
      · exact F
      · refine Forms.beginPeriod ?_ _
        exact F.same rfl rfl rfl rfl rfl
  · exact F

theorem Forms.doConfigure (F : Forms p s) (q : List Byte) : Forms p (s.doConfigure q).state := by
  unfold State.doConfigure
  dsimp only
  repeat' split
  all_goals first
    | exact F
    | exact F.same rfl rfl rfl rfl rfl

theorem Forms.doAdmit (F : Forms p s) (q : List Byte) : Forms p (s.doAdmit q).state := by
  unfold State.doAdmit
  dsimp only
  split
  · exact F
  · split
    · exact F
    · rename_i x hx
      split
      · exact F.updateAsking _ fun _ => rfl
      · split
        · exact F
        · rename_i a ha
          obtain ⟨m, e⟩ := asking_some hx
          refine (F.dropAsking _).createEntry (lowestVacant_vacant ha) _ _ _ ?_ (dropAsking_off _)
          intro b
          rw [← e]
          exact F.dir.apart x m b

theorem OpFields.not_release {n : Nat} {q : List Byte} {f : OpFields} (h : opFieldsOf n q = some f) :
    f.kind ≠ .release := by
  unfold opFieldsOf at h
  repeat' split at h
  all_goals first
    | cases h; simp [OpFields.kind]
    | skip
  all_goals simp_all [Option.map_eq_some_iff]
  all_goals (try (obtain ⟨_, _, rfl⟩ := h); simp [OpFields.kind])

theorem Forms.doLabelOp (F : Forms p s) (q : List Byte) : Forms p (s.doLabelOp q).state := by
  unfold State.doLabelOp
  dsimp only
  split
  · exact F
  · split
    · exact F
    · split
      · exact F
      · rename_i l hl
        have e := label_entry hl
        split
        · rename_i ph
          split
          · rename_i f hf
            refine F.label _ _ fun m hm => ?_
            rw [e] at hm
            cases hm
            obtain ⟨e1, e2, _⟩ := enqueue_frame l f s.stamp
            refine ⟨e2, e1, (F.dir.labels _ l e).enqueue _ ?_ (OpFields.not_release hf)⟩
            cases hp : l.phase <;> rw [hp] at ph <;> first | rfl | cases ph
          · exact F
        · exact F

theorem Forms.doRelease (F : CellOk s) (q : List Byte) : CellOk (s.doRelease q).state := by
  unfold State.doRelease
  dsimp only
  split
  · exact F
  · split
    · exact F
    · split
      · exact F.releaseJoining _
      · exact F.releaseBound _ _
      · exact F.releaseBound _ _
      · exact F

theorem Forms.doForget (F : Forms p s) (q : List Byte) : Forms p (s.doForget q).state := by
  unfold State.doForget
  dsimp only
  split
  · exact F
  · split
    · exact F
    · exact F.forget _

/-! ## Page commands -/

theorem named_ok {h : Nat} {r : Record} (e : s.named h = .ok r) : s.record h = some r ∧ r.state ≠ .void := by
  refine ⟨named_record e, ?_⟩
  unfold State.named at e
  split at e
  · cases e
  · split at e
    · cases e
    · split at e
      · cases e
      · rename_i n
        cases e
        exact n

/-- Records are freed, and none changes. -/
def Fewer (s t : State) : Prop := (∀ k r, t.record k = some r → s.record k = some r) ∧ t.directory = s.directory

theorem Fewer.refl (s : State) : Fewer s s := ⟨fun _ _ => id, rfl⟩

theorem Fewer.trans {s t u : State} (a : Fewer s t) (b : Fewer t u) : Fewer s u :=
  ⟨fun k r e => a.1 k r (b.1 k r e), b.2.trans a.2⟩

theorem freeRecord_fewer (s : State) (h : Nat) : Fewer s (s.freeRecord h) := by
  refine ⟨fun k r e => ?_, rfl⟩
  have : (s.freeRecord h).record k = if h = k ∧ k < 128 then none else s.record k := record_setRecord s h k none
  rw [this] at e
  split at e
  · cases e
  · exact e

theorem Forms.evict (F : Forms p s) {h : Nat} (m : h ∈ s.store.heldOrder) : Forms p (s.evict h) := by
  obtain ⟨r, e, n, _⟩ := (F.held h).1 m
  unfold State.evict
  rw [e]
  exact (F.freeRecord e (by rw [n]; simp) (by rw [n]; simp)).post _

theorem evict_fewer (s : State) (h : Nat) : Fewer s (s.evict h) := by
  unfold State.evict
  split
  · exact freeRecord_fewer s h
  · exact .refl s

theorem evict_order (s : State) (h : Nat) : ∀ k ∈ s.store.heldOrder, k ≠ h → k ∈ (s.evict h).store.heldOrder := by
  intro k m n
  unfold State.evict
  split
  · show k ∈ s.store.heldOrder.filter _
    rw [List.mem_filter]
    exact ⟨m, by simpa using n⟩
  · exact m

theorem Forms.evictUntil (n : Nat) (q : List Nat) (F : Forms p s) (nd : q.Nodup) (m : ∀ h ∈ q, h ∈ s.store.heldOrder) :
    Forms p (State.evictUntil n q s) ∧ Fewer s (State.evictUntil n q s) := by
  induction q generalizing s with
  | nil => exact ⟨F, .refl s⟩
  | cons h q ih =>
    obtain ⟨nh, nd⟩ := List.nodup_cons.1 nd
    unfold State.evictUntil
    split
    · exact ⟨F, .refl s⟩
    · obtain ⟨a, b⟩ := ih (F.evict (m h List.mem_cons_self)) nd fun k hk =>
        evict_order s h k (m k (List.mem_cons_of_mem h hk)) fun c => nh (c ▸ hk)
      exact ⟨a, (evict_fewer s h).trans b⟩

/-- The room for a new record: its key has no FILLING record left. -/
theorem Forms.makeRoom (F : Forms p s) (q : BeginRequest) : Forms p (s.makeRoom q) ∧ Fewer s (s.makeRoom q)
    ∧ ∀ k x, (s.makeRoom q).record k = some x → x.address = q.address → x.page = q.page → x.state.isFilling = false := by
  unfold State.makeRoom
  extract_lets t
  have key : Forms p t ∧ Fewer s t ∧ ∀ k x, t.record k = some x → x.address = q.address → x.page = q.page →
      x.state.isFilling = false := by
    show Forms p (match s.fillingOf q.address q.page with | some h => s.freeRecord h | none => s)
      ∧ Fewer s (match s.fillingOf q.address q.page with | some h => s.freeRecord h | none => s)
      ∧ ∀ k x, (match s.fillingOf q.address q.page with | some h => s.freeRecord h | none => s).record k = some x → _
    cases e : s.fillingOf q.address q.page with
    | none => exact ⟨F, .refl s, fun k x h a b => fillingOf_none e h a b⟩
    | some h =>
      obtain ⟨r, hr, ha, hp, hf⟩ := fillingOf_some e
      refine ⟨F.freeRecord hr (fun c => ?_) (fun c => ?_), freeRecord_fewer s h, fun k x hx a b => ?_⟩
      · rw [c] at hf; cases hf
      · rw [c] at hf; cases hf
      · have old := (freeRecord_fewer s h).1 k x hx
        by_contra c
        have kh := F.filling k h x r old hr (a.trans ha.symm) (b.trans hp.symm) (by simpa using c) hf
        subst kh
        have : (s.freeRecord k).record k = if k = k ∧ k < 128 then none else s.record k := record_setRecord s k k none
        simp [hx, record_lt hr] at this
  obtain ⟨K, W, N⟩ := key
  obtain ⟨a, b⟩ := Forms.evictUntil (blocksFor q.length) t.store.heldOrder K K.once fun _ h => h
  exact ⟨a, W.trans b, fun k x hx => N k x (b.1 k x hx)⟩

theorem Forms.beginPage (F : Forms p s) {q : BeginRequest} (rq : q.inRange = true) {l : Label}
    (e : s.entry q.address = .label l) (n : l.phase.isReleasing = false) : Forms p (s.beginPage q).state := by
  obtain ⟨K, W, N⟩ := F.makeRoom q
  unfold State.beginPage
  dsimp only
  split
  · exact F
  · rename_i h rest hs
    split
    · rename_i room
      have m := mem_freeSlots (s := s.makeRoom q) (h := h) (by rw [hs]; exact List.mem_cons_self)
      unfold BeginRequest.inRange addressInRange Config.directoryEntries at rq
      simp only [Bool.and_eq_true, decide_eq_true_eq] at rq
      refine K.new m.2 (fun k => record_set m.1) rfl rfl rfl rfl rfl
        ⟨rq.1.1.1.1.1, rq.1.1.1.1.2, rq.1.1.1.2, rq.1.1.2, rq.1.2, ?_⟩ ⟨l, ?_, n⟩ N
      · show ((s.makeRoom q).freeBlocks.take (blocksFor q.length)).length = _
        rw [List.length_take, Nat.min_eq_left room]
        unfold blocksFor Config.blockBytes
        show (q.length + 256 - 1) / 256 = (q.length + 255) / 256
        omega
      · show (s.makeRoom q).entry q.address = _
        rw [entry_eq W.2]
        exact e
    · exact F

theorem takesWork_releasing {x : Phase} (h : x.takesWork = true) : x.isReleasing = false := by
  cases x <;> first | rfl | cases h

theorem Forms.doPageBegin (F : Forms p s) (d : List Byte) : Forms p (s.doPageBegin d).state := by
  unfold State.doPageBegin
  dsimp only
  split
  · exact F
  · rename_i rq
    split
    · exact F
    · rename_i l hl
      split
      · exact F
      · rename_i ph
        split
        · exact F
        · split
          · exact F
          · exact F.beginPage (by simpa using rq) (label_entry hl) (takesWork_releasing (by simpa using ph))

/-- The stored bytes take no part in the forms. -/
theorem Forms.writePage (F : Forms p s) (r : Record) (o : Nat) (data : List Byte) :
    Forms p (State.writePage r o data s) := by
  rw [writePage_frame]
  exact F.same rfl rfl rfl rfl rfl

theorem writePage_record (r : Record) (o : Nat) (data : List Byte) (s : State) (h : Nat) :
    (State.writePage r o data s).record h = s.record h := by
  rw [writePage_frame]
  rfl

/-- A record's state and marks change where it stands; what the HELD order says of it is given. -/
theorem Forms.put (F : Forms p s) {h : Nat} {r q : Record} (e : s.record h = some r) (shape : SameShape r q)
    (same : q.state = r.state ∨ (r.state ≠ .sending ∧ r.state ≠ .void ∧ q.state ≠ .sending ∧ q.state ≠ .void
      ∧ (q.state.isFilling = true → r.state.isFilling = true) ∧ (q.state.isLive = true → r.state.isLive = true)))
    (pin : q.pinned = r.pinned) (held : q.state = .held ↔ r.state = .held) : Forms p (s.setRecord h (some q)) := by
  refine F.mark e (fun k => record_set (record_lt e)) rfl rfl shape same
    ((pins_same e (fun k => record_set (record_lt e)) (by rw [pin]; exact id)).trans F.pins) ?_ F.once fun x => ?_
  · intro c
    rw [pin]
    refine F.void h r e ?_
    rcases same with k | k
    · exact k ▸ c
    · exact absurd c k.2.2.2.1
  · show x ∈ s.store.heldOrder ↔ _
    split
    · rename_i k
      subst k
      rw [F.held, pin, held]
      constructor
      · rintro ⟨y, hy, a⟩
        rw [e] at hy
        cases hy
        exact a
      · exact fun a => ⟨r, e, a⟩
    · rfl

theorem Forms.doPageData (F : Forms p s) (d : List Byte) : Forms p (s.doPageData d).state := by
  unfold State.doPageData
  dsimp only
  split
  · exact F
  · rename_i r e
    obtain ⟨e, _⟩ := named_ok e
    split
    · rename_i w n
      split
      · exact F
      · refine (F.writePage r _ _).put (r := r) (by rw [writePage_record]; exact e) ⟨rfl, rfl, rfl, rfl⟩ (.inr ?_) rfl ?_
        · simp [n, RecordState.isFilling, RecordState.isLive]
        · simp [n]
    all_goals exact F

theorem discardRecord_only (s : State) (h k : Nat) (n : k ≠ h) : (s.discardRecord h).record k = s.record k := by
  have fr : (s.freeRecord h).record k = s.record k := by
    have : (s.freeRecord h).record k = if h = k ∧ k < 128 then none else s.record k := record_setRecord s h k none
    rw [this, if_neg (fun c => n c.1.symm)]
  unfold State.discardRecord
  split
  · rfl
  · split
    · unfold State.cutRecord
      split
      · unfold State.updateRecord
        split
        · rw [record_setRecord, if_neg (fun c => n c.1.symm), cutRequest_record]
        · exact cutRequest_record s k
      · rw [freeContextOf_record]
        exact fr
    · rfl
    all_goals exact fr

theorem discardRecord_directory (s : State) (h : Nat) : (s.discardRecord h).directory = s.directory := by
  unfold State.discardRecord
  split
  · rfl
  · split
    · unfold State.cutRecord
      split
      · unfold State.updateRecord
        split <;> exact (cutRequest_frame s).1
      · rw [(freeContextOf_frame _ h).1]
        rfl
    · rfl
    all_goals rfl

theorem Forms.endPage (F : Forms p s) {h : Nat} {r : Record} {w : List Nat} (e : s.record h = some r)
    (n : r.state = .filling w) : Forms p (s.endPage h r) := by
  have key : Forms p (s.supersede r.address r.page) ∧ (s.supersede r.address r.page).record h = some r
      ∧ ∀ k x, (s.supersede r.address r.page).record k = some x → x.address = r.address → x.page = r.page →
        x.state.isLive = false := by
    unfold State.supersede
    split
    · rename_i k hk
      obtain ⟨q, hq, qa, qp, ql⟩ := liveOf_some hk
      have ne : h ≠ k := by
        rintro rfl
        rw [e] at hq
        cases hq
        rw [n] at ql
        cases ql
      refine ⟨F.discardRecord k, by rw [discardRecord_only s k h ne]; exact e, fun j x hx a b => ?_⟩
      by_cases jk : j = k
      · subst jk
        rw [(discardRecord_fades s j).2 x hx]
        rfl
      · rw [discardRecord_only s k j jk] at hx
        by_contra c
        exact jk (F.live j k x q hx hq (a.trans qa.symm) (b.trans qp.symm) (by simpa using c) ql)
    · rename_i hk
      exact ⟨F, e, fun k x hx a b => liveOf_none hk hx a b⟩
  obtain ⟨K, ke, only⟩ := key
  unfold State.endPage
  refine Forms.tame ?_ _ (.same fun _ => ⟨rfl, rfl, rfl, rfl⟩)
  have hr : ∀ k, ((s.supersede r.address r.page).setRecord h (some { r with state := .ready, readyStamp := some s.stamp })).record k
      = if k = h then some { r with state := .ready, readyStamp := some s.stamp } else (s.supersede r.address r.page).record k :=
    fun k => record_set (record_lt ke)
  refine K.replace ke hr rfl ⟨rfl, rfl, rfl, rfl⟩ (by simp [RecordState.isFilling]) (fun _ => .inr only) (fun _ => by rw [n]; simp)
    (by simp) ((pins_same ke hr id).trans K.pins) (by simp) K.once (fun x => ?_)
    (K.ctx.keep ke hr ⟨rfl, rfl, rfl, rfl⟩ (by simp [n]) (by simp) fun _ => rfl)
  show x ∈ (s.supersede r.address r.page).store.heldOrder ↔ _
  split
  · rename_i k
    subst k
    simp [K.notHeld ke (by rw [n]; simp)]
  · rfl

theorem Forms.doPageEnd (F : Forms p s) (d : List Byte) : Forms p (s.doPageEnd d).state := by
  unfold State.doPageEnd
  dsimp only
  split
  · exact F
  · rename_i r e
    obtain ⟨e, _⟩ := named_ok e
    split
    · rename_i w n
      split
      · exact F.endPage e n
      · exact F
    all_goals exact F

theorem Forms.doPageDiscard (F : Forms p s) (d : List Byte) : Forms p (s.doPageDiscard d).state := by
  unfold State.doPageDiscard
  dsimp only
  split
  · exact F
  · exact F.discardRecord _

theorem Forms.doPagePin (F : Forms p s) (d : List Byte) : Forms p (s.doPagePin d).state := by
  unfold State.doPagePin
  dsimp only
  split
  · exact F
  · rename_i r e
    obtain ⟨e, nv⟩ := named_ok e
    split
    · exact F
    · split
      · exact F
      · rename_i room
        generalize (byteAt d 0).toNat = h at e
        have hr : ∀ k, (s.pin h r).record k = if k = h then some { r with pinned := true } else s.record k :=
          fun k => record_set (s := s) (record_lt e)
        show Forms p (s.pin h r)
        refine F.mark e hr rfl rfl ⟨rfl, rfl, rfl, rfl⟩ (.inl rfl) ?_ (fun c => absurd c nv) (F.once.filter _) fun x => ?_
        · refine (pinnedCount_succ (s := s) h fun k y f z => ?_).trans (by omega)
          rw [hr] at f
          split at f
          · rename_i c; exact .inl c
          · exact .inr ⟨y, f, z⟩
        · show x ∈ s.store.heldOrder.filter _ ↔ _
          rw [List.mem_filter]
          split
          · rename_i c; simp [c]
          · rename_i c; simp [c]

theorem Forms.doPageUnpin (F : Forms p s) (d : List Byte) : Forms p (s.doPageUnpin d).state := by
  unfold State.doPageUnpin
  dsimp only
  split
  · exact F
  · rename_i r e
    obtain ⟨e, nv⟩ := named_ok e
    split
    · rename_i pin
      generalize (byteAt d 0).toNat = h at e
      have off : h ∉ s.store.heldOrder := by
        intro m
        obtain ⟨y, hy, _, a⟩ := (F.held h).1 m
        rw [e] at hy
        cases hy
        rw [pin] at a
        cases a
      have hr : ∀ k, (s.setRecord h (some { r with pinned := false })).record k
          = if k = h then some { r with pinned := false } else s.record k := fun k => record_set (record_lt e)
      have pins := (pins_same e hr (by simp)).trans F.pins
      show Forms p (s.unpin h r)
      unfold State.unpin
      dsimp only
      split
      · rename_i n
        refine F.mark e hr rfl rfl ⟨rfl, rfl, rfl, rfl⟩ (.inl rfl) pins (fun _ => rfl) ?_ fun x => ?_
        · refine List.nodup_append.2 ⟨F.once, by simp, ?_⟩
          intro a ha b hb
          simp only [List.mem_singleton] at hb
          subst hb
          rintro rfl
          exact off ha
        · show x ∈ s.store.heldOrder ++ [h] ↔ _
          rw [List.mem_append, List.mem_singleton]
          split
          · rename_i c; simp [c, n]
          · rename_i c; simp [c]
      · rename_i n
        refine F.mark e hr rfl rfl ⟨rfl, rfl, rfl, rfl⟩ (.inl rfl) pins (fun _ => rfl) F.once fun x => ?_
        show x ∈ s.store.heldOrder ↔ _
        split
        · rename_i c; subst c; simp [off, n]
        · rfl
    · exact F

theorem Forms.doPageRequeue (F : Forms p s) (d : List Byte) : Forms p (s.doPageRequeue d).state := by
  unfold State.doPageRequeue
  dsimp only
  split
  · exact F
  · rename_i r e
    obtain ⟨e, nv⟩ := named_ok e
    split
    · exact F
    · split
      · rename_i c n
        refine F.put e ⟨rfl, rfl, rfl, rfl⟩ (.inr ?_) rfl ?_
        · simp [n, RecordState.isFilling, RecordState.isLive]
        · simp [n]
      all_goals exact F

/-! ## Every command -/

theorem Forms.runCommand (F : CellOk s) (k : CommandKind) (d : List Byte) : CellOk (s.runCommand k d).state := by
  cases k
  · exact F
  · exact F.same rfl rfl rfl rfl rfl
  · exact F.doConfigure d
  · show CellOk s.doStart.state
    unfold State.doStart
    split
    · exact F.startListening
    · exact F
  · exact F.stopHub
  · exact F.doLineTest d
  · exact F
  · exact F.doAdmit d
  · show CellOk (s.doLabelQuery d).state
    unfold State.doLabelQuery
    repeat' split
    all_goals exact F
  · show CellOk (s.doLabelList d).state
    unfold State.doLabelList
    repeat' split
    all_goals exact F
  · exact F.doLabelOp d
  · exact F.doRelease d
  · exact F.doForget d
  · exact F.doPageBegin d
  · exact F.doPageData d
  · exact F.doPageEnd d
  · exact F.doPageDiscard d
  · exact F.doPagePin d
  · exact F.doPageUnpin d
  · exact F.doPageRequeue d
  · show CellOk (s.doPageQuery d).state
    unfold State.doPageQuery
    dsimp only
    repeat' split
    all_goals exact F

theorem Forms.perform (F : CellOk s) (f : HostFrame) : CellOk (s.perform f).state := by
  unfold State.perform
  split
  · exact F
  · split
    · exact F.runCommand _ _
    · exact F

/-! ## Resets -/

/-- With every entry VACANT, the admission list empty, and no record and no context, the forms hold. -/
theorem CellOk.empty {s : State} (he : s.directory = State.blank.directory) (hs : s.store = State.blank.store)
    (hc : s.contexts = State.blank.contexts) : CellOk s := by
  have e : ∀ a, s.entry a = .vacant := by
    intro a
    unfold State.entry
    rw [he]
    split
    · rfl
    · simp only [State.blank, Vector.getElem?_replicate]
      split <;> rfl
  have r : ∀ h, s.record h = none := by
    intro h
    unfold State.record
    rw [hs]
    simp only [State.blank, Vector.getElem?_replicate]
    split <;> rfl
  have c : ∀ i, s.context i = none := by
    intro i
    unfold State.context
    rw [hc]
    simp only [State.blank, Vector.getElem?_replicate]
    split <;> rfl
  have adm : s.directory.admission = [] := by rw [he]; rfl
  have ord : s.store.heldOrder = [] := by rw [hs]; rfl
  refine CellOk.of ⟨?_, ?_, ?_, ?_, ?_⟩ ⟨?_, ?_, ?_, ?_, ?_, ?_, ?_, ?_, ?_⟩ ⟨?_, ?_, ?_, ?_, ?_⟩
  · intro a b id h
    rw [e] at h
    cases h
  · rw [adm]; exact Nat.zero_le _
  · rw [adm]; exact List.nodup_nil
  · rw [adm]; simp
  · intro a l h
    rw [e] at h
    cases h
  · simp [r]
  · simp [r]
  · simp [r]
  · simp [r]
  · simp [r]
  · rw [ord]; exact List.nodup_nil
  · simp [r, ord]
  · unfold State.pinnedCount
    simp [r]
  · simp [r]
  · simp [c]
  · simp [c]
  · simp [r]
  · simp [c]
  · simp [c]

end Sys2Proof.Machine
end

