-- ==== Sys2Proof/Laws/Link.lean ====
section
/-! SUPPORT. What carrying out a command, taking a frame, ending a frame and the transmitter's choice can do. -/

namespace Sys2Proof.Machine

/-! ## The transmitter's choice (R184) -/

theorem choose_busy {l : HostLink} {f : Outgoing} (h : l.sending = some f) : l.choose = l := by
  unfold HostLink.choose
  rw [h]

theorem choose_reply {l : HostLink} {r : Reply} {rest : List Reply} (h : l.sending = none) (k : l.replies = r :: rest) :
    l.choose = { l with replies := rest, sending := some (.reply r) } := by
  unfold HostLink.choose
  rw [h, k]

theorem choose_notice {l : HostLink} {n : Posted} {rest : List Posted} (h : l.sending = none) (k : l.replies = [])
    (m : l.notices = n :: rest) : l.choose = { l with notices := rest, sending := some (.notice n) } := by
  unfold HostLink.choose
  rw [h, k, m]

theorem choose_idle {l : HostLink} (h : l.sending = none) (k : l.replies = []) (m : l.notices = []) : l.choose = l := by
  unfold HostLink.choose
  rw [h, k, m]

/-- Every case of the choice. -/
theorem choose_cases (l : HostLink) :
    l.choose = l
      ∨ (∃ r rest, l.sending = none ∧ l.replies = r :: rest
          ∧ l.choose = { l with replies := rest, sending := some (.reply r) })
      ∨ (∃ n rest, l.sending = none ∧ l.replies = [] ∧ l.notices = n :: rest
          ∧ l.choose = { l with notices := rest, sending := some (.notice n) }) := by
  cases hs : l.sending with
  | some f => exact Or.inl (choose_busy hs)
  | none =>
    cases hr : l.replies with
    | cons r rest => exact Or.inr (Or.inl ⟨r, rest, rfl, rfl, choose_reply hs hr⟩)
    | nil =>
      cases hn : l.notices with
      | nil => exact Or.inl (choose_idle hs hr hn)
      | cons n rest => exact Or.inr (Or.inr ⟨n, rest, rfl, rfl, rfl, by rw [choose_notice hs hr hn, hr]⟩)

theorem choose_notices {l : HostLink} (h : NoticesOk l.notices) : NoticesOk l.choose.notices := by
  rcases choose_cases l with e | ⟨r, rest, _, _, e⟩ | ⟨n, rest, _, _, hn, e⟩
  · rw [e]; exact h
  · rw [e]; exact h
  · rw [e]; rw [hn] at h; exact h.tail

theorem choose_queues {l : HostLink} (h : QueuesOk l) : QueuesOk l.choose := by
  rcases choose_cases l with e | ⟨r, rest, _, hr, e⟩ | ⟨n, rest, _, _, _, e⟩
  · rw [e]; exact h
  · rw [e]
    refine ⟨h.1, le_trans ?_ h.2.1, h.2.2⟩
    rw [hr]
    exact ((List.sublist_cons_self r rest).filter _).length_le
  · rw [e]; exact h

theorem choose_hand {l : HostLink} (h : HandOk l) : HandOk l.choose := by
  rcases choose_cases l with e | ⟨r, rest, hs, hr, e⟩ | ⟨n, rest, hs, hr, _, e⟩
  · rw [e]; exact h
  · rw [e]
    unfold HandOk headReplies at *
    rw [hs, hr] at h
    simp only [List.filter_cons] at h ⊢
    cases hh : r.ofHead <;> simp_all
  · rw [e]
    unfold HandOk headReplies at *
    rw [hs] at h
    exact h

/-! ## Carrying out a command -/

/-- What carrying out a command leaves alone, and the forms it keeps. -/
structure AnswerStep (s t : State) : Prop where
  held : t.held = s.held
  pending : t.pending = s.pending
  link : t.link = { s.link with notices := t.link.notices, overflow := t.link.overflow, dropped := t.link.dropped }
  dropped : t.link.dropped ≤ s.link.dropped
  notices : NoticesOk s.link.notices → NoticesOk t.link.notices
  position : PositionOk s.timebase → PositionOk t.timebase
  store : StoreOk s.store → StoreOk t.store
  blocks : BlocksOk s → BlocksOk t
  config : ConfigOk s.config → ConfigOk t.config

theorem EventStep.answer {s t : State} (h : EventStep s t) : AnswerStep s t where
  held := h.held
  pending := h.pending
  link := by rw [h.link]
  dropped := by rw [h.link]
  notices := h.notices
  position := h.position
  store := fun k => ⟨by rw [h.memory]; exact k.1, by rw [h.parity]; exact k.2⟩
  blocks := fun k => k.shrink h.records
  config := fun k => by rw [h.config]; exact k

theorem CellStep.answer {s t : State} (h : CellStep s t) : AnswerStep s t := h.event.answer

/-- A field written within its range keeps every field in its range. -/
theorem write_fieldsOk {c : Configuration} {f : Nat × Nat} (hf : configFieldInRange f = true) (h : FieldsOk c) :
    FieldsOk (c.write f) := by
  obtain ⟨i, v⟩ := f
  unfold Configuration.write
  dsimp only
  unfold FieldsOk at h ⊢
  split
  all_goals simp only [configFieldInRange, isPeriod, Bool.and_eq_true, Bool.or_eq_true, decide_eq_true_eq, beq_iff_eq] at hf
  all_goals try simp only [BitVec.toNat_ofNat]
  all_goals try exact h
  all_goals (obtain ⟨h0, h1, h2, h3, h4, h5, h6, h7, h8, h9, h10⟩ := h)
  all_goals refine ⟨?_, ?_, ?_, ?_, ?_, ?_, ?_, ?_, ?_, ?_, ?_⟩
  all_goals first
    | assumption
    | omega

theorem writeAll_fieldsOk {c : Configuration} {fs : List (Nat × Nat)} (hf : fs.all configFieldInRange = true)
    (h : FieldsOk c) : FieldsOk (c.writeAll fs) := by
  induction fs generalizing c with
  | nil => exact h
  | cons f fs ih =>
    rw [List.all_cons, Bool.and_eq_true] at hf
    exact ih hf.2 (write_fieldsOk hf.1 h)

theorem doConfigure_answer (s : State) (p : List Byte) : AnswerStep s (s.doConfigure p).state := by
  unfold State.doConfigure
  dsimp only
  split
  · exact (CellStep.refl s).answer
  · split
    · exact (CellStep.refl s).answer
    · split
      · exact (CellStep.refl s).answer
      · rename_i hr hx
        refine ⟨rfl, rfl, rfl, le_refl _, id, id, id, id, fun h => ?_⟩
        simp only [Bool.not_eq_true, Bool.not_eq_false', Configuration.crossChecks, Bool.and_eq_true,
          decide_eq_true_eq] at hr hx
        exact ⟨writeAll_fieldsOk hr h.1, hx⟩

theorem doStart_answer (s : State) : AnswerStep s s.doStart.state := by
  unfold State.doStart
  split
  · show AnswerStep s s.startListening
    unfold State.startListening
    split
    · refine (CellStep.trans ?_ (post_cell _ _)).answer
      exact ⟨rfl, rfl, rfl, rfl, rfl, rfl, rfl, rfl, id, rfl, .refl _⟩
    · refine (EventStep.trans ?_ (post_cell _ _).event).answer
      exact ⟨rfl, rfl, rfl, rfl, rfl, rfl, rfl, id, fun _ => ⟨Nat.zero_le _, Nat.zero_le _⟩, .refl _⟩
  · exact (CellStep.refl s).answer

theorem doGetStatus_answer (s : State) : AnswerStep s s.doGetStatus.state :=
  ⟨rfl, rfl, rfl, Nat.zero_le _, id, id, id, id, id⟩

theorem doPageBegin_answer (s : State) (p : List Byte) : AnswerStep s (s.doPageBegin p).state := by
  have key : ∀ q, AnswerStep s (s.beginPage q).state := by
    intro q
    have k := makeRoom_cell s q
    unfold State.beginPage
    dsimp only
    split
    · exact (CellStep.refl s).answer
    · rename_i h rest e
      split
      · rename_i hk
        refine ⟨k.held, k.pending, k.answer.link, k.answer.dropped, k.notices, ?_, ?_, fun ok => ?_, ?_⟩
        · exact k.answer.position
        · exact k.answer.store
        · have b := beginPage_blocks ok q
          unfold State.beginPage at b
          dsimp only at b
          rw [e] at b
          dsimp only at b
          rw [if_pos hk] at b
          exact b
        · exact k.answer.config
      · exact (CellStep.refl s).answer
  unfold State.doPageBegin
  dsimp only
  repeat' split
  all_goals first
    | exact (CellStep.refl s).answer
    | exact key _

theorem doPageData_answer (s : State) (p : List Byte) : AnswerStep s (s.doPageData p).state := by
  unfold State.doPageData
  dsimp only
  split
  · exact (CellStep.refl s).answer
  · rename_i r hr
    split
    · split
      · exact (CellStep.refl s).answer
      · show AnswerStep s (s.writeData _ _ _ _ _)
        unfold State.writeData
        refine ⟨?_, ?_, ?_, ?_, ?_, ?_, fun h => ?_, fun h => ?_, ?_⟩
        · rw [writePage_frame]; rfl
        · rw [writePage_frame]; rfl
        · rw [writePage_frame]; rfl
        · rw [writePage_frame]; exact le_refl _
        · rw [writePage_frame]; exact id
        · rw [writePage_frame]; exact id
        · exact writePage_ok _ _ _ h
        · refine h.shrink ?_
          rw [writePage_frame]
          exact (Shrinks.refl _).put (named_record hr) ⟨rfl, rfl, rfl, rfl⟩
        · rw [writePage_frame]; exact id
    all_goals exact (CellStep.refl s).answer

/-- One lemma for every command (R181). -/
theorem runCommand_answer (s : State) (k : CommandKind) (p : List Byte) : AnswerStep s (s.runCommand k p).state := by
  cases k
  · exact (CellStep.refl s).answer
  · exact doGetStatus_answer s
  · exact doConfigure_answer s p
  · exact doStart_answer s
  · exact (stopHub_cell s).answer
  · exact (doLineTest_cell s p).answer
  · exact (CellStep.refl s).answer
  · exact (doAdmit_cell s p).answer
  · exact (doLabelQuery_cell s p).answer
  · exact (doLabelList_cell s p).answer
  · exact (doLabelOp_cell s p).answer
  · exact (doRelease_cell s p).answer
  · exact (doForget_cell s p).answer
  · exact doPageBegin_answer s p
  · exact doPageData_answer s p
  · exact (doPageEnd_cell s p).answer
  · exact (doPageDiscard_cell s p).answer
  · exact (doPagePin_cell s p).answer
  · exact (doPageUnpin_cell s p).answer
  · exact (doPageRequeue_cell s p).answer
  · exact (doPageQuery_cell s p).answer

theorem perform_answer (s : State) (f : HostFrame) : AnswerStep s (s.perform f).state := by
  unfold State.perform
  split
  · exact (CellStep.refl s).answer
  · split
    · exact runCommand_answer s _ _
    · exact (CellStep.refl s).answer

/-! ## What a host event keeps -/

/-- The forms of the directory, the records and the contexts, of a state that has every form. -/
theorem Sound.cell {s : State} (h : Sound s) : CellOk s := CellOk.of h.directory h.records h.contexts

theorem Sound.event {s t : State} (h : Sound s) (k : EventStep s t) (f : CellOk t) : Sound t where
  store := k.answer.store h.store
  blocks := k.answer.blocks h.blocks
  directory := f.dir
  records := CellOk.records f
  contexts := f.ctx
  config := k.answer.config h.config
  position := k.position h.position
  notices := k.notices h.notices
  queues := by rw [k.link]; exact h.queues
  hand := by rw [k.link]; exact h.hand

/-- A change of the link alone. -/
theorem Sound.withLink {s : State} (h : Sound s) {l : HostLink} (n : NoticesOk l.notices) (q : QueuesOk l)
    (k : HandOk l) : Sound { s with link := l } where
  store := h.store
  blocks := h.blocks
  directory := (h.cell.same (t := { s with link := l }) rfl rfl rfl rfl rfl).dir
  records := CellOk.records (h.cell.same (t := { s with link := l }) rfl rfl rfl rfl rfl)
  contexts := (h.cell.same (t := { s with link := l }) rfl rfl rfl rfl rfl).ctx
  config := h.config
  position := h.position
  notices := n
  queues := q
  hand := k

theorem Sound.choose {s : State} (h : Sound s) : Sound s.choose :=
  h.withLink (choose_notices h.notices) (choose_queues h.queues) (choose_hand h.hand)

/-- Carrying out a command that has just become the head: the state before it holds every form but the reply of the
command in hand, which is made now. -/
theorem Sound.carryOut {s : State} {f : HostFrame} (h1 : StoreOk s.store) (hb : BlocksOk s) (hf : CellOk s)
    (h2 : ConfigOk s.config)
    (h3 : PositionOk s.timebase) (h4 : NoticesOk s.link.notices) (h5 : QueuesOk s.link)
    (h6 : headReplies s.link = 0) (h7 : s.link.commands ≠ []) : Sound (s.carryOut f) := by
  have k := perform_answer s f
  have c := hf.perform f
  unfold State.carryOut
  dsimp only
  generalize s.perform f = a at k c ⊢
  have hl := k.link
  have c' := c.same (t := a.state.addReply ⟨f.kind, f.tag, a.status, a.result, true⟩) rfl rfl rfl rfl rfl
  refine ⟨k.store h1, k.blocks hb, c'.dir, CellOk.records c', c'.ctx, k.config h2, k.position h3, k.notices h4, ?_, ?_⟩
  · unfold State.addReply QueuesOk
    dsimp only
    rw [hl]
    refine ⟨h5.1, ?_, le_trans k.dropped h5.2.2⟩
    simpa [List.filter_append] using h5.2.1
  · unfold State.addReply HandOk headReplies
    dsimp only
    rw [hl]
    rw [if_neg h7]
    unfold headReplies at h6
    simp only [List.filter_append, List.length_append]
    simp only [List.filter_cons, List.filter_nil, if_true, List.length_cons, List.length_nil]
    omega

theorem Sound.discardFrame {s : State} (h : Sound s) : Sound s.discardFrame :=
  h.withLink h.notices ⟨h.queues.1, h.queues.2.1, Nat.min_le_left _ _⟩ h.hand

theorem Sound.setReceiver {s : State} (h : Sound s) (r : FrameReceiver) : Sound (s.setReceiver r) :=
  h.withLink h.notices h.queues h.hand

theorem Sound.admitFrame {s : State} (h : Sound s) (f : HostFrame) : Sound (s.admitFrame f) := by
  unfold State.admitFrame
  split
  · split
    · rename_i hw
      refine h.withLink h.notices ⟨h.queues.1, ?_, h.queues.2.2⟩ ?_
      · unfold State.queueFullWaiting at hw
        simpa [State.addReply, List.filter_append] using hw
      · have := h.hand
        unfold HandOk headReplies at *
        dsimp only
        rw [List.filter_append, List.filter_cons_of_neg (by simp), List.filter_nil, List.append_nil]
        exact this
    · exact h.discardFrame
  · rename_i hf
    have hlen : s.link.commands.length + 1 ≤ Config.commandQueue := by
      rw [State.queueIsFull, decide_eq_true_eq] at hf
      omega
    have hq : QueuesOk (s.setCommands (s.link.commands ++ [f])).link :=
      ⟨by simpa [State.setCommands] using hlen, h.queues.2.1, h.queues.2.2⟩
    have hh := h.hand
    unfold HandOk at hh
    dsimp only
    split
    · rename_i he
      rw [if_pos he] at hh
      exact Sound.carryOut h.store h.blocks (h.cell.same rfl rfl rfl rfl rfl) h.config h.position h.notices hq hh
        (by simp [State.setCommands])
    · rename_i he
      rw [if_neg he] at hh
      refine h.withLink h.notices hq ?_
      unfold HandOk
      rw [if_neg (by simp)]
      exact hh

theorem Sound.takeFrame {s : State} (h : Sound s) (f : HostFrame) : Sound (s.takeFrame f) := by
  unfold State.takeFrame
  split
  · exact h.discardFrame
  · exact (h.setReceiver _).admitFrame f

theorem Sound.takeCharacter {s : State} (h : Sound s) (b : Byte) : Sound (s.takeCharacter b) := by
  unfold State.takeCharacter
  dsimp only
  repeat' split
  all_goals first
    | exact h
    | exact h.setReceiver _
    | exact h.discardFrame
    | exact h.takeFrame _

theorem Sound.withSerial {s : State} (h : Sound s) (r : SerialReceiver) : Sound { s with serial := r } := by
  have F : CellOk { s with serial := r } := h.cell.same rfl rfl rfl rfl rfl
  exact ⟨h.store, h.blocks, F.dir, CellOk.records F, F.ctx, h.config, h.position, h.notices, h.queues, h.hand⟩

theorem Sound.characterReceived {s : State} (h : Sound s) (a : Bool) (d : List Bool) (b : Bool) :
    Sound (s.characterReceived a d b) := by
  unfold State.characterReceived
  split
  · exact h.withSerial _
  · exact Sound.takeCharacter (h.withSerial _) _

theorem Sound.watchRxd {s : State} (h : Sound s) : Sound s.watchRxd := by
  unfold State.watchRxd
  split
  · exact h.withSerial _
  · split
    · exact h
    · unfold State.sampleRxd
      dsimp only
      repeat' split
      all_goals first
        | exact h.characterReceived _ _ _
        | exact h.withSerial _

theorem Sound.tick {s : State} (h : Sound s) : Sound s.tick := by
  unfold State.tick
  refine Sound.watchRxd ?_
  have k : Sound s.lineTick := h.event (lineTick_event s) h.cell.lineTick
  unfold State.moveRxd
  split
  · exact k
  · exact k.withSerial _

theorem Sound.resetBy (s : State) (c : ResetCause) : Sound (s.resetBy c) := by
  have F : CellOk (s.resetBy c) := CellOk.empty rfl rfl rfl
  refine ⟨⟨⟨.nil, by simp [State.resetBy, State.blank]⟩, ⟨.nil, by simp [State.resetBy, State.blank]⟩⟩,
    ?_, F.dir, CellOk.records F, F.ctx, ?_, ?_, ?_, ?_, ?_⟩
  · have e : (s.resetBy c).usedBlocks = [] := by
      rw [usedBlocks_eq]
      have n : ∀ h, (s.resetBy c).record h = none := by
        intro h
        simp only [State.record, State.resetBy, State.blank, Vector.getElem?_replicate]
        split <;> rfl
      simp [n, slotBlocks]
    exact ⟨by rw [e]; exact .nil, by rw [e]; simp⟩
  · simp [State.resetBy, State.blank, ConfigOk, FieldsOk, Configuration.default]
  · simp [State.resetBy, State.blank, PositionOk, Timebase.stopped]
  · simp [State.resetBy, NoticesOk, UrgentFirst, HostLink.cleared, Config.noticeQueue]
  · simp [State.resetBy, QueuesOk, HostLink.cleared]
  · simp [State.resetBy, HandOk, headReplies, HostLink.cleared]

theorem Sound.frameSent {s : State} (h : Sound s) : Sound s.frameSent := by
  have hh := h.hand
  unfold HandOk headReplies at hh
  unfold State.frameSent
  split
  · exact h
  · rename_i hs
    rw [hs] at hh
    exact h.withLink h.notices h.queues hh
  · rename_i r hs
    rw [hs] at hh
    dsimp only at hh
    split
    · exact Sound.resetBy s _
    · split
      · rename_i hr
        rw [if_pos hr] at hh
        unfold State.nextCommand
        have he : s.endFrame.link.commands = s.link.commands := rfl
        rw [he]
        split
        · rename_i hc
          rw [if_pos hc] at hh
          omega
        · rename_i x rest hc
          rw [if_neg (by rw [hc]; simp)] at hh
          have hlen : rest.length + 1 ≤ Config.commandQueue := by simpa [hc] using h.queues.1
          have hz : (s.link.replies.filter fun r => r.ofHead).length = 0 := by omega
          split
          · refine h.withLink h.notices ⟨by simp, h.queues.2⟩ ?_
            show headReplies _ = _
            unfold headReplies
            simpa [State.setCommands, State.endFrame] using hz
          · refine Sound.carryOut h.store h.blocks (h.cell.same rfl rfl rfl rfl rfl) h.config h.position h.notices
              ⟨?_, h.queues.2⟩ ?_ ?_
            · simp only [State.setCommands]
              omega
            · unfold headReplies
              simpa [State.setCommands, State.endFrame] using hz
            · simp [State.setCommands]
      · rename_i hr
        rw [if_neg hr] at hh
        exact h.withLink h.notices h.queues hh

/-! ## Commands taken at once -/

theorem live_next {s : State} (h : s.held = false) (t : State) : live s t = .next t.choose := by
  unfold live
  rw [h]
  rfl

theorem takeFrame_ready {s : State} (h : s.link.commands = []) (f : HostFrame) (p : f.payload.length ≤ Config.maxPayload) :
    s.takeFrame f = (s.inHand f).carryOut f := by
  unfold State.takeFrame
  rw [if_neg (by omega)]
  unfold State.admitFrame State.queueIsFull
  have e : (s.setReceiver FrameReceiver.hunting).link.commands = [] := h
  rw [e]
  simp [State.inHand, Config.commandQueue]

theorem carryOut_eq (s : State) (f : HostFrame) :
    (s.carryOut f).choose = (s.perform f).state.reply f.kind f.tag (s.perform f).status (s.perform f).result := rfl

theorem perform_of {f : HostFrame} {k : CommandKind} (h : commandKindOf f.kind = some k)
    (p : payloadOk k f.payload = true) (s : State) : s.perform f = s.runCommand k f.payload := by
  unfold State.perform
  rw [h]
  exact if_pos p

/-- What a whole well-formed frame of a command kind does in a part that is ready for it. -/
theorem taken {s : State} (h : Ready s) {f : HostFrame} {k : CommandKind} (hk : commandKindOf f.kind = some k)
    (hp : payloadOk k f.payload = true) (hl : f.payload.length ≤ Config.maxPayload) :
    live s (s.takeFrame f) = .next (((s.inHand f).runCommand k f.payload).state.reply f.kind f.tag
      ((s.inHand f).runCommand k f.payload).status ((s.inHand f).runCommand k f.payload).result) := by
  rw [live_next h.1, takeFrame_ready h.2 f hl, carryOut_eq, perform_of hk hp]

end Sys2Proof.Machine
end

