-- ==== Sys2Proof/Laws/Clock.lean ====
section
/-! SUPPORT. The microseconds in which no command is taken: each is one idle microsecond, the quiet ones pass together,
and what they decide, keep and leave alone. -/

namespace Sys2Proof.Machine

/-! ## The elements decided at their instant (R10) -/

/-- The hub state after an assembly is closed as broken (R17). -/
def brokenHub (a : Option Assembly) (h : HubState) : HubState :=
  match a, h with
  | some x, .testing t => .testing (if x.ofPeriod then { t with heard := .broken } else t)
  | _, _ => h

/-- The directory after an assembly is closed as broken (R58). -/
def brokenDirectory (a : Option Assembly) (h : HubState) (d : Directory) : Directory :=
  match a.bind Assembly.window, h with
  | _, .testing _ => d
  | some (.join _), _ => { d with accumulator := true }
  | _, _ => d

/-- Closing the open assembly as broken, whatever the cause. -/
theorem endAssemblyBroken_eq (s : State) (c : BrokenCause) : s.endAssemblyBroken c = { s with
    receiver := { s.receiver with assembly := none }
    hub := brokenHub s.receiver.assembly s.hub
    directory := brokenDirectory s.receiver.assembly s.hub s.directory } := by
  rcases s with ⟨clock, held, hub, config, timebase, seen, slot, burst, ⟨p, x, k, l, d, a, b⟩, directory⟩
  unfold State.endAssemblyBroken State.lineTest
  cases a with
  | none => cases hub <;> rfl
  | some a =>
    rcases a with ⟨w, ph, bytes, bits, o⟩
    cases hub
    case testing t => cases o <;> rfl
    all_goals
      cases w with
      | none => rfl
      | some w => cases w <;> rfl

/-- An element decided at its instant ends the open assembly, whatever its phase (R11). -/
theorem takeDecided_eq (s : State) (mark : Bool) : s.takeElement (instantClass mark) = { s with
    receiver := { s.receiver with assembly := none }
    hub := brokenHub s.receiver.assembly s.hub
    directory := brokenDirectory s.receiver.assembly s.hub s.directory } := by
  unfold State.takeElement
  split
  · rename_i k
    have e : s.endAssemblyBroken .truncated = s := by unfold State.endAssemblyBroken; rw [k]
    rw [← endAssemblyBroken_eq s .truncated, e]
    rcases instantClass_cases mark with h | h <;> rw [h] <;> rfl
  · rcases instantClass_cases mark with h | h <;> rw [h] <;> split <;> exact endAssemblyBroken_eq s _

/-! ## Quiet microseconds pass together -/

/-- What a microsecond decides on a line that does not move: nothing to a blanked receiver (R15). -/
def State.decideQuiet (s : State) : State := if s.receiver.blanked then s else s.decideElement

theorem quietFor_eq (s : State) (n : Nat) : s.quietFor n = (s.advance n).decideQuiet.choose := by
  unfold State.quietFor State.decideQuiet
  dsimp only
  split <;> rfl

theorem decidesAt_some {r : Receiver} {i : Nat} (h : r.decidesAt = some i) : r.decided = false := by
  unfold Receiver.decidesAt at h
  split at h
  · cases h
  · rename_i k
    exact Bool.eq_false_iff.2 k

theorem decideQuiet_cases (s : State) :
    (s.decideQuiet = s
      ∧ (s.receiver.blanked = true ∨ s.receiver.decidesAt = none
          ∨ ∃ i, s.receiver.decidesAt = some i ∧ s.clock < i))
    ∨ ∃ i, s.receiver.blanked = false ∧ s.receiver.decidesAt = some i ∧ i ≤ s.clock ∧ s.decideQuiet = { s with
        receiver := { s.receiver with decided := true, assembly := none }
        hub := brokenHub s.receiver.assembly s.hub
        directory := brokenDirectory s.receiver.assembly s.hub s.directory } := by
  unfold State.decideQuiet
  split
  · rename_i b
    exact .inl ⟨rfl, .inl b⟩
  · rename_i b
    unfold State.decideElement
    split
    · rename_i e
      exact .inl ⟨rfl, .inr (.inl e)⟩
    · rename_i i e
      split
      · rename_i l
        exact .inr ⟨i, Bool.eq_false_iff.2 b, e, l, takeDecided_eq _ _⟩
      · rename_i l
        exact .inl ⟨rfl, .inr (.inr ⟨i, e, Nat.lt_of_not_le l⟩)⟩

theorem decideQuiet_waits {s : State}
    (h : s.receiver.blanked = true ∨ s.receiver.decidesAt = none ∨ ∃ i, s.receiver.decidesAt = some i ∧ s.clock < i) :
    s.decideQuiet = s := by
  rcases decideQuiet_cases s with ⟨e, _⟩ | ⟨i, b, d, l, _⟩
  · exact e
  · rcases h with h | h | ⟨j, h, k⟩
    · rw [b] at h; cases h
    · rw [d] at h; cases h
    · rw [d] at h; cases h; omega

theorem decideQuiet_decides {s : State} {i : Nat} (b : s.receiver.blanked = false) (d : s.receiver.decidesAt = some i)
    (l : i ≤ s.clock) : s.decideQuiet = { s with
      receiver := { s.receiver with decided := true, assembly := none }
      hub := brokenHub s.receiver.assembly s.hub
      directory := brokenDirectory s.receiver.assembly s.hub s.directory } := by
  rcases decideQuiet_cases s with ⟨_, h | h | ⟨j, h, k⟩⟩ | ⟨_, _, _, _, e⟩
  · rw [b] at h; cases h
  · rw [d] at h; cases h
  · rw [d] at h; cases h; omega
  · exact e

theorem choose_choose (l : HostLink) : l.choose.choose = l.choose := by
  rcases choose_cases l with e | ⟨r, rest, _, _, e⟩ | ⟨n, rest, _, _, _, e⟩ <;> rw [e]
  · exact e
  · exact choose_busy rfl
  · exact choose_busy rfl

/-- What quiet means, field by field. -/
structure Quiet (s : State) : Prop where
  pdin : s.pdinAhead = []
  rxd : s.rxdAhead = []
  due : s.blankingDue = false
  settled : s.receiver.blanked = true ∨ (s.receiver.pdin = s.receiver.accepted ∧ s.receiver.candidate = none)
  serial : s.serial = SerialReceiver.idle

theorem quiet_iff {s : State} : s.quiet = true ↔ Quiet s := by
  unfold State.quiet Receiver.settled
  constructor
  · intro h
    simp at h
    exact ⟨h.1.1.1.1, h.1.1.1.2, h.1.1.2, h.1.2, h.2⟩
  · rintro ⟨a, b, c, d, e⟩
    simp
    exact ⟨⟨⟨⟨a, b⟩, c⟩, d⟩, e⟩

theorem Quiet.advance {s : State} (h : Quiet s) (n : Nat) : Quiet (s.advance n) :=
  ⟨by simp [State.advance, h.pdin], by simp [State.advance, h.rxd], h.due, h.settled, h.serial⟩

theorem Quiet.decideQuiet {s : State} (h : Quiet s) : Quiet s.decideQuiet := by
  rcases decideQuiet_cases s with ⟨e, _⟩ | ⟨_, _, _, _, e⟩ <;> rw [e]
  · exact h
  · exact ⟨h.pdin, h.rxd, h.due, h.settled, h.serial⟩

theorem Quiet.quietFor {s : State} (h : Quiet s) (n : Nat) : Quiet (s.quietFor n) := by
  rw [quietFor_eq]
  have k := (h.advance n).decideQuiet
  exact ⟨k.pdin, k.rxd, k.due, k.settled, k.serial⟩

/-- A quiet microsecond is an idle one. -/
theorem idle_quiet {s : State} (h : Quiet s) : s.idle = s.quietFor 1 := by
  have p : s.pass 1 = s.advance 1 := by
    unfold State.pass State.firstTick
    rw [h.due]
    rfl
  have l : s.lineTick = (s.advance 1).decideQuiet := by
    unfold State.lineTick State.decideQuiet
    rw [p, h.pdin]
    dsimp only [State.movePin]
    split
    · rfl
    · rename_i b
      have k := (h.advance 1).settled.resolve_left b
      have e : (s.advance 1).samplePdin = s.advance 1 := by
        unfold State.samplePdin
        rw [if_pos k.1, ← k.2]
      rw [e]
  have k := (h.advance 1).decideQuiet.serial
  unfold State.idle State.tick
  rw [quietFor_eq, l, h.rxd]
  dsimp only [State.moveRxd]
  congr 1
  unfold State.watchRxd
  rw [k]
  dsimp only [SerialReceiver.idle]
  unfold State.seekStart
  rw [k]
  conv_rhs => rw [show (s.advance 1).decideQuiet = { (s.advance 1).decideQuiet with
    serial := (s.advance 1).decideQuiet.serial } from rfl, k]
  rfl

theorem advance_advance (s : State) (m n : Nat) : (s.advance m).advance n = s.advance (m + n) := by
  rcases s with ⟨_, _, _, _, ⟨running, _, _, _⟩⟩
  cases running
  · simp [State.advance, Nat.add_assoc, List.drop_drop]
  · simp [State.advance, Nat.add_assoc, List.drop_drop]
    omega

theorem choose_advance (s : State) (n : Nat) : s.choose.advance n = (s.advance n).choose := rfl

theorem decideQuiet_choose (s : State) : s.choose.decideQuiet = s.decideQuiet.choose := by
  rcases decideQuiet_cases s with ⟨e, h⟩ | ⟨i, b, d, l, e⟩
  · rw [e, decideQuiet_waits (s := s.choose) h]
  · rw [e, decideQuiet_decides (s := s.choose) b d l]
    rfl

/-- Quiet stretches add up: an element is decided in the one or in the other, and once. -/
theorem quietFor_quietFor (s : State) (m n : Nat) : (s.quietFor m).quietFor n = s.quietFor (m + n) := by
  have c : ∀ t : State, t.choose.choose = t.choose := fun t => congrArg (fun l => { t with link := l }) (choose_choose _)
  rw [quietFor_eq, quietFor_eq, quietFor_eq, choose_advance, decideQuiet_choose, c, ← advance_advance]
  rcases decideQuiet_cases (s.advance m) with ⟨e, _⟩ | ⟨i, b, d, l, e⟩
  · rw [e]
  · rw [e, decideQuiet_decides (s := (s.advance m).advance n) b d (l.trans (Nat.le_add_right _ n)),
      decideQuiet_waits (.inr (.inl (by simp [State.advance, Receiver.decidesAt])))]
    rfl

theorem idleFor_zero (s : State) : s.idleFor 0 = s := rfl

theorem idleFor_quiet {s : State} (h : Quiet s) (n : Nat) : s.idleFor (n + 1) = s.quietFor (n + 1) := by
  rw [State.idleFor, if_pos (quiet_iff.2 h)]

/-- However the microseconds are passed, each of them is one idle microsecond. -/
theorem idleFor_succ (s : State) (n : Nat) : s.idleFor (n + 1) = s.idle.idleFor n := by
  by_cases h : Quiet s
  · rw [idleFor_quiet h, idle_quiet h]
    cases n with
    | zero => rfl
    | succ m => rw [idleFor_quiet (h.quietFor 1), quietFor_quietFor, Nat.add_comm 1]
  · rw [State.idleFor, if_neg (fun k => h (quiet_iff.1 k))]

theorem idleFor_eq_iterate (s : State) (n : Nat) : s.idleFor n = State.idle^[n] s := by
  induction n generalizing s with
  | zero => rfl
  | succ m ih => rw [idleFor_succ, ih, Function.iterate_succ_apply]

theorem idleFor_add (s : State) (m n : Nat) : s.idleFor (m + n) = (s.idleFor m).idleFor n := by
  rw [idleFor_eq_iterate, idleFor_eq_iterate, idleFor_eq_iterate, Nat.add_comm, Function.iterate_add_apply]

/-- What every idle microsecond keeps, so many of them keep. -/
theorem idleFor_keeps {P : State → Prop} (step : ∀ s, P s → P s.idle) {s : State} (h : P s) (n : Nat) :
    P (s.idleFor n) := by
  induction n generalizing s with
  | zero => exact h
  | succ m ih => rw [idleFor_succ]; exact ih (step s h)

/-! ## The instant of an element in a quiet stretch (R10) -/

/-- Before its instant the element in progress is not decided, and time passes alone. -/
theorem idleFor_waits {s : State} {n : Nat} (h : Quiet s)
    (k : s.receiver.blanked = true ∨ s.receiver.decidesAt = none
      ∨ ∃ i, s.receiver.decidesAt = some i ∧ s.clock + (n + 1) < i) :
    s.idleFor (n + 1) = (s.advance (n + 1)).choose := by
  rw [idleFor_quiet h, quietFor_eq, decideQuiet_waits (s := s.advance (n + 1)) k]

/-- From its instant on the element is decided, an open assembly is closed, and the rest of the element is ignored. -/
theorem idleFor_decides {s : State} {n i : Nat} (h : Quiet s) (b : s.receiver.blanked = false)
    (d : s.receiver.decidesAt = some i) (k : i ≤ s.clock + (n + 1)) :
    s.idleFor (n + 1) = State.choose { s.advance (n + 1) with
      receiver := { s.receiver with decided := true, assembly := none }
      hub := brokenHub s.receiver.assembly s.hub
      directory := brokenDirectory s.receiver.assembly s.hub s.directory } := by
  rw [idleFor_quiet h, quietFor_eq, decideQuiet_decides (s := s.advance (n + 1)) b d k]
  rfl

/-- The instant of an element that is measured and not decided yet. -/
theorem decidesAt_measured {r : Receiver} {d : Nat} (h : r.lastTransition = some d) (k : r.decided = false) :
    r.decidesAt = some (d + if r.accepted then abortAt else silenceAt) := by
  simp [Receiver.decidesAt, h, k]

/-! ## Microseconds in which PDIN stands -/

/-- What a blanking that begins leaves of the lines and of the receiver's filter. -/
structure LinesKept (s t : State) : Prop where
  pdinAhead : t.pdinAhead = s.pdinAhead
  rxdAhead : t.rxdAhead = s.rxdAhead
  due : t.blankingDue = false
  serial : t.serial = s.serial
  pdin : t.receiver.pdin = s.receiver.pdin
  accepted : t.receiver.accepted = s.receiver.accepted
  candidate : t.receiver.candidate = s.receiver.candidate
  blanked : s.receiver.blanked = true → t.receiver.blanked = true

/-- A blanking that is due begins with the first microsecond and touches nothing that a standing line rests on. -/
theorem firstTick_lines (s : State) : LinesKept s s.firstTick := by
  unfold State.firstTick
  split
  · unfold State.beginBlanking
    split
    · exact ⟨rfl, rfl, rfl, rfl, rfl, rfl, rfl, id⟩
    · rw [endAssemblyBroken_eq]
      exact ⟨rfl, rfl, rfl, rfl, rfl, rfl, rfl, fun _ => rfl⟩
  · rename_i h
    exact ⟨rfl, rfl, Bool.eq_false_iff.2 h, rfl, rfl, rfl, rfl, id⟩

theorem firstTick_firstTick (s : State) : s.firstTick.firstTick = s.firstTick := by
  rw [State.firstTick, if_neg (by rw [(firstTick_lines s).due]; simp)]

/-- An idle microsecond begins with the first tick that is due. -/
theorem idle_firstTick (s : State) : s.idle = s.firstTick.idle := by
  have f := firstTick_lines s
  unfold State.idle State.tick State.lineTick State.pass
  rw [f.pdinAhead, f.rxdAhead, firstTick_firstTick]
  simp only [Nat.one_ne_zero, if_false]

/-- The receiver of a standing line has settled. -/
theorem standing_settled (r : Receiver) : r.standing.blanked = true
    ∨ (r.standing.pdin = r.standing.accepted ∧ r.standing.candidate = none) := by
  unfold Receiver.standing
  split
  · rename_i h
    exact .inl h
  · exact .inr ⟨rfl, rfl⟩

/-- Where PDIN stands and RXD rests, any number of microseconds pass as quiet ones, after a first tick that is due. -/
theorem standFor_quiet {s : State} (q : s.serial = SerialReceiver.idle) (r : s.rxdAhead = []) (n : Nat) :
    s.standFor (n + 1) =
      ((State.firstTick { s with receiver := s.receiver.standing, pdinAhead := [] }).quietFor (n + 1)).setPdinAhead
        (s.pdinAhead.drop (n + 1)) := by
  have f := firstTick_lines { s with receiver := s.receiver.standing, pdinAhead := [] }
  have Q : Quiet (State.firstTick { s with receiver := s.receiver.standing, pdinAhead := [] }) := by
    refine ⟨f.pdinAhead, f.rxdAhead.trans r, f.due, ?_, f.serial.trans q⟩
    rw [f.pdin, f.accepted, f.candidate]
    exact (standing_settled s.receiver).imp f.blanked id
  unfold State.standFor
  rw [idleFor_succ, idle_firstTick, ← idleFor_succ, idleFor_quiet Q]

/-- Such a stretch moves the time, and the hub state only within a line test. -/
theorem standFor_time {s : State} (q : s.serial = SerialReceiver.idle) (r : s.rxdAhead = [])
    (p : s.timebase.slotTime ≤ Config.slotMicros) (n : Nat) : TimeKept (s.advance n) (s.standFor n) := by
  cases n with
  | zero =>
    refine ⟨?_, fun _ => rfl, id⟩
    show s.timebase = (s.advance 0).timebase
    unfold State.advance
    dsimp only
    split
    · rw [Nat.add_zero, Nat.min_eq_right p]
    · rfl
  | succ n =>
    rw [standFor_quiet q r, quietFor_eq]
    have f := firstTick_time { s with receiver := s.receiver.standing, pdinAhead := [] }
    have a : TimeKept (s.advance (n + 1))
        ((State.firstTick { s with receiver := s.receiver.standing, pdinAhead := [] }).advance (n + 1)) := by
      refine ⟨?_, f.hub, f.test⟩
      unfold State.advance
      dsimp only
      rw [f.timebase]
    refine a.trans (TimeKept.trans (t := State.decideQuiet _) ?_ ⟨rfl, fun _ => rfl, id⟩)
    unfold State.decideQuiet
    split
    · exact .refl _
    · exact decideElement_time _

theorem standFor_clock {s : State} (q : s.serial = SerialReceiver.idle) (r : s.rxdAhead = []) (n : Nat) :
    (s.standFor n).clock = s.clock + n := by
  cases n with
  | zero => rfl
  | succ n =>
    rw [standFor_quiet q r, quietFor_eq]
    show (State.decideQuiet _).clock = _
    have f := (firstTick_cell { s with receiver := s.receiver.standing, pdinAhead := [] }).clock
    unfold State.decideQuiet
    split
    · exact congrArg (· + (n + 1)) f
    · rw [decideElement_clock]
      exact congrArg (· + (n + 1)) f

/-- TRANSITION while RXD rests: its microseconds pass, and what it accepts may undo the timebase and no more (R32). -/
theorem takeTransition_time {s : State} (q : s.serial = SerialReceiver.idle) (r : s.rxdAhead = [])
    (p : s.timebase.slotTime ≤ Config.slotMicros) (n : Nat) : TimePassed n s (s.takeTransition n) := by
  refine ⟨(transition_clock _).trans (standFor_clock q r n), ?_⟩
  rcases (standFor_time q r p n).before (transition_time _) with k | ⟨l, o⟩
  · refine .inl (k.trans ?_)
    unfold State.advance
    dsimp only
    split
    · rename_i h
      rw [h]
      rfl
    · rfl
  · exact .inr ⟨l, o⟩

/-! ## What idle microseconds keep -/

/-- What lies outside the part's blocks stays: RSTN and the commands that wait. -/
structure OutsideKept (s t : State) : Prop where
  held : t.held = s.held
  pending : t.pending = s.pending

theorem OutsideKept.trans {s t u : State} (h : OutsideKept s t) (k : OutsideKept t u) : OutsideKept s u :=
  ⟨k.held.trans h.held, k.pending.trans h.pending⟩

theorem carryOut_outside (s : State) (f : HostFrame) : OutsideKept s (s.carryOut f) :=
  ⟨(perform_answer s f).held, (perform_answer s f).pending⟩

theorem takeFrame_outside (s : State) (f : HostFrame) : OutsideKept s (s.takeFrame f) := by
  unfold State.takeFrame State.admitFrame
  dsimp only
  repeat' split
  all_goals first
    | exact ⟨rfl, rfl⟩
    | (refine OutsideKept.trans ?_ (carryOut_outside _ _); exact ⟨rfl, rfl⟩)

theorem takeCharacter_outside (s : State) (b : Byte) : OutsideKept s (s.takeCharacter b) := by
  unfold State.takeCharacter
  dsimp only
  repeat' split
  all_goals first
    | exact ⟨rfl, rfl⟩
    | exact takeFrame_outside s _

theorem characterReceived_outside (s : State) (a : Bool) (d : List Bool) (b : Bool) :
    OutsideKept s (s.characterReceived a d b) := by
  unfold State.characterReceived
  split
  · exact ⟨rfl, rfl⟩
  · refine OutsideKept.trans ?_ (takeCharacter_outside _ _)
    exact ⟨rfl, rfl⟩

theorem watchRxd_outside (s : State) : OutsideKept s s.watchRxd := by
  unfold State.watchRxd State.sampleRxd
  dsimp only
  repeat' split
  all_goals first
    | exact ⟨rfl, rfl⟩
    | exact characterReceived_outside s _ _ _

theorem idle_outside (s : State) : OutsideKept s s.idle := by
  have k : OutsideKept s s.lineTick := ⟨(lineTick_event s).held, (lineTick_event s).pending⟩
  have m : OutsideKept s.lineTick (s.lineTick.moveRxd s.rxdAhead) := by
    unfold State.moveRxd
    split <;> exact ⟨rfl, rfl⟩
  exact (k.trans m).trans ((watchRxd_outside _).trans ⟨rfl, rfl⟩)

theorem idleFor_outside (s : State) (n : Nat) : OutsideKept s (s.idleFor n) :=
  idleFor_keeps (P := OutsideKept s) (fun t h => h.trans (idle_outside t)) ⟨rfl, rfl⟩ n

/-- A step that finds no command waiting is one idle microsecond. -/
theorem step_idle {s : State} (h : s.held = false) (p : s.pending = []) : step s = .next s.idle := by
  unfold step
  rw [p]
  exact live_next h _

theorem Sound.idle {s : State} (h : Sound s) : Sound s.idle := h.tick.choose

theorem Sound.idleFor {s : State} (h : Sound s) (n : Nat) : Sound (s.idleFor n) :=
  idleFor_keeps (P := Sound) (fun _ k => k.idle) h n

theorem standFor_outside (s : State) (n : Nat) : OutsideKept s (s.standFor n) :=
  OutsideKept.trans (t := { s with receiver := s.receiver.standing, pdinAhead := [] }) ⟨rfl, rfl⟩
    ((idleFor_outside _ n).trans ⟨rfl, rfl⟩)

theorem Sound.withLine {s : State} (h : Sound s) (r : Receiver) (q : List Bool) :
    Sound { s with receiver := r, pdinAhead := q } :=
  h.event ⟨rfl, rfl, rfl, rfl, rfl, rfl, rfl, id, id, .refl _⟩ (h.cell.same rfl rfl rfl rfl rfl)

theorem Sound.standFor {s : State} (h : Sound s) (n : Nat) : Sound (s.standFor n) :=
  ((h.withLine _ _).idleFor n).withLine _ _

theorem Sound.takeTransition {s : State} (h : Sound s) (n : Nat) : Sound (s.takeTransition n) :=
  (h.standFor n).event (transition_event _) (h.standFor n).cell.transition

/-! ## The slot in progress runs to its end -/

/-- At the slot's end nothing is left to pass. -/
theorem toSlotEnd_atEnd {s : State} (h : Config.slotMicros ≤ s.timebase.slotTime) : s.toSlotEnd = s := by
  unfold State.toSlotEnd
  rw [Nat.sub_eq_zero_of_le h]
  rfl

/-- Before the slot's end no slot starts. -/
theorem slotStart_beforeEnd {s : State} (h : s.atSlotEnd = false) : s.slotStart = s :=
  if_neg (by rw [h]; simp)

/-- Before the slot's end no round begins. -/
theorem roundBoundary_beforeEnd {s : State} (h : s.atSlotEnd = false) : s.roundBoundary = s :=
  if_neg (by rw [h]; simp)

theorem Sound.toSlotEnd {s : State} (h : Sound s) : Sound s.toSlotEnd := h.idleFor _

/-- SLOT_START is the slot start at the end that the slot in progress has run to. -/
theorem takeSlotStart_inPlace {s : State} (h : s.timebase.running = true) (k : s.timebase.slot < Config.lastSlot) :
    s.takeSlotStart = s.toSlotEnd.slotStart := if_pos ⟨h, k⟩

theorem takeSlotStart_outOfPlace {s : State} (h : s.timebase.running = false ∨ Config.lastSlot ≤ s.timebase.slot) :
    s.takeSlotStart = s := by
  refine if_neg ?_
  rintro ⟨r, k⟩
  rcases h with h | h
  · rw [h] at r; cases r
  · omega

/-- ROUND_BOUNDARY is the boundary at the end that slot 63 has run to. -/
theorem takeRoundBoundary_inPlace {s : State} (h : s.timebase.running = true) (k : s.timebase.slot = Config.lastSlot) :
    s.takeRoundBoundary = s.toSlotEnd.roundBoundary := if_pos ⟨h, k⟩

theorem takeRoundBoundary_outOfPlace {s : State}
    (h : s.timebase.running = false ∨ s.timebase.slot ≠ Config.lastSlot) : s.takeRoundBoundary = s := by
  refine if_neg ?_
  rintro ⟨r, k⟩
  rcases h with h | h
  · rw [h] at r; cases r
  · exact h k

theorem Sound.takeSlotStart {s : State} (h : Sound s) : Sound s.takeSlotStart := by
  unfold State.takeSlotStart
  split
  · exact h.toSlotEnd.event (slotStart_event _) (h.toSlotEnd.cell.slotStart h.toSlotEnd.config)
  · exact h

theorem Sound.takeRoundBoundary {s : State} (h : Sound s) : Sound s.takeRoundBoundary := by
  unfold State.takeRoundBoundary
  split
  · exact h.toSlotEnd.event (roundBoundary_event _) (h.toSlotEnd.cell.roundBoundary h.toSlotEnd.config)
  · exact h

end Sys2Proof.Machine
end

