-- ==== Sys2Proof/Laws/Planner.lean ====
section
/-! SUPPORT. What the planner's choices are: the order of the candidates, the age a label waits by, and the transfer
record. -/

namespace Sys2Proof.Machine

variable {s : State}

/-! ## The order of the candidates (R140, R141) -/

/-- One candidate precedes another in the arbiter's order. -/
def Precedes (x y : Applicant) : Prop :=
  x.rank < y.rank ∨ (x.rank = y.rank ∧ (y.age < x.age ∨ (x.age = y.age ∧ x.address < y.address)))

theorem before_iff (x y : Applicant) : x.before y = true ↔ Precedes x y := by
  simp [Applicant.before, Precedes]

theorem Precedes.trans {x y z : Applicant} (a : Precedes x y) (b : Precedes y z) : Precedes x z := by
  unfold Precedes at *
  omega

theorem Precedes.total {x y : Applicant} (n : x.address ≠ y.address) (h : ¬ Precedes x y) : Precedes y x := by
  unfold Precedes at *
  omega

theorem placeApplicant_sorted {x : Applicant} {l : List Applicant} (h : l.Pairwise Precedes)
    (n : ∀ y ∈ l, x.address ≠ y.address) : (placeApplicant x l).Pairwise Precedes := by
  induction l with
  | nil => simp [placeApplicant]
  | cons y l ih =>
    unfold placeApplicant
    rw [List.pairwise_cons] at h
    split
    · rename_i b
      have b := (before_iff x y).1 b
      refine List.pairwise_cons.2 ⟨fun z hz => ?_, List.pairwise_cons.2 h⟩
      rcases List.mem_cons.1 hz with rfl | hz
      · exact b
      · exact b.trans (h.1 z hz)
    · rename_i b
      have b : Precedes y x := Precedes.total (n y (by simp)) fun c => b ((before_iff x y).2 c)
      refine List.pairwise_cons.2 ⟨fun z hz => ?_, ih h.2 fun z hz => n z (List.mem_cons_of_mem y hz)⟩
      rcases (mem_placeApplicant x z l).1 hz with rfl | hz
      · exact b
      · exact h.1 z hz

theorem candidates_sorted (s : State) : s.candidates.Pairwise Precedes := by
  have key : ∀ (l q : List Applicant), q.Pairwise Precedes → (l.map Applicant.address).Nodup →
      (∀ x ∈ l, ∀ y ∈ q, x.address ≠ y.address) → (l.foldl (fun q x => placeApplicant x q) q).Pairwise Precedes := by
    intro l
    induction l with
    | nil => exact fun q h _ _ => h
    | cons x l ih =>
      intro q h nd n
      rw [List.map_cons, List.nodup_cons] at nd
      refine ih _ (placeApplicant_sorted h (n x (by simp))) nd.2 fun y hy z hz => ?_
      rcases (mem_placeApplicant x z q).1 hz with rfl | hz
      · exact fun c => nd.1 (c ▸ List.mem_map_of_mem hy)
      · exact n y (List.mem_cons_of_mem x hy) z hz
  refine key _ [] .nil ?_ (by simp)
  have ad : ∀ l : List Nat, ((l.filterMap s.applicant).map Applicant.address).Sublist l := by
    intro l
    induction l with
    | nil => simp
    | cons a l ih =>
      rw [List.filterMap_cons]
      cases h : s.applicant a with
      | none => exact ih.trans (List.sublist_cons_self a l)
      | some x =>
        rw [List.map_cons, (applicant_some h).1]
        exact ih.cons_cons a
  exact (ad addresses).nodup List.nodup_range'

/-! ## The age a label waits by (R141) -/

theorem foldl_max_spec (l : List Nat) : ∀ b, b ≤ l.foldl max b ∧ (∀ n ∈ l, n ≤ l.foldl max b)
    ∧ (l.foldl max b = b ∨ l.foldl max b ∈ l) := by
  induction l with
  | nil => simp
  | cons x l ih =>
    intro b
    obtain ⟨h1, h2, h3⟩ := ih (max b x)
    refine ⟨by simp only [List.foldl_cons]; omega, fun n hn => ?_, ?_⟩
    · rcases List.mem_cons.1 hn with rfl | hn
      · simp only [List.foldl_cons]; omega
      · exact h2 n hn
    · simp only [List.foldl_cons]
      rcases h3 with h3 | h3
      · rcases Nat.le_total b x with c | c
        · rw [h3, Nat.max_eq_right c]; exact .inr (by simp)
        · rw [h3, Nat.max_eq_left c]; exact .inl rfl
      · exact .inr (List.mem_cons_of_mem x h3)

theorem mem_waitingAges {a : Nat} {l : Label} (n : Nat) : n ∈ s.waitingAges a l ↔
    (∃ o ∈ l.queue, n = ageOf s.stamp o.queued)
      ∨ ((l.phase = .bound ∨ l.phase = .missing) ∧ ∃ h r t, s.transferRecord a = some h ∧ s.record h = some r
        ∧ r.readyStamp = some t ∧ n = ageOf s.stamp t) := by
  unfold State.waitingAges
  cases hp : l.phase <;> cases ht : s.transferRecord a with
  | none => simp [eq_comm]
  | some h =>
    cases hr : s.record h with
    | none => simp [eq_comm, hr]
    | some r => cases hs : r.readyStamp <;> simp [eq_comm, hr, hs]

theorem waitsBy_iff {a : Nat} {n : Nat} : WaitsBy s a n ↔ ∃ l, s.label? a = some l ∧ n ∈ s.waitingAges a l := by
  constructor
  · rintro ⟨l, e, h⟩
    exact ⟨l, entry_label e, (mem_waitingAges n).2 h⟩
  · rintro ⟨l, e, h⟩
    exact ⟨l, label_entry e, (mem_waitingAges n).1 h⟩

theorem waitingAge_oldest (s : State) (a : Nat) : (∀ n, WaitsBy s a n → n ≤ s.waitingAge a)
    ∧ (WaitsBy s a (s.waitingAge a) ∨ ((∀ n, ¬ WaitsBy s a n) ∧ s.waitingAge a = 0)) := by
  simp only [waitsBy_iff]
  unfold State.waitingAge
  cases e : s.label? a with
  | none => simp
  | some l =>
    obtain ⟨-, h2, h3⟩ := foldl_max_spec (s.waitingAges a l) 0
    refine ⟨?_, ?_⟩
    · rintro n ⟨m, hm, h⟩
      cases hm
      exact h2 n h
    · rcases h3 with h3 | h3
      · cases q : s.waitingAges a l with
        | nil =>
          refine .inr ⟨?_, h3⟩
          rintro n ⟨m, hm, h⟩
          cases hm
          rw [q] at h
          cases h
        | cons x y =>
          rw [q] at h2 h3
          have := h2 x (by simp)
          refine .inl ⟨l, rfl, ?_⟩
          dsimp only
          rw [q, h3]
          have : x = 0 := by omega
          simp [this]
      · exact .inl ⟨l, rfl, h3⟩

/-! ## The transfer record (R138) -/

theorem preferredTo_iff (now : Stamp) (r q : Record) : r.preferredTo now q = true ↔ Preferred now r q := by
  unfold Record.preferredTo Preferred
  cases r.urgent <;> cases q.urgent <;> simp
  all_goals
    split
    · rename_i h; simp [h]
    · rename_i h; simp; omega

theorem Preferred.trans {now : Stamp} {x y z : Record} (a : Preferred now x y) (b : Preferred now y z) :
    Preferred now x z := by
  unfold Preferred at *
  cases hx : x.urgent <;> cases hy : y.urgent <;> cases hz : z.urgent <;> simp_all
  all_goals omega

theorem Preferred.total {now : Stamp} {x y : Record} (n : x.page ≠ y.page) (h : ¬ Preferred now x y) :
    Preferred now y x := by
  unfold Preferred at *
  cases hx : x.urgent <;> cases hy : y.urgent <;> simp_all
  all_goals omega

/-- The better of a record found so far and the record at a handle. -/
theorem betterReady_spec (R : RecordsOk s) (a : Nat) (seen : List Nat) (b : Option Nat) (h : Nat)
    (hb : ∀ k, b = some k → ∃ r, s.record k = some r ∧ r.address = a ∧ r.state = .ready
      ∧ ∀ j ∈ seen, ∀ q, s.record j = some q → q.address = a → q.state = .ready → j ≠ k → Preferred s.stamp r q)
    (hn : b = none → ∀ j ∈ seen, ∀ q, s.record j = some q → q.address = a → q.state ≠ .ready) :
    (∀ k, s.betterReady a b h = some k → ∃ r, s.record k = some r ∧ r.address = a ∧ r.state = .ready
      ∧ ∀ j ∈ seen ++ [h], ∀ q, s.record j = some q → q.address = a → q.state = .ready → j ≠ k →
        Preferred s.stamp r q)
    ∧ (s.betterReady a b h = none →
        ∀ j ∈ seen ++ [h], ∀ q, s.record j = some q → q.address = a → q.state ≠ .ready) := by
  have split : ∀ {P : Nat → Prop}, (∀ j ∈ seen ++ [h], P j) ↔ (∀ j ∈ seen, P j) ∧ P h := by
    intro P
    simp [List.mem_append, or_imp, forall_and]
  have old : (∀ q, s.record h = some q → q.address = a → q.state ≠ .ready) →
      (∀ k, b = some k → ∃ r, s.record k = some r ∧ r.address = a ∧ r.state = .ready
        ∧ ∀ j ∈ seen ++ [h], ∀ q, s.record j = some q → q.address = a → q.state = .ready → j ≠ k →
          Preferred s.stamp r q)
      ∧ (b = none → ∀ j ∈ seen ++ [h], ∀ q, s.record j = some q → q.address = a → q.state ≠ .ready) := by
    intro no
    refine ⟨fun k e => ?_, fun e => split.2 ⟨hn e, no⟩⟩
    obtain ⟨r, h1, h2, h3, h4⟩ := hb k e
    exact ⟨r, h1, h2, h3, split.2 ⟨h4, fun q x y z => absurd z (no q x y)⟩⟩
  unfold State.betterReady
  cases hr : s.record h with
  | none => exact old fun q x => by rw [hr] at x; cases x
  | some r =>
    dsimp only
    by_cases c : r.address = a ∧ r.state = .ready
    · rw [if_pos c]
      cases b with
      | none =>
        refine ⟨fun k e => ?_, fun e => by cases e⟩
        cases e
        exact ⟨r, hr, c.1, c.2, split.2 ⟨fun j hj q x y z => absurd z (hn rfl j hj q x y), fun q x y z w => absurd rfl w⟩⟩
      | some k =>
        obtain ⟨q, h1, h2, h3, h4⟩ := hb k rfl
        dsimp only
        rw [h1]
        dsimp only
        have live : ∀ x : Record, x.state = .ready → x.state.isLive = true := fun x e => by rw [e]; rfl
        have page : h ≠ k → r.page ≠ q.page := fun ne pg =>
          ne (R.live h k r q hr h1 (c.1.trans h2.symm) pg (live r c.2) (live q h3))
        by_cases pr : r.preferredTo s.stamp q = true
        · rw [if_pos pr]
          refine ⟨fun m e => ?_, fun e => by cases e⟩
          cases e
          have pr := (preferredTo_iff _ _ _).1 pr
          refine ⟨r, hr, c.1, c.2, split.2 ⟨fun j hj x e1 e2 e3 ne => ?_, fun x _ _ _ w => absurd rfl w⟩⟩
          by_cases jk : j = k
          · subst jk
            rw [h1] at e1
            cases e1
            exact pr
          · exact pr.trans (h4 j hj x e1 e2 e3 jk)
        · rw [if_neg pr]
          refine ⟨fun m e => ?_, fun e => by cases e⟩
          cases e
          refine ⟨q, h1, h2, h3, split.2 ⟨h4, fun x e1 e2 e3 ne => ?_⟩⟩
          rw [hr] at e1
          cases e1
          exact Preferred.total (page ne) fun z => pr ((preferredTo_iff _ _ _).2 z)
    · rw [if_neg c]
      exact old fun q x y z => c (by rw [hr] at x; cases x; exact ⟨y, z⟩)

/-- With no READY record found a label has none. -/
theorem bestReady_none {a : Nat} (e : s.bestReady a = none) (j : Nat) (q : Record) (x : s.record j = some q)
    (ha : q.address = a) : q.state ≠ .ready := by
  have key : ∀ (l : List Nat) (b : Option Nat), l.foldl (s.betterReady a) b = none → b = none ∧
      ∀ j ∈ l, ∀ q, s.record j = some q → q.address = a → q.state ≠ .ready := by
    intro l
    induction l with
    | nil => exact fun b h => ⟨h, by simp⟩
    | cons y l ih =>
      intro b h
      obtain ⟨h1, h2⟩ := ih _ h
      have step : b = none ∧ ∀ q, s.record y = some q → q.address = a → q.state ≠ .ready := by
        unfold State.betterReady at h1
        cases hr : s.record y with
        | none => simp only [hr] at h1; exact ⟨h1, fun q c => by cases c⟩
        | some r =>
          simp only [hr] at h1
          split at h1
          · repeat' split at h1
            all_goals cases h1
          · rename_i c
            exact ⟨h1, fun q d ha hs => c (by cases d; exact ⟨ha, hs⟩)⟩
      refine ⟨step.1, fun j hj => ?_⟩
      rcases List.mem_cons.1 hj with rfl | hj
      · exact step.2
      · exact h2 j hj
  exact (key handles none e).2 j (List.mem_range.2 (record_lt x)) q x ha

/-- The READY record the planner would claim is the preferred one, and there is one if the label has any. -/
theorem bestReady_spec (R : RecordsOk s) (a : Nat) :
    (∀ k, s.bestReady a = some k → ∃ r, s.record k = some r ∧ r.address = a ∧ r.state = .ready
      ∧ ∀ j q, s.record j = some q → q.address = a → q.state = .ready → j ≠ k → Preferred s.stamp r q)
    ∧ (s.bestReady a = none → ∀ j q, s.record j = some q → q.address = a → q.state ≠ .ready) := by
  have key : ∀ (l seen : List Nat) (b : Option Nat),
      (∀ k, b = some k → ∃ r, s.record k = some r ∧ r.address = a ∧ r.state = .ready
        ∧ ∀ j ∈ seen, ∀ q, s.record j = some q → q.address = a → q.state = .ready → j ≠ k → Preferred s.stamp r q) →
      (b = none → ∀ j ∈ seen, ∀ q, s.record j = some q → q.address = a → q.state ≠ .ready) →
      (∀ k, l.foldl (s.betterReady a) b = some k → ∃ r, s.record k = some r ∧ r.address = a ∧ r.state = .ready
        ∧ ∀ j ∈ seen ++ l, ∀ q, s.record j = some q → q.address = a → q.state = .ready → j ≠ k →
          Preferred s.stamp r q)
      ∧ (l.foldl (s.betterReady a) b = none →
          ∀ j ∈ seen ++ l, ∀ q, s.record j = some q → q.address = a → q.state ≠ .ready) := by
    intro l
    induction l with
    | nil => intro seen b h1 h2; simpa using ⟨h1, h2⟩
    | cons x l ih =>
      intro seen b h1 h2
      obtain ⟨k1, k2⟩ := betterReady_spec R a seen b x h1 h2
      have := ih (seen ++ [x]) (s.betterReady a b x) k1 k2
      rwa [List.append_assoc] at this
  obtain ⟨h1, h2⟩ := key handles [] none (fun k e => by cases e) (fun _ j m => by cases m)
  have mem : ∀ j q, s.record j = some q → j ∈ [] ++ handles := fun j q e => List.mem_range.2 (record_lt e)
  refine ⟨fun k e => ?_, fun e j q x => h2 e j (mem j q x) q x⟩
  obtain ⟨r, a1, a2, a3, a4⟩ := h1 k e
  exact ⟨r, a1, a2, a3, fun j q x => a4 j (mem j q x) q x⟩

theorem transferRecord_iff (R : RecordsOk s) (a h : Nat) : s.transferRecord a = some h ↔ IsTransfer s a h := by
  unfold State.transferRecord
  cases e : s.sendingOf a with
  | some k =>
    obtain ⟨r, hr, ha, hs⟩ := sendingOf_some e
    dsimp only
    constructor
    · intro c
      cases c
      exact ⟨r, hr, ha, .inl hs⟩
    · rintro ⟨q, hq, hqa, hqs | ⟨_, none', _⟩⟩
      · rw [R.single k h r q hr hq (ha.trans hqa.symm) hs hqs]
      · exact absurd hs (none' k r hr ha)
  | none =>
    dsimp only
    obtain ⟨b1, b2⟩ := bestReady_spec R a
    constructor
    · intro c
      obtain ⟨r, hr, ha, hs, best⟩ := b1 h c
      exact ⟨r, hr, ha, .inr ⟨hs, fun k q hq hqa => sendingOf_none e hq hqa, best⟩⟩
    · rintro ⟨r, hr, ha, hs | ⟨hs, _, best⟩⟩
      · exact absurd hs (sendingOf_none e hr ha)
      · cases c : s.bestReady a with
        | none => exact absurd hs (b2 c h r hr ha)
        | some k =>
          obtain ⟨q, hq, hqa, hqs, hbest⟩ := b1 k c
          by_contra ne
          have ne : h ≠ k := fun x => ne (by rw [x])
          have p1 := hbest h r hr ha hs ne
          have p2 := best k q hq hqa hqs ne.symm
          unfold Preferred at p1 p2
          cases hu : r.urgent <;> cases hv : q.urgent <;> simp_all
          all_goals omega

theorem hasWork_iff (a : Nat) (l : Label) : s.hasWork a l = true ↔ HasWork s a l := by
  have work : (s.transferRecord a).isSome = true ↔
      ∃ h r, s.record h = some r ∧ r.address = a ∧ (r.state = .sending ∨ r.state = .ready) := by
    unfold State.transferRecord
    cases e : s.sendingOf a with
    | some k =>
      obtain ⟨r, hr, ha, hs⟩ := sendingOf_some e
      simpa using ⟨k, r, hr, ha, .inl hs⟩
    | none =>
      dsimp only
      constructor
      · intro c
        obtain ⟨k, hk⟩ := Option.isSome_iff_exists.1 c
        obtain ⟨r, hr, ha, hs⟩ := bestReady_some hk
        exact ⟨k, r, hr, ha, .inr hs⟩
      · rintro ⟨h, r, hr, ha, hs | hs⟩
        · exact absurd hs (sendingOf_none e hr ha)
        · rw [Option.isSome_iff_ne_none]
          exact fun c => bestReady_none c h r hr ha hs
  unfold State.hasWork HasWork
  rw [Bool.or_eq_true, work]
  cases l.queue <;> simp

/-! ## The candidates (R137) -/

theorem callKind_iff (a : Nat) (k : CallKind) : s.callKind a = some k ↔ CalledAs s a k := by
  unfold State.callKind CalledAs State.entryWakes
  cases e : s.label? a with
  | none =>
    refine ⟨(by intro h; cases h), ?_⟩
    rintro ⟨l, h, -⟩
    rw [entry_label h] at e
    cases e
  | some l =>
    have only : ∀ P : Label → Prop, (∃ m, s.entry a = .label m ∧ P m) ↔ P l := by
      intro P
      refine ⟨?_, fun h => ⟨l, label_entry e, h⟩⟩
      rintro ⟨m, h, p⟩
      rw [label_entry e] at h
      cases h
      exact p
    rw [only]
    dsimp only
    cases hp : l.phase with
    | joining n b => cases k <;> simp [Phase.isJoining]
    | missing => by_cases h : s.roundIndex = 0 <;> cases k <;> simp [Phase.isJoining, h]
    | releasing n m =>
      by_cases h : s.roundIndex = 0 <;> cases m <;> cases hs : l.profileState <;>
        cases hw : (l.applicable s.epoch).wakes s.roundIndex <;> cases k <;>
        simp [Phase.isJoining, ProfileState.isUncertain, h]
    | bound =>
      by_cases w : HasWork s a l
      · simp only [(hasWork_iff (s := s) a l).2 w, if_true]
        by_cases h : s.roundIndex = 0 <;> cases hs : l.profileState <;>
          cases hw : (l.applicable s.epoch).wakes s.roundIndex <;> cases k <;>
          simp [Phase.isJoining, ProfileState.isUncertain, h, w]
      · have : s.hasWork a l = false := by
          rw [Bool.eq_false_iff]
          exact fun c => w ((hasWork_iff a l).1 c)
        simp [Phase.isJoining, this, w]

end Sys2Proof.Machine
end

