-- ==== Sys2Proof/Laws/Status.lean ====
section
/-! SUPPORT. What a STATUS taken as for a BOUND entry does, part by part: the entry's fields, and the notices. -/

namespace Sys2Proof.Machine

/-- A state in which the entry of a short address holds given fields and given notices have been posted. -/
def State.holding (v : State) (a : Nat) (l : Label) (ns : List Notice) : State :=
  (v.setEntry a (.label l)).postAll ns

section
variable {v : State} {a : Nat} {l : Label} {ns : List Notice}

theorem setEntry_setEntry (s : State) (a : Nat) (e f : Entry) : (s.setEntry a e).setEntry a f = s.setEntry a f := by
  unfold State.setEntry
  split
  · rfl
  · simp

/-- A STATUS taken as an answer by the transfer engine touches contexts alone, whatever an entry holds (R160). -/
theorem engineReply_setEntry (s : State) (a h : Nat) (e : Entry) (d : List Byte) (k : byteAt d 0 = kindStatus) :
    (s.setEntry a e).engineReply a h d = (s.engineReply a h d).setEntry a e := by
  have hne : byteAt d 0 ≠ kindReceipt := by rw [k]; decide
  have r0 : (s.setEntry a e).record h = s.record h := by unfold State.record; rw [setEntry_store]
  have c0 : (s.setEntry a e).contextOf h = s.contextOf h := by unfold State.contextOf State.context; rw [setEntry_contexts]
  have x0 : ∀ i, (s.setEntry a e).context i = s.context i := fun i => by unfold State.context; rw [setEntry_contexts]
  unfold State.engineReply
  rw [r0, c0]
  cases s.record h with
  | none => rfl
  | some r =>
    dsimp only
    split
    · cases s.contextOf h with
      | none => rfl
      | some i =>
        dsimp only
        rw [x0]
        cases s.context i with
        | none => rfl
        | some c =>
          dsimp only
          unfold State.setEntry
          split <;> rfl
    · rfl

theorem setEntry_post (s : State) (n : Notice) (a : Nat) (e : Entry) :
    (s.post n).setEntry a e = (s.setEntry a e).post n := by
  unfold State.setEntry
  split <;> rfl

theorem setEntry_postAll (ns : List Notice) (s : State) (a : Nat) (e : Entry) :
    (s.postAll ns).setEntry a e = (s.setEntry a e).postAll ns := by
  unfold State.postAll
  induction ns generalizing s with
  | nil => rfl
  | cons n ns ih => rw [List.foldl_cons, ih, setEntry_post, List.foldl_cons]

theorem holding_label (r : 1 ≤ a ∧ a ≤ 240) : (v.holding a l ns).label? a = some l := by
  unfold State.label? State.holding
  rw [entry_eq (postAll_entries _ ns), entry_setEntry]
  simp [r, Entry.label?]

theorem holding_update (r : 1 ≤ a ∧ a ≤ 240) (f : Label → Label) :
    (v.holding a l ns).updateLabel a f = v.holding a (f l) ns := by
  unfold State.updateLabel
  rw [holding_label r]
  dsimp only
  unfold State.holding
  rw [setEntry_postAll, setEntry_setEntry]

theorem holding_post (n : Notice) : (v.holding a l ns).post n = v.holding a l (ns ++ [n]) := by
  unfold State.holding State.postAll
  rw [List.foldl_append]
  rfl

theorem postAll_frame (ns : List Notice) (s : State) : (s.postAll ns).timebase = s.timebase
    ∧ (s.postAll ns).config = s.config ∧ (s.postAll ns).store = s.store := by
  unfold State.postAll
  induction ns generalizing s with
  | nil => exact ⟨rfl, rfl, rfl⟩
  | cons n ns ih => exact ih (s.post n)

theorem setEntry_frame (s : State) (a : Nat) (e : Entry) : (s.setEntry a e).timebase = s.timebase
    ∧ (s.setEntry a e).config = s.config ∧ (s.setEntry a e).store = s.store := by
  unfold State.setEntry
  split <;> exact ⟨rfl, rfl, rfl⟩

theorem holding_stamp : (v.holding a l ns).stamp = v.stamp := by
  unfold State.stamp State.holding
  rw [(postAll_frame ns _).1, (setEntry_frame v a _).1]

theorem holding_epoch : (v.holding a l ns).epoch = v.epoch := congrArg epochOf holding_stamp

theorem holding_config : (v.holding a l ns).config = v.config := by
  unfold State.holding
  rw [(postAll_frame ns _).2.1, (setEntry_frame v a _).2.1]

/-- The first part of a STATUS: the answer of the open send (R94 to R96). -/
theorem holding_answer (r : 1 ≤ a ∧ a ≤ 240) (slot : Nat) (q : StatusReport) : ∃ m n1,
    Answered v.epoch a slot q l m n1 ∧ (v.holding a l ns).takeAnswer a slot q = v.holding a m (ns ++ n1) := by
  unfold State.takeAnswer
  rw [holding_label r]
  dsimp only
  cases e : l.openSend with
  | none => exact ⟨l, [], .inr ⟨by simp [e], rfl, rfl⟩, by simp⟩
  | some w =>
    dsimp only
    by_cases h : w.answeredBy slot q = true
    · rw [if_pos h, holding_update r, holding_epoch]
      have hw : w.slot = slot ∧ w.sequence = q.echo ∧ (q.result = .done ∨ q.result = .refused) := by
        simpa [OpenSend.answeredBy, and_assoc] using h
      refine ⟨l.answered v.epoch w (q.result == .done), if w.attached then
        [if q.result = .done then .opDone a w.fields.kind else .opFailed a w.fields.kind .refused] else [],
        .inl ⟨w, e, hw.1, hw.2.1, hw.2.2, ?_, ?_, ?_, rfl⟩, ?_⟩
      · intro p hp hd
        unfold Label.answered Label.writePlanned Label.dequeue
        rw [hp, hd]
        cases hl : l.planned with
        | none => cases w.attached <;> simp
        | some x => by_cases hx : x.effective = v.epoch <;> cases w.attached <;> simp [hx]
      · intro hp
        unfold Label.answered Label.dequeue
        cases hf : w.fields <;> cases w.attached <;> simp
        all_goals
          rcases hp with hp | hp
          · exact absurd hf (hp _)
          · simp [hp]
      · unfold Label.answered Label.writePlanned Label.dequeue
        cases hd : q.result == .done <;> cases hf : w.fields <;> cases w.attached <;> simp
        all_goals
          cases hl : l.planned with
          | none => simp
          | some x => by_cases hx : x.effective = v.epoch <;> simp [hx]
      · cases w.attached
        · simp
        · simp [holding_post]
    · rw [if_neg h]
      refine ⟨l, [], .inr ⟨fun x hx => ?_, rfl, rfl⟩, by simp⟩
      obtain rfl : w = x := Option.some.inj (e.symm.trans hx)
      simp only [OpenSend.answeredBy, Bool.and_eq_true, beq_iff_eq, Bool.or_eq_true, not_and_or, not_or] at h
      tauto

/-- The queue's first SET_PROFILE is for the profile that a report shows. -/
theorem wantedProfile_iff (q : List Operation) (want : Profile) :
    (q.findSome? fun o => match o.fields with
      | .setProfile p => some p | .ping => none | .setMode _ => none | .showPage _ => none | .release => none)
        = some want ↔
      ∃ before o behind, q = before ++ o :: behind ∧ (∀ x ∈ before, x.kind ≠ .setProfile)
        ∧ o.fields = .setProfile want := by
  rw [List.findSome?_eq_some_iff]
  constructor
  · rintro ⟨b, o, c, h1, h2, h3⟩
    refine ⟨b, o, c, h1, fun x hx => ?_, ?_⟩
    · have := h3 x hx
      unfold Operation.kind
      cases hf : x.fields <;> simp_all [OpFields.kind]
    · cases hf : o.fields <;> simp_all
  · rintro ⟨b, o, c, h1, h2, h3⟩
    refine ⟨b, o, c, h1, by rw [h3], fun x hx => ?_⟩
    have := h2 x hx
    unfold Operation.kind at this
    cases hf : x.fields <;> simp_all [OpFields.kind]

/-- The profile report and its completion check (R81 to R83). -/
theorem holding_report (r : 1 ≤ a ∧ a ≤ 240) (q : StatusReport) : ∃ m n3,
    ReportTaken v.epoch a q l m n3 ∧ (v.holding a l ns).takeProfileReport a q = v.holding a m (ns ++ n3) := by
  have taken : ∀ p pending, q.active = some p → (q.pending = .absent ∧ pending = none
      ∨ ∃ x, q.pending = .named x ∧ x.effective = v.epoch + 1 ∧ pending = some x) →
      q.profileReport v.epoch = some (p, pending) → ∃ m n3,
      ReportTaken v.epoch a q l m n3 ∧ (v.holding a l ns).takeProfileReport a q = v.holding a m (ns ++ n3) := by
    intro p pending ha hp hr
    unfold State.takeProfileReport
    rw [holding_epoch, hr]
    dsimp only
    rw [holding_update r]
    have ad : l.adopt v.epoch p pending = { l with current := p, planned := pending, profileState := .settled } := by
      unfold Label.adopt Label.writePlanned
      cases pending with
      | none => rfl
      | some x => cases hl : l.planned with
        | none => simp
        | some y => by_cases hy : y.effective = v.epoch <;> simp [hy]
    unfold State.completionCheck
    rw [holding_label r, ad]
    dsimp only
    have W := fun want => wantedProfile_iff l.queue want
    cases hw : Label.wantedProfile { l with current := p, planned := pending, profileState := .settled } with
    | none =>
      refine ⟨_, [], .inl ⟨p, pending, _, ha, hp, rfl, .inr ⟨fun b o c h1 h2 h3 => ?_, rfl, rfl⟩⟩, by simp⟩
      have := (W _).2 ⟨b, o, c, h1, h2, h3⟩
      exact absurd (this.symm.trans hw) (by simp)
    | some want =>
      dsimp only
      have hw' : (l.queue.findSome? fun o => match o.fields with
        | .setProfile p => some p | .ping => none | .setMode _ => none | .showPage _ => none | .release => none)
          = some want := hw
      split_ifs with e
      · rw [holding_update r, holding_post]
        rw [e] at hw'
        obtain ⟨b, o, c, h1, h2, h3⟩ := (W _).1 hw'
        exact ⟨_, [.opDone a .setProfile], .inl ⟨p, pending, _, ha, hp, rfl, .inl ⟨b, o, c, h1, h2, h3, rfl, rfl⟩⟩,
          rfl⟩
      · refine ⟨_, [], .inl ⟨p, pending, _, ha, hp, rfl, .inr ⟨fun b o c h1 h2 h3 => ?_, rfl, rfl⟩⟩, by simp⟩
        have := (W _).2 ⟨b, o, c, h1, h2, h3⟩
        exact e (Option.some.inj (hw'.symm.trans this))
  have left : (q.active = none ∨ q.pending = .invalid ∨ ∃ x, q.pending = .named x ∧ x.effective ≠ v.epoch + 1) →
      q.profileReport v.epoch = none → ∃ m n3,
      ReportTaken v.epoch a q l m n3 ∧ (v.holding a l ns).takeProfileReport a q = v.holding a m (ns ++ n3) := by
    intro h hr
    refine ⟨l, [], .inr ⟨h, rfl, rfl⟩, ?_⟩
    unfold State.takeProfileReport
    rw [holding_epoch, hr, List.append_nil]
  cases ha : q.active with
  | none => exact left (.inl ha) (by simp [StatusReport.profileReport, ha])
  | some p =>
    cases hp : q.pending with
    | absent => exact taken p none ha (.inl ⟨hp, rfl⟩) (by simp [StatusReport.profileReport, ha, hp])
    | invalid => exact left (.inr (.inl hp)) (by simp [StatusReport.profileReport, ha, hp])
    | named x =>
      by_cases e : x.effective = v.epoch + 1
      · exact taken p (some x) ha (.inr ⟨x, hp, e, rfl⟩) (by simp [StatusReport.profileReport, ha, hp, e])
      · exact left (.inr (.inr ⟨x, hp, e⟩)) (by
          simp only [StatusReport.profileReport, ha, hp]
          exact if_neg e)

/-- The battery reading (R84 to R87). -/
theorem holding_reading (r : 1 ≤ a ∧ a ≤ 240) (mv : Option Nat) : ∃ m n4,
    ReadingTaken v.config v.stamp a mv l m n4 ∧ (v.holding a l ns).takeReading a mv = v.holding a m (ns ++ n4) := by
  unfold State.takeReading
  cases mv with
  | none => exact ⟨l, [], ⟨fun _ => ⟨rfl, rfl⟩, fun x _ _ _ h => by cases h⟩, by simp⟩
  | some x =>
    dsimp only
    rw [holding_label r, holding_config, holding_stamp]
    dsimp only
    by_cases e : classify v.config.batteryLow v.config.batteryCritical l.batteryClass x = l.batteryClass
    · rw [if_pos e, holding_update r]
      refine ⟨{ l with batteryMv := some x }, [], ⟨(nomatch ·), fun y after saving profile h1 h2 h3 h4 => ?_⟩,
        by simp⟩
      cases h1
      exact ⟨fun _ => ⟨rfl, rfl⟩, fun h => absurd (h2.trans e) h⟩
    · rw [if_neg e, holding_update r, holding_post]
      refine ⟨_, _, ⟨(nomatch ·), fun y after saving profile h1 h2 h3 h4 => ?_⟩, rfl⟩
      obtain rfl : x = y := Option.some.inj h1
      rw [← h2] at e ⊢
      have sv : (after == .critical && v.config.batterySaving) = saving := by
        cases saving
        · cases hs : v.config.batterySaving <;> cases ha : after <;> simp_all
        · have := h3.1 rfl
          simp [this.1, this.2]
      rw [sv]
      have prof : savingProfile a = profile := h4.symm
      have anyq : ∀ b, (l.queue.any fun o => o.kind == .setProfile) = b ↔
          if b then ∃ o ∈ l.queue, o.kind = .setProfile else ∀ o ∈ l.queue, o.kind ≠ .setProfile := by
        intro b
        cases b <;> simp
      refine ⟨fun h => absurd h e, fun _ => ⟨rfl, ?_, fun no => ?_, fun has => ⟨fun h => ?_, fun h => ?_⟩⟩⟩
      · cases saving
        · rfl
        · simp only [if_true]
          unfold Label.applySaving
          split
          · rfl
          · unfold Label.enqueue
            split <;> rfl
      · have nq := (anyq false).2 no
        cases saving
        · simp
        · simp only [if_true, true_and]
          unfold Label.applySaving Label.savingInHand Label.enqueue Label.queued
          simp only [OpFields.kind, nq, prof]
          cases hl : l.planned with
          | none => by_cases hc : l.current = profile <;> simp [hc]
          | some z => by_cases hc : z.profile = profile <;> simp [hc]
      · subst h
        exact ⟨rfl, rfl⟩
      · subst h
        have yq := (anyq true).2 has
        simp only [if_true]
        unfold Label.applySaving Label.savingInHand Label.enqueue Label.queued
        simp only [OpFields.kind, yq, prof]
        exact ⟨rfl, rfl⟩

/-- None of the parts touches what the label can hold. -/
theorem Answered.capabilities {now : Epoch} {a slot : Nat} {q : StatusReport} {l m : Label} {ns : List Notice}
    (h : Answered now a slot q l m ns) : m.capabilities = l.capabilities := by
  rcases h with ⟨w, -, -, -, -, -, -, h, -⟩ | ⟨-, h, -⟩ <;> rw [h]

theorem ReportTaken.capabilities {now : Epoch} {a : Nat} {q : StatusReport} {l m : Label} {ns : List Notice}
    (h : ReportTaken now a q l m ns) : m.capabilities = l.capabilities := by
  rcases h with ⟨p, x, k, -, -, hk, ⟨b, o, c, -, -, -, h, -⟩ | ⟨-, h, -⟩⟩ | ⟨-, h, -⟩ <;> rw [h]
  all_goals first | rfl | rw [hk]

theorem ReadingTaken.capabilities {c : Configuration} {now : Stamp} {a : Nat} {mv : Option Nat} {l m : Label}
    {ns : List Notice} (h : ReadingTaken c now a mv l m ns) : m.capabilities = l.capabilities := by
  cases mv with
  | none => rw [(h.1 rfl).1]
  | some v =>
    have := h.2 v (classify c.batteryLow c.batteryCritical l.batteryClass v)
      (classify c.batteryLow c.batteryCritical l.batteryClass v == .critical && c.batterySaving) ⟨16, a % 16⟩ rfl rfl
      (by simp) rfl
    by_cases e : classify c.batteryLow c.batteryCritical l.batteryClass v = l.batteryClass
    · rw [(this.1 e).1]
    · rw [(this.2 e).2.1]

/-- A STATUS taken as for a BOUND entry: the four parts in order, and then the held pages (R82, R126). -/
theorem holding_bound (r : 1 ≤ a ∧ a ≤ 240) (slot : Nat) (q : StatusReport) : ∃ l1 l2 l3 l4 n1 n3 n4,
    Answered v.epoch a slot q l l1 n1
    ∧ l2 = { l1 with
        displayMode := q.mode, shownPage := q.shown.filter fun p => decide (p < l.capabilities.pageCount) }
    ∧ ReportTaken v.epoch a q l2 l3 n3 ∧ ReadingTaken v.config v.stamp a q.mv l3 l4 n4
    ∧ (v.holding a l ns).takeBoundStatus a slot q
      = (List.range l.capabilities.pageCount).foldl (State.reconcilePage a q)
          (v.holding a l4 (ns ++ n1 ++ n3 ++ n4)) := by
  obtain ⟨l1, n1, h1, e1⟩ := holding_answer (v := v) (l := l) (ns := ns) r slot q
  obtain ⟨l3, n3, h3, e3⟩ := holding_report (v := v) (l := l1.takeDisplay q) (ns := ns ++ n1) r q
  obtain ⟨l4, n4, h4, e4⟩ := holding_reading (v := v) (l := l3) (ns := ns ++ n1 ++ n3) r q.mv
  have cap : l4.capabilities = l.capabilities := by
    rw [h4.capabilities, h3.capabilities, ← h1.capabilities]
    rfl
  refine ⟨l1, l1.takeDisplay q, l3, l4, n1, n3, n4, h1, by rw [← h1.capabilities]; rfl, h3, h4, ?_⟩
  unfold State.takeBoundStatus
  simp only [e1]
  rw [holding_update r, e3, e4]
  unfold State.reconcile
  rw [holding_label r]
  dsimp only
  rw [cap]

end

end Sys2Proof.Machine
end

