-- ==== Sys2Proof/Tests/Slice0.lean ====
section
/-! SUPPORT. Tests: ill-formed terms that the check refuses, single steps on small states, and for every statement with
hypotheses a witness that meets them, clause by clause. -/

namespace Sys2Proof.Tests

/-! The theorems are checked one after another: side by side, their kernel runs ask for too much memory. -/

set_option Elab.async false

open Sys2Proof.Machine

/-! ## Helpers -/

/-- The state after a command, if there is one. -/
def after (c : Instr) (s : State) : State :=
  match exec c s with
  | .next t => t
  | .fault _ => s
  | .refused _ => s

/-- The status and the result of the reply on the line. -/
def answer (s : State) : Option (Status × List Byte) :=
  match s.link.sending with
  | some (.reply r) => some (r.status, r.result)
  | some (.notice _) => none
  | none => none

/-- A BOUND entry's fields. -/
def bound : Label :=
  ⟨.bound, 0x112233445566, ⟨2, 512, 1⟩, ⟨4, 1⟩, none, .settled, [], none, 0, 0, false, none, .ok, none, none, [], none,
    false, false⟩

/-- The blank state with an entry at short address 5. -/
def cell (l : Label) : State := State.blank.setEntry 5 (.label l)

/-- A FILLING record of short address 5, page 1. -/
def filling : Record := ⟨5, 1, 7, 300, [0, 1], .filling [], false, false, false, none⟩

/-- A BOUND entry at short address 5 with a record at handle 3. -/
def stored (r : Record) : State := (cell bound).setRecord 3 (some r)

/-- A SENDING record at handle 3 with context 2, and whether its fragment is on the air. -/
def sending (onAir : Option Nat) : State :=
  (stored { filling with state := .sending }).setContext 2 (some ⟨3, 5, [], [0], 0, 0, false, false, false, onAir⟩)

/-- A data slot of short address 5. -/
def slotOf (k : SlotKind) : DataSlot := ⟨9, 3, ⟨5, k⟩, true, true, none⟩

/-- A served round's state in slot 9, a data slot of short address 5 with its window open. -/
def serving (k : SlotKind) (s : State) : State :=
  { s with
    hub := .running, timebase := ⟨true, 3, 9, 12500⟩, plan := some ⟨[], [], ⟨1, 0, 3, false, false, false, [], 16⟩⟩
    dataSlot := some (slotOf k) }

/-- A served round's state in the join slot 2. -/
def joinSlot (policy : JoinPolicy) (s : State) : State :=
  { s with
    hub := .running, timebase := ⟨true, 3, 2, 500⟩, plan := some ⟨[], [], ⟨1, 0, 3, false, false, false, [], 16⟩⟩
    config := { s.config with joinPolicy := policy } }

/-- A burst being sent. -/
def burst (part : BurstPart) (source : BurstSource) : Burst :=
  ⟨13, 13, 8, source, 10, 0, 0xFFFF, part, 0, false, none, false⟩

/-- The blank state with a host link of its own. -/
def linked (commands : List HostFrame) (replies : List Reply) (out : Option Outgoing) : State :=
  { State.blank with link := { HostLink.cleared with commands := commands, replies := replies, sending := out } }

/-- A QUEUE_FULL reply waiting. -/
def waiting : Reply := ⟨1, 0, .queueFull, [], false⟩

/-- An ordinary and an urgent notice. -/
def ordinary : Posted := ⟨0, .labelMissing 1⟩
/-- The urgent one. -/
def urgent : Posted := ⟨0, .linkState .offline (.channelBusy 2)⟩

/-! ## The well-formedness check -/

/-- A payload of 201 bytes is refused in every host command row. -/
theorem test_wf_payload_too_long :
    ([.getInfo 0, .getStatus 0, .configure 0, .start 0, .stop 0, .lineTest 0, .reset 0, .admitJoin 0, .labelQuery 0,
      .labelList 0, .labelOp 0, .release 0, .forget 0, .pageBegin 0, .pageData 0, .pageEnd 0, .pageDiscard 0, .pagePin 0,
      .pageUnpin 0, .pageRequeue 0, .pageQuery 0, .malformedCommand 8 0, .queueFull 1 0].all
        fun c : List Byte → Instr => !(c (List.replicate 201 0)).wf && (c (List.replicate 200 0)).wf) = true := by
  decide +kernel

/-- A malformed command with a command kind is refused. -/
theorem test_wf_malformed_with_command_kind :
    (commandKindBytes.all fun k => !(Instr.malformedCommand k 0 []).wf) = true := by decide

/-- A burst that an assembly can not hold is refused. -/
theorem test_wf_body_too_long :
    ([fun b => .beacon ⟨0, b⟩, fun b => .joinReq ⟨0, b⟩, fun b => .status ⟨0, b⟩, fun b => .receipt ⟨0, b⟩].all
        fun c : List Byte → Instr => !(c (List.replicate 62 0)).wf && (c (List.replicate 61 0)).wf) = true := by
  decide +kernel

/-- A character with its start bit high, and one of seven data bits, are refused. -/
theorem test_wf_noise : (Instr.characterReceived true (List.replicate 8 false) true).wf = false
    ∧ (Instr.characterReceived false (List.replicate 7 false) true).wf = false
    ∧ (Instr.characterReceived false (List.replicate 8 false) false).wf = true := by decide

/-! ## Single steps -/

theorem test_step_idle : step State.reset = .next { State.reset with
    clock := 1
    link := { State.reset.link with notices := [], sending := some (.notice ⟨0, .hubReady .power⟩) } } := rfl

theorem test_reset_pin : (after .rstnReset (cell bound)).link.sending = some (.notice ⟨0, .hubReady .pin⟩) := by decide

theorem test_configure_hub_id : (after (.configure 1 [1, 0, 0x34, 0x12]) State.blank).config.hubId = 0x1234 := by decide

theorem test_configure_cross_check :
    answer (after (.configure 1 [2, 0, 36]) State.blank) = some (.badField, []) := by decide

theorem test_start : (after (.start 1 []) State.blank).hub = .listening 1 true := by decide

theorem test_line_test : answer (after (.lineTest 1 [0, 0]) State.blank) = some (.badField, []) := by decide

theorem test_label_op : ((after (.labelOp 1 [5, 1, 8, 3]) (cell bound)).label? 5).map Label.queue =
    some [⟨.setProfile ⟨8, 3⟩, 0, 0, false⟩] := by decide +kernel

theorem test_label_op_bad_profile : answer (after (.labelOp 1 [5, 1, 8, 8]) (cell bound)) = some (.badField, []) := by
  decide +kernel

theorem test_release : ((after (.release 1 [5]) (cell bound)).label? 5).map Label.phase = some (.releasing 2 false) := by
  decide +kernel

theorem test_forget : (after (.forget 1 [5]) (cell bound)).entry 5 = .cooling 0x112233445566 2 := by decide +kernel

theorem test_page_begin : (after (.pageBegin 1 [5, 1, 9, 0x2C, 1, 1]) (cell bound)).record 0 =
    some ⟨5, 1, 9, 300, [0, 1], .filling [], true, false, false, none⟩ := by decide +kernel

theorem test_page_data : (after (.pageData 1 [3, 0xFF, 0, 2, 0xAA, 0xBB]) (stored filling)).storeByte 256 = 0xBB := by
  decide +kernel

theorem test_page_end_incomplete : answer (after (.pageEnd 1 [3]) (stored filling)) = some (.incomplete, []) := by
  decide +kernel

theorem test_page_pin : ((after (.pagePin 1 [3]) (stored filling)).record 3).map Record.pinned = some true := by
  decide +kernel

theorem test_join_request : (after (.joinReq ⟨100, [1, 1, 2, 3, 4, 5, 6, 0x12, 8, 100]⟩)
    (joinSlot .ask State.blank)).directory.admission = [⟨0x060504030201, ⟨2, 512, 1⟩, some 2500, 3, false⟩] := by
  decide +kernel

theorem test_beacon_foreign : (after (.beacon ⟨0, [9, 0]⟩) { State.blank with hub := .listening 1 true }).hub = .offline := by
  decide

theorem test_beacon_short : (after (.beacon ⟨0, [9]⟩) { State.blank with hub := .listening 1 true }).hub =
    .listening 1 true := by decide

/-- A candidate of one sample that falls back is discarded, and one that stays is accepted with the
date of its first sample (R9). -/
theorem test_glitch_is_discarded :
    let c : State := { State.blank with
      clock := 10, pdinAhead := [false]
      receiver := { Receiver.cleared with pdin := true, candidate := some ⟨true, 1, 10⟩ } }
    (∃ t, step c = .next t ∧ t.receiver = Receiver.cleared)
    ∧ ∃ t, step { c with pdinAhead := [true] } = .next t ∧ t.receiver.accepted = true
        ∧ t.receiver.lastTransition = some 10 := ⟨⟨_, rfl, rfl⟩, ⟨_, rfl, rfl, rfl⟩⟩

/-- A burst being assembled at the boundary that ends LISTENING is open until the beacon's first tick, which closes it
and blanks the receiver (R15; log 27); in RUNNING that is the boundary's own. -/
theorem test_assembly_over_the_boundary :
    let s : State := { State.blank with
      timebase := ⟨true, 6, 63, 15000⟩
      receiver := { Receiver.cleared with assembly := some ⟨none, .collecting, [], [], false⟩ } }
    let t := after .roundBoundary { s with hub := .listening 7 true }
    t.receiver.assembly = some ⟨none, .collecting, [], [], false⟩ ∧ t.receiver.blanked = false ∧ t.blankingDue = true
    ∧ (after (.transition 1) t).receiver.assembly = none ∧ (after (.transition 1) t).receiver.blanked = true
    ∧ (after .lineElementEnd t).receiver.blanked = true ∧ (after .lineElementEnd t).blankingDue = false
    ∧ (after .roundBoundary { s with hub := .running }).receiver.assembly = none
    ∧ (after .roundBoundary { s with hub := .running }).receiver.blanked = true := by decide +kernel

/-- A foreign beacon whose sync fell before the boundary that ends LISTENING is taken after it at its end, in RUNNING
(R32), with the receiver blanked by the part's own beacon; one whose sync fell after it is not heard, nor is one at a
boundary in RUNNING (R15). -/
theorem test_straddling_beacon :
    let s : State := { State.blank with timebase := ⟨true, 6, 63, 15000⟩, hub := .listening 7 true }
    let t := after (.transition 1) (after .roundBoundary s)
    (after (.beacon ⟨0, [9, 0]⟩) (after .roundBoundary s)).foreignSeen = true
    ∧ t.receiver.blanked = true ∧ (after (.beacon ⟨2, [9, 0]⟩) t).foreignSeen = true
    ∧ (after (.beacon ⟨1, [9, 0]⟩) t).foreignSeen = false
    ∧ (after (.beacon ⟨2, [9, 0]⟩) (after .roundBoundary { s with hub := .running })).foreignSeen = false := by
  decide +kernel

/-- A boundary leaves the call end of slot 63 to its row (log 15). -/
theorem test_call_end_of_slot_63 :
    (after .roundBoundary { State.blank with
      hub := .running, timebase := ⟨true, 6, 63, 15000⟩
      dataSlot := some ⟨63, 6, ⟨5, .control⟩, true, true, some ⟨5, .service, 62, 2⟩⟩ }).dataSlot =
        some ⟨63, 6, ⟨5, .control⟩, false, false, some ⟨5, .service, 62, 2⟩⟩ := by decide +kernel

/-- A STOP in a line test that drops the burst of a blanked receiver ends its blanking at once (R8, R15); without one it
stands as it did. -/
theorem test_stop_drops_the_test_burst :
    let r : Receiver := { Receiver.cleared with pdin := true, blanked := true }
    let s : State := { State.blank with
      hub := .testing (newTest .quiet 2), receiver := r, burst := some (burst .lead .hubControl) }
    (after (.stop 1 []) s).receiver = ⟨true, true, none, none, false, none, false⟩
    ∧ (after (.stop 1 []) { s with burst := none }).receiver = r ∧ (after (.stop 1 []) s).burst = none := by
  decide +kernel

/-- An assembly that a STOP leaves open is not the burst of the period that a later LINE_TEST begins, however it ends;
that period's first sync opens its burst (R17; log 18). -/
theorem test_burst_of_an_earlier_test :
    let s : State := { State.blank with
      hub := .testing { newTest .quiet 2 with heard := .assembling }
      receiver := { Receiver.cleared with assembly := some ⟨none, .collecting, [], [], true⟩ } }
    let t := after (.lineTest 2 [1, 1]) { after (.stop 1 []) s with link := HostLink.cleared }
    t.receiver.assembly = some ⟨none, .collecting, [], [], false⟩ ∧ t.hub = .testing (newTest .quiet 1)
    ∧ (t.takeElement .abort).receiver.assembly = none ∧ (t.takeElement .abort).hub = .testing (newTest .quiet 1)
    ∧ ((t.takeElement .abort).takeElement .sync).receiver.assembly = some ⟨none, .afterSync, [], [], true⟩
    ∧ ((t.takeElement .abort).takeElement .sync).hub = .testing { newTest .quiet 1 with heard := .assembling } := by
  decide +kernel

/-- A STOP frame taken before the boundary, behind the command in hand: the boundary gives a served round; carried out
in that round, the STOP leaves its plan, and no plan follows (R28, R149, R180, R181; log 29). A STOP carried out before
the boundary gives a round that is not served (R28). -/
theorem test_stop_waits_over_the_boundary :
    let s : State := { linked [⟨1, 0, []⟩] [] (some (.reply ⟨1, 0, .ok, [], true⟩)) with
      hub := .running, timebase := ⟨true, 6, 63, 15000⟩ }
    let t := after .roundBoundary (after (.stop 1 []) s)
    let u := after .frameSent t
    let next := after .roundBoundary { u with timebase := ⟨true, 7, 63, 15000⟩ }
    let early := after .roundBoundary (after (.stop 1 []) { s with link := HostLink.cleared })
    t.hub = .running ∧ t.plan.isSome = true ∧ u.hub = .stopping ∧ u.plan = t.plan
    ∧ next.hub = .offline ∧ next.plan = none ∧ early.hub = .offline ∧ early.plan = none := by decide +kernel

/-- The time within the slot grows with the clock while the timebase runs, and stops at the slot's end (R19). -/
theorem test_time_in_slot :
    let at_ := fun (running : Bool) (time : Nat) => ({ State.blank with timebase := ⟨running, 3, 5, time⟩ } : State)
    (after (.transition 7) (at_ true 100)).timebase = ⟨true, 3, 5, 107⟩
    ∧ (after (.transition 7) (at_ true 15995)).timebase = ⟨true, 3, 5, 16000⟩
    ∧ (after (.transition 7) (at_ false 0)).timebase = ⟨false, 3, 5, 0⟩ ∧ (after (.transition 7) (at_ true 100)).clock = 7
    ∧ (at_ true 15999).tick.timebase = ⟨true, 3, 5, 16000⟩ ∧ (at_ true 16000).tick.timebase = ⟨true, 3, 5, 16000⟩ := by
  decide +kernel

/-- A burst of a join window that is still open at the next slot start is closed there, as energy heard (R13, R58). -/
theorem test_slot_start_closes_the_assembly :
    let t := after .slotStart { joinSlot .ask State.blank with
      receiver := { Receiver.cleared with assembly := some ⟨some (.join 2), .collecting, [], [], false⟩ } }
    t.receiver.assembly = none ∧ t.directory.accumulator = true ∧ t.timebase.slot = 3 := by decide +kernel

/-- A mark that lasts is Abort at 56 µs and a space that lasts is Silence at 97 µs also where SLOT_START or
ROUND_BOUNDARY passes those microseconds: the assembly, of no window, is closed, and at a microsecond less it is not
(R10, R11). -/
theorem test_element_decided_before_a_slot_start :
    let s := fun (mark : Bool) (slot time : Nat) => ({ State.blank with
      clock := 1000, timebase := ⟨true, 6, slot, time⟩
      receiver := { Receiver.cleared with
        pdin := mark, accepted := mark, lastTransition := some 1000
        assembly := some ⟨none, .collecting, [], [], false⟩ } } : State)
    let open_ := fun t : State => t.receiver.assembly.isSome
    open_ (after .slotStart (s true 5 15945)) = true ∧ open_ (after .slotStart (s true 5 15944)) = false
    ∧ open_ (after .slotStart (s false 5 15904)) = true ∧ open_ (after .slotStart (s false 5 15903)) = false
    ∧ open_ (after .slotStart (s false 5 0)) = false
    ∧ open_ (after .roundBoundary (s true 63 15945)) = true ∧ open_ (after .roundBoundary (s true 63 15944)) = false
    ∧ (after .roundBoundary (s false 63 0)).receiver.decided = true := by decide +kernel

/-- The levels that lie ahead are sampled and watched through a SLOT_START: a mark of 30 µs on PDIN that spans it opens an
assembly (R9, R11), and the character C3h on RXD begins a frame (R177, R178). -/
theorem test_levels_ahead_of_a_slot_start :
    let s : State := { State.blank with
      clock := 1000, timebase := ⟨true, 6, 5, 15990⟩
      receiver := { Receiver.cleared with pdin := true, accepted := true, lastTransition := some 975 }
      pdinAhead := List.replicate 4 true ++ List.replicate 20 false }
    let u : State := { State.blank with
      timebase := ⟨true, 6, 5, 15950⟩
      rxdAhead := (List.range 44).map fun i =>
        [false, true, true, false, false, false, false, true, true].getD (i * 144 / 625) true }
    (after .slotStart s).receiver.assembly = some ⟨none, .afterSync, [], [], false⟩
    ∧ (after .slotStart s).receiver.lastTransition = some 1005 ∧ (after .slotStart s).pdinAhead.length = 14
    ∧ (after .slotStart u).link.receiver.phase = .lengthLow ∧ (after .slotStart u).timebase = ⟨true, 6, 6, 0⟩ := by decide +kernel

/-- A foreign beacon whose end mark falls in what is left of the last slot of LISTENING ends the attempt to start before
the boundary, which the undone timebase does not take (R20, R32). -/
theorem test_beacon_before_the_boundary :
    let data : List Byte := [kindBeacon, 9, 0]
    let s : State := { State.blank with
      clock := 1000, timebase := ⟨true, 0, 63, 15000⟩, hub := .listening 1 true
      receiver := { Receiver.cleared with
        pdin := true, accepted := true, lastTransition := some 990
        assembly := some ⟨none, .collecting, data ++ crcBytes (crcOf data), [], false⟩ }
      pdinAhead := List.replicate 5 true ++ [false] }
    (after .roundBoundary s).hub = .offline ∧ (after .roundBoundary s).timebase = ⟨false, 0, 0, 0⟩
    ∧ (after .roundBoundary { s with pdinAhead := [] }).hub = .running := by decide +kernel

/-- In a line test a sampled transition is an edge and its sync opens the period's burst (R9, R17); a TRANSITION at once
after it is not accepted (log 25). -/
theorem test_sampled_sync_in_a_line_test :
    let s : State := { State.blank with
      clock := 40, hub := .testing (newTest .loop 2)
      receiver := { Receiver.cleared with
        accepted := true, lastTransition := some 8, candidate := some ⟨false, 1, 40⟩ } }
    s.tick.receiver.assembly = some ⟨none, .afterSync, [], [], true⟩
    ∧ s.tick.hub = .testing { newTest .loop 2 with
        heard := .assembling, counts := { TestCounts.zero with edges := 1 } }
    ∧ (after (.transition 0) s.tick).hub = s.tick.hub
    ∧ (after (.transition 1) s.tick).receiver.lastTransition = some 42 := by decide +kernel

/-- RXD is watched in the microseconds that TRANSITIONs pass (R177): two characters C3h 00h, each over several
TRANSITIONs and one of them still blanked, are received bit by bit, and PDIN's transitions are taken between them. -/
theorem test_rxd_watched_through_transitions :
    let character := fun b : Byte => [false] ++ bitsOfByte b ++ [true]
    let line := fun bits : List Bool => (List.range 100).map fun i => bits.getD (i * 144 / 625) true
    let s : State := { State.blank with link := HostLink.cleared, rxdAhead := line (character 0xC3 ++ character 0) }
    let run := fun (s : State) (ns : List Nat) => ns.foldl (fun t n => after (.transition n) t) s
    (run s [8, 8, 16]).serial.character.isSome = true ∧ (run s [8, 8, 16]).receiver.lastTransition = some 32
    ∧ (run s [8, 8, 16, 30, 8, 20]).link.receiver.bytes = [0]
    ∧ (run s [100]).link.receiver.phase = .lengthHigh ∧ (run s [100]).rxdAhead = []
    ∧ (run { s with receiver := { Receiver.cleared with blanked := true } } [60, 40]).link.receiver.phase = .lengthHigh := by
  decide +kernel

/-- A TRANSITION says that PDIN stood before it: the level ahead of its microseconds is superseded, the one after them
stays (log 1). -/
theorem test_transition_supersedes_levels :
    let s : State := { State.blank with pdinAhead := [true, true, true, false, true] }
    (after (.transition 3) s).receiver.lastTransition = some 3 ∧ (after (.transition 3) s).receiver.accepted = true
    ∧ (after (.transition 3) s).pdinAhead = [false, true] := by decide +kernel

/-- The bit errors of a burst are the bits in which it differs from the receiver's copy (R17). -/
theorem test_bit_errors : bitErrors [0xE0, 0x7D] (prbsBytes 2 prbsSeed).1 = 0
    ∧ bitErrors [0xE1, 0xFD] (prbsBytes 2 prbsSeed).1 = 2 ∧ bitErrors [0xFF] [0] = 8 := by decide +kernel

/-- The window of a sync that a sampled transition closes is that of the transition's date, one microsecond before the
sample that accepts it (R9, R13). -/
theorem test_sampled_sync_window :
    let at_ := fun time : Nat => ({ serving .control (cell bound) with
      clock := 1040, timebase := ⟨true, 3, 9, time⟩
      receiver := { Receiver.cleared with
        accepted := true, lastTransition := some 1008, candidate := some ⟨false, 1, 1040⟩ } } : State)
    let opened := fun s : State => match step s with
      | .next t => t.receiver.assembly.map Assembly.window
      | .fault _ => none
      | .refused _ => none
    opened (at_ 11999) = some none ∧ opened (at_ 12000) = some (some (.reply 9))
    ∧ opened (at_ 15499) = some (some (.reply 9)) ∧ opened (at_ 15500) = some none := by decide +kernel

/-- RXD's high-to-low change starts a character; a start bit high at its middle is noise; the tenth sample takes the byte,
the first data bit its least significant; a line still low then starts the next (R177; log 30). -/
theorem test_rxd_character :
    let s : State := { State.blank with clock := 100, link := HostLink.cleared, rxdAhead := [false] }
    let on := fun (samples : List Bool) (clock : Nat) (ahead : List Bool) => ({ s with
      clock := clock, rxdAhead := ahead, serial := ⟨false, false, some ⟨0, samples⟩⟩ } : State)
    let c3 := [false, true, true, false, false, false, false, true, true]
    (∃ t, step s = .next t ∧ t.serial.character = some ⟨101, []⟩)
    ∧ (∃ t, step { s with rxdAhead := [] } = .next t ∧ t.serial.character = none)
    ∧ (∃ t, step (on [] 1 [false]) = .next t ∧ t.serial.character = some ⟨0, [false]⟩)
    ∧ (∃ t, step (on [] 1 [true]) = .next t ∧ t.serial.character = none ∧ t.link = HostLink.cleared)
    ∧ (∃ t, step (on c3 40 [true]) = .next t ∧ t.link.receiver.phase = .lengthLow ∧ t.serial.character = none)
    ∧ (∃ t, step (on c3 40 [false]) = .next t ∧ t.link.receiver.phase = .lengthLow ∧ t.serial.before = true) :=
  ⟨⟨_, rfl, rfl⟩, ⟨_, rfl, rfl⟩, ⟨_, rfl, rfl⟩, ⟨_, rfl, rfl, rfl⟩, ⟨_, rfl, rfl, rfl⟩, ⟨_, rfl, rfl, rfl⟩⟩

theorem test_frame_of_get_info : frameBytes 0x01 0x05 [] = [0xC3, 0x00, 0x00, 0x01, 0x05] ++ crcBytes
    (crcOf [0x00, 0x00, 0x01, 0x05]) := by decide +kernel

/-! ## Witnesses: the machine and the host link -/

theorem witness_step_idle : State.reset.pending = [] ∧ State.reset.held = false
    ∧ State.reset.serial = ⟨true, true, none⟩ ∧ State.reset.rxdAhead = []
    ∧ State.reset.timebase.slotTime ≤ 16000 := by decide

theorem witness_held : ({ State.blank with held := true } : State).held = true ∧ Instr.getInfo 0 [] ≠ .powerOn
    ∧ Instr.getInfo 0 [] ≠ .rstnReset ∧ Instr.getInfo 0 [] ≠ .rstnLow := by decide

/-- The blank state is ready for every host command: GET_INFO, GET_STATUS, START, RESET and their like. -/
theorem witness_ready : Ready State.blank := ⟨rfl, rfl⟩

theorem witness_reset_reply : (linked [⟨7, 1, []⟩] [] (some (.reply ⟨7, 1, .ok, [], true⟩))).held = false
    ∧ (linked [⟨7, 1, []⟩] [] (some (.reply ⟨7, 1, .ok, [], true⟩))).link.sending =
      some (.reply ⟨0x07, 1, .ok, [], true⟩) := by decide

theorem witness_frame_queue : (Instr.getInfo 1 []).wf = true ∧ hostFrameOf (.getInfo 1 []) = some ⟨1, 1, []⟩
    ∧ (linked [] [] none).link.commands = []
    ∧ (linked [⟨1, 0, []⟩] [] none).link.commands ≠ [] ∧ (linked [⟨1, 0, []⟩] [] none).link.commands.length < 4
    ∧ (linked (List.replicate 3 ⟨1, 0, []⟩) [] none).link.commands.length < 4
    ∧ (linked (List.replicate 4 ⟨1, 0, []⟩) (List.replicate 3 waiting) none).link.commands.length = 4
    ∧ ((linked (List.replicate 4 ⟨1, 0, []⟩) (List.replicate 3 waiting) none).link.replies.filter
        fun r => !r.ofHead).length < 4
    ∧ 4 ≤ ((linked (List.replicate 4 ⟨1, 0, []⟩) (List.replicate 4 waiting) none).link.replies.filter
        fun r => !r.ofHead).length := by decide

theorem witness_queue_full : (List.replicate 200 (0 : Byte)).length ≤ 200
    ∧ (linked (List.replicate 4 ⟨1, 0, []⟩) [] none).link.commands.length = 4
    ∧ (linked (List.replicate 3 ⟨1, 0, []⟩) [] none).link.commands.length < 4 := by decide +kernel

theorem witness_wrong_form : WrongForm ⟨0x08, 0, []⟩ ∧ WrongForm ⟨0x01, 0, [0]⟩ ∧ WrongForm ⟨0x10, 0, []⟩
    ∧ WrongForm ⟨0x03, 0, [0]⟩ ∧ WrongForm ⟨0x03, 0, [0, 0x20]⟩ ∧ WrongForm ⟨0x03, 0, [1, 0, 7]⟩
    ∧ WrongForm ⟨0x11, 0, [0, 0, 0]⟩ ∧ WrongForm ⟨0x11, 0, [2, 1]⟩ ∧ WrongForm ⟨0x13, 0, [0]⟩
    ∧ WrongForm ⟨0x13, 0, [5, 0, 0]⟩ ∧ WrongForm ⟨0x13, 0, [5, 1, 4]⟩ ∧ WrongForm ⟨0x13, 0, [5, 3, 0, 0]⟩
    ∧ WrongForm ⟨0x21, 0, [0, 0, 0, 0]⟩ ∧ WrongForm ⟨0x21, 0, [0, 0, 0, 2, 9]⟩
    ∧ WrongForm ⟨0x21, 0, [0, 0, 0, 193] ++ List.replicate 193 0⟩ ∧ WrongForm ⟨0x27, 0, [0, 0, 0]⟩
    ∧ (Instr.pageData 0 ([0, 0, 0, 193] ++ List.replicate 193 0)).wf = true
    ∧ (Instr.malformedCommand 0x08 0 []).wf = true
    ∧ hostFrameOf (.malformedCommand 0x08 0 []) = some ⟨0x08, 0, []⟩ := by
  refine ⟨.inl (by decide), .inr (.inl ⟨0, by decide, by decide⟩), .inr (.inl ⟨7, by decide, by decide⟩), ?_, ?_, ?_, ?_,
    ?_, ?_, ?_, ?_, ?_, ?_, ?_, ?_, ?_, by decide +kernel, rfl, rfl⟩
  iterate 3 exact .inr (.inr (.inl (by decide)))
  iterate 2 exact .inr (.inr (.inr (.inl (by decide))))
  iterate 4 exact .inr (.inr (.inr (.inr (.inl (by decide)))))
  iterate 3 exact .inr (.inr (.inr (.inr (.inr (.inl (by decide +kernel))))))
  exact .inr (.inr (.inr (.inr (.inr (.inr (by decide))))))

theorem witness_refused : (State.blank.perform ⟨0x08, 0, []⟩).status ≠ .ok
    ∧ (State.blank.perform ⟨0x11, 0, [0, 0]⟩).status ≠ .ok := by decide

theorem witness_discard : (linked (List.replicate 4 ⟨1, 0, []⟩) (List.replicate 4 waiting) none).link.commands.length = 4
    ∧ ((linked (List.replicate 4 ⟨1, 0, []⟩) (List.replicate 4 waiting) none).link.replies.filter
        fun r => !r.ofHead).length = 4
    ∧ ((linked (List.replicate 4 ⟨1, 0, []⟩) (List.replicate 3 waiting) none).link.replies.filter
        fun r => !r.ofHead).length < 4
    ∧ State.blank.link.commands.length < 4 ∧ State.blank.link.receiver.phase = .hunting
    ∧ (State.blank.setReceiver ⟨.lengthLow, [], 0xFFFF⟩).link.receiver.phase ≠ .hunting := by decide

/-- A receiver stands in each phase. -/
theorem witness_phases : ([.hunting, .lengthLow, .lengthHigh, .kind, .tag, .payload, .crcLow, .crcHigh].all
    fun p : FramePhase => (State.blank.setReceiver ⟨p, [1, 0, 1, 9], 0⟩).link.receiver.phase == p) = true := by decide

theorem witness_frame_characters : State.blank.link.receiver.phase = .hunting
    ∧ (HostFrame.mk 1 0 (List.replicate 200 0)).payload.length ≤ 200 := by decide +kernel

/-- A character's bits and its byte; RXD idle, a character whose next sample is ahead, due and passed over, with none,
some and all of its samples taken. -/
theorem witness_characters :
    (∀ i, i < 8 → (0xC3 : Byte).getLsbD i = [true, true, false, false, false, false, true, true].getD i false)
    ∧ State.blank.serial.character = none ∧ [false].headD State.blank.serial.rxd = false
    ∧ ([] : List Bool).headD State.blank.serial.rxd = true ∧ State.blank.serial.before = true
    ∧ 0 + 1 < 0 + (2 * 0 + 1) * 625 / 288 ∧ 1 + 1 = 0 + (2 * 0 + 1) * 625 / 288
    ∧ 40 + 1 = 0 + (2 * 9 + 1) * 625 / 288 ∧ 0 + (2 * 9 + 1) * 625 / 288 < 41 + 1
    ∧ 9 ≤ (List.replicate 9 false).length ∧ (List.replicate 8 false).length < 9
    ∧ (∀ i, i < 8 → (0 : Byte).getLsbD i = (List.replicate 9 false).getD (i + 1) false) := by decide

/-- A gap is looked for inside a frame with no character being received, and not once one has started. -/
theorem witness_gap : (State.blank.setReceiver ⟨.lengthLow, [], 0xFFFF⟩).serial.character = none
    ∧ ((State.blank.setReceiver ⟨.lengthLow, [], 0xFFFF⟩).setCharacter (some ⟨3, []⟩)).serial.character.isSome = true := by
  decide

theorem witness_frame_sent : (linked [] [] (some (.notice ordinary))).link.sending = some (.notice ordinary)
    ∧ waiting.ofHead = false ∧ (linked [] [] (some (.reply waiting))).link.sending = some (.reply waiting)
    ∧ (linked [⟨1, 0, []⟩] [] (some (.reply ⟨1, 0, .ok, [], true⟩))).link.commands = [⟨1, 0, []⟩]
    ∧ (linked [⟨1, 0, []⟩, ⟨2, 0, []⟩] [] (some (.reply ⟨7, 0, .malformed, [], true⟩))).link.commands =
        ⟨1, 0, []⟩ :: ⟨2, 0, []⟩ :: [] := by decide

theorem witness_transmitter : (linked [] [] (some (.notice ordinary))).link.sending = some (.notice ordinary)
    ∧ (linked [] [waiting] none).link.replies = waiting :: [] ∧ State.reset.link.replies = []
    ∧ State.reset.link.notices = ⟨0, .hubReady .power⟩ :: [] ∧ State.blank.link.notices = [] := by decide

/-- The frames of a reply and of a notice, with their bytes and levels, and a notice of each class. -/
theorem witness_frame_bytes : (Outgoing.notice ordinary).bytes[0]? = some 0xC3
    ∧ (Outgoing.notice ordinary).bytes = 0xC3 :: [7, 0, 0x81, 0, 8, 0, 0, 0, 0, 0, 1]
        ++ crcBytes (crcOf [7, 0, 0x81, 0, 8, 0, 0, 0, 0, 0, 1])
    ∧ (Outgoing.reply waiting).bytes = 0xC3 :: [2, 0, 0x80, 0, 1, 12] ++ crcBytes (crcOf [2, 0, 0x80, 0, 1, 12])
    ∧ (linked [] [] (some (.notice ordinary))).txd 0 = false ∧ (linked [] [] (some (.notice ordinary))).txd 1 = true
    ∧ (linked [] [] (some (.notice ordinary))).txd 140 = true ∧ State.blank.txd 0 = true
    ∧ (Notice.battery 5 2000 .ok .critical false).urgent = true ∧ (Notice.battery 5 2300 .ok .low false).urgent = false := by
  decide +kernel

theorem witness_notice_room : UrgentFirst (urgent :: List.replicate 30 ordinary)
    ∧ (urgent :: List.replicate 30 ordinary).length < 32 ∧ urgent.notice.urgent = true
    ∧ ordinary.notice.urgent = false := by
  refine ⟨?_, by decide +kernel, by decide +kernel, by decide +kernel⟩
  unfold UrgentFirst
  decide +kernel

theorem witness_notice_full : UrgentFirst (urgent :: List.replicate 31 ordinary)
    ∧ (urgent :: List.replicate 31 ordinary).length = 32 ∧ UrgentFirst (List.replicate 32 urgent)
    ∧ (∃ x ∈ urgent :: List.replicate 31 ordinary, x.notice.urgent = false)
    ∧ (∀ x ∈ List.replicate 32 urgent, x.notice.urgent = true) := by
  unfold UrgentFirst
  refine ⟨by decide +kernel, by decide +kernel, by decide +kernel, ⟨ordinary, by decide +kernel, by decide +kernel⟩, by decide +kernel⟩

/-- A full notice queue of a part, of each of the three kinds. -/
theorem witness_full_part : ([urgent :: List.replicate 31 ordinary, List.replicate 32 urgent].all fun q =>
    ({ State.blank with link := { HostLink.cleared with notices := q } } : State).link.notices.length == 32) = true := by
  decide +kernel

/-! ## Witnesses: hub control and the optical line -/

theorem witness_configure : payloadOk .configure [1, 0, 1, 0] = true ∧ payloadOk .configure [0, 0] = true
    ∧ (∃ x ∈ configValues [1, 0, 1, 0], x.1 < 4) ∧ (∀ x ∈ configValues [16, 0, 0], 4 ≤ x.1)
    ∧ (∃ x ∈ configValues [1, 0, 0, 0], configFieldInRange x = false)
    ∧ (∀ x ∈ configValues [2, 0, 36], configFieldInRange x = true)
    ∧ ¬ ((State.blank.config.writeAll (configValues [2, 0, 36])).carrierMark
        + (State.blank.config.writeAll (configValues [2, 0, 36])).carrierSpace ≤ 48)
    ∧ (State.blank.config.writeAll (configValues [2, 0, 35])).carrierMark
        + (State.blank.config.writeAll (configValues [2, 0, 35])).carrierSpace ≤ 48
    ∧ (State.blank.config.writeAll (configValues [2, 0, 35])).batteryCritical + 100
        ≤ (State.blank.config.writeAll (configValues [2, 0, 35])).batteryLow
    ∧ configValues [1, 0x14, 0x34, 0x12, 0xC4, 0x09, 1] = [(0, 0x1234)] ++ (10, 2500) :: [(12, 1)] := by decide

/-- A START, a STOP and a LINE_TEST meet a hub in each state. -/
theorem witness_hub_states : State.blank.hub = .offline ∧ State.blank.timebase.running = false
    ∧ ({ State.blank with timebase := ⟨true, 7, 0, 0⟩ } : State).timebase.running = true
    ∧ ({ State.blank with hub := .listening 1 true } : State).hub = .listening 1 true
    ∧ ({ State.blank with hub := .running } : State).hub ≠ .offline
    ∧ ({ State.blank with hub := .testing (newTest .loop 2) } : State).hub = .testing (newTest .loop 2)
    ∧ (1 : Nat) < (2 : Byte).toNat ∧ (255 : Byte) ≠ 0 ∧ State.blank.burst = none := by decide

/-- The end of a slot 63 in the hub states, at an epoch boundary and elsewhere, and a plan's places. -/
theorem witness_boundaries : ({ State.blank with timebase := ⟨true, 7, 63, 16000⟩ } : State).timebase.slot = 63
    ∧ ({ State.blank with timebase := ⟨true, 7, 62, 16000⟩ } : State).timebase.slot < 63
    ∧ ({ State.blank with timebase := ⟨true, 7, 62, 16000⟩ } : State).timebase.running = true
    ∧ 16000 ≤ ({ State.blank with timebase := ⟨true, 7, 62, 16000⟩ } : State).timebase.slotTime
    ∧ (({ State.blank with timebase := ⟨true, 7, 62, 100⟩ } : State).idleFor 15900).timebase = ⟨true, 7, 62, 16000⟩
    ∧ (({ State.blank with timebase := ⟨true, 7, 63, 0⟩ } : State).idleFor 16000).timebase = ⟨true, 7, 63, 16000⟩
    ∧ (∃ b, ({ State.blank with hub := .listening 8 true } : State).hub = .listening (7 + 1 : Stamp) b)
    ∧ ((15 : Stamp) + 1).toNat % 16 = 0 ∧ ((7 : Stamp) + 1).toNat % 16 ≠ 0
    ∧ (after .roundBoundary { State.blank with hub := .running, timebase := ⟨true, 7, 63, 0⟩ }).hub = .running
    ∧ (after .roundBoundary { State.blank with hub := .running, timebase := ⟨true, 7, 63, 0⟩ }).plan.isSome = true
    ∧ (after .roundBoundary { State.blank with hub := .stopping, timebase := ⟨true, 7, 63, 0⟩ }).hub ≠ .running
    ∧ (Plan.mk [⟨5, .service, 4, 1⟩] [⟨5, .control⟩] ⟨1, 0, 0, true, true, false, [], 64⟩).placeOf 4 =
        some ⟨5, .control⟩
    ∧ (Plan.mk [⟨5, .service, 4, 1⟩] [⟨5, .control⟩] ⟨1, 0, 0, true, true, false, [], 64⟩).placeOf 5 = none := by
  refine ⟨by decide, by decide, by decide, by decide, by decide +kernel, by decide +kernel, ⟨true, by decide⟩, by decide,
    by decide, by decide +kernel, by decide +kernel, by decide +kernel, by decide, by decide⟩

/-- An assembly of a window and one of none, in service and in a line test. -/
theorem witness_window_closing : ([some (Window.join 2), some (.reply 9), none].all fun w =>
    [HubState.running, .testing (newTest .quiet 2)].all fun h =>
      let s : State := { State.blank with
        hub := h, receiver := { Receiver.cleared with assembly := some ⟨w, .collecting, [], [], false⟩ } }
      s.closeWindowAssembly.receiver.assembly.isSome == w.isNone) = true := by decide +kernel

/-- An entry in each state meets the slot of its kind, with an operation unsent behind one that is sent. -/
theorem witness_slot_entry : (serving .control (cell bound)).label? 5 = some bound
    ∧ (serving .control (cell bound)).mayTransmit = true ∧ (serving .control (cell bound)).burst = none
    ∧ ({ bound with phase := .joining 1 false } : Label).phase.isJoining = true
    ∧ ({ bound with phase := .releasing 1 false } : Label).phase.isReleasing = true
    ∧ ({ bound with queue := [⟨.ping, 0, 0, true⟩, ⟨.showPage 1, 0, 0, false⟩] } : Label).queue =
        [⟨.ping, 0, 0, true⟩] ++ ⟨.showPage 1, 0, 0, false⟩ :: []
    ∧ ((serving .control (cell { bound with queue := [⟨.ping, 0, 0, false⟩] })).sendPlace 9 ⟨5, .control⟩).isSome = true
    ∧ (serving .control (cell bound)).sendPlace 9 ⟨5, .control⟩ = none
    ∧ State.blank.mayTransmit = false ∧ ({ State.blank with hub := .stopping } : State).mayTransmit = true := by
  decide +kernel

/-- Fragments left to send in this call, sent but not confirmed, and all confirmed: the page of 300 bytes has seven. -/
theorem witness_fragment_slot :
    (sending none).record 3 = some { filling with state := .sending } ∧ (sending none).contextOf 3 = some 2
    ∧ (sending none).context 2 = some ⟨3, 5, [], [0], 0, 0, false, false, false, none⟩
    ∧ (300 + 47) / 48 = 7 ∧ 1 ∉ ([] : List Nat) ∧ 1 ∉ [0] ∧ (∀ g, g < 1 → g ∈ ([] : List Nat) ∨ g ∈ [0])
    ∧ (∀ g, g < 7 → g ∈ [0, 1] ∨ g ∈ [2, 3, 4, 5, 6]) ∧ 2 ∉ [0, 1] ∧ (∀ g, g < 2 → g ∈ [0, 1])
    ∧ (∀ f, f < 7 → f ∈ [0, 1, 2, 3, 4, 5, 6]) ∧ (stored filling).record 3 = some filling
    ∧ (stored { filling with state := .sending }).contextOf 3 = none := by
  refine ⟨by decide +kernel, by decide +kernel, by decide +kernel, by decide, by decide, by decide, by decide, by decide,
    by decide, by decide, by decide, by decide +kernel, by decide +kernel⟩

theorem witness_beacon : Hears { State.blank with hub := .listening 1 true }
    ∧ Hears { State.blank with hub := .running } ∧ Hears State.blank
    ∧ Hears { State.blank with
        hub := .running, foreignSeen := true, receiver := { Receiver.cleared with
          assembly := some ⟨none, .collecting, [], [], false⟩ } }
    ∧ Hears { State.blank with hub := .running, blankingDue := true }
    ∧ ({ State.blank with receiver := { Receiver.cleared with blanked := true } } : State).receiver.blanked = true
    ∧ ({ State.blank with firstServed := true } : State).firstServed = true ∧ State.blank.timebase.slot = 0
    ∧ State.blank.timebase.slotTime < 1 ∧ ¬ 1 ≤ State.blank.timebase.slotTime
    ∧ (∀ t, ({ State.blank with hub := .running } : State).hub ≠ .testing t)
    ∧ 2 ≤ ([9, 0] : List Byte).length ∧ ([9] : List Byte).length < 2
    ∧ BitVec.ofNat 16 (leNat (([9, 0] : List Byte).take 2)) ≠ State.blank.config.hubId
    ∧ BitVec.ofNat 16 (leNat (([0xFE, 0xFF] : List Byte).take 2)) ≠ (0xFFFF : Word16)
    ∧ BitVec.ofNat 16 (leNat (([1, 0] : List Byte).take 2)) = State.blank.config.hubId := by
  refine ⟨⟨rfl, rfl⟩, ⟨rfl, rfl⟩, ⟨rfl, rfl⟩, ⟨rfl, rfl⟩, ⟨rfl, rfl⟩, rfl, rfl, rfl, by decide, by decide, ?_,
    by decide, by decide, by decide, by decide, by decide⟩
  intro t h
  exact nomatch h

theorem witness_test_period : ({ State.blank with hub := .testing (newTest .loop 2) } : State).receiver.assembly = none
    ∧ (newTest .loop 2).mode = .loop ∧ (newTest .quiet 1).mode = .quiet ∧ 2 ≤ (newTest .loop 2).periodsLeft
    ∧ (newTest .quiet 1).periodsLeft ≤ 1 ∧ State.blank.lineTest = none
    ∧ ({ State.blank with
        hub := .testing (newTest .loop 2)
        receiver := { Receiver.cleared with assembly := some ⟨none, .collecting, [], [], true⟩ } }
        : State).receiver.assembly = some ⟨none, .collecting, [], [], true⟩ := by decide

theorem witness_line_element : (burst .lead .hubControl).inElement = true
    ∧ ({ burst .lead .hubControl with abortPending := true } : Burst).inElement = true
    ∧ (burst .endMark .hubControl).inElement = false ∧ (burst .data .hubControl).inElement = false := by decide

/-- A burst in each part that a cut request tells apart, and one between two data bytes; a beacon whose first tick is
still to come. -/
theorem witness_cut : (burst .lead .hubControl).abort.abortPending = true ∧ (burst .data .hubControl).abort.part = .abortMark
    ∧ ({ burst .data .hubControl with current := some 7 } : Burst).current.isSome = true
    ∧ (burst .endMark .hubControl).abort = burst .endMark .hubControl
    ∧ (burst .crc .hubControl).part = .crc ∧ (burst .sync .hubControl).part = .sync
    ∧ ({ State.blank with blankingDue := true } : State).firstTick.receiver.blanked = true
    ∧ ({ State.blank with hub := .running, blankingDue := true } : State).lineTest = none
    ∧ (∀ t, ({ State.blank with hub := .running, blankingDue := true } : State).hub ≠ .testing t) := by
  refine ⟨by decide, by decide, by decide, by decide, by decide, by decide, by decide, by decide, ?_⟩
  intro t h
  exact nomatch h

/-- IRDRV in a mark, in a space and with no burst, at the ends of a line unit and of the mark length. -/
theorem witness_irdrv : (burst .lead .hubControl).element = some (true, 1)
    ∧ ({ burst .lead .hubControl with inSpace := true } : Burst).element = some (false, 1)
    ∧ (burst .data .hubControl).element = none
    ∧ ([0, 12, 13, 26, 182, 191, 192].map { State.blank with burst := some (burst .lead .hubControl) }.irdrv) =
        [true, true, false, true, true, true, false] := by decide

theorem witness_byte_request : (burst .data (.directory [1, 2])).part = .data
    ∧ (burst .data (.directory [1, 2])).current = none
    ∧ (burst .data (.directory [1, 2])).source = .directory [1, 2]
    ∧ (burst .data .hubControl).source = .hubControl
    ∧ ({ State.blank with hub := .testing (newTest .loop 2) } : State).hub = .testing (newTest .loop 2)
    ∧ (∀ i, i < 8 → (0xE0 : Byte).getLsbD i = (prbsBits 8 (newTest .loop 2).generator).1.getD i false) := by decide

theorem witness_whole_burst : 1 ≤ 8 ∧ ([7] : List Byte) ≠ []
    ∧ ([7] ++ crcBytes (crcOf [7]) : List Byte) = (if BurstSource.directory [7] = .hubControl then [7] else
        [7] ++ crcBytes (crcOf [7]))
    ∧ ([7] : List Byte) = (if BurstSource.hubControl = .hubControl then [7] else [7] ++ crcBytes (crcOf [7]))
    ∧ 2 * 8 + 3 + 17 * ([7] ++ crcBytes (crcOf [7]) : List Byte).length ≤ 70
    ∧ (burst .lead .hubControl).part = .lead ∧ (burst .sync .hubControl).part = .sync
    ∧ (burst .crc .hubControl).part = .crc
    ∧ ({ burst .data .hubControl with current := some 7 } : Burst).current = some 7 := by decide +kernel

theorem witness_fragment_byte : (sending (some 0)).context 2 = some ⟨3, 5, [], [0], 0, 0, false, false, false, some 0⟩
    ∧ (sending (some 0)).record 3 = some { filling with state := .sending }
    ∧ (burst .data (.transfer 2 1)).sent < 7
    ∧ ({ filling with state := .sending } : Record).blocks[(48 * 0 + (7 - 7)) / 256]? = some 0
    ∧ (sending (some 0)).storeParity 0 = parityOf ((sending (some 0)).storeByte 0)
    ∧ ((sending (some 0)).writeStoreByte 0 1).storeParity 1 = parityOf 0 := by decide +kernel

theorem witness_burst_end : (burst .endMark (.directory [])).part = .endMark
    ∧ (burst .abortMark .hubControl).part = .abortMark
    ∧ (burst .lead .hubControl).part ≠ .endMark ∧ (burst .lead .hubControl).part ≠ .abortMark
    ∧ (sending (some 0)).contextOf 3 = some 2 := by decide +kernel

/-- A record of each state that a FRAGMENT burst's end settles. -/
theorem witness_fragment_end :
    ((sending (some 0)).setRecord 3 (some { filling with state := .void })).record 3 =
      some { filling with state := .void }
    ∧ ((sending (some 0)).setRecord 3 (some { filling with state := .sending, damaged := true })).record 3 =
      some { filling with state := .sending, damaged := true } := by decide +kernel

theorem witness_blanking : ({ State.blank with receiver := { Receiver.cleared with blanked := true } } : State).burst = none
    ∧ State.blank.receiver.blanked = false := by decide

/-- A receiver that last saw a transition 24 and 40 microseconds before its clock, with its light on; an open
assembly; a line test's marks of what it heard. -/
theorem witness_transition :
    ([24, 40].all fun n =>
      let s : State := { State.blank with
        clock := 10, receiver := { Receiver.cleared with accepted := true, lastTransition := some 10 } }
      let u := s.standFor n
      u.receiver.lastTransition == some 10 && !u.receiver.decided && decide (10 + 2 ≤ u.clock)
        && u.lineTest.isNone && u.receiver.assembly.isNone && !u.receiver.blanked
        && decide (classifyElement u.receiver.accepted (u.clock - 10) = .sync)) = true
    ∧ classifyElement true 16 ≠ .sync ∧ (newTest .loop 2).heard = .unheard
    ∧ ({ newTest .loop 2 with heard := .broken } : LineTest).heard ≠ .unheard := by decide +kernel

/-- A sample at the accepted level; the first and the second in a row at the other; the instants at which a mark and a
space are decided. -/
theorem witness_sampling :
    let r : Receiver := Receiver.cleared
    ([false].headD r.pdin = r.accepted) ∧ ([true].headD r.pdin ≠ r.accepted) ∧ r.candidate = none
    ∧ (∀ d, r.lastTransition = some d → False)
    ∧ ({ r with candidate := some ⟨true, 1, 10⟩ } : Receiver).candidate = some ⟨true, 1, 10⟩
    ∧ (⟨true, 1, 10⟩ : Candidate).date = ({ State.blank with clock := 10 } : State).clock
    ∧ classifyElement true (40 - 10) = .sync ∧ classifyElement true (30 - 14) ≠ .sync
    ∧ 10 + (if true then 56 else 97) ≤ 65 + 1 ∧ 65 < 10 + (if true then 56 else 97)
    ∧ 10 + (if false then 56 else 97) ≤ 106 + 1 := by
  refine ⟨by decide, by decide, rfl, ?_, rfl, rfl, by decide, by decide, by decide, by decide, by decide⟩
  intro d h
  exact absurd h (by decide +revert)

/-- A line that stands, dark and lit, before and at the instant of its element, and one that is blanked. -/
theorem witness_standing_line : ([true, false].all fun mark =>
    let r : Receiver := { Receiver.cleared with pdin := mark, accepted := mark, lastTransition := some 10 }
    let s : State := { State.blank with clock := 20, receiver := r }
    s.quiet && !s.receiver.decided && !s.receiver.blanked && decide (20 + 45 < 10 + if mark then 56 else 97)
      && decide ((10 + if mark then 56 else 97) ≤ 20 + 87) && (s.idleFor 87).receiver.decided
      && !(s.idleFor 45).receiver.decided
      && !(State.idleFor { s with receiver := { r with blanked := true } } 87).receiver.decided) = true := by
  decide +kernel

/-- A sampled transition of a line test that closes a sync, another element or none, and the filter's bound. -/
theorem witness_sampling_in_a_test :
    let r : Receiver := { Receiver.cleared with
      accepted := true, lastTransition := some 8, candidate := some ⟨false, 1, 40⟩ }
    let s : State := { State.blank with clock := 40, hub := .testing (newTest .loop 2), receiver := r }
    (s.pass 1).hub = .testing (newTest .loop 2) ∧ (s.pass 1).receiver.blanked = false ∧ false ≠ r.accepted
    ∧ r.candidate = some ⟨false, 1, 40⟩ ∧ r.lastTransition = some 8 ∧ r.decided = false
    ∧ classifyElement true (40 - 8) = .sync ∧ classifyElement true (40 - 24) ≠ .sync ∧ r.assembly = none
    ∧ (newTest .loop 2).heard = .unheard ∧ 8 + 1 < 8 + 2 ∧ ¬ 8 + 2 < 8 + 2 := by decide +kernel

/-- The ends of the ranges of element lengths. -/
theorem witness_element_lengths : ([6, 10, 12, 20, 24, 40, 56].map (classifyElement true)) =
      [.dataMark, .dataMark, .endMark, .endMark, .sync, .sync, .abort]
    ∧ ([5, 6, 10, 11, 12, 20, 21, 96, 97].map (classifyElement false)) =
      [.violation, .bit false, .bit false, .violation, .bit true, .bit true, .violation, .violation, .silence] := by
  decide

theorem witness_burst_elements : ({ State.blank with
      receiver := { Receiver.cleared with assembly := some ⟨none, .afterSync, [], [], false⟩ } } : State).receiver.assembly
      = some ⟨none, .afterSync, [], [], false⟩
    ∧ 1 ≤ (List.replicate 62 (0 : Byte)).length ∧ (List.replicate 62 (0 : Byte)).length ≤ 62 := by decide

/-- An assembly after its sync and one that collects, of each length of bits and bytes that an element's taking tells
apart; with a CRC that matches and one that does not; in a line test, the period's and another. -/
theorem witness_assembly :
    let hearing := fun (p : AssemblyPhase) (bits : List Bool) (bytes : List Byte) (ofPeriod : Bool) => ({ State.blank with
      receiver := { Receiver.cleared with assembly := some ⟨some (.join 2), p, bytes, bits, ofPeriod⟩ } } : State)
    (hearing .afterSync [] [] false).receiver.assembly = some ⟨some (.join 2), .afterSync, [], [], false⟩
    ∧ (∀ t, (hearing .collecting [] [] false).hub ≠ .testing t)
    ∧ ((hearing .collecting [] [] false).takeElement .abort).directory.accumulator = true
    ∧ (List.replicate 7 false).length = 7 ∧ (List.replicate 6 false).length < 7
    ∧ 64 ≤ (List.replicate 64 (0 : Byte)).length ∧ (List.replicate 63 (0 : Byte)).length < 64
    ∧ crcBytes (crcOf [7]) = [(crcOf [7]).setWidth 8, (crcOf [7] >>> 8).setWidth 8]
    ∧ ([0, 0] : List Byte) ≠ crcBytes (crcOf [7]) ∧ ([1, 2] : List Byte).length < 3
    ∧ ({ hearing .collecting [] (List.replicate 48 0) true with hub := .testing (newTest .loop 2) } : State).hub =
        .testing (newTest .loop 2) := by
  refine ⟨rfl, ?_, rfl, by decide, by decide, by decide, by decide, by decide +kernel, by decide +kernel, by decide, rfl⟩
  intro t h
  exact nomatch h

/-- A burst heard in a join window, in a reply window and in none; the extent of a reply window, and what is outside. -/
theorem witness_broken_burst : Hearing (joinSlot .ask State.blank) 100 (some (.join 2))
    ∧ Hearing (serving .control (cell bound)) 100 (some (.reply 9))
    ∧ Hearing (serving .control (cell bound)) 500 (some (.reply 9))
    ∧ Hearing (serving .control (cell bound)) 501 none ∧ Hearing State.blank 0 none
    ∧ ({ State.blank with receiver := { Receiver.cleared with blanked := true } } : State).receiver.assembly = none
    ∧ (joinSlot .ask State.blank).timebase.slotTime < 501 ∧ (serving .control (cell bound)).plan.isSome = true
    ∧ (serving .control (cell bound)).dataSlot = some (slotOf .control) ∧ (slotOf .control).windowOpen = true
    ∧ (∀ d, ({ serving .control (cell bound) with dataSlot := none } : State).dataSlot = some d →
        d.windowOpen = false) := by
  refine ⟨⟨⟨rfl, rfl⟩, by decide⟩, ⟨⟨rfl, rfl⟩, by decide +kernel⟩, ⟨⟨rfl, rfl⟩, by decide +kernel⟩,
    ⟨⟨rfl, rfl⟩, by decide +kernel⟩, ⟨⟨rfl, rfl⟩, by decide⟩, rfl, by decide, rfl, rfl, rfl, ?_⟩
  intro d h
  exact nomatch h

/-- Bursts that are heard and not taken: in no window, in a window of the other kind, failing an arrival check, of
another label than the slot serves, and of an entry that holds no label. -/
theorem witness_burst_not_taken : State.blank.burstWindow 0 = none
    ∧ (joinSlot .ask State.blank).burstWindow 100 = some (.join 2)
    ∧ (serving .control (cell bound)).burstWindow 100 = some (.reply 9)
    ∧ arrives 1 [0x73, 1, 5] = false ∧ arrives 1 [0x72, 2, 5, 0, 0, 0, 0, 0, 0] = false
    ∧ arrives 1 [0x72, 1, 5, 0, 0, 0, 0, 0, 0] = true ∧ (byteAt [1, 6] 1).toNat ≠ (slotOf .control).place.address
    ∧ (serving .control State.blank).hears = true
    ∧ (∀ l, (serving .control State.blank).entry 5 ≠ .label l)
    ∧ (∀ l, (serving .control (State.blank.setEntry 5 (.cooling 7 2))).entry 5 ≠ .label l)
    ∧ ({ State.blank with receiver := { Receiver.cleared with assembly := some ⟨some (.join 2), .collecting, [], [], false⟩ } }
        : State).receiver.assembly = some ⟨some (.join 2), .collecting, [], [], false⟩ := by
  refine ⟨by decide, by decide, by decide, by decide, by decide, by decide, by decide, by decide, ?_, ?_, rfl⟩
  · intro l h
    have v : (serving .control State.blank).label? 5 = none := by decide +kernel
    rw [State.label?, h] at v
    exact nomatch v
  · intro l h
    have v : (serving .control (State.blank.setEntry 5 (.cooling 7 2))).label? 5 = none := by decide +kernel
    rw [State.label?, h] at v
    exact nomatch v

/-! ## Witnesses: the label directory -/

/-- A list entry, and the blank state that lists it. -/
def listed (refused : Bool) : Asking := ⟨0x060504030201, ⟨2, 512, 1⟩, some 2500, 3, refused⟩
/-- The state with an admission list. -/
def listing (q : List Asking) : State := State.blank.setAdmission q
/-- Every entry COOLING. -/
def full : State := { State.blank with directory := ⟨Vector.replicate 240 (.cooling 5 9), [], false, false⟩ }

theorem witness_admit : Ready (listing [listed false]) ∧ (1 : Nat) < (2 : Byte).toNat
    ∧ BitVec.ofNat 48 (leNat [1, 2, 3, 4, 5, 6]) = (listed false).longId
    ∧ (listing [listed false]).asking 0x060504030201 = some (listed false)
    ∧ (∀ x ∈ State.blank.directory.admission, x.longId ≠ 0x060504030201)
    ∧ (listing [listed false]).entry 1 = .vacant := by
  refine ⟨⟨rfl, rfl⟩, by decide, by decide, by decide, by decide, by decide +kernel⟩

theorem witness_admit_full : ∀ a, 1 ≤ a → a ≤ 240 → (full.setAdmission [listed true]).entry a ≠ .vacant := by
  intro a h1 h2
  have h3 : a ≠ 0 := by omega
  have h4 : a - 1 < 240 := by omega
  simp [full, State.entry, State.setAdmission, h3, h4]

theorem witness_queries : (1 : Byte).toNat ≤ 240 ∧ (240 : Byte).toNat ≤ 240 ∧ 240 < (241 : Byte).toNat
    ∧ (cell bound).holderOf (BitVec.ofNat 48 (leNat [0x66, 0x55, 0x44, 0x33, 0x22, 0x11])) = some 5
    ∧ 128 ≤ (128 : Byte).toNat ∧ (127 : Byte).toNat < 128 ∧ 3 < (4 : Byte).toNat
    ∧ (stored filling).liveOf 5 1 = none ∧ (stored filling).fillingOf 5 1 = some 3
    ∧ (Profile.mk 16 15).valid = true ∧ 16 = 2 ^ 4 ∧ (⟨.ping, 0, 0, false⟩ : Operation).fields ≠ .release
    ∧ ([4, 3] : List Nat) = [4] ++ 3 :: [] ∧ 3 ∉ ([4] : List Nat) ∧ State.blank.contextOf 3 = none
    ∧ (sending none).contextOf 3 = some 2 := by decide +kernel

theorem witness_release : (cell bound).entry 5 = .label bound
    ∧ (cell { bound with phase := .joining 4 false }).entry 5 = .label { bound with phase := .joining 4 false }
    ∧ (cell { bound with phase := .missing }).entry 5 = .label { bound with phase := .missing }
    ∧ (cell { bound with phase := .releasing 2 true }).entry 5 = .label { bound with phase := .releasing 2 true }
    ∧ State.blank.label? 240 = none := by decide +kernel

theorem witness_join_ask : Hearing (joinSlot .ask State.blank) 100 (some (.join 2))
    ∧ (∀ x ∈ (joinSlot .ask State.blank).directory.admission, x.longId ≠ 0x060504030201)
    ∧ (joinSlot .ask (listing (List.replicate 7 (listed false)))).directory.admission.length < 8
    ∧ 8 ≤ (joinSlot .ask (listing (List.replicate 8 (listed false)))).directory.admission.length
    ∧ (joinSlot .ask (listing [listed true])).directory.admission = [] ++ listed true :: []
    ∧ (0x12 : Byte).toNat % 16 ≤ 4 ∧ (16 : Byte).toNat ≤ 16 := by
  refine ⟨⟨⟨rfl, rfl⟩, by decide⟩, by decide, by decide, by decide, by decide, by decide, by decide⟩

theorem witness_join_unheld : ∀ a, 1 ≤ a → a ≤ 240 → ((joinSlot .openAll State.blank).entry a).longId
    ≠ some 0x060504030201 := by
  intro a h1 h2
  have h3 : a ≠ 0 := by omega
  have h4 : a - 1 < 240 := by omega
  simp [joinSlot, State.blank, State.entry, Entry.longId, h3, h4]

theorem witness_join_held : arrives State.blank.config.hubId
      (0x71 :: [1, 0x66, 0x55, 0x44, 0x33, 0x22, 0x11, 0x12, 8, 100]) = true
    ∧ (joinSlot .closed (cell bound)).holderOf
        (joinRequestOf (0x71 :: [1, 0x66, 0x55, 0x44, 0x33, 0x22, 0x11, 0x12, 8, 100])).longId = some 5
    ∧ (joinSlot .openAll State.blank).entry 1 = .vacant := by decide +kernel

/-- A STATUS of fifteen bytes after its kind, from short address 5. -/
def statusBody : List Byte := [1, 5, 0x10, 3, 100, 0x81, 0, 0, 0, 0x11, 0, 0, 0, 0, 0]

theorem witness_status : Hearing (serving .control (cell bound)) 100 (some (.reply (slotOf .control).slot))
    ∧ arrives State.blank.config.hubId (0x73 :: statusBody) = true ∧ (byteAt statusBody 1).toNat = 5
    ∧ (statusOf (0x73 :: statusBody)).joined = true ∧ (statusOf (0x73 :: statusBody)).released = true
    ∧ (statusOf (0x73 :: statusBody)).result = .done
    ∧ ({ bound with phase := .joining 3 true } : Label).phase = .joining 3 true
    ∧ (∀ h, (slotOf .control).place.kind ≠ .fragment h) := by
  refine ⟨⟨⟨rfl, rfl⟩, by decide +kernel⟩, by decide, by decide, by decide, by decide, by decide, rfl, ?_⟩
  intro h
  simp [slotOf]

/-- A STATUS in a fragment slot, with the record SENDING in a context, and with none. -/
theorem witness_status_in_a_fragment_slot :
    Hearing (serving (.fragment 3) (sending none)) 100 (some (.reply (slotOf (.fragment 3)).slot))
    ∧ (serving (.fragment 3) (sending none)).dataSlot = some (slotOf (.fragment 3))
    ∧ (slotOf (.fragment 3)).place.kind = .fragment 3 ∧ (slotOf (.fragment 3)).place.address = 5
    ∧ (serving (.fragment 3) (sending none)).entry 5 = .label bound
    ∧ (sending none).record 3 = some { filling with state := .sending } ∧ (sending none).contextOf 3 = some 2
    ∧ (sending none).context 2 = some ⟨3, 5, [], [0], 0, 0, false, false, false, none⟩
    ∧ (stored { filling with state := .sending }).contextOf 3 = none := by
  refine ⟨⟨⟨rfl, rfl⟩, by decide +kernel⟩, rfl, rfl, rfl, by decide +kernel, by decide +kernel, by decide +kernel,
    by decide +kernel, by decide +kernel⟩

/-- A STATUS in a fragment slot is a plain answer of the transfer (R160). -/
theorem test_status_answers_the_transfer :
    (after (.status ⟨100, statusBody⟩) (serving (.fragment 3) (sending none))).context 2 =
      some ⟨3, 5, [], [0], 0, 0, true, true, false, none⟩ := by decide +kernel

/-- A page with no live record, wanted or not, reported held or absent; and live records of both kinds. -/
theorem witness_reconcile : (cell bound).liveOf 5 1 = none ∧ 1 ∉ bound.wanted
    ∧ 1 ∈ ({ bound with wanted := [1] } : Label).wanted
    ∧ (statusOf (0x73 :: statusBody)).holds 1 = none
    ∧ (statusOf (0x73 :: [1, 5, 0, 0, 0, 0, 0, 0, 0, 0, 2, 0, 7, 0, 0])).holds 1 = some 7
    ∧ (stored { filling with state := .held }).liveOf 5 1 = some 3
    ∧ (stored { filling with state := .held }).record 3 = some { filling with state := .held }
    ∧ (sending none).liveOf 5 1 = some 3 ∧ (sending none).contextOf 3 = some 2
    ∧ (stored { filling with state := .ready }).contextOf 3 = none := by decide +kernel

/-- A STATUS of a RELEASING entry with the open send's sequence notes the echo alone (log 28). -/
theorem test_releasing_echo : ((after (.status ⟨100, [1, 5, 0x11, 0, 0, 0, 0, 0, 0, 0, 0, 0, 0, 0, 0]⟩)
    (serving .control (cell { bound with
      phase := .releasing 2 false, openSend := some ⟨9, 1, .setProfile ⟨4, 1⟩, 1, false, false⟩ }))).label? 5).map
        Label.openSend = some (some ⟨9, 1, .setProfile ⟨4, 1⟩, 1, false, true⟩) := by decide +kernel

/-- A slot whose call ends with it. -/
def callSlot (k : CallKind) : DataSlot := { slotOf k.ownSlot with callEnd := some ⟨5, k, 9, 1⟩ }

theorem witness_call_end : (callSlot .service).callEnd = some ⟨5, .service, 9, 1⟩
    ∧ ({ cell bound with dataSlot := some (callSlot .service) } : State).windowHeldOpen = false
    ∧ ({ cell bound with
        dataSlot := some (callSlot .service)
        receiver := { Receiver.cleared with assembly := some ⟨some (.reply 9), .collecting, [], [], false⟩ } }
        : State).windowHeldOpen = true
    ∧ min 15 (2 + 1) = 3 ∧ State.blank.config.missLimit ≤ min 15 (2 + 1)
    ∧ min 15 (1 + 1) < State.blank.config.missLimit ∧ State.blank.dataSlot = none ∧ (slotOf .control).callEnd = none
    ∧ (serving .control (cell bound)).dataSlot = some (slotOf .control) := by decide +kernel

/-- A missed service call at the miss limit with the label's one SENDING record in a context, one with none, and the
uses of the last attempt. -/
theorem witness_call_end_transfer : (sending none).sendingOf 5 = some 3 ∧ (sending none).contextOf 3 = some 2
    ∧ State.blank.sendingOf 5 = none ∧ (stored { filling with state := .sending }).sendingOf 5 = some 3
    ∧ (stored { filling with state := .sending }).contextOf 3 = none
    ∧ CallKind.fits .service bound.phase = true ∧ CallKind.fits .assign (.joining 2 false) = true
    ∧ CallKind.fits .release (.releasing 1 false) = true ∧ CallKind.fits .service .missing = false
    ∧ State.blank.config.missLimit ≤ min 15 (15 + 1) := by decide +kernel

/-- The call end and the window end of a slot whose entry is VACANT by then, and whose entry is COOLING. -/
theorem witness_ends_without_a_label :
    let slot : DataSlot := ⟨9, 3, ⟨5, .control⟩, true, true, some ⟨5, .service, 9, 1⟩⟩
    let ended := fun e : Entry => ({ (serving .control State.blank).setEntry 5 e with dataSlot := some slot } : State)
    (∀ e ∈ [Entry.vacant, .cooling 7 2], (ended e).dataSlot = some slot ∧ (ended e).windowHeldOpen = false
      ∧ (ended e).label? 5 = none ∧ (ended e).sendingOf 5 = none
      ∧ (after .callEnd (ended e)).dataSlot = some { slot with windowOpen := false, callEnd := none }
      ∧ (after .replyWindowEnd (ended e)).dataSlot = some { slot with windowOpen := false, endDue := false })
    ∧ slot.callEnd = some ⟨5, .service, 9, 1⟩ ∧ slot.endDue = true := by decide +kernel

/-- Readings that leave the class, change it, and make it CRITICAL with battery saving on, a SET_PROFILE queued or not. -/
theorem witness_reading : classify 2500 2200 .ok 2600 = .ok ∧ classify 2500 2200 .ok 2300 = .low
    ∧ classify 2500 2200 .ok 2100 = .critical
    ∧ (∀ o ∈ bound.queue, o.kind ≠ .setProfile)
    ∧ (∃ o ∈ ({ bound with queue := [⟨.setProfile ⟨8, 3⟩, 0, 0, false⟩] } : Label).queue, o.kind = .setProfile)
    ∧ ({ bound with planned := some ⟨⟨8, 3⟩, 4⟩ } : Label).planned = some ⟨⟨8, 3⟩, 4⟩
    ∧ bound.current ≠ ⟨16, 5 % 16⟩ := by decide

theorem witness_label_op : payloadOk .labelOp [5, 0] = true ∧ payloadOk .labelOp [5, 9] = true
    ∧ OpForm 2 [0] .ping ∧ OpForm 2 [1, 16, 15] (.setProfile ⟨16, 15⟩) ∧ OpForm 2 [2, 3] (.setMode .allOn)
    ∧ OpForm 2 [3, 1] (.showPage 1) ∧ (∀ f, ¬ OpForm 2 [3, 2] f) := by
  refine ⟨by decide, by decide, .inl ⟨rfl, rfl⟩, .inr (.inl ⟨16, 15, by decide, by decide, rfl⟩),
    .inr (.inr (.inl ⟨.allOn, by decide, rfl⟩)), .inr (.inr (.inr ⟨1, by decide, by decide, by decide, rfl⟩)), ?_⟩
  rintro f (⟨h, _⟩ | ⟨n, k, _, h, _⟩ | ⟨m, h, _⟩ | ⟨g, hg, _, h, _⟩)
  · exact absurd h (by decide)
  · exact absurd (congrArg List.length h) (by simp)
  · exact absurd (congrArg List.head? h) (by simp)
  · have : g = 0 ∨ g = 1 := by omega
    rcases this with rfl | rfl
    · exact absurd h (by decide)
    · exact absurd h (by decide)

/-- An entry with a PING queued and its send open. -/
def sent (attempts : Nat) : Label :=
  { bound with
    queue := [⟨.ping, 1, attempts, true⟩]
    openSend := some ⟨9, 1, .ping, 1, true, false⟩ }

theorem witness_window_end : (serving .control (cell (sent 1))).entry 5 = .label (sent 1)
    ∧ (serving .control (cell (sent 1))).windowHeldOpen = false ∧ (slotOf .control).endDue = true
    ∧ (sent 1).queue = [] ++ ⟨.ping, 1, 1, true⟩ :: [] ∧ 1 + 1 < State.blank.config.opAttempts
    ∧ State.blank.config.opAttempts ≤ 2 + 1 ∧ (sent 1).openSend = some ⟨9, 1, .ping, 1, true, false⟩
    ∧ ({ slotOf .control with endDue := false } : DataSlot).endDue = false
    ∧ (∀ x, bound.openSend = some x → x.slot ≠ (slotOf .control).slot)
    ∧ (OpenSend.mk 9 1 (.setProfile ⟨4, 1⟩) 1 false true).slot = (slotOf .control).slot
    ∧ (OpenSend.mk 9 1 (.setProfile ⟨4, 1⟩) 1 false true).attached = false := by
  refine ⟨by decide +kernel, by decide +kernel, rfl, rfl, by decide, by decide, rfl, rfl, ?_, rfl, rfl⟩
  intro x h
  simp [bound] at h

theorem witness_profile : (Profile.mk 16 15).valid = true ∧ (Profile.mk 1 0).valid = true := by decide

theorem witness_battery : (2200 : Nat) + 100 ≤ 2500 ∧ (2199 : Nat) < 2200 ∧ (2200 : Nat) < 2200 + 50
    ∧ 2200 + 50 ≤ (2250 : Nat) ∧ (2499 : Nat) < 2500 ∧ (2500 : Nat) < 2500 + 50 ∧ 2500 + 50 ≤ (2550 : Nat) := by decide

theorem witness_plan : (State.blank.buildPlan.plan).isSome = true := by decide +kernel

/-- A plan with one call, of a BOUND label with a READY record and a free context. -/
theorem witness_plan_call :
    ((stored { filling with state := .ready, readyStamp := some 0 }).buildPlan.plan).map Plan.calls = some [⟨5, .service, 4, 6⟩]
    ∧ (stored { filling with state := .ready, readyStamp := some 0 }).transferRecord 5 = some 3
    ∧ (stored { filling with state := .ready, readyStamp := some 0 }).context 0 = none
    ∧ (sending none).transferRecord 5 = some 3 := by decide +kernel

/-- Turns of the allocation: a candidate that fits, one whose own slots alone fit, one that does not, a full call list
and a third ASSIGN. -/
theorem witness_turns : 1 ≤ 1 + 4 ∧ 1 + 4 ≤ 60 ∧ 3 < 1 + 4 ∧ 1 ≤ 1 ∧ 1 ≤ 3 ∧ 0 < 1
    ∧ (Allocation.mk State.blank 60 0 (List.replicate 8 ⟨1, .service, 1, 0, 0⟩)).shares.length = 8
    ∧ (Allocation.mk State.blank 60 3 []).assigns = 3
    ∧ (Allocation.mk State.blank 60 3 []).shares.length ≠ 8
    ∧ (cell { bound with queue := [⟨.ping, 0, 0, false⟩] }).entry 5 =
        .label { bound with queue := [⟨.ping, 0, 0, false⟩] }
    ∧ (∀ l, State.blank.entry 5 ≠ .label l) := by
  refine ⟨by decide, by decide, by decide, by decide, by decide, by decide, rfl, rfl, by decide, by decide +kernel, ?_⟩
  intro l h
  have v : (State.blank.entry 5).isVacant = true := by decide +kernel
  rw [h] at v
  exact nomatch v

/-- With no record stored the records are in form. -/
theorem witness_records : RecordsOk (State.blank.resetBy .pin) := (Sound.resetBy State.blank .pin).records

/-! ## Witnesses: page transfers and the page store -/

theorem witness_receipt : Hearing (serving (.fragment 3) (sending none)) 100 (some (.reply (slotOf (.fragment 3)).slot))
    ∧ (serving (.fragment 3) (sending none)).entry 5 = .label bound
    ∧ (serving (.fragment 3) (sending none)).record 3 = some { filling with state := .sending }
    ∧ (serving (.fragment 3) (sending none)).contextOf 3 = some 2
    ∧ (1 : Byte).getLsbD 0 = true ∧ (0 : Byte).getLsbD 0 = false ∧ (3 : Byte).toNat ≤ 3 := by
  refine ⟨⟨⟨rfl, rfl⟩, by decide +kernel⟩, by decide +kernel, by decide +kernel, by decide +kernel, by decide, by decide,
    by decide⟩

theorem witness_judgement : (sending none).sendingOf 5 = some 3 ∧ (sending none).contextOf 3 = some 2
    ∧ judge 4 ⟨3, 5, [], [0], 0, 7, true, false, false, none⟩ = .stall .labelBusy
    ∧ judge 4 ⟨3, 5, [], [0], 3, 0, true, true, false, none⟩ = .stall .noProgress
    ∧ judge 4 ⟨3, 5, [], [0], 2, 6, false, false, false, none⟩ = .counts 2 6 := by decide +kernel

/-- PAGE_BEGIN finds room at once, and with every slot taken it finds none. -/
theorem witness_page_begin : (cell bound).freeSlots = 0 :: (List.range' 1 127)
    ∧ 4 ≤ (cell bound).freeBlocks.length ∧ (cell bound).liveOf 5 1 = none ∧ (cell bound).fillingOf 5 1 = none
    ∧ ({ cell bound with store := { (cell bound).store with
        records := Vector.replicate 128 (some { filling with address := 6, blocks := [], state := .ready }) } }
        : State).freeSlots = [] := by decide +kernel

/-- Every slot taken, the record at handle 0 HELD and in the HELD order. -/
def crowded : State :=
  { cell bound with store := { (cell bound).store with
      records := Vector.replicate 128 (some { filling with address := 6, blocks := [], state := .held })
      heldOrder := [0] } }

/-- One eviction makes the room, and none does not. -/
theorem witness_page_begin_evicts : crowded.freeSlots = []
    ∧ ((crowded.store.heldOrder.take 1).foldl State.evict crowded).freeSlots = [0]
    ∧ 2 ≤ ((crowded.store.heldOrder.take 1).foldl State.evict crowded).freeBlocks.length := by decide +kernel

theorem witness_page_data : Ready (stored filling) ∧ BlocksOk (stored filling) ∧ StoreOk (stored filling).store
    ∧ (stored filling).record 3 = some filling ∧ 108 + 192 ≤ filling.length ∧ (127 : Byte).toNat < 128
    ∧ (stored { filling with state := .ready }).record 3 = some { filling with state := .ready } := by
  refine ⟨⟨rfl, rfl⟩, ⟨by decide +kernel, by decide +kernel⟩, ⟨⟨.nil, by decide⟩, ⟨.nil, by decide⟩⟩, by decide +kernel,
    by decide, by decide, by decide +kernel⟩

theorem witness_page_end : (∀ o, o < filling.length → o ∈ List.range 300) ∧ (∃ o, o < filling.length ∧ o ∉ List.range 299)
    ∧ (sending (some 0)).fragmentOnAir 3 = true ∧ (sending none).fragmentOnAir 3 = false
    ∧ (stored { filling with state := .held }).liveOf 5 1 = some 3 := by
  refine ⟨fun o h => List.mem_range.mpr h, ⟨299, by decide, by simp⟩, by decide +kernel, by decide +kernel,
    by decide +kernel⟩

theorem witness_pin : (stored { filling with pinned := true }).record 3 = some { filling with pinned := true }
    ∧ (stored filling).pinnedCount < 32
    ∧ 32 ≤ ({ cell bound with store := { (cell bound).store with
        records := Vector.replicate 128 (some { filling with pinned := true }) } } : State).pinnedCount
    ∧ (stored { filling with state := .stalled .noProgress }).record 3 =
        some { filling with state := .stalled .noProgress }
    ∧ (stored { filling with state := .stalled .storeError, damaged := true }).record 3 =
        some { filling with state := .stalled .storeError, damaged := true } := by decide +kernel

/-! ## Witnesses: the forms -/

/-- A state in every form, the machine after a pin reset, from which a step goes on. -/
theorem witness_sound : Sound (State.blank.resetBy .pin) ∧ ∃ t, step (State.blank.resetBy .pin) = .next t :=
  ⟨Sound.resetBy State.blank .pin, ⟨_, rfl⟩⟩

end Sys2Proof.Tests
end

/-! PROOFS. The codes of the optical line: bytes and their bits, the CRC of R5 and the PRBS of R16. -/

namespace Sys2Proof.Machine

/-! ## Bytes and their bits -/

/-- The first bit of the list is the byte's least significant one, and a bit past the list is clear. -/
theorem getLsbD_byteOfBits (l : List Bool) (i : Nat) :
    (byteOfBits l).getLsbD i = (decide (i < 8) && l.getD i false) := by
  induction l generalizing i with
  | nil => simp [byteOfBits]
  | cons b rest ih =>
    have one : (if b then (1 : Byte) else 0).getLsbD i = (decide (i = 0) && b) := by
      cases b <;> simp [BitVec.getLsbD_one]
    rw [byteOfBits, BitVec.getLsbD_or, BitVec.getLsbD_shiftLeft, one]
    cases i with
    | zero => simp only [List.getD_cons_zero]; simp
    | succ i =>
      rw [List.getD_cons_succ, Nat.add_sub_cancel, ih]
      by_cases h : i + 1 < 8
      · have k : i < 8 := by omega
        simp [h, k]
      · simp [h]

theorem byteOfBits_eq {l : List Bool} {x : Byte} (h : ∀ i, i < 8 → x.getLsbD i = l.getD i false) :
    byteOfBits l = x := by
  refine BitVec.eq_of_getLsbD_eq fun i k => ?_
  rw [getLsbD_byteOfBits, h i k]
  simp [k]

@[simp] theorem length_bitsOfByte (x : Byte) : (bitsOfByte x).length = 8 := by simp [bitsOfByte]

theorem getD_bitsOfByte (x : Byte) {i : Nat} (h : i < 8) : (bitsOfByte x).getD i false = x.getLsbD i := by
  simp [bitsOfByte, h]

@[simp] theorem byteOfBits_bitsOfByte (x : Byte) : byteOfBits (bitsOfByte x) = x :=
  byteOfBits_eq fun _ h => (getD_bitsOfByte x h).symm

theorem getLsbD_byteOf (n i : Nat) : (byteOf n).getLsbD i = (decide (i < 8) && n.testBit i) :=
  BitVec.getLsbD_ofNat 8 n i

/-! ## The CRC (R5) -/

theorem crcBytes_eq (c : Word16) : crcBytes c = [byteOf c.toNat, byteOf (c.toNat / 256)] := rfl

theorem getLsbD_crcLow (c : Word16) {i : Nat} (h : i < 8) : (byteOf c.toNat).getLsbD i = c.getLsbD i := by
  rw [getLsbD_byteOf, decide_eq_true h]
  rfl

theorem getLsbD_crcHigh (c : Word16) {i : Nat} (h : i < 8) :
    (byteOf (c.toNat / 256)).getLsbD i = c.getLsbD (8 + i) := by
  rw [getLsbD_byteOf, decide_eq_true h, show 256 = 2 ^ 8 from rfl, Nat.testBit_div_two_pow,
    Nat.add_comm]
  rfl

/-- The bits of a CRC's two bytes, low byte first, are the bits of the CRC. -/
theorem bitsOfByte_crcBytes (c : Word16) : (crcBytes c).flatMap bitsOfByte = (List.range 16).map c.getLsbD := by
  have low : bitsOfByte (byteOf c.toNat) = (List.range 8).map c.getLsbD :=
    List.map_congr_left fun i h => getLsbD_crcLow c (List.mem_range.1 h)
  have high : bitsOfByte (byteOf (c.toNat / 256)) = (List.range 8).map fun i => c.getLsbD (8 + i) :=
    List.map_congr_left fun i h => getLsbD_crcHigh c (List.mem_range.1 h)
  rw [crcBytes_eq, List.flatMap_cons, List.flatMap_cons, List.flatMap_nil, low, high]
  rfl

theorem crcShift_clear {c : Word16} (h : c.getLsbD 15 = false) : crcShift c = c <<< 1 := by
  rw [crcShift, h]
  rfl

/-- A word whose high byte is clear is only moved by eight shifts: no bit of it leaves the register. -/
theorem crcShift_eight {x : Word16} (h : x.toNat < 256) :
    crcShift (crcShift (crcShift (crcShift (crcShift (crcShift (crcShift (crcShift x))))))) = x <<< 8 := by
  have move : ∀ k, k < 8 → crcShift (x <<< k) = x <<< (k + 1) := fun k hk => by
    have small : x.toNat < 2 ^ (15 - k) :=
      lt_of_lt_of_le (b := 2 ^ 8) h (Nat.pow_le_pow_right Nat.two_pos (by omega))
    rw [crcShift_clear, BitVec.shiftLeft_add]
    rw [BitVec.getLsbD_shiftLeft, BitVec.getLsbD, Nat.testBit_lt_two_pow small, Bool.and_false]
  have start : crcShift x = x <<< 1 := by simpa using move 0 (by decide)
  rw [start, move 1 (by decide), move 2 (by decide), move 3 (by decide), move 4 (by decide), move 5 (by decide),
    move 6 (by decide), move 7 (by decide)]

/-- The CRC's own high byte clears the high half of the register, and the low half moves up. -/
theorem crcByte_crcHigh (c : Word16) : crcByte c (byteOf (c.toNat / 256)) = c <<< 8 := by
  have low : c ^^^ ((byteOf (c.toNat / 256)).setWidth 16 <<< 8) = c &&& 0xFF := by
    refine BitVec.eq_of_getLsbD_eq fun i k => ?_
    rw [BitVec.getLsbD_xor, BitVec.getLsbD_shiftLeft, BitVec.getLsbD_and, BitVec.getLsbD_setWidth]
    have mask : (0xFF : Word16).getLsbD i = decide (i < 8) := by
      decide +revert
    rw [mask]
    by_cases h : i < 8
    · simp [h]
    · rw [getLsbD_crcHigh c (by omega), Nat.add_sub_cancel' (by omega)]
      have : i - 8 < 16 := by omega
      simp [h, k, this]
  have small : (c &&& 0xFF).toNat < 256 := by
    rw [BitVec.toNat_and]
    exact Nat.and_lt_two_pow (n := 8) _ (by decide)
  have move : (c &&& 0xFF) <<< 8 = c <<< 8 := by
    refine BitVec.eq_of_getLsbD_eq fun i k => ?_
    rw [BitVec.getLsbD_shiftLeft, BitVec.getLsbD_shiftLeft, BitVec.getLsbD_and]
    have mask : i < 8 ∨ (0xFF : Word16).getLsbD (i - 8) = true := by
      decide +revert
    rcases mask with h | h
    · simp [h]
    · rw [h, Bool.and_true]
  dsimp only [crcByte]
  rw [low, crcShift_eight small, move]

/-- A byte that matches what is left in the high half of the register leaves nothing. -/
theorem crcByte_crcLow (c : Word16) : crcByte (c <<< 8) (byteOf c.toNat) = 0 := by
  have gone : c <<< 8 ^^^ ((byteOf c.toNat).setWidth 16 <<< 8) = 0 := by
    refine BitVec.eq_of_getLsbD_eq fun i k => ?_
    rw [BitVec.getLsbD_xor, BitVec.getLsbD_shiftLeft, BitVec.getLsbD_shiftLeft, BitVec.getLsbD_setWidth,
      getLsbD_crcLow c (by omega)]
    have : i - 8 < 16 := by omega
    simp [this]
  dsimp only [crcByte]
  rw [gone, crcShift_eight (by decide)]
  rfl

theorem crcOf_append (d e : List Byte) : crcOf (d ++ e) = e.foldl crcByte (crcOf d) := List.foldl_append

theorem crcOf_append_crcBytes_reverse (d : List Byte) : crcOf (d ++ (crcBytes (crcOf d)).reverse) = 0 := by
  rw [crcOf_append, crcBytes_eq]
  show crcByte (crcByte (crcOf d) (byteOf ((crcOf d).toNat / 256))) (byteOf (crcOf d).toNat) = 0
  rw [crcByte_crcHigh, crcByte_crcLow]

/-! ## The PRBS (R16) -/

theorem prbsBits_succ (n : Nat) (r : BitVec 9) :
    prbsBits (n + 1) r = (prbsBit r :: (prbsBits n (prbsStep r)).1, (prbsBits n (prbsStep r)).2) := rfl

@[simp] theorem length_prbsBits (n : Nat) (r : BitVec 9) : (prbsBits n r).1.length = n := by
  induction n generalizing r with
  | zero => rfl
  | succ n ih => rw [prbsBits_succ, List.length_cons, ih]

theorem prbsBits_register (n : Nat) (r : BitVec 9) : (prbsBits n r).2 = prbsStep^[n] r := by
  induction n generalizing r with
  | zero => rfl
  | succ n ih => rw [prbsBits_succ, ih, Function.iterate_succ_apply]

theorem prbsBits_add (m n : Nat) (r : BitVec 9) : prbsBits (m + n) r =
    ((prbsBits m r).1 ++ (prbsBits n (prbsBits m r).2).1, (prbsBits n (prbsBits m r).2).2) := by
  induction m generalizing r with
  | zero => rw [Nat.zero_add]; rfl
  | succ m ih => rw [Nat.succ_add, prbsBits_succ, ih, prbsBits_succ, List.cons_append]

theorem prbsByte_eq (r : BitVec 9) : prbsByte r = (byteOfBits (prbsBits 8 r).1, (prbsBits 8 r).2) := rfl

theorem prbsBytes_succ (n : Nat) (r : BitVec 9) : prbsBytes (n + 1) r =
    ((prbsByte r).1 :: (prbsBytes n (prbsByte r).2).1, (prbsBytes n (prbsByte r).2).2) := rfl

@[simp] theorem length_prbsBytes (n : Nat) (r : BitVec 9) : (prbsBytes n r).1.length = n := by
  induction n generalizing r with
  | zero => rfl
  | succ n ih => rw [prbsBytes_succ, List.length_cons, ih]

theorem prbsBytes_register (n : Nat) (r : BitVec 9) : (prbsBytes n r).2 = (prbsBits (8 * n) r).2 := by
  induction n generalizing r with
  | zero => rfl
  | succ n ih => rw [prbsBytes_succ, ih, Nat.mul_succ, Nat.add_comm, prbsBits_add, prbsByte_eq]

/-- The test bytes are the bits of the PRBS taken eight at a time, the first the least significant. -/
theorem getLsbD_prbsBytes {n i j : Nat} (r : BitVec 9) (hi : i < n) (hj : j < 8) :
    (byteAt (prbsBytes n r).1 i).getLsbD j = (prbsBits (8 * n) r).1.getD (8 * i + j) false := by
  induction n generalizing r i with
  | zero => omega
  | succ n ih =>
    rw [prbsBytes_succ, Nat.mul_succ, Nat.add_comm (8 * n), prbsBits_add]
    dsimp only
    cases i with
    | zero =>
      rw [List.getD_append _ _ _ _ (by simpa using hj), prbsByte_eq]
      show (byteOfBits (prbsBits 8 r).1).getLsbD j = _
      rw [getLsbD_byteOfBits, decide_eq_true hj, Bool.true_and, Nat.mul_zero, Nat.zero_add]
    | succ i =>
      rw [List.getD_append_right _ _ _ _ (by simp; omega), length_prbsBits,
        show 8 * (i + 1) + j - 8 = 8 * i + j by omega, ← ih (prbsBits 8 r).2 (by omega)]
      rfl

theorem prbsStep_periodic : Function.IsPeriodicPt prbsStep 511 prbsSeed := by
  unfold Function.IsPeriodicPt Function.IsFixedPt
  decide +kernel

/-- The period of the PRBS is no proper divisor of 511 = 7 · 73, so it is 511. -/
theorem prbsStep_not_periodic {n : Nat} (h : 0 < n) (k : n < 511) : ¬ Function.IsPeriodicPt prbsStep n prbsSeed := by
  intro p
  have g : Function.IsPeriodicPt prbsStep (n.gcd 511) prbsSeed := p.gcd prbsStep_periodic
  have small : n.gcd 511 ≤ n := Nat.gcd_le_left _ h
  have divides : n.gcd 511 ∈ Nat.divisors 511 := Nat.mem_divisors.2 ⟨Nat.gcd_dvd_right _ _, by decide⟩
  have cases : n.gcd 511 ∣ 7 ∨ n.gcd 511 ∣ 73 := by
    rw [show Nat.divisors 511 = {1, 7, 73, 511} by decide +kernel] at divides
    simp only [Finset.mem_insert, Finset.mem_singleton] at divides
    rcases divides with e | e | e | e
    · exact .inl (e ▸ one_dvd _)
    · exact .inl (e ▸ dvd_rfl)
    · exact .inr (e ▸ dvd_rfl)
    · omega
  rcases cases with d | d
  · exact absurd (g.trans_dvd d) (by unfold Function.IsPeriodicPt Function.IsFixedPt; decide +kernel)
  · exact absurd (g.trans_dvd d) (by unfold Function.IsPeriodicPt Function.IsFixedPt; decide +kernel)

/-- Settles O29: the CRC's residue bit by bit, and the period of the PRBS from its divisors. -/
theorem codesGiveTheirCheckFigures : Obligations.CodesGiveTheirCheckFigures := by
  unfold Obligations.CodesGiveTheirCheckFigures
  refine ⟨by decide +kernel, crcOf_append_crcBytes_reverse, by decide +kernel, ?_, fun n h k => ?_⟩
  · rw [prbsBits_register]
    exact prbsStep_periodic
  · rw [prbsBits_register]
    exact prbsStep_not_periodic h k

end Sys2Proof.Machine

/-! PROOFS. The transmitter (R1 to R8) and blanking (R15): what each element is, which follows which, and what the end
of a burst and of a blanking leave. -/

namespace Sys2Proof.Machine

/-! ## The line test and the open assembly -/

theorem lineTest_testing {s : State} {t : LineTest} (h : s.hub = .testing t) : s.lineTest = some t := by
  unfold State.lineTest
  rw [h]

theorem lineTest_none_iff {s : State} : s.lineTest = none ↔ ∀ t, s.hub ≠ .testing t := by
  constructor
  · intro h t k
    rw [lineTest_testing k] at h
    cases h
  · intro h
    cases k : s.lineTest with
    | none => rfl
    | some t => exact absurd (lineTest_some k) (h t)

theorem inLoopTest_outside {s : State} (h : s.lineTest = none) : s.inLoopTest = false := by
  unfold State.inLoopTest
  rw [h]

/-- The round accumulator after a broken burst of a window (R58). -/
def energyHeard (w : Option Window) (accumulator : Bool) : Bool :=
  match w with
  | some (.join _) => true
  | _ => accumulator

theorem deliverBroken_eq (s : State) (w : Option Window) (c : BrokenCause) : s.deliverBroken w c = { s with
    directory := { s.directory with accumulator := energyHeard w s.directory.accumulator } } := by
  unfold State.deliverBroken energyHeard
  split <;> rfl

theorem endAssemblyBroken_none {s : State} (h : s.receiver.assembly = none) (c : BrokenCause) :
    s.endAssemblyBroken c = s := by
  unfold State.endAssemblyBroken
  rw [h]

/-- Outside a line test an assembly that ends broken is energy heard in its window (R14, R58). -/
theorem endAssemblyBroken_outside {s : State} {a : Assembly} (h : s.receiver.assembly = some a)
    (k : s.lineTest = none) (c : BrokenCause) : s.endAssemblyBroken c = { s.setAssembly none with
      directory := { s.directory with accumulator := energyHeard a.window s.directory.accumulator } } := by
  unfold State.endAssemblyBroken
  rw [h, k]
  exact deliverBroken_eq _ _ _

/-- In a line test an assembly that ends broken breaks the period's burst, if it is that (R17). -/
theorem endAssemblyBroken_testing {s : State} {a : Assembly} {t : LineTest} (h : s.receiver.assembly = some a)
    (k : s.hub = .testing t) (c : BrokenCause) : s.endAssemblyBroken c = { s.setAssembly none with
      hub := .testing { t with heard := if a.ofPeriod then .broken else t.heard } } := by
  unfold State.endAssemblyBroken
  rw [h, lineTest_testing k]
  dsimp only
  split
  · rfl
  · rw [← k]
    rfl

/-! ## Blanking (R15) -/

theorem exec_blankingEnd {s : State} (h : s.held = false) (level : Bool) :
    exec (.blankingEnd level) s = .next (s.blankingEnd level).choose := live_next h _

theorem blankingEnd_inPlace {s : State} (h : s.receiver.blanked = true) (k : s.burst = none) (level : Bool) :
    s.blankingEnd level = { s with receiver := Receiver.unblank level } := by
  unfold State.blankingEnd
  rw [h, k]
  rfl

theorem blankingEnd_outOfPlace {s : State} (h : s.receiver.blanked = false ∨ s.burst.isSome = true) (level : Bool) :
    s.blankingEnd level = s := by
  refine if_neg ?_
  rcases h with h | h
  · simp [h]
  · simp [Option.isSome_iff_ne_none.1 h]

theorem firstTick_notDue {s : State} (h : s.blankingDue = false) : s.firstTick = s := by
  unfold State.firstTick
  rw [h]
  rfl

/-- Outside a line test a blanking that is due begins, and closes an open assembly. -/
theorem firstTick_due {s : State} (h : s.blankingDue = true) (k : s.lineTest = none) :
    s.firstTick = { State.endAssemblyBroken { s with blankingDue := false } .truncated with
      receiver := { (State.endAssemblyBroken { s with blankingDue := false } .truncated).receiver with
        blanked := true } } := by
  unfold State.firstTick State.beginBlanking
  rw [if_pos h, inLoopTest_outside (s := { s with blankingDue := false }) k]
  rfl

theorem pass_zero (s : State) : s.pass 0 = s.advance 0 := rfl

theorem pass_succ (s : State) (n : Nat) : s.pass (n + 1) = s.firstTick.advance (n + 1) := by
  unfold State.pass
  rw [if_neg (Nat.succ_ne_zero n)]

theorem pass_notDue {s : State} (h : s.blankingDue = false) (n : Nat) : s.pass n = s.advance n := by
  cases n with
  | zero => rfl
  | succ n => rw [pass_succ, firstTick_notDue h]

/-- Settles O36: the rules of a blanking that ends and of one that is due. -/
theorem blankingEndLeavesTheReceiverHunting : Obligations.BlankingEndLeavesTheReceiverHunting := by
  unfold Obligations.BlankingEndLeavesTheReceiverHunting
  refine ⟨fun level s h => ⟨fun b k => ?_, fun k => ?_⟩, fun s => ⟨fun h => ⟨firstTick_notDue h, pass_notDue h⟩,
    fun h => ⟨pass_zero s, pass_succ s, fun k => ⟨fun e => ?_, fun a e => ?_⟩⟩⟩⟩
  · rw [exec_blankingEnd h, blankingEnd_inPlace b k]
    rfl
  · rw [exec_blankingEnd h, blankingEnd_outOfPlace k]
  · rw [firstTick_due h (lineTest_none_iff.2 k), endAssemblyBroken_none (s := { s with blankingDue := false }) e]
  · rw [firstTick_due h (lineTest_none_iff.2 k),
      endAssemblyBroken_outside (s := { s with blankingDue := false }) e (lineTest_none_iff.2 k)]
    rfl

/-! ## Line elements and the cut request (R3, R4, R7) -/

theorem exec_lineElementEnd {s : State} (h : s.held = false) :
    exec .lineElementEnd s = .next s.elementEnd.choose := live_next h _

theorem elementEnd_inElement {s : State} {b : Burst} (h : s.burst = some b) (k : b.inElement = true) :
    s.elementEnd = { s.firstTick with burst := some (if b.abortPending then b.toAbortMark else b.nextElement) } := by
  unfold State.elementEnd
  rw [h]
  exact if_pos k

theorem elementEnd_between {s : State} {b : Burst} (h : s.burst = some b) (k : b.inElement = false) :
    s.elementEnd = s := by
  unfold State.elementEnd
  rw [h]
  exact if_neg (by rw [k]; simp)

/-- The mark of a bit or of the sync is followed by its space. -/
theorem nextElement_mark {b : Burst} (h : b.inElement = true) (k : b.inSpace = false) :
    b.nextElement = { b with inSpace := true } := by
  unfold Burst.inElement at h
  unfold Burst.nextElement
  rw [k]
  cases p : b.part <;> simp [p] at h ⊢

/-- The last bit of a data byte is followed by the next byte, by the CRC, or in a test burst by the end mark. -/
theorem byteDone_eq {b : Burst} (p : b.part = .data) : b.byteDone = { b with
    sent := b.sent + 1, bits := 0, inSpace := false, current := none
    part := if b.sent + 1 < b.count then .data else if b.source = .hubControl then .endMark else .crc } := by
  unfold Burst.byteDone Burst.hasCrc
  by_cases more : b.sent + 1 < b.count
  · simp [more, p]
  · by_cases test : b.source = .hubControl <;> simp [more, test]

theorem cutRequest_none {s : State} (h : s.burst = none) : s.cutRequest = s := by
  unfold State.cutRequest
  rw [h]

theorem cutRequest_burst {s : State} {b : Burst} (h : s.burst = some b) :
    s.cutRequest = { s with burst := some b.abort } := by
  unfold State.cutRequest
  rw [h]

/-- While an element is on the line the abort waits for its end. -/
theorem abort_inElement {b : Burst} (h : b.inElement = true) : b.abort = { b with abortPending := true } := by
  unfold Burst.inElement at h
  unfold Burst.abort
  cases p : b.part <;> rw [p] at h
  case data => exact if_pos h
  case endMark => cases h
  case abortMark => cases h

/-- Settles O31: the element after each part's, and what a cut request does in each part. -/
theorem lineElementsFollowInOrder : Obligations.LineElementsFollowInOrder := by
  unfold Obligations.LineElementsFollowInOrder
  refine ⟨fun s b h e => ⟨fun i a => ?_, fun i a => ?_, fun i => ?_⟩, fun s => ⟨cutRequest_none,
    fun b e => ⟨fun p => ?_, fun p c => ?_, fun p => ?_⟩⟩⟩
  · rw [exec_lineElementEnd h, elementEnd_inElement e i, if_pos a]
    rfl
  · rw [exec_lineElementEnd h, elementEnd_inElement e i, if_neg (by simp [a])]
    by_cases k : b.inSpace = false
    · rw [nextElement_mark i k, if_pos k]
    · rw [if_neg k]
      unfold Burst.nextElement
      cases p : b.part
      case data => simp only [k, if_true, byteDone_eq p]
      all_goals simp only [k, if_true]
  · rw [exec_lineElementEnd h, elementEnd_between e i]
  · rw [cutRequest_burst e, abort_inElement]
    unfold Burst.inElement
    rcases p with p | p | p | ⟨p, c⟩ <;> simp [*]
  · rw [cutRequest_burst e]
    simp [Burst.abort, Burst.toAbortMark, p, c]
  · rw [cutRequest_burst e]
    rcases p with p | p
    · simp [Burst.abort, p, ← e]
    · simp [Burst.abort, p, ← e]

/-! ## Byte requests (R6, R16) -/

theorem exec_byteRequest {s : State} {b : Burst} (h : s.held = false) (e : s.burst = some b) (p : b.part = .data)
    (c : b.current = none) (upset : Bool) :
    exec (.byteRequest upset) s = s.takeSourceAnswer b (s.sourceAnswer b upset) := by
  have awaits : b.awaitsByte = true := by simp [Burst.awaitsByte, p, c]
  show execByteRequest upset s = _
  unfold execByteRequest
  rw [h, e]
  exact if_pos awaits

theorem takeSourceAnswer_byte {s : State} (h : s.held = false) (b : Burst) (x : Byte) :
    s.takeSourceAnswer b (.byte x)
      = .next (State.sourceMoved { s with burst := some (b.takeByte x) } b).choose := live_next h _

/-- A test burst that has been given a byte has moved the generator past its 8 bits. -/
theorem sourceMoved_test {s : State} {b : Burst} {t : LineTest} (k : b.source = .hubControl) (h : s.hub = .testing t) :
    s.sourceMoved b = { s with hub := .testing { t with generator := (prbsBits 8 t.generator).2 } } := by
  unfold State.sourceMoved State.drawTestByte
  rw [k, lineTest_testing h]
  rfl

theorem sourceAnswer_test {s : State} {b : Burst} {t : LineTest} {x : Byte} (k : b.source = .hubControl)
    (h : s.hub = .testing t) (hx : ∀ i, i < 8 → x.getLsbD i = (prbsBits 8 t.generator).1.getD i false) (upset : Bool) :
    s.sourceAnswer b upset = .byte x := by
  unfold State.sourceAnswer
  rw [k, lineTest_testing h]
  exact congrArg SourceAnswer.byte (byteOfBits_eq hx)

/-- Settles O32: the two kinds of source that give a byte without a read of the page store. -/
theorem byteRequestTakesTheNextByte : Obligations.ByteRequestTakesTheNextByte := by
  unfold Obligations.ByteRequestTakesTheNextByte
  refine ⟨fun upset s b bytes h e p c k => ?_, fun upset s b t x h e p c k m hx => ?_, fun r n => ⟨rfl, ?_⟩⟩
  · have answer : s.sourceAnswer b upset = .byte (bytes.getD b.sent 0) := by
      unfold State.sourceAnswer
      rcases k with k | k <;> rw [k] <;> rfl
    have still : ∀ u : State, u.sourceMoved b = u := by
      intro u
      unfold State.sourceMoved
      rcases k with k | k <;> rw [k]
    rw [exec_byteRequest h e p c, answer, takeSourceAnswer_byte h, still]
    rfl
  · rw [exec_byteRequest h e p c, sourceAnswer_test k m hx, takeSourceAnswer_byte h,
      sourceMoved_test (s := { s with burst := some (b.takeByte x) }) k m]
    rfl
  · rintro bit rfl
    rfl

/-! ## The end of a burst (R8) -/

theorem exec_burstEnd {s : State} (h : s.held = false) : exec .burstEnd s = .next s.burstEnd.choose := live_next h _

theorem burstEnd_ended {s : State} {b : Burst} {o : BurstOutcome} (e : s.burst = some b) (k : b.outcome = some o) :
    s.burstEnd = State.reportBurstEnd { s with burst := none } b o := by
  unfold State.burstEnd
  rw [e]
  dsimp only
  rw [k]

theorem burstEnd_goesOn {s : State} {b : Burst} (e : s.burst = some b) (k : b.part ≠ .endMark)
    (l : b.part ≠ .abortMark) :
    s.burstEnd = s := by
  have o : b.outcome = none := by
    unfold Burst.outcome
    cases p : b.part <;> simp_all
  unfold State.burstEnd
  rw [e]
  dsimp only
  rw [o]

theorem reportBurstEnd_unowned {b : Burst} {bytes : List Byte}
    (k : b.source = .directory bytes ∨ b.source = .planner bytes) (s : State) (o : BurstOutcome) :
    s.reportBurstEnd b o = s := by
  unfold State.reportBurstEnd
  rcases k with k | k <;> rw [k]

theorem reportBurstEnd_test {s : State} {b : Burst} {t : LineTest} (k : b.source = .hubControl) (h : s.hub = .testing t)
    (o : BurstOutcome) : s.reportBurstEnd b o =
      if o = .complete then { s with hub := .testing { t with burstEnded := true } } else s := by
  unfold State.reportBurstEnd State.testBurstEnd
  rw [k, lineTest_testing h]

/-- Settles O34: by the mark that ends and by the source of the burst. -/
theorem burstEndFreesTheTransmitter : Obligations.BurstEndFreesTheTransmitter := by
  unfold Obligations.BurstEndFreesTheTransmitter
  refine fun s b h e => ⟨fun p ⟨bytes, k⟩ => ?_, fun k t m => ⟨fun p => ?_, fun p => ?_⟩, fun p q => ?_⟩
  · obtain ⟨o, ho⟩ : ∃ o, b.outcome = some o := by
      unfold Burst.outcome
      rcases p with p | p <;> rw [p] <;> exact ⟨_, rfl⟩
    rw [exec_burstEnd h, burstEnd_ended e ho, reportBurstEnd_unowned k]
  · rw [exec_burstEnd h, burstEnd_ended (o := .complete) e (by simp [Burst.outcome, p]),
      reportBurstEnd_test (s := { s with burst := none }) k m]
    rfl
  · rw [exec_burstEnd h, burstEnd_ended (o := .aborted) e (by simp [Burst.outcome, p]),
      reportBurstEnd_test (s := { s with burst := none }) k m]
    rfl
  · rw [exec_burstEnd h, burstEnd_goesOn e p q]

end Sys2Proof.Machine

/-! PROOFS. A whole burst on the air (R3, R4): the elements the transmitter sends, one after another, and their time. -/

namespace Sys2Proof.Machine

/-! ## The element on the line (R3, R4) -/

theorem awaitsByte_iff {b : Burst} : b.awaitsByte = true ↔ b.part = .data ∧ b.current = none := by
  unfold Burst.awaitsByte
  rw [Bool.and_eq_true, beq_iff_eq, Option.isNone_iff_eq_none]

theorem element_awaited {b : Burst} (p : b.part = .data) (c : b.current = none) : b.element = none :=
  if_pos (awaitsByte_iff.2 ⟨p, c⟩)

/-- The element of a part in which no byte is awaited. -/
def Burst.partElement (b : Burst) : Bool × Nat :=
  match b.part with
  | .lead => (!b.inSpace, 1)
  | .sync => if b.inSpace then (false, 1) else (true, 4)
  | .data => if b.inSpace then (false, spaceUnits b.bitValue) else (true, 1)
  | .crc => if b.inSpace then (false, spaceUnits b.bitValue) else (true, 1)
  | .endMark => (true, 2)
  | .abortMark => (true, 8)

theorem element_part {b : Burst} (h : b.part = .data → b.current ≠ none) : b.element = some b.partElement := by
  unfold Burst.element
  rw [if_neg (fun k => h (awaitsByte_iff.1 k).1 (awaitsByte_iff.1 k).2)]
  unfold Burst.partElement
  cases b.part <;> rfl

theorem element_lead {b : Burst} (p : b.part = .lead) :
    b.element = some (if b.inSpace then (false, 1) else (true, 1)) := by
  rw [element_part (by simp [p]), Burst.partElement, p]
  cases b.inSpace <;> rfl

theorem element_sync {b : Burst} (p : b.part = .sync) :
    b.element = some (if b.inSpace then (false, 1) else (true, 4)) := by
  rw [element_part (by simp [p]), Burst.partElement, p]

theorem element_data {b : Burst} {x : Byte} (p : b.part = .data) (c : b.current = some x) :
    b.element = some (if b.inSpace then (false, if x.getLsbD b.bits then 2 else 1) else (true, 1)) := by
  rw [element_part (by simp [c]), Burst.partElement, p]
  simp only [Burst.bitValue, p, c, Option.getD_some, spaceUnits]

theorem element_crc {b : Burst} (p : b.part = .crc) :
    b.element = some (if b.inSpace then (false, if b.crc.getLsbD b.bits then 2 else 1) else (true, 1)) := by
  rw [element_part (by simp [p]), Burst.partElement, p]
  simp only [Burst.bitValue, p, spaceUnits]

theorem element_endMark {b : Burst} (p : b.part = .endMark) : b.element = some (true, 2) := by
  rw [element_part (by simp [p]), Burst.partElement, p]

theorem element_abortMark {b : Burst} (p : b.part = .abortMark) : b.element = some (true, 8) := by
  rw [element_part (by simp [p]), Burst.partElement, p]

/-! ## The elements of a burst, one after another -/

/-- In `k` of its moves the transmitter sends `es` and comes from the burst `b` to the burst `c`. -/
def Sends (bytes : List Byte) (k : Nat) (b : Burst) (es : List (Bool × Nat)) (c : Burst) : Prop :=
  ∀ n, lineElements (k + n) bytes b = es ++ lineElements n bytes c

theorem Sends.trans {bytes : List Byte} {k l : Nat} {b c d : Burst} {es fs : List (Bool × Nat)}
    (h : Sends bytes k b es c) (m : Sends bytes l c fs d) : Sends bytes (k + l) b (es ++ fs) d := fun n => by
  rw [Nat.add_assoc, h, m, List.append_assoc]

theorem sends_element {b : Burst} {e : Bool × Nat} (bytes : List Byte) (h : b.element = some e)
    (k : b.inElement = true) : Sends bytes 1 b [e] b.nextElement := fun n => by
  have goesOn : ¬ (b.part = .endMark ∨ b.part = .abortMark) := by
    unfold Burst.inElement at k
    cases p : b.part <;> simp [p] at k ⊢
  rw [Nat.add_comm, lineElements, h]
  exact if_neg goesOn

theorem sends_request {b : Burst} (bytes : List Byte) (p : b.part = .data) (c : b.current = none) :
    Sends bytes 1 b [] (b.takeByte (bytes.getD b.sent 0)) := fun n => by
  rw [Nat.add_comm, lineElements, element_awaited p c]
  rfl

/-- A bit goes out as a mark of one unit and the space of its value. -/
theorem sends_bit {b : Burst} (bytes : List Byte) (h : b.inElement = true) (p : b.part ≠ .sync)
    (k : b.inSpace = false) :
    Sends bytes 2 b (bitElements b.bitValue) { b with inSpace := true }.nextElement := by
  have byte : b.part = .data → b.current ≠ none := fun d c => by
    unfold Burst.inElement at h
    rw [d, c] at h
    cases h
  have mark : b.element = some (true, 1) := by
    rw [element_part byte, Burst.partElement, k]
    unfold Burst.inElement at h
    cases q : b.part <;> simp [q] at h p ⊢
  have space : { b with inSpace := true }.element = some (false, spaceUnits b.bitValue) := by
    rw [element_part (b := { b with inSpace := true }) byte, Burst.partElement]
    unfold Burst.inElement at h
    cases q : b.part <;> simp [q, Burst.bitValue] at h p ⊢
    rfl
  have first := sends_element bytes mark h
  rw [nextElement_mark h k] at first
  exact first.trans (sends_element bytes space h)

/-- The bits of a part, counted from `i` on: `B i` is the burst at the mark of bit `i`, and `c` the burst after the
last. -/
theorem sends_bits {bytes : List Byte} {limit : Nat} {B : Nat → Burst} {c : Burst} {f : Nat → Bool}
    (next : ∀ i, i + 1 < limit → Sends bytes 2 (B i) (bitElements (f i)) (B (i + 1)))
    (last : ∀ i, i + 1 = limit → Sends bytes 2 (B i) (bitElements (f i)) c) (j i : Nat) (h : i + (j + 1) = limit) :
    Sends bytes (2 * (j + 1)) (B i) (((List.range' i (j + 1)).map f).flatMap bitElements) c := by
  induction j generalizing i with
  | zero => simpa using last i h
  | succ j ih =>
    have rest := (next i (by omega)).trans (ih (i + 1) (by omega))
    rw [show 2 + 2 * (j + 1) = 2 * (j + 1 + 1) by omega] at rest
    exact rest

theorem sends_allBits {bytes : List Byte} {limit : Nat} {B : Nat → Burst} {c : Burst} {f : Nat → Bool} (h : 1 ≤ limit)
    (next : ∀ i, i + 1 < limit → Sends bytes 2 (B i) (bitElements (f i)) (B (i + 1)))
    (last : ∀ i, i + 1 = limit → Sends bytes 2 (B i) (bitElements (f i)) c) :
    Sends bytes (2 * limit) (B 0) (((List.range limit).map f).flatMap bitElements) c := by
  obtain ⟨j, rfl⟩ : ∃ j, limit = j + 1 := ⟨limit - 1, by omega⟩
  rw [List.range_eq_range']
  exact sends_bits next last j 0 (by omega)

/-- A burst at the mark of bit `i` of a part. -/
def Burst.atBit (b : Burst) (p : BurstPart) (i : Nat) : Burst := { b with part := p, bits := i, inSpace := false }

/-- A burst that awaits byte `n`, with the CRC of those before it. -/
def Burst.atByte (b : Burst) (n : Nat) (c : Word16) : Burst :=
  { b with part := .data, bits := 0, inSpace := false, current := none, sent := n, crc := c }

/-- The part after the last data byte: a test burst carries no CRC (R16). -/
def Burst.afterBytes (b : Burst) : BurstPart := if b.source = .hubControl then .endMark else .crc

theorem sends_lead (b : Burst) (bytes : List Byte) (h : 1 ≤ b.lead) :
    Sends bytes (2 * b.lead) (b.atBit .lead 0) ((List.replicate b.lead false).flatMap bitElements)
      (b.atBit .sync 0) := by
  have all := sends_allBits (bytes := bytes) (B := b.atBit .lead) (c := b.atBit .sync 0) (f := fun _ => false) h
    (fun i k => ?next) (fun i k => ?last)
  case next =>
    have bit := sends_bit (b := b.atBit .lead i) bytes rfl (by simp [Burst.atBit]) rfl
    simpa [Burst.nextElement, Burst.atBit, Burst.bitValue, k] using bit
  case last =>
    have bit := sends_bit (b := b.atBit .lead i) bytes rfl (by simp [Burst.atBit]) rfl
    simpa [Burst.nextElement, Burst.atBit, Burst.bitValue, k] using bit
  rwa [List.map_const', List.length_range] at all

theorem sends_sync (b : Burst) (bytes : List Byte) :
    Sends bytes 2 (b.atBit .sync 0) [(true, 4), (false, 1)] (b.atByte b.sent b.crc) :=
  (sends_element (b := b.atBit .sync 0) bytes rfl rfl).trans
    (sends_element (b := { b.atBit .sync 0 with inSpace := true }) bytes rfl rfl)

/-- The transmitter asks for a byte, sends its 8 bits and has then sent one byte more. -/
theorem sends_byte (b : Burst) (bytes : List Byte) (n : Nat) (c : Word16) {x : Byte} (hx : bytes.getD n 0 = x) :
    Sends bytes 17 (b.atByte n c) (byteElements x) { b.atByte (n + 1) (crcByte c x) with
      part := if n + 1 < b.count then .data else b.afterBytes } := by
  have request := sends_request (b := b.atByte n c) bytes rfl rfl
  rw [show (b.atByte n c).sent = n from rfl, hx] at request
  refine request.trans (sends_allBits (B := fun i => { b.atByte n (crcByte c x) with current := some x, bits := i })
    (f := x.getLsbD) (limit := 8) (by decide) (fun i k => ?_) (fun i k => ?_))
  · have bit := sends_bit (b := { b.atByte n (crcByte c x) with current := some x, bits := i }) bytes rfl
      (by simp [Burst.atByte]) rfl
    simpa [Burst.nextElement, Burst.atByte, Burst.bitValue, k] using bit
  · have bit := sends_bit (b := { b.atByte n (crcByte c x) with current := some x, bits := i }) bytes rfl
      (by simp [Burst.atByte]) rfl
    have done : ({ b.atByte n (crcByte c x) with current := some x, bits := i, inSpace := true } : Burst).nextElement
        = Burst.byteDone { b.atByte n (crcByte c x) with current := some x, bits := i, inSpace := true } := by
      simp [Burst.nextElement, Burst.atByte, k]
    rw [done, byteDone_eq rfl] at bit
    exact bit

theorem sends_byteAfter (b : Burst) {bytes done rest : List Byte} {x : Byte} (k : bytes = done ++ x :: rest) :
    Sends bytes 17 (b.atByte done.length (crcOf done)) (byteElements x)
      { b.atByte (done ++ [x]).length (crcOf (done ++ [x])) with
        part := if (done ++ [x]).length < b.count then .data else b.afterBytes } := by
  have byte := sends_byte b bytes done.length (crcOf done) (x := x) (by simp [k])
  rwa [show crcByte (crcOf done) x = crcOf (done ++ [x]) from (crcOf_append done [x]).symm,
    show done.length + 1 = (done ++ [x]).length by simp] at byte

/-- From the byte after `done` on, all the data bytes that are left. -/
theorem sends_bytes (b : Burst) {bytes : List Byte} (h : b.count = bytes.length) (rest done : List Byte) (x : Byte)
    (k : bytes = done ++ x :: rest) : Sends bytes (17 * (rest.length + 1)) (b.atByte done.length (crcOf done))
      ((x :: rest).flatMap byteElements) { b.atByte bytes.length (crcOf bytes) with part := b.afterBytes } := by
  induction rest generalizing done x with
  | nil =>
    have whole : bytes = done ++ [x] := k
    have first := sends_byteAfter b k
    rw [h, if_neg (by rw [whole]; exact Nat.lt_irrefl _), ← whole] at first
    simpa using first
  | cons y rest ih =>
    have more : (done ++ [x]).length < bytes.length := by simp [k]
    have next : bytes = (done ++ [x]) ++ y :: rest := by simp [k]
    have first := sends_byteAfter b k
    rw [h, if_pos more] at first
    have go := first.trans (ih (done ++ [x]) y next)
    rwa [show 17 + 17 * (rest.length + 1) = 17 * (rest.length + 1 + 1) by omega] at go

theorem sends_crc (b : Burst) (bytes : List Byte) (n : Nat) (c : Word16) :
    Sends bytes 32 { b.atByte n c with part := .crc } ((crcBytes c).flatMap byteElements)
      { b.atByte n c with part := .endMark } := by
  have bits : (crcBytes c).flatMap byteElements = ((List.range 16).map c.getLsbD).flatMap bitElements := by
    rw [← bitsOfByte_crcBytes, List.flatMap_assoc]
    rfl
  rw [bits]
  refine sends_allBits (B := fun i => { b.atByte n c with part := .crc, bits := i }) (limit := 16) (by decide)
    (fun i k => ?_) (fun i k => ?_)
  · have bit := sends_bit (b := { b.atByte n c with part := .crc, bits := i }) bytes rfl (by simp) rfl
    simpa [Burst.nextElement, Burst.atByte, Burst.bitValue, k] using bit
  · have bit := sends_bit (b := { b.atByte n c with part := .crc, bits := i }) bytes rfl (by simp) rfl
    simpa [Burst.nextElement, Burst.atByte, Burst.bitValue, k] using bit

theorem lineElements_endMark {b : Burst} (p : b.part = .endMark) (bytes : List Byte) (n : Nat) :
    lineElements (n + 1) bytes b = [(true, 2)] := by
  rw [lineElements, element_endMark p]
  exact if_pos (.inl p)

/-- The data bytes, and but for a test burst the CRC, up to the end mark. -/
theorem sends_toEnd (b : Burst) {bytes : List Byte} (h : b.count = bytes.length) (k : bytes ≠ []) :
    ∃ m c, m ≤ 17 * (if b.source = .hubControl then bytes else bytes ++ crcBytes (crcOf bytes)).length
      ∧ c.part = .endMark ∧ Sends bytes m (b.atByte 0 crcStart)
        ((if b.source = .hubControl then bytes else bytes ++ crcBytes (crcOf bytes)).flatMap byteElements) c := by
  obtain ⟨x, rest, e⟩ := List.exists_cons_of_ne_nil k
  have data := sends_bytes b h rest [] x e
  rw [← e] at data
  have count : rest.length + 1 = bytes.length := by rw [e]; rfl
  by_cases test : b.source = .hubControl
  · rw [Burst.afterBytes, if_pos test] at data
    exact ⟨_, _, by rw [if_pos test, ← count], rfl, by rw [if_pos test]; exact data⟩
  · rw [Burst.afterBytes, if_neg test] at data
    refine ⟨_, _, ?_, rfl, by rw [if_neg test, List.flatMap_append]; exact data.trans (sends_crc b bytes _ _)⟩
    rw [if_neg test, List.length_append, crcBytes_eq, count]
    simp
    omega

/-- The transmitter's elements of a whole burst are R4's, in its order. -/
theorem lineElements_newBurst {c : Configuration} {lead n : Nat} {bytes sent : List Byte} {source : BurstSource}
    (h : 1 ≤ lead) (k : bytes ≠ [])
    (e : sent = if source = .hubControl then bytes else bytes ++ crcBytes (crcOf bytes))
    (fuel : 2 * lead + 3 + 17 * sent.length ≤ n) :
    lineElements n bytes (newBurst c lead bytes.length source) = burstElements lead sent := by
  obtain ⟨m, d, hm, p, toEnd⟩ := sends_toEnd (newBurst c lead bytes.length source) rfl k
  have whole := ((sends_lead (newBurst c lead bytes.length source) bytes h).trans (sends_sync _ bytes)).trans toEnd
  have bound : m ≤ 17 * sent.length := by rw [e]; exact hm
  obtain ⟨l, rfl⟩ : ∃ l, n = 2 * lead + 2 + m + (l + 1) := ⟨n - (2 * lead + 2 + m + 1), by omega⟩
  have go := whole (l + 1)
  rw [lineElements_endMark p] at go
  subst e
  exact go

/-! ## The time on the air (R4) -/

theorem elementMicros_append (x y : List (Bool × Nat)) :
    elementMicros (x ++ y) = elementMicros x + elementMicros y := by
  simp [elementMicros, Nat.mul_add]

theorem elementMicros_bits (l : List Bool) :
    elementMicros (l.flatMap bitElements) = 16 * l.length + 8 * (l.filter id).length := by
  induction l with
  | nil => rfl
  | cons x l ih =>
    rw [List.flatMap_cons, elementMicros_append, ih]
    cases x <;> simp [bitElements, spaceUnits, elementMicros] <;> omega

theorem elementMicros_bytes (l : List Byte) :
    elementMicros (l.flatMap byteElements) = 128 * l.length + 8 * (l.map oneBits).sum := by
  induction l with
  | nil => rfl
  | cons x l ih =>
    rw [List.flatMap_cons, elementMicros_append, ih, byteElements, elementMicros_bits, length_bitsOfByte]
    simp only [List.length_cons, List.map_cons, List.sum_cons, oneBits]
    omega

theorem elementMicros_burst (lead : Nat) (bytes : List Byte) : elementMicros (burstElements lead bytes)
    = 16 * lead + 40 + 128 * bytes.length + 8 * (bytes.map oneBits).sum + 16 := by
  have none : ((List.replicate lead false).filter id).length = 0 := by simp
  rw [burstElements, elementMicros_append, elementMicros_append, elementMicros_append, elementMicros_bits,
    elementMicros_bytes, none, List.length_replicate]
  simp only [elementMicros, List.map_cons, List.map_nil, List.sum_cons, List.sum_nil]
  omega

/-! ## The level of IRDRV (R1, R2) -/

theorem irdrv_idle {s : State} (h : s.burst = none) (n : Nat) : s.irdrv n = false := by
  unfold State.irdrv
  rw [h]

theorem irdrv_between {s : State} {b : Burst} (h : s.burst = some b) (k : b.element = none) (n : Nat) :
    s.irdrv n = false := by
  unfold State.irdrv
  rw [h]
  dsimp only
  rw [k]

theorem irdrv_space {s : State} {b : Burst} {units : Nat} (h : s.burst = some b) (k : b.element = some (false, units))
    (n : Nat) : s.irdrv n = false := by
  unfold State.irdrv
  rw [h]
  dsimp only
  rw [k]

theorem irdrv_mark {s : State} {b : Burst} {units : Nat} (h : s.burst = some b) (k : b.element = some (true, units))
    (n : Nat) : s.irdrv n = true ↔ n < 192 * units ∧ n % (b.carrierMark + b.carrierSpace) < b.carrierMark := by
  unfold State.irdrv
  rw [h]
  dsimp only
  rw [k]
  rw [Bool.and_eq_true, decide_eq_true_iff, decide_eq_true_iff, unitTicks, Nat.mul_comm]

/-- Settles O30: the elements part by part, then those of a whole burst followed move by move. -/
theorem burstTakesItsAirtime : Obligations.BurstTakesItsAirtime := by
  unfold Obligations.BurstTakesItsAirtime
  refine ⟨fun b x => ⟨element_lead, element_sync, element_awaited, element_data, element_crc, element_endMark,
    element_abortMark⟩, fun c lead n bytes sent source => lineElements_newBurst,
    fun lead bytes => ⟨?_, elementMicros_burst lead bytes⟩, fun s => ⟨irdrv_idle, fun b h => ⟨irdrv_between h,
    fun k => irdrv_space h, fun k => irdrv_mark h⟩⟩, fun c lead n source => ⟨rfl, rfl⟩⟩
  have lead : (List.replicate lead false).flatMap bitElements =
      (List.replicate lead [(true, 1), (false, 1)]).flatten := by
    rw [List.flatMap_def, List.map_replicate]
    rfl
  rw [burstElements, lead, List.flatMap_assoc]
  rfl

end Sys2Proof.Machine

/-! PROOFS. The line test (R16 to R18): its periods, how each begins and how it is judged. -/

namespace Sys2Proof.Machine

/-! ## Bits that differ (R17) -/

/-- Bit `k % 8` of byte `k / 8` differs between two strings of bytes. -/
def bitDiffers (x y : List Byte) (k : Nat) : Bool :=
  (byteAt x (k / 8)).getLsbD (k % 8) != (byteAt y (k / 8)).getLsbD (k % 8)

theorem bitDiffers_head (a b : Byte) (x y : List Byte) {k : Nat} (h : k < 8) :
    bitDiffers (a :: x) (b :: y) k = (a ^^^ b).getLsbD k := by
  rw [BitVec.getLsbD_xor, bitDiffers, Nat.div_eq_of_lt h, Nat.mod_eq_of_lt h]
  rfl

theorem bitDiffers_tail (a b : Byte) (x y : List Byte) (k : Nat) :
    bitDiffers (a :: x) (b :: y) (8 + k) = bitDiffers x y k := by
  rw [bitDiffers, Nat.add_mod_left, Nat.add_div_left k (by decide)]
  rfl

theorem bitErrors_eq_count (x y : List Byte) (h : x.length = y.length) :
    bitErrors x y = ((List.range (8 * x.length)).filter (bitDiffers x y)).length := by
  induction x generalizing y with
  | nil => rfl
  | cons a x ih =>
    obtain ⟨b, y, rfl⟩ := List.exists_cons_of_length_eq_add_one (h.symm.trans (List.length_cons ..))
    have head : (List.range 8).filter (bitDiffers (a :: x) (b :: y)) = (List.range 8).filter (a ^^^ b).getLsbD :=
      List.filter_congr fun k hk => bitDiffers_head a b x y (List.mem_range.1 hk)
    have ones : oneBits (a ^^^ b) = ((List.range 8).filter (a ^^^ b).getLsbD).length := by
      rw [oneBits, bitsOfByte, List.filter_map, List.length_map]
      rfl
    have tail : bitDiffers (a :: x) (b :: y) ∘ (8 + ·) = bitDiffers x y := funext fun k => bitDiffers_tail a b x y k
    rw [List.length_cons, Nat.mul_succ, Nat.add_comm (8 * x.length), List.range_add, List.filter_append,
      List.length_append, head, ← ones, List.filter_map, List.length_map, tail, ← ih y (by simpa using h)]
    rfl

/-! ## A test period begins (R16, R17) -/

/-- In a LOOP line test a send request blanks nothing. -/
theorem sendRequest_loop {s : State} {t : LineTest} (h : s.hub = .testing t) (m : t.mode = .loop) (lead count : Nat)
    (source : BurstSource) : s.sendRequest lead count source =
      if s.burst = none then some { s with burst := some (newBurst s.config lead count source) } else none := by
  have test : s.inLoopTest = true := by
    unfold State.inLoopTest
    rw [lineTest_testing h]
    exact beq_iff_eq.2 m
  have blank : s.beginBlanking = s := if_pos test
  have may : s.mayTransmit = true := by
    unfold State.mayTransmit
    rw [lineTest_testing h]
    simp
  unfold State.sendRequest
  rw [blank, may]
  cases s.burst <;> rfl

theorem beginPeriod_quiet {t : LineTest} (m : t.mode = .quiet) (s : State) : s.beginPeriod t = { s with
    hub := .testing { t with burstEnded := false, heard := .unheard }
    receiver := s.receiver.intoPeriod } := by
  unfold State.beginPeriod
  rw [m]

/-- A LOOP period begins with a test burst, unless one is still on the air. -/
theorem beginPeriod_loop {t : LineTest} (m : t.mode = .loop) (s : State) : s.beginPeriod t = { s with
    hub := .testing { t with burstEnded := false, heard := .unheard }
    receiver := s.receiver.intoPeriod
    burst := if s.burst = none then some (newBurst s.config 8 48 .hubControl) else s.burst } := by
  unfold State.beginPeriod
  rw [m]
  dsimp only
  rw [sendRequest_loop (t := { t with burstEnded := false, heard := .unheard }) (by rw [← m]) m]
  by_cases b : s.burst = none
  · rw [if_pos b, if_pos b]
    rfl
  · rw [if_neg b, if_neg b]

/-! ## LINE_TEST (R16) -/

theorem exec_lineTest {s : State} (h : Ready s) (tag m n : Byte) : exec (.lineTest tag [m, n]) s =
    .next (((s.inHand ⟨0x06, tag, [m, n]⟩).doLineTest [m, n]).state.reply 0x06 tag
      ((s.inHand ⟨0x06, tag, [m, n]⟩).doLineTest [m, n]).status
      ((s.inHand ⟨0x06, tag, [m, n]⟩).doLineTest [m, n]).result) :=
  taken h (f := ⟨0x06, tag, [m, n]⟩) (k := .lineTest) (by rfl) (by rfl) (by simp [Config.maxPayload])

theorem doLineTest_wrongState {s : State} (h : s.hub ≠ .offline) (p : List Byte) :
    s.doLineTest p = s.refuse .wrongState := if_neg h

theorem testModeOf_none {n : Nat} (h : 1 < n) : testModeOf n = none := by
  unfold testModeOf
  split <;> first | omega | rfl

theorem doLineTest_badField {s : State} {m n : Byte} (h : s.hub = .offline) (k : 1 < m.toNat ∨ n = 0) :
    s.doLineTest [m, n] = s.refuse .badField := by
  unfold State.doLineTest
  rw [if_pos h]
  show (match testModeOf m.toNat with
    | none => _
    | some mode => if n.toNat = 0 then _ else _) = _
  rcases k with k | rfl
  · rw [testModeOf_none k]
  · cases testModeOf m.toNat <;> rfl

theorem doLineTest_taken {s : State} {m n : Byte} {mode : TestMode} (h : s.hub = .offline)
    (k : testModeOf m.toNat = some mode) (l : n ≠ 0) :
    s.doLineTest [m, n] = (s.startTest mode n.toNat).accept [] := by
  have count : ¬ n.toNat = 0 := fun e => l (BitVec.eq_of_toNat_eq e)
  unfold State.doLineTest
  rw [if_pos h]
  show (match testModeOf m.toNat with
    | none => _
    | some mode => if n.toNat = 0 then _ else _) = _
  rw [k]
  exact if_neg count

/-- Settles O23: the two refusals, and the first period in each mode. -/
theorem lineTestBeginsItsFirstPeriod : Obligations.LineTestBeginsItsFirstPeriod := by
  unfold Obligations.LineTestBeginsItsFirstPeriod
  rintro tag m n s u r h rfl rfl
  rw [exec_lineTest h]
  refine ⟨fun k => ?_, fun k l => ?_, fun k e l => ?_, fun k e l b => ?_⟩
  · rw [doLineTest_wrongState (s := s.inHand _) k]
    rfl
  · rw [doLineTest_badField (s := s.inHand _) k l]
    rfl
  · rw [doLineTest_taken (s := s.inHand _) (mode := .quiet) k (by rw [e]; rfl) l, State.startTest,
      beginPeriod_quiet rfl]
    rfl
  · rw [doLineTest_taken (s := s.inHand _) (mode := .loop) k (by rw [e]; rfl) l, State.startTest, beginPeriod_loop rfl,
      if_pos ?idle]
    · rfl
    case idle => exact b

/-! ## TEST_PERIOD_END (R17, R18) -/

theorem exec_testPeriodEnd {s : State} (h : s.held = false) :
    exec .testPeriodEnd s = .next s.testPeriodEnd.choose := live_next h _

theorem testPeriodEnd_outside {s : State} (h : s.lineTest = none) : s.testPeriodEnd = s := by
  have still : (s.endAssemblyBroken .truncated).lineTest = none := by
    rw [lineTest_none_iff, (endAssemblyBroken_time s .truncated).hub (lineTest_none_iff.1 h)]
    exact lineTest_none_iff.1 h
  unfold State.testPeriodEnd
  dsimp only
  rw [still]

/-- An assembly that is open as the period ends is closed first. -/
theorem testPeriodEnd_open {s : State} {t : LineTest} {a : Assembly} (h : s.hub = .testing t)
    (k : s.receiver.assembly = some a) : s.testPeriodEnd = State.testPeriodEnd { s.setAssembly none with
      hub := .testing { t with heard := if a.ofPeriod then .broken else t.heard } } := by
  unfold State.testPeriodEnd
  rw [endAssemblyBroken_testing k h, endAssemblyBroken_none (s := { s.setAssembly none with
    hub := .testing { t with heard := if a.ofPeriod then .broken else t.heard } }) rfl]
  rfl

theorem testPeriodEnd_closed {s : State} {t : LineTest} (h : s.hub = .testing t) (k : s.receiver.assembly = none) :
    s.testPeriodEnd = if t.judgePeriod.periodsLeft ≤ 1 then s.endTest t.judgePeriod.counts false .testEnd
      else s.beginPeriod { t.judgePeriod with periodsLeft := t.judgePeriod.periodsLeft - 1 } := by
  unfold State.testPeriodEnd
  rw [endAssemblyBroken_none k]
  dsimp only
  rw [lineTest_testing h]

theorem judgePeriod_quiet {t : LineTest} (m : t.mode = .quiet) : t.judgePeriod = t := by
  unfold LineTest.judgePeriod
  rw [m]

theorem judgePeriod_whole {t : LineTest} {bytes : List Byte} (m : t.mode = .loop) (h : t.heard = .whole bytes) :
    t.judgePeriod = { t with
      copy := (prbsBytes 48 t.copy).2
      counts := { t.counts with
        sent := t.sentCount
        whole := t.counts.whole + 1
        bitErrors := t.counts.bitErrors + bitErrors bytes (prbsBytes 48 t.copy).1 } } := by
  unfold LineTest.judgePeriod
  rw [m]
  dsimp only
  rw [h]
  rfl

theorem judgePeriod_lost {t : LineTest} (m : t.mode = .loop) (h : ∀ bytes, t.heard ≠ .whole bytes) :
    t.judgePeriod = { t with
      copy := (prbsBytes 48 t.copy).2
      counts := { t.counts with sent := t.sentCount, lost := t.counts.lost + 1 } } := by
  unfold LineTest.judgePeriod
  rw [m]
  dsimp only
  cases e : t.heard with
  | whole bytes => exact absurd e (h bytes)
  | _ => rfl

theorem sentCount_eq (t : LineTest) : t.sentCount = t.counts.sent + if t.burstEnded then 1 else 0 := by
  unfold LineTest.sentCount
  split <;> rfl

/-- Settles O28: the period's burst is closed, judged and counted, and the PRBS bytes are spelled out bit by bit. -/
theorem testPeriodIsJudged : Obligations.TestPeriodIsJudged := by
  unfold Obligations.TestPeriodIsJudged
  refine ⟨fun s h => ⟨fun n => ?_, fun t a k e => ?_, fun t k e => ⟨fun m c hc => ?_, fun m => ?_⟩⟩, fun n r =>
    ⟨length_prbsBytes n r, prbsBytes_register n r, fun i j => getLsbD_prbsBytes r⟩, fun x y => bitErrors_eq_count x y⟩
  · rw [exec_testPeriodEnd h, testPeriodEnd_outside n]
  · rw [exec_testPeriodEnd h, testPeriodEnd_open k e]
    exact (live_next (s := { s.setAssembly none with
      hub := .testing { t with heard := if a.ofPeriod then .broken else t.heard } }) h _).symm
  · have judged : t.judgePeriod = { t with copy := (prbsBytes 48 t.copy).2, counts := c } := by
      rw [hc, ← sentCount_eq]
      cases b : t.heard with
      | whole bytes => 
        rw [judgePeriod_whole m b, b]
        rfl
      | _ =>
        rw [judgePeriod_lost m (by simp [b]), b]
        rfl
    rw [exec_testPeriodEnd h, testPeriodEnd_closed k e, judged]
    refine ⟨fun l => by rw [if_pos l]; rfl, fun l => ?_⟩
    rw [if_neg (by dsimp only; omega)]
    rw [beginPeriod_loop (t := { t with
      periodsLeft := t.periodsLeft - 1, copy := (prbsBytes 48 t.copy).2, counts := c }) m]
    exact ⟨_, rfl, rfl, rfl, fun b => if_pos b⟩
  · rw [exec_testPeriodEnd h, testPeriodEnd_closed k e, judgePeriod_quiet m]
    refine ⟨fun l => by rw [if_pos l]; rfl, fun l => ?_⟩
    rw [if_neg (by omega)]
    rw [beginPeriod_quiet (t := { t with periodsLeft := t.periodsLeft - 1 }) m, intoPeriod_closed e]

end Sys2Proof.Machine

/-! PROOFS. The receiver's classes (R10) and its assemblies (R11, R12). -/

namespace Sys2Proof.Machine

/-! ## Classification (R10) -/

theorem classifyElement_mark (n : Nat) : classifyElement true n =
    if 6 ≤ n ∧ n ≤ 10 then .dataMark else if 12 ≤ n ∧ n ≤ 20 then .endMark else if 24 ≤ n ∧ n ≤ 40 then .sync
    else if 56 ≤ n then .abort else .violation := rfl

theorem classifyElement_space (n : Nat) : classifyElement false n =
    if 6 ≤ n ∧ n ≤ 10 then .bit false else if 12 ≤ n ∧ n ≤ 20 then .bit true else if 97 ≤ n then .silence
    else .violation := rfl

/-- Settles O37: each range of the table picks its branch. -/
theorem elementIsClassifiedByLength : Obligations.ElementIsClassifiedByLength := by
  unfold Obligations.ElementIsClassifiedByLength
  intro n
  rw [classifyElement_mark, classifyElement_space]
  refine ⟨fun l h => ⟨if_pos ⟨l, h⟩, if_pos ⟨l, h⟩⟩, fun l h => ⟨?_, ?_⟩, fun l h => ?_, fun l => ?_, fun l => ?_,
    fun l => ?_, fun l => ?_⟩
  · rw [if_neg (by omega), if_pos ⟨l, h⟩]
  · rw [if_neg (by omega), if_pos ⟨l, h⟩]
  · rw [if_neg (by omega), if_neg (by omega), if_pos ⟨l, h⟩]
  · rw [if_neg (by omega), if_neg (by omega), if_neg (by omega), if_pos l]
  · rw [if_neg (by omega), if_neg (by omega), if_neg (by omega), if_neg (by omega)]
  · rw [if_neg (by omega), if_neg (by omega), if_pos (by omega)]
  · rw [if_neg (by omega), if_neg (by omega), if_neg (by omega)]

/-! ## An assembly opens (R11, R13, R17) -/

/-- The open assembly is what it is written to be. -/
theorem setAssembly_self {s : State} {a : Option Assembly} (h : s.receiver.assembly = a) : s.setAssembly a = s := by
  rw [← h]
  rfl

theorem openAssembly_outside {s : State} (h : s.receiver.blanked = false) (k : s.lineTest = none) :
    s.openAssembly = s.setAssembly (some ⟨s.syncWindow, .afterSync, [], [], false⟩) := by
  unfold State.openAssembly
  rw [h, k]
  rfl

/-- The first sync of a test period opens the period's burst (R17). -/
theorem openAssembly_first {s : State} {t : LineTest} (h : s.receiver.blanked = false) (k : s.hub = .testing t)
    (u : t.heard = .unheard) : s.openAssembly = { s with
      hub := .testing { t with heard := .assembling }
      receiver := { s.receiver with assembly := some ⟨none, .afterSync, [], [], true⟩ } } := by
  unfold State.openAssembly
  rw [h, lineTest_testing k]
  exact if_pos u

theorem openAssembly_later {s : State} {t : LineTest} (h : s.receiver.blanked = false) (k : s.hub = .testing t)
    (u : t.heard ≠ .unheard) : s.openAssembly = s.setAssembly (some ⟨none, .afterSync, [], [], false⟩) := by
  unfold State.openAssembly
  rw [h, lineTest_testing k]
  exact if_neg u

/-! ## What an element does (R11) -/

theorem takeElement_hunting {s : State} (h : s.receiver.assembly = none) (c : ElementClass) :
    s.takeElement c = if c = .sync then s.openAssembly else s := by
  unfold State.takeElement
  rw [h]

theorem takeElement_afterSync {s : State} {a : Assembly} (h : s.receiver.assembly = some a) (p : a.phase = .afterSync)
    (c : ElementClass) : s.takeElement c = s.takeAfterSync a c := by
  unfold State.takeElement
  rw [h]
  dsimp only
  rw [p]

theorem takeElement_collecting {s : State} {a : Assembly} (h : s.receiver.assembly = some a)
    (p : a.phase = .collecting) (c : ElementClass) : s.takeElement c = s.takeCollecting a c := by
  unfold State.takeElement
  rw [h]
  dsimp only
  rw [p]

/-- Any element but a space of bit 0 after the sync ends the assembly broken. -/
theorem takeAfterSync_wrong (s : State) (a : Assembly) {c : ElementClass} (h : c ≠ .bit false) :
    ∃ cause, s.takeAfterSync a c = s.endAssemblyBroken cause := by
  unfold State.takeAfterSync
  cases c with
  | bit b =>
    cases b with
    | false => exact absurd rfl h
    | true => exact ⟨_, rfl⟩
  | _ => exact ⟨_, rfl⟩

theorem takeBit_inByte (s : State) {a : Assembly} (h : a.bits.length < 7) (b : Bool) :
    s.takeBit a b = s.setAssembly (some { a with bits := a.bits ++ [b] }) :=
  if_pos (by simp; omega)

theorem takeBit_byte (s : State) {a : Assembly} (h : a.bits.length = 7) (k : a.bytes.length < 64) (b : Bool) :
    s.takeBit a b = s.setAssembly (some { a with bits := [], bytes := a.bytes ++ [byteOfBits (a.bits ++ [b])] }) := by
  unfold State.takeBit
  rw [if_neg (by simp; omega)]
  exact if_pos k

/-- The assembly holds 64 bytes and no more. -/
theorem takeBit_full (s : State) {a : Assembly} (h : a.bits.length = 7) (k : 64 ≤ a.bytes.length) (b : Bool) :
    s.takeBit a b = s.endAssemblyBroken .violation := by
  unfold State.takeBit
  rw [if_neg (by simp; omega)]
  exact if_neg (Nat.not_lt.2 k)

/-! ## How an end mark is judged (R12) -/

theorem verdict_truncated {a : Assembly} (h : a.bits ≠ [] ∨ a.bytes.length < 3) : a.verdict = .broken .truncated := by
  unfold Assembly.verdict
  by_cases k : a.bits ≠ []
  · rw [if_pos k]
  · rw [if_neg k, if_pos (h.resolve_left k)]

theorem verdict_complete {a : Assembly} {d : List Byte} {x y : Byte} (h : a.bits = []) (k : a.bytes = d ++ [x, y])
    (n : d ≠ []) : a.verdict = if crcBytes (crcOf d) = [x, y] then .whole d else .broken .crc := by
  have room : 1 ≤ d.length := List.length_pos_iff.2 n
  have length : a.bytes.length = d.length + 2 := by rw [k, List.length_append]; rfl
  unfold Assembly.verdict
  rw [if_neg (by simp [h]), if_neg (by omega), length, Nat.add_sub_cancel, k]
  dsimp only
  rw [List.take_left, List.drop_left]

theorem takeEndMark_whole {s : State} {a : Assembly} {d : List Byte} (h : s.lineTest = none)
    (v : a.verdict = .whole d) :
    s.takeEndMark a = (s.setAssembly none).deliverWhole a.window d := by
  unfold State.takeEndMark
  rw [h, v]

theorem takeEndMark_broken {s : State} {a : Assembly} {c : BrokenCause} (e : s.receiver.assembly = some a)
    (h : s.lineTest = none) (v : a.verdict = .broken c) : s.takeEndMark a = s.endAssemblyBroken c := by
  unfold State.takeEndMark State.endAssemblyBroken
  rw [h, v, e]
  rfl

theorem takeEndMark_testing {s : State} {a : Assembly} {t : LineTest} (k : s.hub = .testing t) :
    s.takeEndMark a = { s.setAssembly none with
      hub := .testing { t with heard := if a.ofPeriod = false then t.heard else a.testVerdict } } := by
  unfold State.takeEndMark
  rw [lineTest_testing k]
  dsimp only
  cases a.ofPeriod
  · show s.setAssembly none = _
    rw [if_pos rfl, ← k]
    rfl
  · rfl

/-! ## The elements of a whole burst (R11) -/

/-- The elements of one bit in the data of a burst: its mark, and the space of its value. -/
def heardBit (x : Bool) : List ElementClass := [.dataMark, .bit x]

/-- The receiver with an assembly of a window that has collected bytes and bits. -/
def State.collecting (s : State) (w : Option Window) (bytes : List Byte) (bits : List Bool) : State :=
  s.setAssembly (some ⟨w, .collecting, bytes, bits, false⟩)

theorem heardBit_taken (s : State) (w : Option Window) (bytes : List Byte) (bits : List Bool) (x : Bool) :
    (heardBit x).foldl State.takeElement (s.collecting w bytes bits)
      = (s.collecting w bytes bits).takeBit ⟨w, .collecting, bytes, bits, false⟩ x := by
  show ((s.collecting w bytes bits).takeElement .dataMark).takeElement (.bit x) = _
  rw [takeElement_collecting (s := s.collecting w bytes bits) rfl rfl .dataMark]
  exact takeElement_collecting (s := s.collecting w bytes bits) rfl rfl (.bit x)

/-- The bits that are left of a byte complete it. -/
theorem heardBits_taken (s : State) (w : Option Window) {bytes : List Byte} (room : bytes.length < 64) (x : Bool)
    (rest bits : List Bool) (h : bits.length + (rest.length + 1) = 8) :
    ((x :: rest).flatMap heardBit).foldl State.takeElement (s.collecting w bytes bits)
      = s.collecting w (bytes ++ [byteOfBits (bits ++ x :: rest)]) [] := by
  induction rest generalizing x bits with
  | nil =>
    have seven : bits.length = 7 := by simpa using h
    rw [List.flatMap_cons, List.foldl_append, heardBit_taken, takeBit_byte _ seven room]
    rfl
  | cons y rest ih =>
    have inByte : bits.length < 7 := by simp at h; omega
    rw [List.flatMap_cons, List.foldl_append, heardBit_taken, takeBit_inByte _ inByte]
    have go := ih y (bits ++ [x]) (by simp at h ⊢; omega)
    rw [List.append_assoc] at go
    exact go

theorem heardBytes_taken (s : State) (w : Option Window) (rest bytes : List Byte)
    (h : bytes.length + rest.length ≤ 64) :
    ((rest.flatMap bitsOfByte).flatMap heardBit).foldl State.takeElement (s.collecting w bytes [])
      = s.collecting w (bytes ++ rest) [] := by
  induction rest generalizing bytes with
  | nil => rw [List.append_nil]; rfl
  | cons x rest ih =>
    rw [List.length_cons] at h
    have byte := heardBits_taken s w (bytes := bytes) (by omega) (x.getLsbD 0) ((bitsOfByte x).drop 1) [] rfl
    rw [show [] ++ x.getLsbD 0 :: (bitsOfByte x).drop 1 = bitsOfByte x from rfl, byteOfBits_bitsOfByte] at byte
    rw [List.flatMap_cons, List.flatMap_append, List.foldl_append,
      show bitsOfByte x = x.getLsbD 0 :: (bitsOfByte x).drop 1 from rfl, byte,
      ih (bytes ++ [x]) (by simp; omega), List.append_assoc]
    rfl

/-- The elements of a whole burst after its sync: the start, the bits of its data and CRC bytes, the end mark. -/
theorem wholeBurst_delivered {s : State} {w : Option Window} {d : List Byte} (h : s.lineTest = none)
    (lo : 1 ≤ d.length) (hi : d.length ≤ 62) (e : s.receiver.assembly = some ⟨w, .afterSync, [], [], false⟩) :
    (ElementClass.bit false :: (((d ++ crcBytes (crcOf d)).flatMap bitsOfByte).flatMap heardBit
      ++ [ElementClass.endMark])).foldl State.takeElement s = (s.setAssembly none).deliverWhole w d := by
  have start : s.takeElement (.bit false) = s.collecting w [] [] := takeElement_afterSync e rfl _
  have data := heardBytes_taken s w (d ++ crcBytes (crcOf d)) [] (by simp [crcBytes_eq]; omega)
  have verdict : (⟨w, .collecting, d ++ crcBytes (crcOf d), [], false⟩ : Assembly).verdict = .whole d := by
    rw [verdict_complete (d := d) rfl rfl (List.length_pos_iff.1 lo)]
    exact if_pos rfl
  rw [List.foldl_cons, start, List.foldl_append, data, List.nil_append, List.foldl_cons, List.foldl_nil,
    takeElement_collecting (s := s.collecting w (d ++ crcBytes (crcOf d)) []) rfl rfl]
  exact takeEndMark_whole (s := s.collecting w (d ++ crcBytes (crcOf d)) []) h verdict

/-- Settles O39: the whole burst by its bytes, and every element of an open assembly by its phase. -/
theorem elementsOfABurstDeliverIt : Obligations.ElementsOfABurstDeliverIt := by
  unfold Obligations.ElementsOfABurstDeliverIt
  refine ⟨fun s w d h lo hi e => wholeBurst_delivered h lo hi e, fun s broken a e hb => ?_⟩
  have ends : ∀ cause, s.endAssemblyBroken cause = broken := by
    intro cause
    rcases hb with ⟨k, rfl⟩ | ⟨t, k, rfl⟩
    · rw [endAssemblyBroken_outside e (lineTest_none_iff.2 k)]
      rfl
    · rw [endAssemblyBroken_testing e k]
  refine ⟨fun p => ⟨takeElement_afterSync e p _, fun c n => ?_⟩, fun p => ?_⟩
  · obtain ⟨cause, w⟩ := takeAfterSync_wrong s a n
    rw [takeElement_afterSync e p, w, ends]
  have taken : ∀ c, s.takeElement c = s.takeCollecting a c := takeElement_collecting e p
  refine ⟨taken _, fun b h => (taken _).trans (takeBit_inByte s h b), fun b x h hx => ⟨fun k => ?_, fun k => ?_⟩,
    (taken _).trans (ends _), (taken _).trans (ends _), (taken _).trans (ends _), ?_, fun n l => ?_, fun n =>
    ⟨fun h => ?_, fun d x y h k m => ⟨fun c => ?_, fun c => ?_⟩⟩, fun t k => (taken _).trans ?_⟩
  · rw [taken, State.takeCollecting, takeBit_byte s h k, byteOfBits_eq hx]
  · rw [taken, State.takeCollecting, takeBit_full s h k, ends]
  · rw [taken, State.takeCollecting, ends]
  · have blank : broken.receiver.blanked = false := by
      rw [← ends .violation, endAssemblyBroken_eq]
      exact l
    rw [taken, State.takeCollecting, ends, openAssembly_outside blank]
    · rcases hb with ⟨_, rfl⟩ | ⟨t, k, _⟩
      · rfl
      · exact absurd k (n t)
    · rw [lineTest_none_iff, ← ends .violation, (endAssemblyBroken_time s .violation).hub n]
      exact n
  · have v := verdict_truncated h
    exact ⟨v, (taken _).trans ((takeEndMark_broken e (lineTest_none_iff.2 n) v).trans (ends _))⟩
  · have v := verdict_complete h k m
    rw [if_pos c.symm] at v
    exact (taken _).trans (takeEndMark_whole (lineTest_none_iff.2 n) v)
  · have v := verdict_complete h k m
    rw [if_neg (Ne.symm c)] at v
    exact ⟨v, (taken _).trans ((takeEndMark_broken e (lineTest_none_iff.2 n) v).trans (ends _))⟩
  · rw [State.takeCollecting, takeEndMark_testing k]
    rfl

end Sys2Proof.Machine

/-! PROOFS. Bursts at the receiver as whole events (R12 to R14, R31 to R33, R48, R198): which are heard, to whom they
go, and which change nothing but the assembly. -/

namespace Sys2Proof.Machine

/-! ## Who hears (R14, R15) -/

theorem hears_iff {s : State} : s.hears = true ↔ s.receiver.blanked = false ∧ s.lineTest = none := by
  unfold State.hears
  rw [Bool.and_eq_true, Bool.not_eq_true', Option.isNone_iff_eq_none]

theorem hears_deaf {s : State} (h : s.receiver.blanked = true ∨ ∃ t, s.hub = .testing t) : s.hears = false := by
  rw [← Bool.not_eq_true, hears_iff, lineTest_none_iff]
  rintro ⟨b, n⟩
  rcases h with h | ⟨t, k⟩
  · rw [b] at h
    cases h
  · exact n t k

/-! ## Beacons of other hubs (R31 to R33) -/

theorem exec_beacon {s : State} (h : s.held = false) (b : HeardBurst) :
    exec (.beacon b) s = .next (s.beaconBurst b).choose := live_next h _

theorem beganInListening_iff {s : State} {n : Nat} : s.beganInListening n = true ↔
    s.firstServed = true ∧ s.timebase.slot = 0 ∧ s.timebase.slotTime < n := by
  unfold State.beganInListening
  rw [Bool.and_eq_true, Bool.and_eq_true, beq_iff_eq, decide_eq_true_iff, and_assoc]

theorem beaconBurst_deaf {s : State} (h : s.receiver.blanked = true ∨ ∃ t, s.hub = .testing t) {b : HeardBurst}
    (k : s.lineTest = none → s.beganInListening b.sinceSync = false) : s.beaconBurst b = s := by
  refine if_neg ?_
  rw [hears_deaf h, Bool.false_or, Bool.and_eq_true, Option.isNone_iff_eq_none]
  rintro ⟨n, l⟩
  rw [k n] at l
  cases l

theorem beaconBurst_heard {s : State} (n : s.lineTest = none) {b : HeardBurst}
    (h : s.receiver.blanked = false ∨ s.beganInListening b.sinceSync = true) :
    s.beaconBurst b = s.endBurst.takeBeacon (0x51 :: b.body) := by
  refine if_pos ?_
  rw [Bool.or_eq_true, Bool.and_eq_true, hears_iff, n]
  rcases h with h | h
  · exact .inl ⟨h, rfl⟩
  · exact .inr ⟨rfl, h⟩

theorem beaconHubId_cons (k : Byte) (body : List Byte) : beaconHubId (k :: body) =
    if 2 ≤ body.length then some (BitVec.ofNat 16 (leNat (body.take 2))) else none := by
  unfold beaconHubId
  rw [List.length_cons]
  by_cases h : 2 ≤ body.length
  · rw [if_pos h, if_pos (by omega)]
    rfl
  · rw [if_neg h, if_neg (by omega)]

theorem isForeign_iff {s : State} {id : Word16} :
    s.isForeign id = true ↔ id ≠ 0 ∧ id ≠ 0xFFFF ∧ id ≠ s.config.hubId := by
  unfold State.isForeign
  rw [Bool.and_eq_true, Bool.and_eq_true, decide_eq_true_iff, decide_eq_true_iff, bne_iff_ne, and_assoc]
  refine and_congr ?_ (and_congr ?_ Iff.rfl)
  · rw [Nat.one_le_iff_ne_zero]
    exact not_congr (BitVec.toNat_inj (y := 0))
  · have top : id.toNat < 65536 := id.isLt
    have value : id.toNat = 65535 ↔ id = 0xFFFF := BitVec.toNat_inj (y := 0xFFFF)
    rw [Ne, ← value]
    omega

theorem takeBeacon_other {s : State} {body : List Byte}
    (h : body.length < 2 ∨ s.isForeign (BitVec.ofNat 16 (leNat (body.take 2))) = false) (k : Byte) :
    s.takeBeacon (k :: body) = s := by
  unfold State.takeBeacon
  rw [beaconHubId_cons]
  rcases h with h | h
  · rw [if_neg (by omega)]
  · split
    · rename_i id e
      split at e
      · cases e
        exact if_neg (by rw [h]; simp)
      · cases e
    · rfl

theorem takeBeacon_foreign {s : State} {body : List Byte} {id : Word16} (h : 2 ≤ body.length)
    (e : id = BitVec.ofNat 16 (leNat (body.take 2))) (f : s.isForeign id = true) (k : Byte) :
    s.takeBeacon (k :: body) = s.takeForeign id := by
  unfold State.takeBeacon
  rw [beaconHubId_cons, if_pos h, ← e]
  exact if_pos f

theorem takeForeign_offline {s : State} (h : s.hub = .offline) (id : Word16) : s.takeForeign id = s := by
  unfold State.takeForeign
  rw [h]

theorem takeForeign_listening {s : State} {e : Stamp} {m : Bool} (h : s.hub = .listening e m) (id : Word16) :
    s.takeForeign id = s.channelBusy m id := by
  unfold State.takeForeign
  rw [h]

theorem takeForeign_service {s : State} (h : s.hub = .running ∨ s.hub = .stopping) (id : Word16) :
    s.takeForeign id = s.foreignInService id := by
  unfold State.takeForeign
  rcases h with h | h <;> rw [h]

theorem foreignInService_first {s : State} (h : s.foreignSeen = false) (id : Word16) :
    s.foreignInService id = State.post { s with foreignSeen := true } (.foreignHub id) :=
  if_neg (by rw [h]; simp)

theorem foreignInService_again {s : State} (h : s.foreignSeen = true) (id : Word16) : s.foreignInService id = s :=
  if_pos h

/-- Settles O27: the beacons that are not heard, those that are discarded, and the foreign ones by the hub state. -/
theorem foreignBeaconActsByHubState : Obligations.ForeignBeaconActsByHubState := by
  unfold Obligations.ForeignBeaconActsByHubState
  refine ⟨fun n body s h k => ?_, ?_⟩
  · rw [exec_beacon h, beaconBurst_deaf (k.symm.imp And.left id)]
    intro l
    rw [← Bool.not_eq_true, beganInListening_iff]
    rcases k with ⟨t, k⟩ | ⟨-, k⟩
    · exact absurd k (lineTest_none_iff.1 l t)
    · rintro ⟨f, z, b⟩
      rcases k with k | k | k
      · rw [f] at k
        cases k
      · exact k z
      · exact absurd b (Nat.not_lt.2 k)
  · rintro n body s u id h t k rfl rfl
    have heard : s.beaconBurst ⟨n, body⟩ = s.endBurst.takeBeacon (0x51 :: body) :=
      beaconBurst_heard (lineTest_none_iff.2 t) (k.imp id beganInListening_iff.2)
    rw [exec_beacon h, heard]
    refine ⟨fun o => ?_, fun l z f own => ?_⟩
    · rw [takeBeacon_other]
      refine o.imp id fun o => ?_
      rw [← Bool.not_eq_true, isForeign_iff]
      rintro ⟨z, f, own⟩
      rcases o with o | o | o
      · exact z o
      · exact f o
      · exact own o
    · rw [takeBeacon_foreign (s := s.endBurst) l rfl (isForeign_iff.2 ⟨z, f, own⟩)]
      refine ⟨fun b => ?_, fun e m b => ?_, fun b => ⟨fun c => ?_, fun c => ?_⟩⟩
      · rw [takeForeign_offline (s := s.endBurst) b]
      · rw [takeForeign_listening (s := s.endBurst) b]
        rfl
      · rw [takeForeign_service (s := s.endBurst) b, foreignInService_first (s := s.endBurst) c]
      · rw [takeForeign_service (s := s.endBurst) b, foreignInService_again (s := s.endBurst) c]

/-! ## Windows (R13) -/

theorem burstWindow_open {s : State} {a : Assembly} (h : s.receiver.assembly = some a) (n : Nat) :
    s.burstWindow n = a.window := by
  unfold State.burstWindow
  rw [h]

theorem burstWindow_hunting {s : State} (h : s.receiver.assembly = none) (n : Nat) :
    s.burstWindow n = s.windowBefore n := by
  unfold State.burstWindow
  rw [h]

theorem inService_iff {s : State} : s.inService = true ↔ s.hub = .running ∨ s.hub = .stopping := by
  unfold State.inService
  cases s.hub <;> simp

/-- In a round that is not served, or outside RUNNING and STOPPING, there is no window. -/
theorem presentWindow_unserved {s : State} (h : (s.hub ≠ .running ∧ s.hub ≠ .stopping) ∨ s.plan = none) :
    s.presentWindow = none := by
  refine if_neg ?_
  rw [Bool.and_eq_true, inService_iff, State.served]
  rintro ⟨k, p⟩
  rcases h with ⟨r, t⟩ | h
  · exact k.elim r t
  · rw [h] at p
    cases p

theorem presentWindow_join {s : State} (h : s.hub = .running ∨ s.hub = .stopping) (p : s.plan.isSome = true)
    (lo : 1 ≤ s.timebase.slot) (hi : s.timebase.slot ≤ 3) : s.presentWindow = some (.join s.timebase.slot) := by
  unfold State.presentWindow
  rw [if_pos (by rw [Bool.and_eq_true, inService_iff]; exact ⟨h, p⟩), if_pos ⟨lo, hi⟩]

/-- Outside the join slots the window is the reply window of the data slot in progress, where its burst went out. -/
theorem presentWindow_data {s : State} {d : DataSlot} (h : s.hub = .running ∨ s.hub = .stopping)
    (p : s.plan.isSome = true) (l : s.timebase.slot = 0 ∨ 4 ≤ s.timebase.slot) (e : s.dataSlot = some d) :
    s.presentWindow = if d.windowOpen then some (.reply d.slot) else none := by
  unfold State.presentWindow
  rw [if_pos (by rw [Bool.and_eq_true, inService_iff]; exact ⟨h, p⟩), if_neg (by omega), e]

theorem presentWindow_noReply {s : State} (l : s.timebase.slot = 0 ∨ 4 ≤ s.timebase.slot)
    (c : ∀ d, s.dataSlot = some d → d.windowOpen = false) : s.presentWindow = none := by
  unfold State.presentWindow
  split
  · rw [if_neg (by omega)]
    cases e : s.dataSlot with
    | none => rfl
    | some d => exact if_neg (by rw [c d e]; simp)
  · rfl

theorem windowAt_none {s : State} (h : s.presentWindow = none) (time : Nat) : s.windowAt time = none := by
  unfold State.windowAt
  rw [h]

theorem windowAt_some {s : State} {w : Window} (h : s.presentWindow = some w) (time : Nat) :
    s.windowAt time = if w.holdsTime time then some w else none := by
  unfold State.windowAt
  rw [h]

theorem windowBefore_thisSlot {s : State} {n : Nat} (h : n ≤ s.timebase.slotTime) :
    s.windowBefore n = s.windowAt (s.timebase.slotTime - n) := if_pos h

theorem windowBefore_none {s : State} {n : Nat} (h : s.presentWindow = none ∨ s.timebase.slotTime < n) :
    s.windowBefore n = none := by
  unfold State.windowBefore
  split
  · exact windowAt_none (h.resolve_right (by omega)) _
  · rfl

/-! ## Broken and discarded bursts (R12, R14) -/

theorem exec_brokenBurst {s : State} (h : s.held = false) (b : HeardBroken) :
    exec (.brokenBurst b) s = .next (s.brokenBurst b.sinceSync b.cause).choose := live_next h _

theorem exec_discardedBurst {s : State} (h : s.held = false) :
    exec .discardedBurst s = .next s.discardedBurst.choose := live_next h _

theorem brokenBurst_heard {s : State} (h : s.hears = true) (n : Nat) (c : BrokenCause) :
    s.brokenBurst n c = s.endBurst.deliverBroken (s.burstWindow n) c := if_pos h

theorem brokenBurst_deaf {s : State} (h : s.hears = false) (n : Nat) (c : BrokenCause) :
    s.brokenBurst n c = s.endAssemblyBroken c := if_neg (by rw [h]; simp)

theorem deliverBroken_elsewhere {w : Option Window} (h : ∀ i, w ≠ some (.join i)) (s : State) (c : BrokenCause) :
    s.deliverBroken w c = s := by
  unfold State.deliverBroken
  split
  · exact absurd rfl (h _)
  · rfl
  · rfl

/-! ## Whole bursts of labels (R14, R48, R198) -/

theorem exec_joinReq {s : State} (h : s.held = false) (b : HeardBurst) : exec (.joinReq b) s =
    .next (s.wholeBurst (s.burstWindow b.sinceSync) (0x71 :: b.body)).choose := live_next h _

theorem exec_receipt {s : State} (h : s.held = false) (b : HeardBurst) : exec (.receipt b) s =
    .next (s.wholeBurst (s.burstWindow b.sinceSync) (0x72 :: b.body)).choose := live_next h _

theorem exec_status {s : State} (h : s.held = false) (b : HeardBurst) : exec (.status b) s =
    .next (s.wholeBurst (s.burstWindow b.sinceSync) (0x73 :: b.body)).choose := live_next h _

/-- What holds of a burst in a reply window whatever its kind, of a STATUS and a RECEIPT. -/
theorem exec_replies {s t : State} (h : s.held = false) {b : HeardBurst} (k : ∀ kind ∈ [(0x72 : Byte), 0x73],
      s.wholeBurst (s.burstWindow b.sinceSync) (kind :: b.body) = t) :
    ∀ c ∈ [Instr.status b, .receipt b], exec c s = .next t.choose := by
  intro c m
  rw [List.mem_pair] at m
  rcases m with rfl | rfl
  · rw [exec_status h, k _ (by simp)]
  · rw [exec_receipt h, k _ (by simp)]

/-- What holds of a label's burst whatever its kind. -/
theorem exec_labelBursts {s t : State} (h : s.held = false) {b : HeardBurst} (k : ∀ kind ∈ [(0x71 : Byte), 0x72, 0x73],
      s.wholeBurst (s.burstWindow b.sinceSync) (kind :: b.body) = t) :
    ∀ c ∈ [Instr.joinReq b, .status b, .receipt b], exec c s = .next t.choose := by
  intro c m
  rw [List.mem_cons] at m
  rcases m with rfl | m
  · rw [exec_joinReq h, k _ (by simp)]
  · exact exec_replies h (fun kind q => k kind (List.mem_cons_of_mem _ q)) c m

theorem wholeBurst_deaf {s : State} (h : s.hears = false) (w : Option Window) (d : List Byte) :
    s.wholeBurst w d = s := if_neg (by rw [h]; simp)

theorem wholeBurst_heard {s : State} (h : s.hears = true) (w : Option Window) (d : List Byte) :
    s.wholeBurst w d = s.endBurst.deliverWhole w d := if_pos h

theorem deliverWhole_noWindow {kind : Byte} (h : kind ≠ 0x51) (s : State) (body : List Byte) :
    s.deliverWhole none (kind :: body) = s := if_neg h

theorem deliverWhole_window {kind : Byte} (h : kind ≠ 0x51) (s : State) (w : Window) (body : List Byte) :
    s.deliverWhole (some w) (kind :: body) =
      if arrives s.config.hubId (kind :: body) then s.deliverInWindow w (kind :: body) else s := if_neg h

/-- A burst that fails its arrival checks goes nowhere (R198). -/
theorem deliverWhole_failed {s : State} {kind : Byte} {body : List Byte} (h : kind ≠ 0x51)
    (k : arrives s.config.hubId (kind :: body) = false) (w : Option Window) :
    s.deliverWhole w (kind :: body) = s := by
  cases w with
  | none => exact deliverWhole_noWindow h s body
  | some w =>
    rw [deliverWhole_window h, k]
    rfl

/-- A join window takes join requests alone. -/
theorem deliverWhole_join {kind : Byte} (h : kind ≠ 0x51) (k : kind ≠ 0x71) (s : State) (i : Nat) (body : List Byte) :
    s.deliverWhole (some (.join i)) (kind :: body) = s := by
  rw [deliverWhole_window h]
  split
  · exact if_neg k
  · rfl

/-- A reply window takes what is attributed to the label of its slot (R48). -/
theorem deliverWhole_reply {s : State} {kind : Byte} {body : List Byte} (h : kind ≠ 0x51)
    (k : ∀ d, s.dataSlot = some d → s.attributed d.place (kind :: body) = false) (i : Nat) :
    s.deliverWhole (some (.reply i)) (kind :: body) = s := by
  rw [deliverWhole_window h]
  split
  · unfold State.deliverInWindow
    dsimp only
    split
    · rename_i d e
      refine if_neg ?_
      rw [k d e]
      simp
    · rfl
  · rfl

theorem attributed_joinReq (s : State) (p : Place) (body : List Byte) : s.attributed p (0x71 :: body) = false := rfl

theorem attributed_otherLabel {s : State} {p : Place} {body : List Byte}
    (h : (∀ l, s.entry p.address ≠ .label l) ∨ (byteAt body 1).toNat ≠ p.address) (kind : Byte) :
    s.attributed p (kind :: body) = false := by
  rw [← Bool.not_eq_true, State.attributed, Bool.and_eq_true, Bool.and_eq_true, beq_iff_eq]
  rintro ⟨⟨-, a⟩, l⟩
  rcases h with h | h
  · unfold State.label? Entry.label? at l
    cases e : s.entry p.address with
    | label f => exact h f e
    | _ =>
      rw [e] at l
      cases l
  · exact h a

/-! ## The arrival checks (R198) -/

theorem leNat_lt (l : List Byte) : leNat l < 256 ^ l.length := by
  induction l with
  | nil => simp [leNat]
  | cons b l ih =>
    have := b.isLt
    rw [leNat, List.length_cons, Nat.pow_succ]
    omega

theorem joinReqArrives_iff {d : List Byte} : joinReqArrives d = true ↔ d.length = 11 ∧ leNat ((d.drop 2).take 6) ≠ 0
    ∧ leNat ((d.drop 2).take 6) ≠ 2 ^ 48 - 1 ∧ 1 ≤ (byteAt d 8).toNat % 16 ∧ (byteAt d 8).toNat % 16 ≤ 4
    ∧ 1 ≤ (byteAt d 9).toNat ∧ (byteAt d 9).toNat ≤ 16 := by
  have small : leNat ((d.drop 2).take 6) < 2 ^ 48 :=
    (leNat_lt _).trans_le (Nat.pow_le_pow_right (n := 256) (by decide) (List.length_take_le 6 _))
  have id : (joinRequestOf d).longId.toNat = leNat ((d.drop 2).take 6) :=
    (BitVec.toNat_ofNat _ _).trans (Nat.mod_eq_of_lt small)
  have zero : (joinRequestOf d).longId = 0 ↔ leNat ((d.drop 2).take 6) = 0 := by
    rw [← BitVec.toNat_inj, id]
    rfl
  have ones : (joinRequestOf d).longId = BitVec.allOnes 48 ↔ leNat ((d.drop 2).take 6) = 2 ^ 48 - 1 := by
    rw [← BitVec.toNat_inj, id]
    rfl
  have pages : (joinRequestOf d).capabilities.pageCount = (byteAt d 8).toNat % 16 := by
    show (byteAt d 8).toNat / 2 ^ 0 % 2 ^ 4 = _
    omega
  unfold joinReqArrives
  simp only [Bool.and_eq_true, Bool.not_eq_true', beq_eq_false_iff_ne, ne_eq, beq_iff_eq, decide_eq_true_iff, zero,
    ones, pages, and_assoc]

theorem addressInRange_iff {a : Nat} : addressInRange a = true ↔ 1 ≤ a ∧ a ≤ 240 := by
  unfold addressInRange
  rw [Bool.and_eq_true, decide_eq_true_iff, decide_eq_true_iff]
  rfl

theorem receiptArrives_iff {d : List Byte} : receiptArrives d = true ↔ d.length = 9 ∧ 1 ≤ (byteAt d 2).toNat
    ∧ (byteAt d 2).toNat ≤ 240 ∧ (byteAt d 3).toNat ≤ 3 := by
  unfold receiptArrives
  rw [Bool.and_eq_true, Bool.and_eq_true, beq_iff_eq, addressInRange_iff, decide_eq_true_iff, and_assoc, and_assoc]

theorem echoResultOf_reserved (b : Byte) : echoResultOf b = .reserved ↔ b.toNat / 16 % 4 = 3 := by
  have bits : bitsAt b 4 2 = b.toNat / 16 % 4 := rfl
  unfold echoResultOf
  rw [bits]
  have range : b.toNat / 16 % 4 < 4 := Nat.mod_lt _ (by decide)
  split <;> simp_all
  omega

theorem statusArrives_iff {d : List Byte} : statusArrives d = true ↔ d.length = 16 ∧ 1 ≤ (byteAt d 2).toNat
    ∧ (byteAt d 2).toNat ≤ 240 ∧ (byteAt d 3).toNat / 16 % 4 ≠ 3 := by
  unfold statusArrives
  rw [Bool.and_eq_true, Bool.and_eq_true, beq_iff_eq, addressInRange_iff, Bool.not_eq_true', beq_eq_false_iff_ne, Ne,
    echoResultOf_reserved, and_assoc, and_assoc]

theorem arrives_iff {id : Word16} {d : List Byte} : arrives id d = true ↔ byteAt d 1 = id.setWidth 8
    ∧ ((byteAt d 0 = 0x71 ∧ joinReqArrives d = true) ∨ (byteAt d 0 = 0x72 ∧ receiptArrives d = true)
      ∨ (byteAt d 0 = 0x73 ∧ statusArrives d = true)) := by
  unfold arrives
  rw [Bool.and_eq_true, beq_iff_eq]
  refine and_congr Iff.rfl ?_
  by_cases j : byteAt d 0 = 0x71
  · simp [j, kindJoinReq]
  · by_cases r : byteAt d 0 = 0x72
    · simp [r, kindJoinReq, kindReceipt]
    · by_cases t : byteAt d 0 = 0x73
      · simp [t, kindJoinReq, kindReceipt, kindStatus]
      · rw [kindJoinReq, kindReceipt, kindStatus, if_neg j, if_neg r, if_neg t]
        simp only [j, r, t, false_and, or_self, Bool.false_eq_true]

/-- A burst that is heard and delivered to nobody closes the assembly and does nothing else. -/
theorem wholeBurst_discarded {s : State} {w : Option Window} {d : List Byte} (h : s.hears = true)
    (k : s.endBurst.deliverWhole w d = s.endBurst) : s.wholeBurst w d = s.endBurst := by
  rw [wholeBurst_heard h, k]

/-- A STATUS or a RECEIPT of another label than the slot's, or of a label the directory does not hold, is nobody's. -/
theorem deliverWhole_otherLabel {s : State} {b : HeardBurst} {kind : Byte} (k : kind ∈ [(0x72 : Byte), 0x73])
    {x : DataSlot} (e : s.dataSlot = some x)
    (o : (∀ l, s.entry x.place.address ≠ .label l) ∨ (byteAt b.body 1).toNat ≠ x.place.address) (w : Option Window) :
    s.endBurst.deliverWhole w (kind :: b.body) = s.endBurst := by
  have label : kind ≠ 0x51 ∧ kind ≠ 0x71 := by
    rw [List.mem_pair] at k
    rcases k with rfl | rfl <;> decide
  match w with
  | none => exact deliverWhole_noWindow label.1 _ _
  | some (.join i) => exact deliverWhole_join label.1 label.2 _ _ _
  | some (.reply i) =>
    refine deliverWhole_reply label.1 (fun d k => ?_) i
    cases (e.symm.trans k)
    exact attributed_otherLabel (s := s.endBurst) o kind

/-- Settles O40: the broken bursts, the window of a burst, the bursts of labels that go nowhere, and R198's checks. -/
theorem brokenBurstCountsAsEnergy : Obligations.BrokenBurstCountsAsEnergy := by
  unfold Obligations.BrokenBurstCountsAsEnergy
  refine ⟨fun n cause s w => ⟨?heard, ?blanked, ?test⟩, fun n s => ⟨fun a e => burstWindow_open e n, fun e => ?window⟩,
    fun b s h => ⟨fun k => ?deaf, fun k => ⟨fun e => ?none, fun i e => ?join, fun i e => ?reply, fun f => ?joinReq,
      fun f => ?status, fun f => ?receipt, fun d e o => ?label⟩⟩, fun id d => ?checks⟩
  case heard =>
    rintro ⟨⟨h, k⟩, rfl⟩
    rw [exec_brokenBurst h, exec_discardedBurst h, brokenBurst_heard k]
    refine ⟨?_, fun o => ?_, ?_⟩
    · rintro ⟨i, e⟩
      rw [e]
      rfl
    · rw [deliverBroken_elsewhere o]
    · rw [State.discardedBurst, if_pos k]
  case blanked =>
    intro h k e
    have deaf := hears_deaf (.inl k)
    rw [exec_brokenBurst h, exec_discardedBurst h, brokenBurst_deaf deaf, endAssemblyBroken_none e,
      State.discardedBurst, if_neg (by rw [deaf]; simp)]
    exact ⟨rfl, rfl⟩
  case test =>
    intro h t k
    rw [exec_brokenBurst h, brokenBurst_deaf (hears_deaf (.inr ⟨t, k⟩))]
    exact ⟨fun e => by rw [endAssemblyBroken_none e], fun a e => by rw [endAssemblyBroken_testing e k]⟩
  case window =>
    rw [burstWindow_hunting e]
    refine ⟨fun k => ?_, fun k p l => ?_⟩
    · rcases k with k | k | k
      · exact windowBefore_none (.inl (presentWindow_unserved (.inl k)))
      · exact windowBefore_none (.inl (presentWindow_unserved (.inr k)))
      · exact windowBefore_none (.inr k)
    · rw [windowBefore_thisSlot l]
      refine ⟨fun lo hi => ?_, fun q => ?_⟩
      · rw [windowAt_some (presentWindow_join k p lo hi)]
        rfl
      · refine ⟨fun c => windowAt_none (presentWindow_noReply q c) _, fun d f o => ?_⟩
        rw [windowAt_some ((presentWindow_data k p q f).trans (if_pos o))]
        simp only [Window.holdsTime, Bool.and_eq_true, decide_eq_true_iff]
        rfl
  case deaf => exact exec_labelBursts h fun kind _ => wholeBurst_deaf (hears_deaf k) _ _
  case none =>
    refine exec_labelBursts h fun kind m => wholeBurst_discarded k ?_
    rw [e]
    exact deliverWhole_noWindow (by rintro rfl; exact absurd m (by decide)) _ _
  case join =>
    refine exec_replies h fun kind m => wholeBurst_discarded k ?_
    rw [e]
    exact deliverWhole_join (by rintro rfl; exact absurd m (by decide))
      (by rintro rfl; exact absurd m (by decide)) _ _ _
  case reply =>
    rw [exec_joinReq h, wholeBurst_discarded k]
    rw [e]
    exact deliverWhole_reply (by decide) (fun d _ => attributed_joinReq _ _ _) i
  case joinReq =>
    rw [exec_joinReq h, wholeBurst_discarded k (deliverWhole_failed (s := s.endBurst) (by decide) f _)]
  case status =>
    rw [exec_status h, wholeBurst_discarded k (deliverWhole_failed (s := s.endBurst) (by decide) f _)]
  case receipt =>
    rw [exec_receipt h, wholeBurst_discarded k (deliverWhole_failed (s := s.endBurst) (by decide) f _)]
  case label =>
    exact exec_replies h fun kind m => wholeBurst_discarded k (deliverWhole_otherLabel m e o _)
  case checks => rw [arrives_iff, joinReqArrives_iff, receiptArrives_iff, statusArrives_iff]

end Sys2Proof.Machine

/-! PROOFS. What a burst that is delivered leaves of the receiver: all of it. -/

namespace Sys2Proof.Machine

theorem foldl_receiver {β : Type} {f : State → β → State} (h : ∀ s b, (f s b).receiver = s.receiver) (l : List β)
    (s : State) : (l.foldl f s).receiver = s.receiver := by
  induction l generalizing s with
  | nil => rfl
  | cons b l ih => exact (ih _).trans (h s b)

/-! ## The page store's parts -/

@[simp] theorem returnToReady_receiver (s : State) (h : Nat) : (s.returnToReady h).receiver = s.receiver := by
  simp [State.returnToReady]

@[simp] theorem reopen_receiver (s : State) (h : Nat) : (s.reopen h).receiver = s.receiver := by
  simp [State.reopen]

@[simp] theorem enterHeld_receiver (s : State) (h : Nat) : (s.enterHeld h).receiver = s.receiver := by
  unfold State.enterHeld
  dsimp only
  repeat' split
  all_goals simp

@[simp] theorem rejoinRecords_receiver (s : State) (a : Nat) : (s.rejoinRecords a).receiver = s.receiver := by
  refine foldl_receiver (fun t h => ?_) handles s
  unfold State.rejoinRecord
  repeat' split
  all_goals simp

@[simp] theorem pageWanted_receiver (s : State) (a p : Nat) : (s.pageWanted a p).receiver = s.receiver := by
  unfold State.pageWanted
  repeat' split
  all_goals simp

@[simp] theorem reconcile_receiver (s : State) (a : Nat) (r : StatusReport) :
    (s.reconcile a r).receiver = s.receiver := by
  unfold State.reconcile
  split
  · refine foldl_receiver (fun t p => ?_) _ s
    unfold State.reconcilePage
    repeat' split
    all_goals simp
  · rfl

/-! ## The directory's parts -/

@[simp] theorem takeReading_receiver (s : State) (a : Nat) (mv : Option Nat) :
    (s.takeReading a mv).receiver = s.receiver := by
  unfold State.takeReading
  dsimp only
  repeat' split
  all_goals simp

@[simp] theorem completionCheck_receiver (s : State) (a : Nat) (p : Profile) (q : Option PlannedProfile) :
    (s.completionCheck a p q).receiver = s.receiver := by
  unfold State.completionCheck
  split
  · rfl
  · split
    · rfl
    · cases q <;> dsimp only <;> split <;> simp

@[simp] theorem takeProfileReport_receiver (s : State) (a : Nat) (r : StatusReport) :
    (s.takeProfileReport a r).receiver = s.receiver := by
  unfold State.takeProfileReport
  split <;> simp

@[simp] theorem takeAnswer_receiver (s : State) (a slot : Nat) (r : StatusReport) :
    (s.takeAnswer a slot r).receiver = s.receiver := by
  unfold State.takeAnswer
  dsimp only
  repeat' split
  all_goals simp

@[simp] theorem takeBoundStatus_receiver (s : State) (a slot : Nat) (r : StatusReport) :
    (s.takeBoundStatus a slot r).receiver = s.receiver := by
  simp [State.takeBoundStatus]

@[simp] theorem enterCooling_receiver (s : State) (a : Nat) : (s.enterCooling a).receiver = s.receiver := by
  unfold State.enterCooling
  split <;> simp

@[simp] theorem takeStatus_receiver (s : State) (a slot : Nat) (r : StatusReport) :
    (s.takeStatus a slot r).receiver = s.receiver := by
  unfold State.takeStatus State.takeParts
  repeat' split
  all_goals simp [State.labelJoined, State.labelBack, State.releaseConfirmed]

@[simp] theorem createEntry_receiver (s : State) (a : Nat) (id : LongId) (c : Capabilities) (mv : Option Nat)
    (heard : Stamp) : (s.createEntry a id c mv heard).receiver = s.receiver := by
  simp [State.createEntry]

@[simp] theorem updateAsking_receiver (s : State) (id : LongId) (f : Asking → Asking) :
    (s.updateAsking id f).receiver = s.receiver := rfl

@[simp] theorem dropAsking_receiver (s : State) (id : LongId) : (s.dropAsking id).receiver = s.receiver := rfl

@[simp] theorem joinOpenPolicy_receiver (s : State) (q : JoinRequest) : (s.joinOpenPolicy q).receiver = s.receiver := by
  unfold State.joinOpenPolicy State.refreshRefused
  repeat' split
  all_goals simp

@[simp] theorem joinAskPolicy_receiver (s : State) (q : JoinRequest) : (s.joinAskPolicy q).receiver = s.receiver := by
  unfold State.joinAskPolicy State.refreshRefused
  repeat' split
  all_goals simp

@[simp] theorem takeJoinRequest_receiver (s : State) (q : JoinRequest) :
    (s.takeJoinRequest q).receiver = s.receiver := by
  unfold State.takeJoinRequest
  repeat' split
  all_goals simp [State.rejoin, State.joinRefresh]

/-! ## The transfer engine's part -/

@[simp] theorem takeReceipt_receiver (s : State) (i : Nat) (c : Context) (r : Record) (q : ReceiptReport) :
    (s.takeReceipt i c r q).receiver = s.receiver := by
  unfold State.takeReceipt
  dsimp only
  repeat' split
  all_goals simp

@[simp] theorem engineReply_receiver (s : State) (a h : Nat) (d : List Byte) :
    (s.engineReply a h d).receiver = s.receiver := by
  unfold State.engineReply
  repeat' split
  all_goals simp

/-! ## Delivery (R14) -/

@[simp] theorem takeAttributed_receiver (s : State) (p : Place) (slot : Nat) (d : List Byte) :
    (s.takeAttributed p slot d).receiver = s.receiver := by
  unfold State.takeAttributed
  cases p.kind <;> dsimp only <;> split <;> simp

@[simp] theorem deliverInWindow_receiver (s : State) (w : Window) (d : List Byte) :
    (s.deliverInWindow w d).receiver = s.receiver := by
  unfold State.deliverInWindow
  repeat' split
  all_goals simp

@[simp] theorem takeBeacon_receiver (s : State) (d : List Byte) : (s.takeBeacon d).receiver = s.receiver := by
  unfold State.takeBeacon State.takeForeign State.foreignInService State.channelBusy
  repeat' split
  all_goals simp

@[simp] theorem deliverWhole_receiver (s : State) (w : Option Window) (d : List Byte) :
    (s.deliverWhole w d).receiver = s.receiver := by
  unfold State.deliverWhole
  repeat' split
  all_goals simp

end Sys2Proof.Machine

/-! PROOFS. The glitch filter (R9, R10): what a transition closes, and the microseconds in which PDIN is sampled. -/

namespace Sys2Proof.Machine

/-! ## An element changes the assembly and no more of the receiver -/

/-- The receiver is `r` but for its assembly. -/
def SameFilter (r : Receiver) (s : State) : Prop := ∃ a, s.receiver = { r with assembly := a }

theorem SameFilter.setAssembly {r : Receiver} {s : State} (h : SameFilter r s) (a : Option Assembly) :
    SameFilter r (s.setAssembly a) := by
  obtain ⟨b, e⟩ := h
  exact ⟨a, by rw [State.setAssembly, e]⟩

theorem SameFilter.endAssemblyBroken {r : Receiver} {s : State} (h : SameFilter r s) (c : BrokenCause) :
    SameFilter r (s.endAssemblyBroken c) := by
  rw [endAssemblyBroken_eq]
  exact h.setAssembly none

theorem SameFilter.openAssembly {r : Receiver} {s : State} (h : SameFilter r s) : SameFilter r s.openAssembly := by
  unfold State.openAssembly
  repeat' split
  · exact h
  · exact SameFilter.setAssembly (s := { s with hub := _ }) h _
  · exact h.setAssembly _
  · exact h.setAssembly _

theorem SameFilter.takeEndMark {r : Receiver} {s : State} (h : SameFilter r s) (a : Assembly) :
    SameFilter r (s.takeEndMark a) := by
  have closed := h.setAssembly none
  unfold State.takeEndMark
  dsimp only
  repeat' split
  · exact closed
  · exact closed
  · exact closed.imp fun b e => (deliverWhole_receiver _ _ _).trans e
  · rw [deliverBroken_eq]
    exact closed

theorem SameFilter.takeBit {r : Receiver} {s : State} (h : SameFilter r s) (a : Assembly) (b : Bool) :
    SameFilter r (s.takeBit a b) := by
  unfold State.takeBit
  dsimp only
  repeat' split
  · exact h.setAssembly _
  · exact h.setAssembly _
  · exact h.endAssemblyBroken _

theorem SameFilter.takeElement {r : Receiver} {s : State} (h : SameFilter r s) (c : ElementClass) :
    SameFilter r (s.takeElement c) := by
  cases e : s.receiver.assembly with
  | none =>
    rw [takeElement_hunting e]
    split
    · exact h.openAssembly
    · exact h
  | some a =>
    cases p : a.phase with
    | afterSync =>
      rw [takeElement_afterSync e p]
      by_cases k : c = .bit false
      · rw [k]
        exact h.setAssembly _
      · obtain ⟨cause, w⟩ := takeAfterSync_wrong s a k
        rw [w]
        exact h.endAssemblyBroken _
    | collecting =>
      rw [takeElement_collecting e p]
      cases c with
      | dataMark => exact h
      | endMark => exact h.takeEndMark a
      | sync => exact (h.endAssemblyBroken _).openAssembly
      | bit b => exact h.takeBit a b
      | _ => exact h.endAssemblyBroken _

/-! ## In a line test an element changes what is heard of the period's burst and no more of the test -/

/-- The line test is `t` but for what has become of the period's burst. -/
def HeardOnly (t : LineTest) (s : State) : Prop := ∃ heard, s.hub = .testing { t with heard := heard }

theorem HeardOnly.endAssemblyBroken {t : LineTest} {s : State} (h : HeardOnly t s) (c : BrokenCause) :
    HeardOnly t (s.endAssemblyBroken c) := by
  obtain ⟨heard, k⟩ := h
  cases e : s.receiver.assembly with
  | none =>
    rw [endAssemblyBroken_none e]
    exact ⟨heard, k⟩
  | some a =>
    rw [endAssemblyBroken_testing e k]
    exact ⟨_, rfl⟩

theorem HeardOnly.openAssembly {t : LineTest} {s : State} (h : HeardOnly t s) : HeardOnly t s.openAssembly := by
  obtain ⟨heard, k⟩ := h
  unfold State.openAssembly
  rw [lineTest_testing k]
  dsimp only
  repeat' split
  · exact ⟨heard, k⟩
  · exact ⟨_, rfl⟩
  · exact ⟨heard, k⟩

theorem HeardOnly.takeElement {t : LineTest} {s : State} (h : HeardOnly t s) (c : ElementClass) :
    HeardOnly t (s.takeElement c) := by
  cases e : s.receiver.assembly with
  | none =>
    rw [takeElement_hunting e]
    split
    · exact h.openAssembly
    · exact h
  | some a =>
    cases p : a.phase with
    | afterSync =>
      rw [takeElement_afterSync e p]
      by_cases k : c = .bit false
      · rw [k]
        exact h
      · obtain ⟨cause, w⟩ := takeAfterSync_wrong s a k
        rw [w]
        exact h.endAssemblyBroken _
    | collecting =>
      rw [takeElement_collecting e p]
      cases c with
      | dataMark => exact h
      | endMark =>
        obtain ⟨heard, k⟩ := h
        rw [State.takeCollecting, takeEndMark_testing k]
        exact ⟨_, rfl⟩
      | sync => exact (h.endAssemblyBroken _).openAssembly
      | bit b =>
        rw [State.takeCollecting, State.takeBit]
        repeat' split
        · exact h
        · exact h
        · exact h.endAssemblyBroken _
      | _ => exact h.endAssemblyBroken _

/-! ## The element that a transition closes (R9, R10) -/

/-- The class of the element that a transition at a date closes, if it is measured: a transition time is held, and the
element has not been decided at its instant. -/
def Receiver.closes (r : Receiver) (date : Nat) : Option ElementClass :=
  match r.lastTransition with
  | none => none
  | some d => if r.decided then none else some (classifyElement r.accepted (date - d))

theorem closes_none {r : Receiver} (h : r.lastTransition = none ∨ r.decided = true) (date : Nat) :
    r.closes date = none := by
  unfold Receiver.closes
  split
  · rfl
  · rename_i d e
    refine if_pos (h.resolve_left ?_)
    rw [e]
    simp

theorem closes_measured {r : Receiver} {d : Nat} (h : r.lastTransition = some d) (k : r.decided = false) (date : Nat) :
    r.closes date = some (classifyElement r.accepted (date - d)) := by
  unfold Receiver.closes
  rw [h]
  exact if_neg (by rw [k]; simp)

/-- A class that is none where no element is measured, and else the measured element's, is that of the one closed. -/
theorem closes_eq {r : Receiver} {date : Nat} {e : Option ElementClass}
    (n : r.lastTransition = none ∨ r.decided = true → e = none)
    (m : ∀ d, r.lastTransition = some d → r.decided = false → e = some (classifyElement r.accepted (date - d))) :
    e = r.closes date := by
  cases l : r.lastTransition with
  | none => rw [closes_none (.inl l), n (.inl l)]
  | some d =>
    cases k : r.decided with
    | true => rw [closes_none (.inr k), n (.inr k)]
    | false => rw [closes_measured l k, m d l k]

/-- The element that was closed is taken, if there is one. -/
def State.takeClosed (s : State) : Option ElementClass → State
  | none => s
  | some c => s.takeElement c

theorem takeClosed_hunting {s : State} {e : Option ElementClass} (h : s.receiver.assembly = none)
    (k : e ≠ some .sync) : s.takeClosed e = s := by
  cases e with
  | none => rfl
  | some c =>
    refine (takeElement_hunting h c).trans (if_neg ?_)
    rintro rfl
    exact k rfl

theorem takeClosed_sync {s : State} (h : s.receiver.assembly = none) : s.takeClosed (some .sync) = s.openAssembly :=
  takeElement_hunting h .sync

/-- The counts of a line test after an accepted transition that closes an element (R17). -/
def TestCounts.accepted (c : TestCounts) (e : Option ElementClass) : TestCounts :=
  { c with edges := c.edges + 1, violations := c.violations + (if e = some .violation then 1 else 0) }

theorem countEdge_outside {s : State} (h : s.lineTest = none) : s.countEdge = s := by
  unfold State.countEdge
  rw [h]

theorem countEdge_testing {s : State} {t : LineTest} (h : s.hub = .testing t) : s.countEdge = { s with
    hub := .testing { t with counts := { t.counts with edges := t.counts.edges + 1 } } } := by
  unfold State.countEdge
  rw [lineTest_testing h]

theorem countViolation_outside {s : State} (h : s.lineTest = none) (c : ElementClass) : s.countViolation c = s := by
  unfold State.countViolation
  rw [h]

theorem countViolation_testing {s : State} {t : LineTest} (h : s.hub = .testing t) (c : ElementClass) :
    s.countViolation c = { s with hub := .testing { t with counts := { t.counts with
      violations := t.counts.violations + (if c = .violation then 1 else 0) } } } := by
  unfold State.countViolation
  rw [lineTest_testing h]
  dsimp only
  split
  · rfl
  · exact (congrArg (fun hub => { s with hub := hub }) h.symm).symm

theorem acceptTransition_unmeasured {s : State} (h : s.receiver.lastTransition = none ∨ s.receiver.decided = true)
    (date : Nat) (level : Bool) :
    s.acceptTransition date level = State.countEdge { s with receiver := s.receiver.accept date level } := by
  unfold State.acceptTransition
  dsimp only
  split
  · rfl
  · rename_i d e
    refine if_pos (h.resolve_left ?_)
    rw [e]
    simp

theorem acceptTransition_measured {s : State} {d : Nat} (h : s.receiver.lastTransition = some d)
    (k : s.receiver.decided = false) (date : Nat) (level : Bool) : s.acceptTransition date level =
      (State.countEdge { s with receiver := s.receiver.accept date level }).closeElement s.receiver.accepted
        (date - d) := by
  unfold State.acceptTransition
  rw [h]
  exact if_neg (by rw [k]; simp)

/-- An element is measured, or it is not. -/
theorem measured_cases (r : Receiver) : (r.lastTransition = none ∨ r.decided = true)
    ∨ ∃ d, r.lastTransition = some d ∧ r.decided = false := by
  cases l : r.lastTransition with
  | none => exact .inl (.inl rfl)
  | some d =>
    cases r.decided with
    | true => exact .inl (.inr rfl)
    | false => exact .inr ⟨d, rfl, rfl⟩

/-- Outside a line test an accepted transition is dated, and the element it closes is taken. -/
theorem acceptTransition_outside {s : State} (h : s.lineTest = none) (date : Nat) (level : Bool) :
    s.acceptTransition date level =
      State.takeClosed { s with receiver := s.receiver.accept date level } (s.receiver.closes date) := by
  have edge := countEdge_outside (s := { s with receiver := s.receiver.accept date level }) h
  rcases measured_cases s.receiver with u | ⟨d, l, k⟩
  · rw [acceptTransition_unmeasured u, closes_none u, edge]
    rfl
  · rw [acceptTransition_measured l k, closes_measured l k, edge, State.closeElement]
    rw [countViolation_outside (s := { s with receiver := s.receiver.accept date level }) h]
    rfl

/-- In a line test it is an edge as well, and a violation that it closes is counted (R17). -/
theorem acceptTransition_testing {s : State} {t : LineTest} (h : s.hub = .testing t) (date : Nat) (level : Bool) :
    s.acceptTransition date level = State.takeClosed { s with
      receiver := s.receiver.accept date level
      hub := .testing { t with counts := t.counts.accepted (s.receiver.closes date) } } (s.receiver.closes date) := by
  have edge := countEdge_testing (s := { s with receiver := s.receiver.accept date level }) h
  rcases measured_cases s.receiver with u | ⟨d, l, k⟩
  · rw [acceptTransition_unmeasured u, closes_none u, edge]
    rfl
  · rw [acceptTransition_measured l k, closes_measured l k, edge, State.closeElement]
    dsimp only
    rw [countViolation_testing rfl, TestCounts.accepted]
    simp only [Option.some.injEq]
    rfl

theorem acceptTransition_filter (s : State) (date : Nat) (level : Bool) :
    SameFilter (s.receiver.accept date level) (s.acceptTransition date level) := by
  have taken : ∀ (u : State) (e : Option ElementClass), u.receiver = s.receiver.accept date level →
      SameFilter (s.receiver.accept date level) (u.takeClosed e) := by
    intro u e k
    have same : SameFilter (s.receiver.accept date level) u := ⟨u.receiver.assembly, by rw [k]⟩
    cases e with
    | none => exact same
    | some c => exact same.takeElement c
  cases h : s.lineTest with
  | none =>
    rw [acceptTransition_outside h]
    exact taken _ _ rfl
  | some t =>
    rw [acceptTransition_testing (lineTest_some h)]
    exact taken _ _ rfl

end Sys2Proof.Machine

/-! PROOFS. TRANSITION, and the microseconds in which PDIN is sampled (R9, R10; logs 1, 25). -/

namespace Sys2Proof.Machine

theorem next_choose {t u : State} (h : t = u) : (Host.Outcome.next t.choose : StepResult) = .next u.choose := by rw [h]

/-! ## TRANSITION (R9) -/

theorem exec_transition {s : State} (h : s.held = false) (n : Nat) :
    exec (.transition n) s = .next (s.standFor n).transition.choose := live_next h _

theorem filterBusy_iff {s : State} :
    s.filterBusy = true ↔ ∃ d, s.receiver.lastTransition = some d ∧ s.clock < d + 2 := by
  unfold State.filterBusy
  cases s.receiver.lastTransition <;> simp

theorem transition_ignored {s : State}
    (h : s.receiver.blanked = true ∨ ∃ d, s.receiver.lastTransition = some d ∧ s.clock < d + 2) : s.transition = s :=
  if_pos (by rwa [Bool.or_eq_true, filterBusy_iff])

theorem transition_accepted {s : State} (b : s.receiver.blanked = false)
    (h : ∀ d, s.receiver.lastTransition = some d → d + 2 ≤ s.clock) :
    s.transition = s.acceptTransition s.clock (!s.receiver.accepted) := by
  refine if_neg ?_
  rw [Bool.or_eq_true, filterBusy_iff, b]
  rintro (k | ⟨d, e, l⟩)
  · cases k
  · have := h d e
    omega

theorem takeClosed_some {s : State} {e : Option ElementClass} {c : ElementClass} (h : e = some c) :
    s.takeClosed e = s.takeElement c := by rw [h]; rfl

theorem takeClosed_none {s : State} {e : Option ElementClass} (h : e = none) : s.takeClosed e = s := by rw [h]; rfl

theorem HeardOnly.takeClosed {t : LineTest} {s : State} (h : HeardOnly t s) (e : Option ElementClass) :
    HeardOnly t (s.takeClosed e) := by
  cases e with
  | none => exact h
  | some c => exact h.takeElement c

/-- The window of a sync whose end is accepted at a date. -/
theorem syncWindow_accept (s : State) (date : Nat) (level : Bool) :
    State.syncWindow { s with receiver := s.receiver.accept date level } = s.windowBefore (s.clock - date) := rfl

theorem windowBefore_zero (s : State) : s.windowBefore 0 = s.windowAt s.timebase.slotTime :=
  windowBefore_thisSlot (Nat.zero_le _)

/-- Hunting outside a line test, a sync that an accepted transition closes opens an assembly of its date's window. -/
theorem takeClosed_syncOutside {s : State} (a : s.receiver.assembly = none) (b : s.receiver.blanked = false)
    (o : s.lineTest = none) (date : Nat) (level : Bool) :
    State.takeClosed { s with receiver := s.receiver.accept date level } (some .sync) = { s with
      receiver := { s.receiver.accept date level with
        assembly := some ⟨s.windowBefore (s.clock - date), .afterSync, [], [], false⟩ } } :=
  (takeClosed_sync (s := { s with receiver := s.receiver.accept date level }) a).trans
    (openAssembly_outside (s := { s with receiver := s.receiver.accept date level }) b o)

/-! ## A sample of PDIN (R9) -/

/-- The state in which PDIN is sampled in a microsecond with no command, at a level. -/
def State.atSample (s : State) (level : Bool) : State :=
  { s.pass 1 with receiver := { (s.pass 1).receiver with pdin := level } }

theorem movePin_pass (s : State) :
    (s.pass 1).movePin s.pdinAhead = s.atSample (s.pdinAhead.headD s.receiver.pdin) := by
  cases s.pdinAhead with
  | nil =>
    have pin : (s.pass 1).receiver.pdin = s.receiver.pdin := (firstTick_lines s).pdin
    show s.pass 1 = s.atSample s.receiver.pdin
    rw [← pin]
    rfl
  | cons level rest => rfl

theorem atSample_clock (s : State) (level : Bool) : (s.atSample level).clock = s.clock + 1 := pass_clock s 1

/-- A receiver that is not blanked as the microsecond begins stands as it did. -/
theorem firstTick_unblanked {s : State} (h : s.firstTick.receiver.blanked = false) :
    s.firstTick.receiver = s.receiver := by
  unfold State.firstTick State.beginBlanking at *
  split
  · rename_i due
    rw [if_pos due] at h
    split
    · rfl
    · rename_i test
      rw [if_neg test] at h
      cases h
  · rfl

theorem atSample_receiver {s : State} {level : Bool} (h : (s.atSample level).receiver.blanked = false) :
    (s.atSample level).receiver = { s.receiver with pdin := level } := by
  have same : (s.pass 1).receiver = s.receiver := firstTick_unblanked h
  show { (s.pass 1).receiver with pdin := level } = _
  rw [same]

theorem lineTick_blanked {s : State} {level : Bool} (hl : level = s.pdinAhead.headD s.receiver.pdin)
    (b : (s.atSample level).receiver.blanked = true) : s.lineTick = s.atSample level := by
  unfold State.lineTick
  rw [movePin_pass, ← hl]
  exact if_pos b

theorem lineTick_sampled {s : State} {level : Bool} (hl : level = s.pdinAhead.headD s.receiver.pdin)
    (b : (s.atSample level).receiver.blanked = false) : s.lineTick = (s.atSample level).samplePdin.decideElement := by
  unfold State.lineTick
  rw [movePin_pass, ← hl]
  exact if_neg (by rw [b]; simp)

/-- A sample that accepts no transition clears the candidate, or is the first of one. -/
theorem samplePdin_waits {s : State} {level : Bool} {k : Option Candidate}
    (b : (s.atSample level).receiver.blanked = false)
    (h : level = s.receiver.accepted ∧ k = none
      ∨ level ≠ s.receiver.accepted ∧ (∀ c, s.receiver.candidate = some c → c.date ≠ s.clock)
        ∧ k = some ⟨level, 1, s.clock + 1⟩) :
    (s.atSample level).samplePdin =
      { s.atSample level with receiver := { (s.atSample level).receiver with candidate := k } } := by
  have accepted : (s.atSample level).receiver.accepted = s.receiver.accepted := by rw [atSample_receiver b]
  have candidate : (s.atSample level).receiver.candidate = s.receiver.candidate := by rw [atSample_receiver b]
  unfold State.samplePdin
  rcases h with ⟨e, rfl⟩ | ⟨n, old, rfl⟩
  · exact if_pos (e.trans accepted.symm)
  · have first : (s.atSample level).beginCandidate = { s.atSample level with
        receiver := { (s.atSample level).receiver with candidate := some ⟨level, 1, s.clock + 1⟩ } } := by
      rw [← atSample_clock s level]
      rfl
    rw [if_neg (by rw [accepted]; exact n), candidate]
    split
    · exact first
    · rename_i c e
      rw [if_neg (by rw [atSample_clock]; exact fun d => old c e (Nat.succ.inj d))]
      exact first

/-- The second sample in a row at the other level accepts a transition dated at the first. -/
theorem samplePdin_accepts {s : State} {level : Bool} {c : Candidate} (b : (s.atSample level).receiver.blanked = false)
    (n : level ≠ s.receiver.accepted) (e : s.receiver.candidate = some c) (d : c.date = s.clock) :
    (s.atSample level).samplePdin = (s.atSample level).acceptTransition s.clock level := by
  have accepted : (s.atSample level).receiver.accepted = s.receiver.accepted := by rw [atSample_receiver b]
  have candidate : (s.atSample level).receiver.candidate = some c := by rw [atSample_receiver b, ← e]
  unfold State.samplePdin
  rw [if_neg (by rw [accepted]; exact n), candidate]
  dsimp only
  rw [if_pos (by rw [atSample_clock, d]), d]
  rfl

/-! ## The instant of an element (R10) -/

/-- An element that is not measured is decided at no instant. -/
theorem decidesAt_none {r : Receiver} (h : r.lastTransition = none ∨ r.decided = true) : r.decidesAt = none := by
  unfold Receiver.decidesAt
  split
  · rfl
  · rename_i k
    rw [h.resolve_right k]

theorem decideElement_waits {s : State} (h : ∀ d, s.receiver.lastTransition = some d → s.receiver.decided = false →
    s.clock < d + if s.receiver.accepted then 56 else 97) : s.decideElement = s := by
  unfold State.decideElement
  rcases measured_cases s.receiver with u | ⟨d, l, k⟩
  · rw [decidesAt_none u]
  · rw [decidesAt_measured l k]
    exact if_neg (Nat.not_le.2 (h d l k))

theorem decideElement_decides {s : State} {d : Nat} (l : s.receiver.lastTransition = some d)
    (k : s.receiver.decided = false) (h : (d + if s.receiver.accepted then 56 else 97) ≤ s.clock) :
    s.decideElement = State.takeElement { s with receiver := { s.receiver with decided := true } }
      (if s.receiver.accepted then .abort else .silence) := by
  unfold State.decideElement
  rw [decidesAt_measured l k]
  exact if_pos h

/-- A microsecond that accepts a transition decides nothing: the element it begins is one microsecond long. -/
theorem lineTick_accepts {s : State} {level : Bool} {c : Candidate} (hl : level = s.pdinAhead.headD s.receiver.pdin)
    (b : (s.atSample level).receiver.blanked = false) (n : level ≠ s.receiver.accepted)
    (e : s.receiver.candidate = some c) (d : c.date = s.clock) :
    s.lineTick = (s.atSample level).acceptTransition s.clock level := by
  obtain ⟨a, r⟩ := acceptTransition_filter (s.atSample level) s.clock level
  rw [lineTick_sampled hl b, samplePdin_accepts b n e d]
  refine decideElement_waits fun k l _ => ?_
  rw [r] at l
  rw [acceptTransition_clock, atSample_clock]
  cases l
  split <;> omega

theorem closes_atSample {s : State} {level : Bool} (b : (s.atSample level).receiver.blanked = false) (date : Nat) :
    (s.atSample level).receiver.closes date = s.receiver.closes date := by
  rw [atSample_receiver b]
  rfl

end Sys2Proof.Machine

/-! PROOFS. TRANSITION and the sampling of PDIN, put together. -/

namespace Sys2Proof.Machine

/-! ## What an accepted transition comes to, hunting -/

/-- In a line test the first sync of a period opens the period's burst, and a later one another assembly (R17). -/
theorem takeClosed_syncTesting {s : State} {t : LineTest} (a : s.receiver.assembly = none)
    (b : s.receiver.blanked = false) (date : Nat) (level : Bool) :
    (t.heard = .unheard → State.takeClosed { s with
        receiver := s.receiver.accept date level, hub := .testing t } (some .sync) = { s with
      receiver := { s.receiver.accept date level with assembly := some ⟨none, .afterSync, [], [], true⟩ }
      hub := .testing { t with heard := .assembling } })
    ∧ (t.heard ≠ .unheard → State.takeClosed { s with
        receiver := s.receiver.accept date level, hub := .testing t } (some .sync) = { s with
      receiver := { s.receiver.accept date level with assembly := some ⟨none, .afterSync, [], [], false⟩ }
      hub := .testing t }) := by
  have opened := takeClosed_sync (s := { s with receiver := s.receiver.accept date level, hub := .testing t }) a
  exact ⟨fun u => opened.trans (openAssembly_first b rfl u), fun u => opened.trans (openAssembly_later b rfl u)⟩

theorem takeElement_ignored {s : State} {c : ElementClass} (h : s.receiver.assembly = none) (k : c ≠ .sync) :
    s.takeElement c = s := (takeElement_hunting h c).trans (if_neg k)

/-- The window of a sync that ended as the microsecond began. -/
theorem windowBefore_atSample (s : State) (level : Bool) :
    (s.atSample level).windowBefore ((s.atSample level).clock - s.clock) =
      if 1 ≤ (s.atSample level).timebase.slotTime then
        (s.atSample level).windowAt ((s.atSample level).timebase.slotTime - 1) else none := by
  rw [atSample_clock, Nat.add_sub_cancel_left]
  rfl

/-! ## An accepted transition (R9) -/

/-- Outside a line test, what an accepted TRANSITION does is to take the element it closes. -/
theorem exec_transitionOutside {s u : State} {n : Nat} (h : s.held = false) (k : u = s.standFor n)
    (b : u.receiver.blanked = false) (f : ∀ d, u.receiver.lastTransition = some d → d + 2 ≤ u.clock)
    (o : u.lineTest = none) :
    exec (.transition n) s = .next (State.takeClosed { u with
      receiver := u.receiver.accept u.clock (!u.receiver.accepted) } (u.receiver.closes u.clock)).choose := by
  rw [exec_transition h, ← k, transition_accepted b f, acceptTransition_outside o]

/-- In a line test it is counted as well. -/
theorem exec_transitionTesting {s u : State} {n : Nat} {t : LineTest} (h : s.held = false) (k : u = s.standFor n)
    (b : u.receiver.blanked = false) (f : ∀ d, u.receiver.lastTransition = some d → d + 2 ≤ u.clock)
    (o : u.hub = .testing t) :
    exec (.transition n) s = .next (State.takeClosed { u with
      receiver := u.receiver.accept u.clock (!u.receiver.accepted)
      hub := .testing { t with counts := t.counts.accepted (u.receiver.closes u.clock) } }
        (u.receiver.closes u.clock)).choose := by
  rw [exec_transition h, ← k, transition_accepted b f, acceptTransition_testing o]

/-! ## Microseconds in which PDIN stands (log 1) -/

theorem standFor_unblanked {s : State} (h : s.receiver.blanked = false) (n : Nat) : s.standFor n =
    { State.idleFor { s with
        receiver := { s.receiver with pdin := s.receiver.accepted, candidate := none }, pdinAhead := [] } n with
      pdinAhead := s.pdinAhead.drop n } := by
  unfold State.standFor Receiver.standing
  rw [if_neg (by rw [h]; simp)]
  rfl

theorem standFor_blanked {s : State} (h : s.receiver.blanked = true) (n : Nat) : s.standFor n =
    { State.idleFor { s with pdinAhead := [] } n with pdinAhead := s.pdinAhead.drop n } := by
  unfold State.standFor Receiver.standing
  rw [if_pos h]
  rfl

/-! ## Quiet microseconds (R10) -/

/-- Many quiet microseconds in which the element in progress reaches its instant decide it. -/
theorem idleFor_takes {s : State} {n d : Nat} (q : Quiet s) (b : s.receiver.blanked = false)
    (l : s.receiver.lastTransition = some d) (k : s.receiver.decided = false)
    (h : (d + if s.receiver.accepted then 56 else 97) ≤ s.clock + (n + 1)) :
    s.idleFor (n + 1) = (State.takeElement { s.advance (n + 1) with
        receiver := { (s.advance (n + 1)).receiver with decided := true } }
          (if s.receiver.accepted then .abort else .silence)).choose
      ∧ (s.idleFor (n + 1)).receiver.assembly = none := by
  refine ⟨?_, ?_⟩
  · have unblanked : (s.advance (n + 1)).decideQuiet = (s.advance (n + 1)).decideElement := if_neg (by
      show ¬ s.receiver.blanked = true
      rw [b]
      simp)
    rw [idleFor_quiet q, quietFor_eq, unblanked, decideElement_decides (s := s.advance (n + 1)) l k h]
    rfl
  · rw [idleFor_decides q b (decidesAt_measured l k) h]
    rfl

/-! ## A microsecond with no command (R9, R177) -/

/-- After what PDIN does in the microsecond, RXD moves and is watched. -/
theorem step_rxd {s w : State} {rxd : State → State} (h : s.held = false) (p : s.pending = [])
    (hx : ∀ t, rxd t = (t.moveRxd s.rxdAhead).watchRxd) (k : s.lineTick = w) : step s = .next (rxd w).choose := by
  rw [step_idle h p, hx, ← k]
  rfl

/-- A microsecond that accepts no transition, before the instant of the element in progress, changes the candidate. -/
theorem step_waits {s : State} {level : Bool} {rxd : State → State} {k : Option Candidate} (h : s.held = false)
    (p : s.pending = []) (hl : level = s.pdinAhead.headD s.receiver.pdin)
    (hx : ∀ t, rxd t = (t.moveRxd s.rxdAhead).watchRxd) (b : (s.atSample level).receiver.blanked = false)
    (w : ∀ d, s.receiver.lastTransition = some d → s.receiver.decided = false →
      s.clock + 1 < d + if s.receiver.accepted then 56 else 97)
    (q : level = s.receiver.accepted ∧ k = none ∨ level ≠ s.receiver.accepted
      ∧ (∀ c, s.receiver.candidate = some c → c.date ≠ s.clock) ∧ k = some ⟨level, 1, s.clock + 1⟩) :
    step s = .next (State.choose (rxd { s.atSample level with
      receiver := { (s.atSample level).receiver with candidate := k } })) := by
  refine step_rxd h p hx ((lineTick_sampled hl b).trans ?_)
  rw [samplePdin_waits b q, atSample_receiver b]
  exact decideElement_waits fun d l z => (atSample_clock s level).trans_lt (w d l z)

/-- At or after that instant it decides the element. -/
theorem step_decides {s : State} {level : Bool} {rxd : State → State} {k : Option Candidate} {d : Nat}
    (h : s.held = false) (p : s.pending = []) (hl : level = s.pdinAhead.headD s.receiver.pdin)
    (hx : ∀ t, rxd t = (t.moveRxd s.rxdAhead).watchRxd) (b : (s.atSample level).receiver.blanked = false)
    (l : s.receiver.lastTransition = some d) (z : s.receiver.decided = false)
    (i : (d + if s.receiver.accepted then 56 else 97) ≤ s.clock + 1)
    (q : level = s.receiver.accepted ∧ k = none ∨ level ≠ s.receiver.accepted
      ∧ (∀ c, s.receiver.candidate = some c → c.date ≠ s.clock) ∧ k = some ⟨level, 1, s.clock + 1⟩) :
    step s = .next (State.choose (rxd (State.takeElement { s.atSample level with
      receiver := { (s.atSample level).receiver with candidate := k, decided := true } }
        (if s.receiver.accepted then .abort else .silence)))) := by
  refine step_rxd h p hx ((lineTick_sampled hl b).trans ?_)
  rw [samplePdin_waits b q, atSample_receiver b]
  exact decideElement_decides l z (i.trans_eq (atSample_clock s level).symm)

/-- A microsecond that accepts a transition outside a line test takes the element it closes. -/
theorem step_acceptsOutside {s : State} {level : Bool} {rxd : State → State} {c : Candidate} (h : s.held = false)
    (p : s.pending = []) (hl : level = s.pdinAhead.headD s.receiver.pdin)
    (hx : ∀ t, rxd t = (t.moveRxd s.rxdAhead).watchRxd) (b : (s.atSample level).receiver.blanked = false)
    (n : level ≠ s.receiver.accepted) (e : s.receiver.candidate = some c) (d : c.date = s.clock)
    (o : (s.atSample level).lineTest = none) :
    step s = .next (State.choose (rxd (State.takeClosed { s.atSample level with
      receiver := (s.atSample level).receiver.accept s.clock level } (s.receiver.closes s.clock)))) := by
  rw [← closes_atSample b, ← acceptTransition_outside o]
  exact step_rxd h p hx (lineTick_accepts hl b n e d)

/-- In a line test it is counted as well. -/
theorem step_acceptsTesting {s : State} {level : Bool} {rxd : State → State} {c : Candidate} {t : LineTest}
    (h : s.held = false) (p : s.pending = []) (hl : level = s.pdinAhead.headD s.receiver.pdin)
    (hx : ∀ t, rxd t = (t.moveRxd s.rxdAhead).watchRxd) (b : (s.atSample level).receiver.blanked = false)
    (n : level ≠ s.receiver.accepted) (e : s.receiver.candidate = some c) (d : c.date = s.clock)
    (k : (s.atSample level).hub = .testing t) :
    step s = .next (State.choose (rxd (State.takeClosed { s.atSample level with
      receiver := (s.atSample level).receiver.accept s.clock level
      hub := .testing { t with counts := t.counts.accepted (s.receiver.closes s.clock) } }
        (s.receiver.closes s.clock)))) := by
  rw [← closes_atSample b, ← acceptTransition_testing k]
  exact step_rxd h p hx (lineTick_accepts hl b n e d)

/-- Settles O38: an accepted transition by what it closes, the samples of PDIN that accept one, and the quiet
microseconds that decide an element. -/
theorem transitionClosesTheElement : Obligations.TransitionClosesTheElement := by
  unfold Obligations.TransitionClosesTheElement
  refine ⟨fun n s u h hu => ⟨fun i => ?ignored, fun b f r hr e en em => ?accepted⟩,
    fun n s => ⟨fun b => standFor_unblanked b n, fun b => standFor_blanked b n⟩,
    fun s u v level rxd h p hl hv hu hx => ⟨fun b => ?dark, fun b => ?sampled⟩,
    fun n s u hn pa ra se bd hu => ?quiet⟩
  case ignored => rw [exec_transition h, ← hu, transition_ignored i]
  case accepted =>
    obtain rfl : e = u.receiver.closes u.clock := closes_eq en em
    obtain rfl : r = u.receiver.accept u.clock (!u.receiver.accepted) := hr
    have outside := exec_transitionOutside h hu b f
    have testing : ∀ t, u.hub = .testing t → _ := fun _ => exec_transitionTesting h hu b f
    refine ⟨fun v hv => ?_, fun o a => ⟨fun n => ?_, fun y => ?_⟩, fun t c k hc => ⟨?_, fun a => ⟨fun n => ?_,
      fun y w => ?_, fun y w => ?_⟩⟩⟩
    · have taken : exec (.transition n) s = .next (v.takeClosed (u.receiver.closes u.clock)).choose := by
        rcases hv with ⟨o, rfl⟩ | ⟨t, k, rfl⟩
        · exact outside o
        · exact testing t k
      exact ⟨fun z => taken.trans (next_choose (takeClosed_none z)),
        fun c z => taken.trans (next_choose (takeClosed_some z))⟩
    · exact (outside o).trans (next_choose (takeClosed_hunting a n))
    · rw [outside o, y, takeClosed_syncOutside a b o, Nat.sub_self, windowBefore_zero]
    · have only : HeardOnly { t with counts := c } { u with
          receiver := u.receiver.accept u.clock (!u.receiver.accepted)
          hub := .testing { t with counts := t.counts.accepted (u.receiver.closes u.clock) } } :=
        ⟨t.heard, by rw [hc]; rfl⟩
      obtain ⟨heard, l⟩ := only.takeClosed (u.receiver.closes u.clock)
      exact ⟨_, heard, testing t k, l⟩
    · rw [hc]
      exact (testing t k).trans (next_choose (takeClosed_hunting a n))
    · rw [hc, testing t k, y]
      exact next_choose ((takeClosed_syncTesting a b _ _).1 w)
    · rw [hc, testing t k, y]
      exact next_choose ((takeClosed_syncTesting a b _ _).2 w)
  case dark =>
    obtain rfl : u = s.atSample level := by rw [hu, hv]; rfl
    exact step_rxd h p hx (lineTick_blanked hl b)
  case sampled =>
    obtain rfl : u = s.atSample level := by rw [hu, hv]; rfl
    refine ⟨fun w => ⟨fun e => step_waits h p hl hx b w (.inl ⟨e, rfl⟩),
      fun e o => step_waits h p hl hx b w (.inr ⟨e, o, rfl⟩)⟩, fun c e k d o r hr => ?_,
      fun c t e counts ne k d tt en em hc r hr v hv => ?_, fun d k q l z i t ht => ?_⟩
    · obtain rfl : r = (s.atSample level).receiver.accept s.clock level := hr
      have row := step_acceptsOutside h p hl hx b e k d o
      refine ⟨fun n => by rw [row, closes_none n]; rfl, fun f x l z hx => ?_⟩
      rw [closes_measured l z, ← hx] at row
      refine ⟨row, fun a => ⟨fun n => row.trans (next_choose (congrArg rxd ?_)),
        fun y => row.trans (next_choose (congrArg rxd ?_))⟩⟩
      · exact takeClosed_hunting a fun i => n (Option.some.inj i)
      · rw [y, takeClosed_syncOutside a b o, windowBefore_atSample]
    · obtain rfl : r = (s.atSample level).receiver.accept s.clock level := hr
      obtain rfl : e = s.receiver.closes s.clock := closes_eq en em
      subst hv hc
      have row := step_acceptsTesting h p hl hx b ne k d tt
      refine ⟨fun z => row.trans (next_choose (congrArg rxd (takeClosed_none z))),
        fun x z => row.trans (next_choose (congrArg rxd (takeClosed_some z))),
        fun a => ⟨fun n => row.trans (next_choose (congrArg rxd (takeClosed_hunting a n))),
          fun y w => ?_, fun y w => ?_⟩⟩
      · rw [row, y]
        exact next_choose (congrArg rxd ((takeClosed_syncTesting a b _ _).1 w))
      · rw [row, y]
        exact next_choose (congrArg rxd ((takeClosed_syncTesting a b _ _).2 w))
    · subst ht
      have row := step_decides h p hl hx b l z i q
      refine ⟨row, fun a => row.trans (next_choose (congrArg rxd (takeElement_ignored a ?_)))⟩
      split <;> simp
  case quiet =>
    obtain ⟨m, rfl⟩ : ∃ m, n = m + 1 := ⟨n - 1, by omega⟩
    subst hu
    refine ⟨fun b => idleFor_waits ⟨pa, ra, bd, .inl b, se⟩ (.inl b), fun b x c => ?_⟩
    have q : Quiet s := ⟨pa, ra, bd, .inr ⟨x, c⟩, se⟩
    refine ⟨fun w => idleFor_waits q (.inr (.inl (decidesAt_none w))), fun d l k => ⟨fun i =>
      idleFor_waits q (.inr (.inr ⟨_, decidesAt_measured l k, i⟩)), fun i t ht => ?_⟩⟩
    rw [ht]
    exact idleFor_takes q b l k i

end Sys2Proof.Machine

/-! PROOFS. Every row of the table keeps every form of the state, and so does every step. -/

namespace Sys2Proof.Machine

/-- The outcome of a row that answers a next state keeps every form. -/
def KeepsForms (r : StepResult) : Prop := ∀ t, r = .next t → Sound t

theorem keepsForms_next {t : State} (h : Sound t) : KeepsForms (.next t) := by
  rintro u ⟨⟩
  exact h

theorem keepsForms_live {s t : State} (h : Sound s) (k : Sound t) : KeepsForms (live s t) := by
  unfold live
  split
  · exact keepsForms_next h
  · exact keepsForms_next k.choose

/-! ## The host link -/

theorem Sound.malformedCommand {s : State} (h : Sound s) (f : HostFrame) : Sound (s.malformedCommand f) := by
  unfold State.malformedCommand
  split
  · exact h.takeFrame f
  · exact h

theorem Sound.queueFull {s : State} (h : Sound s) (f : HostFrame) : Sound (s.queueFull f) := by
  unfold State.queueFull
  split
  · exact h.takeFrame f
  · exact h

theorem Sound.frameDiscard {s : State} (h : Sound s) (c : DiscardCause) : Sound (s.frameDiscard c) := by
  cases c with
  | length => exact h.discardFrame
  | crc => exact h.discardFrame
  | noRoom =>
    show Sound (if _ then _ else _)
    split
    · exact h.discardFrame
    · exact h

theorem Sound.frameGap {s : State} (h : Sound s) : Sound s.frameGap := by
  unfold State.frameGap
  split
  · exact h
  · exact h.discardFrame

theorem Sound.commandReset {s : State} (h : Sound s) : Sound s.commandReset := by
  unfold State.commandReset
  split
  · exact Sound.resetBy s .command
  · exact h

/-- The forms speak of the directory, the store, the contexts, the configuration, the timebase and the link alone. -/
theorem Sound.agree {s t : State} (h : Sound s) (hd : t.directory = s.directory) (hs : t.store = s.store)
    (hc : t.contexts = s.contexts) (hg : t.config = s.config) (ht : t.timebase = s.timebase)
    (n : NoticesOk t.link.notices) (q : QueuesOk t.link) (k : HandOk t.link) : Sound t := by
  have F : CellOk t := h.cell.same (by rw [hd]) (by rw [hd]) (by rw [hs]) (by rw [hs]) hc
  exact ⟨hs ▸ h.store, h.blocks.shrink (hs ▸ .refl _), F.dir, CellOk.records F, F.ctx, hg ▸ h.config, ht ▸ h.position,
    n, q, k⟩

/-- While RSTN is low the part stands as it does right after a pin reset, but for the notice queue, which is empty. -/
theorem Sound.heldInReset (s : State) : Sound s.heldInReset := by
  have h := Sound.resetBy s .pin
  exact h.agree rfl rfl rfl rfl rfl ⟨Nat.zero_le _, .nil⟩ h.queues h.hand

/-! ## The line -/

theorem Sound.elementEnd {s : State} (h : Sound s) : Sound s.elementEnd := by
  refine h.event (CellStep.event ?_) h.cell.elementEnd
  unfold State.elementEnd
  split
  · exact .refl s
  · split
    · exact (firstTick_cell s).trans ⟨rfl, rfl, rfl, rfl, rfl, rfl, rfl, rfl, id, rfl, .refl _⟩
    · exact .refl s

theorem Sound.withBurst {s : State} (h : Sound s) (b : Option Burst) : Sound { s with burst := b } :=
  h.event ⟨rfl, rfl, rfl, rfl, rfl, rfl, rfl, id, id, .refl _⟩ (h.cell.same rfl rfl rfl rfl rfl)

/-- A parity error marks its record as damaged (R172). -/
theorem Sound.damage {s : State} (h : Sound s) (k : Nat) :
    Sound (s.updateRecord k fun r => { r with damaged := true }) := by
  refine h.event (CellStep.event ?_) (h.cell.damage k)
  exact updateRecord_cell s k _ fun r => ⟨rfl, rfl, rfl, rfl⟩

theorem Sound.takeSourceAnswer {s : State} (h : Sound s) (b : Burst) (a : SourceAnswer) :
    KeepsForms (s.takeSourceAnswer b a) := by
  cases a with
  | byte x =>
    have k : Sound { s with burst := some (b.takeByte x) } := h.withBurst _
    exact keepsForms_live h (k.event (sourceMoved_cell _ b).event (k.cell.sourceMoved b))
  | parityError n => exact keepsForms_live h ((h.withBurst _).damage n)
  | noAddress => rintro t ⟨⟩
  | noTransfer => exact keepsForms_live h h

theorem Sound.byteRequest {s : State} (h : Sound s) (upset : Bool) : KeepsForms (exec (.byteRequest upset) s) := by
  show KeepsForms (execByteRequest upset s)
  unfold execByteRequest
  split
  · exact keepsForms_next h
  · split
    · exact keepsForms_live h h
    · split
      · exact h.takeSourceAnswer _ _
      · exact keepsForms_live h h

/-! ## Every row -/

theorem Sound.exec {s : State} (h : Sound s) (i : Instr) : KeepsForms (exec i s) := by
  have frame (f : HostFrame) : KeepsForms (live s (s.takeFrame f)) := keepsForms_live h (h.takeFrame f)
  have event {t : State} (k : EventStep s t) (c : CellOk t) : KeepsForms (live s t) := keepsForms_live h (h.event k c)
  cases i with
  | getInfo tag p => exact frame _
  | getStatus tag p => exact frame _
  | configure tag p => exact frame _
  | start tag p => exact frame _
  | stop tag p => exact frame _
  | lineTest tag p => exact frame _
  | reset tag p => exact frame _
  | admitJoin tag p => exact frame _
  | labelQuery tag p => exact frame _
  | labelList tag p => exact frame _
  | labelOp tag p => exact frame _
  | release tag p => exact frame _
  | forget tag p => exact frame _
  | pageBegin tag p => exact frame _
  | pageData tag p => exact frame _
  | pageEnd tag p => exact frame _
  | pageDiscard tag p => exact frame _
  | pagePin tag p => exact frame _
  | pageUnpin tag p => exact frame _
  | pageRequeue tag p => exact frame _
  | pageQuery tag p => exact frame _
  | malformedCommand kind tag p => exact keepsForms_live h (h.malformedCommand _)
  | queueFull kind tag p => exact keepsForms_live h (h.queueFull _)
  | frameDiscard c => exact keepsForms_live h (h.frameDiscard c)
  | frameGap => exact keepsForms_live h h.frameGap
  | frameSent => exact keepsForms_live h h.frameSent
  | commandReset => exact keepsForms_live h h.commandReset
  | powerOn => exact keepsForms_next (Sound.resetBy s .power).choose
  | rstnReset => exact keepsForms_next (Sound.resetBy s .pin).choose
  | rstnLow => exact keepsForms_next (Sound.heldInReset s)
  | characterReceived a d b => exact keepsForms_live h (h.characterReceived a d b)
  | roundBoundary => exact keepsForms_live h h.takeRoundBoundary
  | slotStart => exact keepsForms_live h h.takeSlotStart
  | transition n => exact keepsForms_live h (h.takeTransition n)
  | byteRequest upset => exact h.byteRequest upset
  | lineElementEnd => exact keepsForms_live h h.elementEnd
  | burstEnd => exact event (burstEnd_cell s).event h.cell.burstEnd
  | blankingEnd level => exact event (blankingEnd_cell s level).event (h.cell.blankingEnd level)
  | replyWindowEnd => exact event (replyWindowEnd_cell s).event (h.cell.replyWindowEnd h.config)
  | callEnd => exact event (callEnd_cell s).event (h.cell.callEnd h.config)
  | beacon b => exact event (beaconBurst_event s b) (h.cell.beaconBurst b)
  | joinReq b => exact event (wholeBurst_event s _ _) (h.cell.wholeBurst _ _)
  | status b => exact event (wholeBurst_event s _ _) (h.cell.wholeBurst _ _)
  | receipt b => exact event (wholeBurst_event s _ _) (h.cell.wholeBurst _ _)
  | brokenBurst b => exact event (brokenBurst_cell s _ _).event (h.cell.brokenBurst _ _)
  | discardedBurst => exact event (discardedBurst_cell s).event h.cell.discardedBurst
  | testPeriodEnd => exact event (testPeriodEnd_cell s).event h.cell.testPeriodEnd

/-- What waits in the model's own queue is no part of a form. -/
theorem Sound.withPending {s : State} (h : Sound s) (q : List Instr) : Sound { s with pending := q } :=
  h.agree rfl rfl rfl rfl rfl h.notices h.queues h.hand

/-- Settles O60: a step is a row on the state with the rest of the queue, or one idle microsecond, and each keeps every
form. -/
theorem stepKeepsEveryForm : Obligations.StepKeepsEveryForm := by
  unfold Obligations.StepKeepsEveryForm
  intro s t h
  show step s = .next t → Sound t
  unfold step
  split
  · exact keepsForms_live h h.tick t
  · exact (h.withPending _).exec _ t

end Sys2Proof.Machine

/-! PROOFS. The commands of hub control: CONFIGURE (R38, R39, R196), START (R25) and STOP (R27). -/

namespace Sys2Proof.Machine

/-! ## The fields of a CONFIGURE -/

theorem sum_configFieldBytes_le (l : List Nat) : (l.map configFieldBytes).sum ≤ 2 * l.length := by
  induction l with
  | nil => exact le_refl _
  | cons i l ih =>
    have byte : configFieldBytes i ≤ 2 := by unfold configFieldBytes; split <;> omega
    simp only [List.map_cons, List.sum_cons, List.length_cons]
    omega

/-- A well-formed CONFIGURE is never too long for a frame. -/
theorem configure_length {p : List Byte} (h : payloadOk .configure p = true) : p.length ≤ Config.maxPayload := by
  have fields : (configFieldsPresent (configMask p)).length ≤ 13 := by
    exact (List.length_filter_le _ _).trans (by rw [List.length_range])
  have bytes := sum_configFieldBytes_le (configFieldsPresent (configMask p))
  simp only [payloadOk, Bool.and_eq_true, beq_iff_eq] at h
  have limit : Config.maxPayload = 200 := rfl
  omega

theorem configValuesFrom_fields (l : List Nat) (bytes : List Byte) : (configValuesFrom l bytes).map Prod.fst = l := by
  induction l generalizing bytes with
  | nil => rfl
  | cons i l ih => simp [configValuesFrom, ih]

/-- The value of a field is in the bytes behind those of the fields before it. -/
theorem configValuesFrom_value {l : List Nat} {bytes : List Byte} {before after : List (Nat × Nat)} {i v : Nat}
    (h : configValuesFrom l bytes = before ++ (i, v) :: after) :
    v = leNat ((bytes.drop (before.map fun x => configFieldBytes x.1).sum).take (configFieldBytes i)) := by
  induction l generalizing bytes before with
  | nil => simp [configValuesFrom] at h
  | cons j l ih =>
    cases before with
    | nil =>
      simp only [configValuesFrom, List.nil_append, List.cons.injEq, Prod.mk.injEq] at h
      obtain ⟨⟨rfl, rfl⟩, -⟩ := h
      rfl
    | cons x before =>
      simp only [configValuesFrom, List.cons_append, List.cons.injEq] at h
      obtain ⟨rfl, h⟩ := h
      rw [ih h, List.drop_drop]
      rfl

theorem leNat_take_one (l : List Byte) : leNat (l.take 1) = (l.getD 0 0).toNat := by
  cases l <;> simp [leNat]

theorem leNat_take_two (l : List Byte) : leNat (l.take 2) = (l.getD 0 0).toNat + 256 * (l.getD 1 0).toNat := by
  cases l with
  | nil => rfl
  | cons b l => cases l <;> simp [leNat]

theorem configMask_cons (m0 m1 : Byte) (rest : List Byte) :
    configMask (m0 :: m1 :: rest) = m0.toNat + 256 * m1.toNat := by
  simp [configMask, fieldAt, leNat]

theorem configValues_fields (m0 m1 : Byte) (rest : List Byte) : (configValues (m0 :: m1 :: rest)).map Prod.fst
    = (List.range 13).filter fun i => (m0.toNat + 256 * m1.toNat).testBit i := by
  rw [← configMask_cons m0 m1 rest]
  exact configValuesFrom_fields _ _

theorem configValues_value {m0 m1 : Byte} {rest : List Byte} {before after : List (Nat × Nat)} {i v n : Nat}
    (h : configValues (m0 :: m1 :: rest) = before ++ (i, v) :: after)
    (hn : n = (before.map fun x => if x.1 = 0 ∨ x.1 = 10 ∨ x.1 = 11 then 2 else 1).sum) :
    v = if i = 0 ∨ i = 10 ∨ i = 11 then (rest.getD n 0).toNat + 256 * (rest.getD (n + 1) 0).toNat
      else (rest.getD n 0).toNat := by
  have value := configValuesFrom_value (bytes := rest) h
  subst hn
  unfold configFieldBytes at value
  by_cases two : i = 0 ∨ i = 10 ∨ i = 11
  · rw [if_pos two] at value ⊢
    rw [value, leNat_take_two]
    simp
  · rw [if_neg two] at value ⊢
    rw [value, leNat_take_one]
    simp

/-! ## CONFIGURE -/

theorem exec_configure {s u : State} {tag : Byte} {p : List Byte} (h : Ready s) (k : payloadOk .configure p = true)
    (hu : u = s.inHand ⟨0x03, tag, p⟩) : exec (.configure tag p) s =
    .next ((u.doConfigure p).state.reply 0x03 tag (u.doConfigure p).status (u.doConfigure p).result) := by
  subst hu
  exact taken h (f := ⟨0x03, tag, p⟩) (k := .configure) (by rfl) k (configure_length k)

/-- The group check (R39): while the timebase runs no field of the fixed group is written. -/
def GroupFree (s : State) (p : List Byte) : Prop := s.timebase.running = false ∨ ∀ x ∈ configValues p, 4 ≤ x.1

theorem doConfigure_group {s : State} {p : List Byte} (h : s.timebase.running = true)
    (k : ∃ x ∈ configValues p, x.1 < 4) : s.doConfigure p = s.refuse .wrongState := by
  obtain ⟨x, m, lt⟩ := k
  exact if_pos ⟨h, List.any_eq_true.2 ⟨x, m, decide_eq_true lt⟩⟩

/-- Past the group check the ranges come, and then the cross-checks. -/
theorem doConfigure_free {s : State} {p : List Byte} (h : GroupFree s p) : s.doConfigure p =
    if !(configValues p).all configFieldInRange then s.refuse .badField
    else if !(s.config.writeAll (configValues p)).crossChecks then s.refuse .badField
    else State.accept { s with config := s.config.writeAll (configValues p) }
      (configBytes (s.config.writeAll (configValues p))) := by
  refine if_neg ?_
  rintro ⟨running, fixed⟩
  obtain ⟨x, m, lt⟩ := List.any_eq_true.1 fixed
  rcases h with h | h
  · rw [h] at running
    cases running
  · have ge := h x m
    have lt' : x.1 < 4 := of_decide_eq_true lt
    omega

theorem doConfigure_range {s : State} {p : List Byte} (h : GroupFree s p)
    (k : ∃ x ∈ configValues p, configFieldInRange x = false) : s.doConfigure p = s.refuse .badField := by
  rw [doConfigure_free h, if_pos]
  rw [Bool.not_eq_true', List.all_eq_false]
  obtain ⟨x, m, bad⟩ := k
  exact ⟨x, m, by rw [bad]; exact Bool.false_ne_true⟩

theorem crossChecks_iff (c : Configuration) :
    c.crossChecks = true ↔ c.carrierMark + c.carrierSpace ≤ 48 ∧ c.batteryCritical + 100 ≤ c.batteryLow := by
  simp [Configuration.crossChecks]

/-- Past both, the record as it would stand is cross-checked, and written. -/
theorem doConfigure_inRange {s : State} {p : List Byte} {c : Configuration} (h : GroupFree s p)
    (k : ∀ x ∈ configValues p, configFieldInRange x = true) (hc : c = s.config.writeAll (configValues p)) :
    s.doConfigure p = if !c.crossChecks then s.refuse .badField
      else State.accept { s with config := c } (configBytes c) := by
  subst hc
  rw [doConfigure_free h, List.all_eq_true.2 k]
  rfl

theorem doConfigure_crossed {s : State} {p : List Byte} {c : Configuration} (h : GroupFree s p)
    (k : ∀ x ∈ configValues p, configFieldInRange x = true) (hc : c = s.config.writeAll (configValues p))
    (x : ¬ (c.carrierMark + c.carrierSpace ≤ 48 ∧ c.batteryCritical + 100 ≤ c.batteryLow)) :
    s.doConfigure p = s.refuse .badField := by
  rw [doConfigure_inRange h k hc, if_pos]
  rw [Bool.not_eq_true', Bool.eq_false_iff, Ne, crossChecks_iff]
  exact x

theorem doConfigure_written {s : State} {p : List Byte} {c : Configuration} (h : GroupFree s p)
    (k : ∀ x ∈ configValues p, configFieldInRange x = true) (hc : c = s.config.writeAll (configValues p))
    (x : c.carrierMark + c.carrierSpace ≤ 48 ∧ c.batteryCritical + 100 ≤ c.batteryLow) :
    s.doConfigure p = State.accept { s with config := c } (configBytes c) := by
  rw [doConfigure_inRange h k hc, (crossChecks_iff c).2 x]
  rfl

/-- The ranges of R38, field by field. -/
theorem configFieldInRange_iff (v : Nat) :
    (configFieldInRange (0, v) = true ↔ 1 ≤ v ∧ v ≤ 65534)
    ∧ (configFieldInRange (1, v) = true ↔ 1 ≤ v ∧ v ≤ 64) ∧ (configFieldInRange (2, v) = true ↔ 1 ≤ v ∧ v ≤ 64)
    ∧ (configFieldInRange (3, v) = true ↔ v = 8 ∨ v = 16 ∨ v = 32 ∨ v = 64)
    ∧ (configFieldInRange (4, v) = true ↔ v ≤ 2)
    ∧ (configFieldInRange (5, v) = true ↔ v = 1 ∨ v = 2 ∨ v = 4 ∨ v = 8 ∨ v = 16)
    ∧ (configFieldInRange (6, v) = true ↔ 1 ≤ v ∧ v ≤ 16) ∧ (configFieldInRange (7, v) = true ↔ 1 ≤ v ∧ v ≤ 15)
    ∧ (configFieldInRange (8, v) = true ↔ 1 ≤ v ∧ v ≤ 15) ∧ (configFieldInRange (9, v) = true ↔ 1 ≤ v ∧ v ≤ 7)
    ∧ (configFieldInRange (10, v) = true ↔ 1800 ≤ v ∧ v ≤ 3600)
    ∧ (configFieldInRange (11, v) = true ↔ 1800 ≤ v ∧ v ≤ 3600) ∧ (configFieldInRange (12, v) = true ↔ v ≤ 1) := by
  simp [configFieldInRange, isPeriod, or_assoc]

/-- Settles O20: the checks in order, the walk over the fields, the two tables and the reply's bytes. -/
theorem configureChecksThenWrites : Obligations.ConfigureChecksThenWrites := by
  unfold Obligations.ConfigureChecksThenWrites
  refine ⟨?checks, fun m0 m1 rest => ⟨configValues_fields m0 m1 rest, fun _ _ _ _ h _ hn => configValues_value h hn⟩,
    configFieldInRange_iff, ?writes, ?bytes⟩
  case checks =>
    intro tag p s h k
    obtain ⟨u, hu⟩ : ∃ u, u = s.inHand ⟨0x03, tag, p⟩ := ⟨_, rfl⟩
    have hc : u.config = s.config := by rw [hu]; rfl
    have ht : u.timebase = s.timebase := by rw [hu]; rfl
    rw [exec_configure h k hu, ← hu, ← hc, ← ht]
    refine ⟨fun r x => ?_, fun g => ⟨fun x => ?_, fun r c w => ⟨fun x => ?_, fun x y => ?_⟩⟩⟩
    · rw [doConfigure_group r x]
      rfl
    · rw [doConfigure_range g x]
      rfl
    · rw [doConfigure_crossed g r w x]
      rfl
    · rw [doConfigure_written g r w ⟨x, y⟩]
      rfl
  case writes =>
    intro c
    refine ⟨rfl, fun v fs => ⟨rfl, rfl, rfl, rfl, rfl, rfl, rfl, rfl, rfl, rfl, rfl, rfl, ?_⟩⟩
    show Configuration.writeAll { c with batterySaving := v == 1 } fs = _
    rw [beq_eq_decide]
  case bytes =>
    intro c
    unfold configBytes
    cases c.joinPolicy <;> rfl

/-! ## START -/

theorem exec_start {s u : State} {tag : Byte} (h : Ready s) (hu : u = s.inHand ⟨0x04, tag, []⟩) :
    exec (.start tag []) s = .next (u.doStart.state.reply 0x04 tag u.doStart.status u.doStart.result) := by
  subst hu
  exact taken h (f := ⟨0x04, tag, []⟩) (k := .start) (by rfl) (by rfl) (Nat.zero_le _)

theorem doStart_refused {s : State} (h : s.hub ≠ .offline) : s.doStart = s.refuse .wrongState := if_neg h

theorem doStart_stopped {s : State} (h : s.hub = .offline) (k : s.timebase.running = false) :
    s.doStart = (State.post { s with hub := .listening 1 true, timebase := ⟨true, 0, 0, 0⟩ }
      (.linkState .listening .start)).accept [] := by
  unfold State.doStart State.startListening
  rw [if_pos h, k]
  rfl

theorem doStart_running {s : State} (h : s.hub = .offline) (k : s.timebase.running = true) :
    s.doStart = (State.post { s with hub := .listening (s.timebase.stamp + 2) false }
      (.linkState .listening .start)).accept [] := by
  unfold State.doStart State.startListening
  rw [if_pos h, k]
  rfl

/-- Settles O21. -/
theorem startEntersListening : Obligations.StartEntersListening := by
  unfold Obligations.StartEntersListening
  intro tag s h
  rw [exec_start h rfl]
  refine ⟨fun o k => ?_, fun o k => ?_, fun n => ?_⟩
  · rw [doStart_stopped (s := s.inHand _) o k]
    rfl
  · rw [doStart_running (s := s.inHand _) o k]
    rfl
  · rw [doStart_refused (s := s.inHand _) n]
    rfl

/-! ## STOP -/

theorem exec_stop {s u : State} {tag : Byte} (h : Ready s) (hu : u = s.inHand ⟨0x05, tag, []⟩) :
    exec (.stop tag []) s = .next (u.stopHub.reply 0x05 tag .ok []) := by
  subst hu
  exact taken h (f := ⟨0x05, tag, []⟩) (k := .stop) (by rfl) (by rfl) (Nat.zero_le _)

theorem stopHub_still {s : State} (h : s.hub = .offline ∨ s.hub = .stopping) : s.stopHub = s := by
  unfold State.stopHub
  rcases h with h | h <;> rw [h]

theorem stopHub_listening {s : State} {e : Stamp} {m : Bool} (h : s.hub = .listening e m) :
    s.stopHub = State.post { s with hub := .offline } (.linkState .offline .stop) := by
  unfold State.stopHub
  rw [h]

theorem stopHub_running {s : State} (h : s.hub = .running) :
    s.stopHub = State.post { s with hub := .stopping } (.linkState .stopping .stop) := by
  unfold State.stopHub
  rw [h]

theorem stopHub_testing {s : State} {t : LineTest} (h : s.hub = .testing t) : s.stopHub = s.stopTest t := by
  unfold State.stopHub
  rw [h]

/-- A dropped burst ends the blanking it began (R8, R15); with no burst nothing happens. -/
theorem dropBurst_eq (s : State) : s.dropBurst = { s with
    burst := none
    receiver := if s.burst.isSome = true ∧ s.receiver.blanked = true then Receiver.unblank s.receiver.pdin
      else s.receiver } := by
  unfold State.dropBurst
  cases b : s.burst with
  | none =>
    simp only [Option.isSome_none, Bool.false_eq_true, false_and, if_false]
    rw [← b]
  | some x => simp

/-- Settles O22. -/
theorem stopActsByHubState : Obligations.StopActsByHubState := by
  unfold Obligations.StopActsByHubState
  rintro tag s u h rfl
  rw [exec_stop h rfl]
  refine ⟨fun k => ?_, fun e m k => ?_, fun k => ?_, fun t k v hv => ?_⟩
  · rw [stopHub_still (s := s.inHand _) k]
  · rw [stopHub_listening (s := s.inHand _) k]
  · rw [stopHub_running (s := s.inHand _) k]
  · rw [stopHub_testing (s := s.inHand _) k, State.stopTest, State.endTest, dropBurst_eq, hv]
    rfl

end Sys2Proof.Machine

/-! PROOFS. The round planner (R135 to R145) and the beacon (R34 to R36): what a turn can do, what the turns keep, and
what the plan made of them is. -/

namespace Sys2Proof.Machine

/-! ## Turns (R139, R142, R143) -/

/-- What a turn can do: nothing, or one more share, of at least one slot and of no more than are left. -/
theorem turn_cases (c : Allocation) (x : Applicant) : c.turn x = c
    ∨ ∃ (y : Share) (t : State), y.address = x.address ∧ y.kind = x.kind ∧ 1 ≤ y.slots ∧ y.slots ≤ c.left
      ∧ c.shares.length ≠ 8 ∧ ¬ (x.kind = .assign ∧ c.assigns = 3)
      ∧ c.turn x = ⟨t, c.left - y.slots, if x.kind = .assign then c.assigns + 1 else c.assigns, c.shares ++ [y]⟩ := by
  unfold Allocation.turn
  dsimp only
  split
  · exact .inl rfl
  · rename_i room
    split
    · exact .inl rfl
    · rename_i few
      have few : ¬ (x.kind = .assign ∧ c.assigns = 3) := by
        simpa [Applicant.isAssign, Config.assignPlaces] using few
      split
      · rename_i fits
        refine .inr ⟨⟨x.address, x.kind, c.state.ownSlots x, (c.state.transferRecord x.address).getD 0,
          c.state.fragmentSlots x⟩, if 0 < c.state.fragmentSlots x then c.state.claimFor x.address else c.state, rfl, rfl,
          fits.1, fits.2, room, few, ?_⟩
        simp [Applicant.isAssign, Share.slots]
      · split
        · rename_i part
          refine .inr ⟨⟨x.address, x.kind, c.state.ownSlots x, 0, 0⟩, c.state, rfl, rfl, part.2.2.1, part.2.2.2, room,
            few, ?_⟩
          rw [part.1]
          rfl
        · exact .inl rfl

/-- The fields of the state that the plan is made of, and that no turn changes. -/
structure SamePlanned (s t : State) : Prop where
  directory : t.directory = s.directory
  config : t.config = s.config
  timebase : t.timebase = s.timebase

theorem SamePlanned.entry {s t : State} (h : SamePlanned s t) (a : Nat) : t.entry a = s.entry a := by
  unfold State.entry
  rw [h.directory]

theorem turn_planned (c : Allocation) (x : Applicant) : SamePlanned c.state (c.turn x).state :=
  ⟨turn_directory c x, (turn_cell c x).config, (turn_cell c x).timebase⟩

/-- The slots that the shares take. -/
def shareSlots (l : List Share) : Nat := (l.map Share.slots).sum

@[simp] theorem shareSlots_nil : shareSlots [] = 0 := rfl

@[simp] theorem shareSlots_cons (x : Share) (l : List Share) : shareSlots (x :: l) = x.slots + shareSlots l := rfl

@[simp] theorem shareSlots_append (l m : List Share) : shareSlots (l ++ m) = shareSlots l + shareSlots m := by
  simp [shareSlots]

/-- What holds once some applicants have had their turns (R142). -/
structure Allocated (s : State) (done : List Applicant) (c : Allocation) : Prop where
  planned : SamePlanned s c.state
  places : c.shares.length ≤ 8
  slots : shareSlots c.shares + c.left = 60
  taken : ∀ x ∈ c.shares, 1 ≤ x.slots
  assigns : (c.shares.filter fun x => x.kind == .assign).length = c.assigns
  few : c.assigns ≤ 3
  order : (c.shares.map Share.address).Sublist (done.map Applicant.address)

theorem Allocated.start (s : State) : Allocated s [] ⟨s, 60, 0, []⟩ :=
  ⟨⟨rfl, rfl, rfl⟩, Nat.zero_le _, rfl, by simp, rfl, Nat.zero_le _, .slnil⟩

theorem Allocated.turn {s : State} {done : List Applicant} {c : Allocation} (h : Allocated s done c) (x : Applicant) :
    Allocated s (done ++ [x]) (c.turn x) := by
  have planned : SamePlanned s (c.turn x).state :=
    ⟨(turn_planned c x).directory.trans h.planned.directory, (turn_planned c x).config.trans h.planned.config,
      (turn_planned c x).timebase.trans h.planned.timebase⟩
  rcases turn_cases c x with e | ⟨y, t, address, kind, some, fit, room, few, e⟩
  · rw [e] at planned ⊢
    exact ⟨planned, h.places, h.slots, h.taken, h.assigns, h.few, by
      rw [List.map_append]
      exact h.order.trans (List.sublist_append_left _ _)⟩
  · rw [e] at planned ⊢
    have places := h.places
    have slots := h.slots
    have assigns := h.assigns
    have limit := h.few
    refine ⟨planned, ?_, ?_, ?_, ?_, ?_, ?_⟩
    · rw [List.length_append, List.length_singleton]
      omega
    · show shareSlots (c.shares ++ [y]) + (c.left - y.slots) = 60
      rw [shareSlots_append, shareSlots_cons, shareSlots_nil]
      omega
    · intro z hz
      rcases List.mem_append.1 hz with hz | hz
      · exact h.taken z hz
      · rw [List.mem_singleton.1 hz]
        exact some
    · by_cases k : x.kind = .assign <;> simp [kind, k, assigns]
    · by_cases k : x.kind = .assign
      · rw [if_pos k]
        have : c.assigns ≠ 3 := fun z => few ⟨k, z⟩
        show c.assigns + 1 ≤ 3
        omega
      · rw [if_neg k]
        exact limit
    · rw [List.map_append, List.map_append, List.map_singleton, List.map_singleton, address]
      exact h.order.append_right _

theorem Allocated.turns {s : State} {done : List Applicant} {c : Allocation} (h : Allocated s done c)
    (q : List Applicant) : Allocated s (done ++ q) (q.foldl Allocation.turn c) := by
  induction q generalizing done c with
  | nil => simpa using h
  | cons x q ih => simpa using ih (h.turn x)

theorem allocate_allocated (s : State) : Allocated s s.candidates s.allocate := (Allocated.start s).turns s.candidates

/-- No label is a candidate twice: what orders a candidate is fixed by its short address. -/
theorem candidates_distinct (s : State) : (s.candidates.map Applicant.address).Nodup := by
  rw [List.Nodup, List.pairwise_map]
  refine (candidates_sorted s).imp_of_mem fun {x y} hx hy before same => ?_
  obtain ⟨a, -, ea⟩ := mem_candidates.1 hx
  obtain ⟨b, -, eb⟩ := mem_candidates.1 hy
  rw [← (applicant_some ea).1] at ea
  rw [← (applicant_some eb).1, ← same, ea] at eb
  cases eb
  rcases before with lt | ⟨-, lt | ⟨-, lt⟩⟩ <;> omega

/-! ## Runs (R144) -/

theorem callsFrom_split {first : Nat} {l : List Share} {before after : List Call} {c : Call}
    (h : callsFrom first l = before ++ c :: after) : ∃ lb x la, l = lb ++ x :: la ∧ before = callsFrom first lb
      ∧ c = ⟨x.address, x.kind, first + shareSlots lb, x.slots⟩
      ∧ after = callsFrom (first + shareSlots lb + x.slots) la := by
  induction before generalizing first l with
  | nil =>
    cases l with
    | nil => cases h
    | cons x l =>
      simp only [callsFrom, List.nil_append, List.cons.injEq] at h
      exact ⟨[], x, l, rfl, rfl, h.1.symm, h.2.symm⟩
  | cons d before ih =>
    cases l with
    | nil => cases h
    | cons y l =>
      simp only [callsFrom, List.cons_append, List.cons.injEq] at h
      obtain ⟨hd, h⟩ := h
      obtain ⟨lb, x, la, rfl, rfl, rfl, rfl⟩ := ih h
      refine ⟨y :: lb, x, la, rfl, ?_, ?_, ?_⟩
      · rw [← hd]
        rfl
      · rw [shareSlots_cons, Nat.add_assoc]
      · rw [shareSlots_cons, Nat.add_assoc first]

theorem callsFrom_map (first : Nat) (l : List Share) : (callsFrom first l).map (fun c => (c.address, c.kind, c.count))
    = l.map fun x => (x.address, x.kind, x.own + x.fragments) := by
  induction l generalizing first with
  | nil => rfl
  | cons x l ih => simp [callsFrom, ih, Share.slots]

theorem callsFrom_addresses (first : Nat) (l : List Share) :
    (callsFrom first l).map Call.address = l.map Share.address := by
  simpa [Function.comp_def] using congrArg (List.map Prod.fst) (callsFrom_map first l)

theorem callsFrom_kinds (first : Nat) (l : List Share) : (callsFrom first l).map Call.kind = l.map Share.kind := by
  simpa [Function.comp_def] using congrArg (List.map fun z => z.2.1) (callsFrom_map first l)

theorem callsFrom_length (first : Nat) (l : List Share) : (callsFrom first l).length = l.length := by
  simpa using congrArg List.length (callsFrom_map first l)

theorem callsFrom_assigns (first : Nat) (l : List Share) :
    ((callsFrom first l).filter fun c => c.kind == .assign).length = (l.filter fun x => x.kind == .assign).length := by
  have kinds := congrArg (fun k => (List.filter (fun k => k == CallKind.assign) k).length) (callsFrom_kinds first l)
  simpa [List.filter_map, Function.comp_def] using kinds

/-- A slot behind every run lies behind the last of them. -/
theorem callsFrom_behind {first slot : Nat} {l : List Share} (h : first ≤ slot)
    (k : ∀ c ∈ callsFrom first l, slot < c.first ∨ c.first + c.count ≤ slot) : first + shareSlots l ≤ slot := by
  induction l generalizing first with
  | nil => exact h
  | cons x l ih =>
    simp only [callsFrom, List.forall_mem_cons] at k
    obtain ⟨head, rest⟩ := k
    have next := ih (by omega) rest
    rw [shareSlots_cons]
    omega

theorem length_places (x : Share) : x.places.length = x.slots := by simp [Share.places, Share.slots]

theorem length_slotMap (l : List Share) : (l.flatMap Share.places).length = shareSlots l := by
  induction l with
  | nil => rfl
  | cons x l ih => rw [List.flatMap_cons, List.length_append, ih, length_places, shareSlots_cons]

theorem places_address {x : Share} {q : Place} (h : q ∈ x.places) : q.address = x.address := by
  rcases List.mem_append.1 h with h | h <;> rw [List.eq_of_mem_replicate h]

/-- The places of a share stand in the slot map behind those of the shares before it. -/
theorem slotMap_at {lb la : List Share} {x : Share} {i : Nat} (h : shareSlots lb ≤ i)
    (k : i < shareSlots lb + x.slots) :
    ∃ q, ((lb ++ x :: la).flatMap Share.places)[i]? = some q ∧ q.address = x.address := by
  have inside : i - shareSlots lb < x.places.length := by
    rw [length_places]
    omega
  refine ⟨x.places[i - shareSlots lb], ?_, places_address (List.getElem_mem inside)⟩
  rw [List.flatMap_append, List.flatMap_cons, List.getElem?_append_right (by rwa [length_slotMap]), length_slotMap,
    List.getElem?_append_left inside, List.getElem?_eq_getElem inside]

theorem places_eq (x : Share) : x.places =
    List.replicate x.own ⟨x.address, match x.kind with
      | .assign => .assign | .service => .control | .probe => .probe | .release => .release⟩
    ++ List.replicate x.fragments ⟨x.address, .fragment x.handle⟩ := by
  unfold Share.places
  cases x.kind <;> rfl

/-! ## The beacon (R34 to R36, R145, R197) -/

theorem lowestVacant_isSome_iff (s : State) :
    s.lowestVacant.isSome = true ↔ ∃ a, 1 ≤ a ∧ a ≤ 240 ∧ s.entry a = .vacant := by
  have vacant (e : Entry) : e.isVacant = true ↔ e = .vacant := by cases e <;> simp [Entry.isVacant]
  unfold State.lowestVacant
  rw [List.find?_isSome]
  simp only [vacant, addresses, Config.directoryEntries, List.mem_range'_1]
  refine ⟨fun ⟨a, range, e⟩ => ⟨a, range.1, by omega, e⟩, fun ⟨a, low, high, e⟩ => ⟨a, ⟨low, by omega⟩, e⟩⟩

theorem joinOpen_iff (s : State) :
    s.joinOpen = true ↔ s.config.joinPolicy ≠ .closed ∧ ∃ a, 1 ≤ a ∧ a ≤ 240 ∧ s.entry a = .vacant := by
  unfold State.joinOpen
  rw [Bool.and_eq_true, lowestVacant_isSome_iff, bne_iff_ne]

theorem anyDrifted_iff (s : State) (calls : List Call) : s.anyDrifted calls = true
    ↔ ∃ c ∈ calls, ∃ l, s.entry c.address = .label l ∧ l.drifted = true := by
  unfold State.anyDrifted State.label?
  rw [List.any_eq_true]
  refine exists_congr fun c => and_congr_right fun _ => ?_
  cases s.entry c.address <;> simp [Entry.label?]

theorem beaconLead_long {s : State} {calls : List Call} (h : s.timebase.stamp.toNat % 16 = 0
    ∨ ∃ c ∈ calls, ∃ l, s.entry c.address = .label l ∧ l.drifted = true) :
    s.beaconLead calls = min 128 (4 * s.config.normalLead) := by
  rw [← anyDrifted_iff] at h
  exact if_pos h

theorem beaconLead_normal {s : State} {calls : List Call} (h : s.timebase.stamp.toNat % 16 ≠ 0)
    (k : ∀ c ∈ calls, ∀ l, s.entry c.address = .label l → l.drifted = false) :
    s.beaconLead calls = s.config.normalLead := by
  refine if_neg ?_
  rw [anyDrifted_iff]
  rintro (z | ⟨c, m, l, e, d⟩)
  · exact h z
  · rw [k c m l e] at d
    cases d

theorem beaconEntry_call {s : State} {c : Call} (h : c.kind ≠ .assign) :
    s.beaconEntry c = .call c.address c.first c.count := by
  unfold State.beaconEntry
  cases k : c.kind with
  | assign => exact absurd k h
  | service => rfl
  | probe => rfl
  | release => rfl

theorem beaconEntry_assign {s : State} {c : Call} {l : Label} (h : c.kind = .assign) (k : s.entry c.address = .label l) :
    s.beaconEntry c = .assign l.longId c.address c.first := by
  unfold State.beaconEntry
  rw [h, entry_label k]

theorem SamePlanned.beacon {s t : State} (h : SamePlanned s t) (calls : List Call) : t.beacon calls = s.beacon calls := by
  have label (a : Nat) : t.label? a = s.label? a := congrArg Entry.label? (h.entry a)
  have joinOpen : t.joinOpen = s.joinOpen := by
    simp only [State.joinOpen, State.lowestVacant, h.entry, h.config]
  have drifted : t.anyDrifted calls = s.anyDrifted calls :=
    Bool.eq_iff_iff.2 (by simp only [anyDrifted_iff, h.entry])
  have index : t.roundIndex = s.roundIndex := by simp only [State.roundIndex, h.timebase]
  have lead : t.beaconLead calls = s.beaconLead calls := by
    unfold State.beaconLead
    rw [index, drifted, h.config]
  have entries : t.beaconEntry = s.beaconEntry := by
    funext c
    simp only [State.beaconEntry, label]
  simp only [State.beacon, State.epoch, index, joinOpen, lead, entries, h.directory, h.config, h.timebase]

theorem byteOfBits_flags (x y z : Bool) :
    (byteOfBits [x, y, z]).toNat = (if x then 1 else 0) + (if y then 2 else 0) + (if z then 4 else 0) := by
  cases x <;> cases y <;> cases z <;> rfl

theorem beacon_bytes (b : Beacon) : b.bytes = [0x51] ++ leBytes 2 b.hubId.toNat ++ leBytes 2 b.epoch.toNat
    ++ [byteOf b.roundIndex, byteOfBits [b.epochStart, b.joinOpen, b.joinCrowded], byteOf b.entries.length]
    ++ b.entries.flatMap fun e => match e with
      | .call a f n => [byteOf a, byteOf f, byteOf n]
      | .assign id a f => [0] ++ leBytes 6 id.toNat ++ [byteOf a, byteOf f] := by
  have entry : BeaconEntry.bytes = fun e => match e with
      | .call a f n => [byteOf a, byteOf f, byteOf n]
      | .assign id a f => [0] ++ leBytes 6 id.toNat ++ [byteOf a, byteOf f] := by
    funext e
    cases e <;> rfl
  unfold Beacon.bytes
  rw [entry]
  rfl

/-! ## The plan (R135) -/

/-- The plan is made of the shares, and its beacon of the state as it was before the turns. -/
theorem buildPlan_plan {s : State} {p : Plan} (h : s.buildPlan.plan = some p) :
    p = ⟨callsFrom 4 s.allocate.shares, s.allocate.shares.flatMap Share.places,
      s.beacon (callsFrom 4 s.allocate.shares)⟩ := by
  rw [← (allocate_allocated s).planned.beacon]
  exact (Option.some.inj h).symm

theorem calls_bounds {s : State} {c : Call} (h : c ∈ callsFrom 4 s.allocate.shares) :
    4 ≤ c.first ∧ 1 ≤ c.count ∧ c.first + c.count ≤ 64 := by
  obtain ⟨before, after, e⟩ := List.append_of_mem h
  obtain ⟨lb, x, la, shares, -, rfl, -⟩ := callsFrom_split e
  have A := allocate_allocated s
  have slots := A.slots
  have taken := A.taken x (by rw [shares]; simp)
  rw [shares, shareSlots_append, shareSlots_cons] at slots
  refine ⟨Nat.le_add_right _ _, taken, ?_⟩
  show 4 + shareSlots lb + x.slots ≤ 64
  omega

theorem calls_follow {first : Nat} {l : List Share} {before after : List Call} {x y : Call}
    (h : callsFrom first l = before ++ x :: y :: after) : y.first = x.first + x.count := by
  obtain ⟨lb, z, la, -, -, rfl, e⟩ := callsFrom_split h
  obtain ⟨lc, w, -, -, none, rfl, -⟩ := callsFrom_split (before := []) e.symm
  cases lc with
  | nil => rfl
  | cons v lc => cases none

theorem calls_placed {p : Plan} {l : List Share} {c : Call} (h : c ∈ callsFrom 4 l)
    (k : p.slotMap = l.flatMap Share.places) {slot : Nat} (low : c.first ≤ slot) (high : slot < c.first + c.count) :
    ∃ place, p.placeOf slot = some place ∧ place.address = c.address := by
  obtain ⟨before, after, e⟩ := List.append_of_mem h
  obtain ⟨lb, x, la, rfl, -, rfl, -⟩ := callsFrom_split e
  have low' : 4 + shareSlots lb ≤ slot := low
  have high' : slot < 4 + shareSlots lb + x.slots := high
  have data : ¬ slot < Config.firstDataSlot := by
    show ¬ slot < 4
    omega
  unfold Plan.placeOf
  rw [if_neg data, k]
  exact slotMap_at (by show _ ≤ slot - 4; omega) (by show slot - 4 < _; omega)

theorem calls_unplaced {p : Plan} {l : List Share} (k : p.slotMap = l.flatMap Share.places) {slot : Nat}
    (h : ∀ c ∈ callsFrom 4 l, slot < c.first ∨ c.first + c.count ≤ slot) : p.placeOf slot = none := by
  unfold Plan.placeOf
  split
  · rfl
  · rename_i data
    have data : 4 ≤ slot := Nat.not_lt.1 data
    have behind := callsFrom_behind data h
    rw [k, List.getElem?_eq_none]
    rw [length_slotMap]
    show _ ≤ slot - 4
    omega

/-! ## Candidates (R137, R140) -/

theorem candidateClass_urgent {s : State} {a h : Nat} {r : Record} (t : s.transferRecord a = some h)
    (v : s.record h = some r) (u : r.urgent = true) : s.candidateClass a .service = 2 := by
  simp [State.candidateClass, t, v, u]

theorem candidateClass_other {s : State} {a : Nat}
    (n : ∀ h r, s.transferRecord a = some h → s.record h = some r → r.urgent = false) :
    s.candidateClass a .service = 3 := by
  unfold State.candidateClass
  cases e : s.transferRecord a with
  | none => rfl
  | some h =>
    cases k : s.record h with
    | none => simp [k]
    | some r => simp [k, n h r e k]

theorem candidateClass_service {s : State} {a n : Nat}
    (urgent : ∀ h r, s.transferRecord a = some h → s.record h = some r → r.urgent = true → n = 2)
    (other : (∀ h r, s.transferRecord a = some h → s.record h = some r → r.urgent = false) → n = 3) :
    n = s.candidateClass a .service := by
  by_cases u : ∃ h r, s.transferRecord a = some h ∧ s.record h = some r ∧ r.urgent = true
  · obtain ⟨h, r, t, v, u⟩ := u
    rw [candidateClass_urgent t v u]
    exact urgent h r t v u
  · have calm : ∀ h r, s.transferRecord a = some h → s.record h = some r → r.urgent = false :=
      fun h r t v => Bool.eq_false_iff.2 fun z => u ⟨h, r, t, v, z⟩
    rw [candidateClass_other calm]
    exact other calm

/-- The class of R140, by the kind of the call. -/
theorem candidateClass_iff (s : State) (a n : Nat) (k : CallKind) : n = s.candidateClass a k ↔
    (k = .assign ∨ k = .release → n = 1)
    ∧ (k = .service →
        (∀ h r, s.transferRecord a = some h → s.record h = some r → r.urgent = true → n = 2)
        ∧ ((∀ h r, s.transferRecord a = some h → s.record h = some r → r.urgent = false) → n = 3))
    ∧ (k = .probe → n = 3) := by
  cases k with
  | assign => simp [State.candidateClass]
  | release => simp [State.candidateClass]
  | probe => simp [State.candidateClass]
  | service =>
    refine ⟨fun e => ⟨by simp, fun _ => ⟨fun h r t v u => ?_, fun n => ?_⟩, by simp⟩, fun h => ?_⟩
    · rw [e, candidateClass_urgent t v u]
    · rw [e, candidateClass_other n]
    · exact candidateClass_service (h.2.1 rfl).1 (h.2.1 rfl).2

theorem mem_addresses {a : Nat} : a ∈ addresses ↔ 1 ≤ a ∧ a ≤ 240 := by
  simp only [addresses, Config.directoryEntries, List.mem_range'_1]
  omega

theorem applicant_iff (s : State) (a : Nat) (x : Applicant) : s.applicant a = some x ↔ x.address = a
    ∧ s.callKind a = some x.kind ∧ x.rank = s.candidateClass a x.kind ∧ x.age = s.waitingAge a := by
  refine ⟨applicant_some, fun ⟨address, kind, rank, age⟩ => ?_⟩
  subst address
  unfold State.applicant
  rw [kind]
  dsimp only
  rw [← rank, ← age]

/-- The candidates are R137's, each with its class and its waiting age. -/
theorem candidates_iff (s : State) (x : Applicant) : x ∈ s.candidates ↔ 1 ≤ x.address ∧ x.address ≤ 240
    ∧ CalledAs s x.address x.kind ∧ x.age = s.waitingAge x.address
    ∧ x.rank = s.candidateClass x.address x.kind := by
  rw [mem_candidates]
  simp only [applicant_iff, mem_addresses, ← callKind_iff]
  constructor
  · rintro ⟨a, range, rfl, kind, rank, age⟩
    exact ⟨range.1, range.2, kind, age, rank⟩
  · rintro ⟨low, high, kind, age, rank⟩
    exact ⟨_, ⟨low, high⟩, rfl, kind, rank, age⟩

/-! ## The slots of a candidate, judged at its turn (R139) -/

theorem sendingOf_isSome_iff (s : State) (a : Nat) : (s.sendingOf a).isSome = true
    ↔ ∃ h r, s.record h = some r ∧ r.address = a ∧ r.state = .sending := by
  refine ⟨fun k => ?_, fun ⟨h, r, e, address, sending⟩ => ?_⟩
  · obtain ⟨h, e⟩ := Option.isSome_iff_exists.1 k
    exact ⟨h, sendingOf_some e⟩
  · rw [Option.isSome_iff_ne_none]
    exact fun n => sendingOf_none n e address sending

theorem bestReady_isSome_iff (s : State) (a : Nat) : (s.bestReady a).isSome = true
    ↔ ∃ h r, s.record h = some r ∧ r.address = a ∧ r.state = .ready := by
  refine ⟨fun k => ?_, fun ⟨h, r, e, address, ready⟩ => ?_⟩
  · obtain ⟨h, e⟩ := Option.isSome_iff_exists.1 k
    exact ⟨h, bestReady_some e⟩
  · rw [Option.isSome_iff_ne_none]
    exact fun n => bestReady_none n h r e address ready

theorem freeContext_isSome_iff (s : State) : s.freeContext.isSome = true ↔ ∃ i, i < 16 ∧ s.context i = none := by
  unfold State.freeContext
  rw [List.find?_isSome]
  simp [contextNumbers, Config.contexts]

/-- A service candidate can send fragments: it has a SENDING record, or a READY one and a context free for it. -/
def CanSend (s : State) (a : Nat) : Prop := ∃ h r, s.record h = some r ∧ r.address = a
  ∧ (r.state = .sending ∨ (r.state = .ready ∧ ∃ i, i < 16 ∧ s.context i = none))

theorem fragmentSlots_service {s : State} {x : Applicant} (k : x.kind = .service) :
    (CanSend s x.address → s.fragmentSlots x = s.config.burstAllowance)
    ∧ (¬ CanSend s x.address → s.fragmentSlots x = 0) := by
  unfold State.fragmentSlots
  rw [k]
  dsimp only
  by_cases sending : (s.sendingOf x.address).isSome = true
  · rw [if_pos sending]
    obtain ⟨h, r, e, address, st⟩ := (sendingOf_isSome_iff s _).1 sending
    exact ⟨fun _ => rfl, fun n => absurd ⟨h, r, e, address, .inl st⟩ n⟩
  · have gate : ((s.bestReady x.address).isSome && s.freeContext.isSome) = true
        ↔ (∃ h r, s.record h = some r ∧ r.address = x.address ∧ r.state = .ready)
          ∧ ∃ i, i < 16 ∧ s.context i = none := by
      rw [Bool.and_eq_true, bestReady_isSome_iff, freeContext_isSome_iff]
    rw [if_neg sending]
    rw [sendingOf_isSome_iff] at sending
    constructor
    · rintro ⟨h, r, e, address, st | ⟨st, free⟩⟩
      · exact absurd ⟨h, r, e, address, st⟩ sending
      · exact if_pos (gate.2 ⟨⟨h, r, e, address, st⟩, free⟩)
    · intro n
      refine if_neg fun z => ?_
      obtain ⟨⟨h, r, e, address, st⟩, free⟩ := gate.1 z
      exact n ⟨h, r, e, address, .inr ⟨st, free⟩⟩

theorem slots_other {s : State} {x : Applicant} (k : x.kind ≠ .service) :
    s.ownSlots x = 1 ∧ s.fragmentSlots x = 0 := by
  unfold State.ownSlots State.fragmentSlots
  cases e : x.kind with
  | service => exact absurd e k
  | assign => exact ⟨rfl, rfl⟩
  | probe => exact ⟨rfl, rfl⟩
  | release => exact ⟨rfl, rfl⟩

theorem ownSlots_service {s : State} {x : Applicant} (k : x.kind = .service) :
    (∀ l, s.entry x.address = .label l → s.ownSlots x = l.queue.length)
    ∧ ((∀ l, s.entry x.address ≠ .label l) → s.ownSlots x = 0) := by
  unfold State.ownSlots State.label?
  rw [k]
  refine ⟨fun l e => by rw [e]; rfl, fun n => ?_⟩
  cases e : s.entry x.address with
  | vacant => rfl
  | cooling i c => rfl
  | label l => exact absurd e (n l)

/-- The turn of a candidate (R142), by the slots it asks for. -/
theorem turn_eq {c : Allocation} {x : Applicant} {own frag : Nat} (ho : own = c.state.ownSlots x)
    (hf : frag = c.state.fragmentSlots x) :
    (c.shares.length = 8 ∨ (x.kind = .assign ∧ c.assigns = 3) → c.turn x = c)
    ∧ (c.shares.length ≠ 8 → ¬ (x.kind = .assign ∧ c.assigns = 3) →
        (1 ≤ own + frag → own + frag ≤ c.left →
          c.turn x = ⟨if 0 < frag then c.state.claimFor x.address else c.state, c.left - (own + frag),
            if x.kind = .assign then c.assigns + 1 else c.assigns,
            c.shares ++ [⟨x.address, x.kind, own, (c.state.transferRecord x.address).getD 0, frag⟩]⟩)
        ∧ (x.kind = .service → c.left < own + frag → 1 ≤ own → own ≤ c.left →
            c.turn x = ⟨c.state, c.left - own, c.assigns, c.shares ++ [⟨x.address, x.kind, own, 0, 0⟩]⟩)
        ∧ (own + frag = 0 ∨ (c.left < own + frag ∧ (x.kind ≠ .service ∨ own = 0 ∨ c.left < own)) →
            c.turn x = c)) := by
  have full : (x.isAssign && c.assigns == Config.assignPlaces) = true ↔ x.kind = .assign ∧ c.assigns = 3 := by
    simp [Applicant.isAssign, Config.assignPlaces]
  unfold Allocation.turn
  simp only [← ho, ← hf, full]
  refine ⟨?_, fun room few => ⟨fun some fit => ?_, fun service wide some fit => ?_, fun none => ?_⟩⟩
  · rintro (h | h)
    · exact if_pos h
    · rw [if_pos h, ite_self]
  all_goals rw [if_neg (show ¬ c.shares.length = Config.callPlaces from room), if_neg few]
  · rw [if_pos ⟨some, fit⟩]
    simp [Applicant.isAssign]
  · rw [if_neg (by omega), if_pos ⟨service, wide, some, fit⟩]
  · rw [if_neg (by omega), if_neg]
    rintro ⟨service, wide, some, fit⟩
    rcases none with z | ⟨-, n | z | z⟩
    · omega
    · exact n service
    · omega
    · omega

/-! ## Claims (R143, R154) -/

theorem claimFor_sending {s : State} {a : Nat} (h : ∃ h r, s.record h = some r ∧ r.address = a ∧ r.state = .sending) :
    s.claimFor a = s := by
  obtain ⟨k, e⟩ := Option.isSome_iff_exists.1 ((sendingOf_isSome_iff s a).2 h)
  unfold State.claimFor
  rw [e]

theorem transferRecord_ready {s : State} {a h : Nat} {r : Record} (t : s.transferRecord a = some h)
    (e : s.record h = some r) (ready : r.state = .ready) : s.sendingOf a = none ∧ s.bestReady a = some h := by
  unfold State.transferRecord at t
  cases k : s.sendingOf a with
  | none => exact ⟨rfl, by rw [k] at t; exact t⟩
  | some g =>
    rw [k] at t
    cases t
    obtain ⟨q, v, -, sending⟩ := sendingOf_some k
    rw [e] at v
    cases v
    rw [ready] at sending
    cases sending

theorem freeContext_lowest {s : State} {i : Nat} (lt : i < 16) (free : s.context i = none)
    (below : ∀ j, j < i → s.context j ≠ none) : s.freeContext = some i := by
  obtain ⟨k, e⟩ := Option.isSome_iff_exists.1 ((freeContext_isSome_iff s).2 ⟨i, lt, free⟩)
  obtain ⟨-, m, before⟩ := List.find?_range_eq_some.1 e
  have ik : ¬ i < k := fun z => by simpa [free] using before i z
  have ki : ¬ k < i := fun z => below k z (freeContext_none e).2
  rw [e, show k = i by omega]

theorem claimFor_ready {s : State} {a h i : Nat} {r : Record} (t : s.transferRecord a = some h)
    (e : s.record h = some r) (ready : r.state = .ready) (lt : i < 16) (free : s.context i = none)
    (below : ∀ j, j < i → s.context j ≠ none) :
    s.claimFor a = (s.setRecord h (some { r with state := .sending })).setContext i (some (newContext h a)) := by
  obtain ⟨none, best⟩ := transferRecord_ready t e ready
  obtain ⟨q, v, address, -⟩ := bestReady_some best
  rw [e] at v
  cases v
  unfold State.claimFor State.claim State.updateRecord
  rw [none, best]
  simp only [e, freeContext_lowest lt free below, address]

/-! ## The planner as a whole -/

theorem plan_bounds {s : State} {p : Plan} (h : s.buildPlan.plan = some p) :
    p.calls.length ≤ 8 ∧ (p.calls.filter fun c => c.kind == .assign).length ≤ 3
    ∧ p.calls.Pairwise fun x y => x.address ≠ y.address := by
  have A := allocate_allocated s
  rw [buildPlan_plan h]
  refine ⟨?_, ?_, ?_⟩
  · rw [callsFrom_length]
    exact A.places
  · rw [callsFrom_assigns, A.assigns]
    exact A.few
  · have distinct := A.order.nodup (candidates_distinct s)
    rw [← callsFrom_addresses 4, List.Nodup, List.pairwise_map] at distinct
    exact distinct

/-- Settles O52: the plan's bounds by the invariant of the turns, its runs and slot map by the shares they are made of,
the beacon, the candidates, one turn and one claim. -/
theorem planKeepsItsBounds : Obligations.PlanKeepsItsBounds := by
  unfold Obligations.PlanKeepsItsBounds
  refine ⟨fun s => rfl, fun s p h => ?plan, fun s => ⟨fun x => ?_, candidates_sorted s, waitingAge_oldest s,
    fun R => transferRecord_iff R⟩, fun c x own frag other service => turn_eq ?own ?frag,
    fun s a => ⟨claimFor_sending, fun h i r t e ready lt free below => claimFor_ready t e ready lt free below⟩⟩
  case plan =>
    obtain ⟨places, few, distinct⟩ := plan_bounds h
    have e := buildPlan_plan h
    have calls : p.calls = callsFrom 4 s.allocate.shares := congrArg Plan.calls e
    have map : p.slotMap = s.allocate.shares.flatMap Share.places := congrArg Plan.slotMap e
    have beacon : p.beacon = s.beacon p.calls := by rw [calls]; exact congrArg Plan.beacon e
    have hub : p.beacon.hubId = s.config.hubId := by rw [beacon]; rfl
    have epoch : p.beacon.epoch = s.epoch := by rw [beacon]; rfl
    have entries : p.beacon.entries = p.calls.map s.beaconEntry := by rw [beacon]; rfl
    have length : p.beacon.entries.length = p.calls.length := by rw [entries, List.length_map]
    have state : s.buildPlan = { s.allocate.state with plan := some p } := by rw [← h]; rfl
    refine ⟨places, few, distinct, fun c m => calls_bounds (calls ▸ m), fun _ _ _ _ k => calls_follow (calls ▸ k),
      fun c rest k => ?first, fun c m slot low high => calls_placed (calls ▸ m) map low high,
      fun slot k => calls_unplaced map (calls ▸ k), ⟨s.allocate, s.allocate.shares, rfl, rfl, state, ?_, ?_⟩, ?_, ?_, ?_,
      ?_, ?_, ?_, ?_, fun i c k => ?entry, fun k => ?_, fun k l => ?_, ?bytes⟩
    case first =>
      rw [calls] at k
      obtain ⟨lb, x, la, -, none, rfl, -⟩ := callsFrom_split (before := []) k
      cases lb with
      | nil => rfl
      | cons v lb => cases none
    · rw [calls, callsFrom_map]
    · rw [map]
      exact congrArg (fun f => List.flatMap f s.allocate.shares) (funext places_eq)
    · exact hub
    · exact epoch
    · rw [beacon]; rfl
    · rw [beacon]; exact beq_iff_eq
    · rw [beacon]; exact joinOpen_iff s
    · rw [beacon]; rfl
    · exact length
    case entry =>
      rw [entries, List.getElem?_map, k]
      exact ⟨fun n => congrArg some (beaconEntry_call n), fun l a e => congrArg some (beaconEntry_assign a e)⟩
    · rw [beacon]; exact beaconLead_long k
    · rw [beacon]; exact beaconLead_normal k l
    case bytes =>
      refine ⟨byteOfBits [p.beacon.epochStart, p.beacon.joinOpen, p.beacon.joinCrowded], byteOfBits_flags _ _ _, ?_⟩
      have bytes := beacon_bytes p.beacon
      rw [hub, epoch, length] at bytes
      exact bytes
  · rw [candidates_iff, candidateClass_iff]
  case own =>
    by_cases k : x.kind = .service
    · obtain ⟨l, n, -⟩ := service k
      by_cases e : ∃ l, c.state.entry x.address = .label l
      · obtain ⟨m, e⟩ := e
        rw [l m e, (ownSlots_service k).1 m e]
      · have e := not_exists.1 e
        rw [n e, (ownSlots_service k).2 e]
    · rw [(other k).1, (slots_other k).1]
  case frag =>
    by_cases k : x.kind = .service
    · obtain ⟨-, -, can, cannot⟩ := service k
      by_cases e : CanSend c.state x.address
      · rw [(fragmentSlots_service k).1 e]
        obtain ⟨h, r, v, a, st⟩ := e
        exact can h r v a st
      · rw [(fragmentSlots_service k).2 e]
        refine cannot fun h r v a => ⟨fun st => e ⟨h, r, v, a, .inl st⟩, fun st i lt free => ?_⟩
        exact e ⟨h, r, v, a, .inr ⟨st, i, lt, free⟩⟩
    · rw [(other k).2, (slots_other k).2]

end Sys2Proof.Machine

/-! PROOFS. A step, and how time passes: no event but an idle microsecond moves the clock. -/

namespace Sys2Proof.Machine

/-! ## A command takes no time -/

theorem doConfigure_clock (s : State) (p : List Byte) : (s.doConfigure p).state.clock = s.clock := by
  unfold State.doConfigure
  dsimp only
  repeat' split
  all_goals rfl

theorem doStart_clock (s : State) : s.doStart.state.clock = s.clock := by
  unfold State.doStart State.startListening State.accept
  repeat' split
  all_goals rfl

theorem doPageBegin_clock (s : State) (p : List Byte) : (s.doPageBegin p).state.clock = s.clock := by
  have begun (q : BeginRequest) : (s.beginPage q).state.clock = s.clock := by
    unfold State.beginPage
    dsimp only
    repeat' split
    · rfl
    · exact (makeRoom_cell s q).clock
    · rfl
  unfold State.doPageBegin
  dsimp only
  repeat' split
  all_goals first
    | rfl
    | exact begun _

theorem doPageData_clock (s : State) (p : List Byte) : (s.doPageData p).state.clock = s.clock := by
  have written (h : Nat) (r : Record) (w : List Nat) (o : Nat) (data : List Byte) :
      (s.writeData h r w o data).clock = s.clock := by
    unfold State.writeData
    rw [setRecord_clock, writePage_frame]
  unfold State.doPageData
  dsimp only
  repeat' split
  all_goals first
    | rfl
    | exact written _ _ _ _ _

theorem runCommand_clock (s : State) (k : CommandKind) (p : List Byte) : (s.runCommand k p).state.clock = s.clock := by
  cases k with
  | getInfo => rfl
  | getStatus => rfl
  | configure => exact doConfigure_clock s p
  | start => exact doStart_clock s
  | stop => exact (stopHub_cell s).clock
  | lineTest => exact (doLineTest_cell s p).clock
  | reset => rfl
  | admitJoin => exact (doAdmit_cell s p).clock
  | labelQuery => exact (doLabelQuery_cell s p).clock
  | labelList => exact (doLabelList_cell s p).clock
  | labelOp => exact (doLabelOp_cell s p).clock
  | release => exact (doRelease_cell s p).clock
  | forget => exact (doForget_cell s p).clock
  | pageBegin => exact doPageBegin_clock s p
  | pageData => exact doPageData_clock s p
  | pageEnd => exact (doPageEnd_cell s p).clock
  | pageDiscard => exact (doPageDiscard_cell s p).clock
  | pagePin => exact (doPagePin_cell s p).clock
  | pageUnpin => exact (doPageUnpin_cell s p).clock
  | pageRequeue => exact (doPageRequeue_cell s p).clock
  | pageQuery => exact (doPageQuery_cell s p).clock

theorem carryOut_clock (s : State) (f : HostFrame) : (s.carryOut f).clock = s.clock := by
  show (s.perform f).state.clock = s.clock
  unfold State.perform
  split
  · rfl
  · split
    · exact runCommand_clock s _ _
    · rfl

theorem takeFrame_clock (s : State) (f : HostFrame) : (s.takeFrame f).clock = s.clock := by
  unfold State.takeFrame State.admitFrame
  dsimp only
  repeat' split
  all_goals first
    | rfl
    | exact carryOut_clock _ f

theorem takeCharacter_clock (s : State) (b : Byte) : (s.takeCharacter b).clock = s.clock := by
  unfold State.takeCharacter
  dsimp only
  repeat' split
  all_goals first
    | rfl
    | exact takeFrame_clock s _

theorem characterReceived_clock (s : State) (a : Bool) (d : List Bool) (b : Bool) :
    (s.characterReceived a d b).clock = s.clock := by
  unfold State.characterReceived
  split
  · rfl
  · exact takeCharacter_clock _ _

theorem watchRxd_clock (s : State) : s.watchRxd.clock = s.clock := by
  unfold State.watchRxd State.sampleRxd
  dsimp only
  repeat' split
  all_goals first
    | rfl
    | exact characterReceived_clock s _ _ _

/-! ## Idle microseconds -/

theorem moveRxd_eq (s : State) (q : List Bool) :
    s.moveRxd q = { s with serial := { s.serial with rxd := q.headD s.serial.rxd } } := by
  cases q <;> rfl

theorem idle_clock (s : State) : s.idle.clock = s.clock + 1 := by
  show ((s.lineTick.moveRxd s.rxdAhead).watchRxd).clock = _
  rw [watchRxd_clock, moveRxd_eq]
  exact lineTick_clock s

theorem idleFor_clock (s : State) (n : Nat) : (s.idleFor n).clock = s.clock + n := by
  induction n generalizing s with
  | zero => rfl
  | succ n ih =>
    rw [idleFor_succ, ih, idle_clock]
    omega

theorem standFor_clockAll (s : State) (n : Nat) : (s.standFor n).clock = s.clock + n := idleFor_clock _ n

theorem idleFor_one (s : State) : s.idleFor 1 = s.idle := idleFor_succ s 0

/-- Until a character's last sample RXD changes nothing but its own watch. -/
theorem watchRxd_unended {s : State} (h : ∀ c, s.serial.character = some c → c.samples.length < 9) :
    ∃ r, s.watchRxd = { s with serial := r } := by
  unfold State.watchRxd
  cases e : s.serial.character with
  | none => exact ⟨_, rfl⟩
  | some c =>
    have short : (c.samples ++ [s.serial.rxd]).length < 10 := by
      have := h c e
      rw [List.length_append, List.length_singleton]
      omega
    dsimp only
    split
    · exact ⟨_, rfl⟩
    · unfold State.sampleRxd
      dsimp only
      split
      · exact ⟨_, rfl⟩
      · exact ⟨_, rfl⟩

/-- An idle microsecond in which no character ends is one microsecond on the line, a new watch on RXD and the
transmitter's choice. -/
theorem idle_unended {s : State} (h : ∀ c, s.serial.character = some c → c.samples.length < 9) :
    ∃ r, s.idle = State.choose { s.lineTick with serial := r } := by
  obtain ⟨r, e⟩ := watchRxd_unended (s := s.lineTick.moveRxd s.rxdAhead) (by
    rw [moveRxd_eq]
    show ∀ c, s.lineTick.serial.character = some c → _
    rw [(lineTick_event s).serial]
    exact h)
  refine ⟨r, ?_⟩
  show State.choose (State.watchRxd _) = _
  rw [e, moveRxd_eq]

theorem advance_eq (s : State) (n : Nat) : s.advance n = { s with
    clock := s.clock + n
    pdinAhead := s.pdinAhead.drop n
    rxdAhead := s.rxdAhead.drop n
    timebase := if s.timebase.running then
      ⟨true, s.timebase.stamp, s.timebase.slot, min 16000 (s.timebase.slotTime + n)⟩ else s.timebase } := by
  unfold State.advance
  by_cases r : s.timebase.running = true
  · rw [if_pos r, if_pos r, ← r]
    rfl
  · rw [if_neg r, if_neg r]

/-- Settles O1: the front command, the time that an idle step and a TRANSITION pass, and many microseconds as so many
idle steps. -/
theorem stepTakesTheFrontCommand : Obligations.StepTakesTheFrontCommand := by
  unfold Obligations.StepTakesTheFrontCommand
  refine ⟨fun c rest s => rfl, fun s n => ⟨advance_eq s n, fun h => ?transition, lineTick_time s⟩, fun s p h => ?idle,
    fun s n h => ⟨idleFor_zero s, ?_, fun p => ?_, idleFor_clock s n, ?_, (idleFor_outside s n).pending⟩⟩
  case transition =>
    refine ⟨(s.takeTransition n).choose, live_next h _, ?_, ?_, fun q r t => ?_⟩
    · rw [choose_clock, State.takeTransition, transition_clock, standFor_clockAll]
    · rw [choose_pending, State.takeTransition, (transition_event _).pending, (standFor_outside s n).pending]
    · exact takeTransition_time q r t n
  case idle =>
    refine ⟨s.idle, step_idle h p, idle_clock s, (idle_outside s).pending.trans p, fun k => ?_⟩
    obtain ⟨r, e⟩ := idle_unended k
    rw [e]
    exact ⟨(lineTick_event s).config, lineTick_time s⟩
  · rw [idleFor_one, idleFor_succ]
  · rw [idleFor_one]
    exact step_idle h p
  · rw [(idleFor_outside s n).held]
    exact h

end Sys2Proof.Machine

/-! PROOFS. The end of a slot and the start of the next (R13, R22, R23): the open assembly of a window, the window end,
the call end, and what the slot that begins sends. -/

namespace Sys2Proof.Machine

/-! ## The assembly of a window at the slot's end (R13) -/

theorem closeWindowAssembly_stays {s : State} (h : ∀ a, s.receiver.assembly = some a → a.window = none) :
    s.closeWindowAssembly = s := by
  unfold State.closeWindowAssembly
  cases e : s.receiver.assembly with
  | none => rfl
  | some a =>
    dsimp only
    rw [h a e]
    rfl

theorem closeWindowAssembly_closes {s : State} {a : Assembly} {w : Window} (h : s.receiver.assembly = some a)
    (k : a.window = some w) : s.closeWindowAssembly = s.endAssemblyBroken .truncated := by
  unfold State.closeWindowAssembly
  rw [h]
  dsimp only
  rw [k]
  rfl

theorem closeWindowAssembly_closed (s : State) : WindowClosed s s.closeWindowAssembly := by
  refine ⟨closeWindowAssembly_stays, fun a w h k => ⟨fun out => ?_, fun m test => ?_⟩⟩
  · rw [closeWindowAssembly_closes h k, endAssemblyBroken_outside h (lineTest_none_iff.2 out), k]
    cases w <;> rfl
  · rw [closeWindowAssembly_closes h k, endAssemblyBroken_testing h test]
    rfl

/-- Either no open assembly belongs to a window, or one does and is closed. -/
theorem closeWindowAssembly_cases (s : State) :
    ((∀ a, s.receiver.assembly = some a → a.window = none) ∧ s.closeWindowAssembly = s)
    ∨ ∃ c, s.closeWindowAssembly = s.endAssemblyBroken c := by
  by_cases h : ∀ a, s.receiver.assembly = some a → a.window = none
  · exact .inl ⟨h, closeWindowAssembly_stays h⟩
  · push Not at h
    obtain ⟨a, e, n⟩ := h
    obtain ⟨w, k⟩ := Option.ne_none_iff_exists'.1 n
    exact .inr ⟨_, closeWindowAssembly_closes e k⟩

/-- No assembly that is open now belongs to a window. -/
def Windowless (r : Receiver) : Prop := ∀ a, r.assembly = some a → a.window = none

theorem closeWindowAssembly_windowless (s : State) : Windowless s.closeWindowAssembly.receiver := by
  rcases closeWindowAssembly_cases s with ⟨h, e⟩ | ⟨c, e⟩
  · rw [e]
    exact h
  · rw [e, endAssemblyBroken_eq]
    rintro a ⟨⟩

theorem windowHeldOpen_windowless {s : State} (h : Windowless s.receiver) : s.windowHeldOpen = false := by
  unfold State.windowHeldOpen
  split
  · rename_i d a _ e
    rw [h a e]
    rfl
  · rfl

/-! ## The window end (R97) -/

/-- Only the directory and the notices are changed. -/
def DirectoryOnly (s t : State) : Prop := ∃ d l, t = { s with directory := d, link := l }

theorem DirectoryOnly.refl (s : State) : DirectoryOnly s s := ⟨_, _, rfl⟩

theorem DirectoryOnly.trans {s t u : State} (h : DirectoryOnly s t) (k : DirectoryOnly t u) : DirectoryOnly s u := by
  obtain ⟨_, _, rfl⟩ := h
  obtain ⟨_, _, rfl⟩ := k
  exact ⟨_, _, rfl⟩

theorem updateLabel_directoryOnly (s : State) (a : Nat) (f : Label → Label) : DirectoryOnly s (s.updateLabel a f) := by
  unfold State.updateLabel State.setEntry
  repeat' split
  all_goals exact ⟨_, _, rfl⟩

theorem post_directoryOnly (s : State) (n : Notice) : DirectoryOnly s (s.post n) := ⟨_, _, rfl⟩

theorem sendUnanswered_directoryOnly (s : State) (a : Nat) (w : OpenSend) :
    DirectoryOnly s (s.sendUnanswered a w) := by
  have ended := updateLabel_directoryOnly s a fun l => { l.unansweredProfile w with openSend := none }
  unfold State.sendUnanswered
  dsimp only
  split
  · split
    · split
      · exact (ended.trans (updateLabel_directoryOnly _ _ _)).trans (post_directoryOnly _ _)
      · exact ended.trans (updateLabel_directoryOnly _ _ _)
    · exact ended
  · exact ended

theorem windowSend_directoryOnly (s : State) (a slot : Nat) : DirectoryOnly s (s.windowSend a slot) := by
  unfold State.windowSend
  split
  · split
    · split
      · exact sendUnanswered_directoryOnly s a _
      · exact .refl s
    · exact .refl s
  · exact .refl s

theorem takeWindowEnd_eq (s : State) :
    ∃ x d l, s.takeWindowEnd = { s with dataSlot := x, directory := d, link := l } := by
  unfold State.takeWindowEnd
  split
  · exact ⟨_, _, _, rfl⟩
  · rename_i x _
    split
    · obtain ⟨d, l, e⟩ := windowSend_directoryOnly
        { s with dataSlot := some { x with windowOpen := false, endDue := false } } x.place.address x.slot
      exact ⟨_, d, l, e⟩
    · exact ⟨_, _, _, rfl⟩

@[simp] theorem takeWindowEnd_receiver (s : State) : s.takeWindowEnd.receiver = s.receiver := by
  obtain ⟨_, _, _, e⟩ := takeWindowEnd_eq s
  rw [e]

/-! ## The plan and the transmitter over window ends and call ends -/

/-- The plan stays, and whether a burst is on the air. -/
structure SendKept (s t : State) : Prop where
  plan : t.plan = s.plan
  burst : t.burst.isSome = s.burst.isSome

namespace SendKept

theorem refl (s : State) : SendKept s s := ⟨rfl, rfl⟩

theorem trans {s t u : State} (h : SendKept s t) (k : SendKept t u) : SendKept s u :=
  ⟨k.plan.trans h.plan, k.burst.trans h.burst⟩

/-- An operation that leaves the plan and the burst alone. -/
theorem of {s t : State} (p : t.plan = s.plan) (b : t.burst = s.burst) : SendKept s t := ⟨p, by rw [b]⟩

theorem fold {β : Type} {f : State → β → State} (h : ∀ s b, SendKept s (f s b)) (l : List β) (s : State) :
    SendKept s (l.foldl f s) := by
  induction l generalizing s with
  | nil => exact refl s
  | cons b l ih => exact (h s b).trans (ih _)

theorem update (s : State) (a : Nat) (f : Label → Label) : SendKept s (s.updateLabel a f) := .of (by simp) (by simp)

theorem post (s : State) (n : Notice) : SendKept s (s.post n) := .of rfl rfl

end SendKept

theorem endAssemblyBroken_sendKept (s : State) (c : BrokenCause) : SendKept s (s.endAssemblyBroken c) := by
  rw [endAssemblyBroken_eq]
  exact ⟨rfl, rfl⟩

theorem beginBlanking_sendKept (s : State) : SendKept s s.beginBlanking := by
  unfold State.beginBlanking
  split
  · exact .refl s
  · exact (endAssemblyBroken_sendKept s _).trans ⟨rfl, rfl⟩

theorem firstTick_sendKept (s : State) : SendKept s s.firstTick := by
  unfold State.firstTick
  split
  · exact SendKept.trans (t := { s with blankingDue := false }) ⟨rfl, rfl⟩ (beginBlanking_sendKept _)
  · exact .refl s

theorem closeWindowAssembly_sendKept (s : State) : SendKept s s.closeWindowAssembly := by
  rcases closeWindowAssembly_cases s with ⟨-, e⟩ | ⟨c, e⟩
  · rw [e]
    exact .refl s
  · rw [e]
    exact endAssemblyBroken_sendKept s c

theorem takeWindowEnd_sendKept (s : State) : SendKept s s.takeWindowEnd := by
  obtain ⟨_, _, _, e⟩ := takeWindowEnd_eq s
  rw [e]
  exact ⟨rfl, rfl⟩

theorem cutRequest_sendKept (s : State) : SendKept s s.cutRequest := by
  unfold State.cutRequest
  split
  · rename_i b e
    exact ⟨rfl, by rw [e]; rfl⟩
  · exact .refl s

theorem freeRecord_sendKept (s : State) (h : Nat) : SendKept s (s.freeRecord h) := ⟨rfl, rfl⟩

theorem cutRecord_sendKept (s : State) (h : Nat) : SendKept s (s.cutRecord h) := by
  unfold State.cutRecord
  split
  · exact (cutRequest_sendKept s).trans (.of (by simp) (by simp))
  · exact (freeRecord_sendKept s h).trans (.of (by simp) (by simp))

theorem removeRecords_sendKept (s : State) (a : Nat) : SendKept s (s.removeRecords a) := by
  have discarded (t : State) (h : Nat) : SendKept t (t.discardRecord h) := by
    unfold State.discardRecord
    repeat' split
    all_goals first
      | exact .refl t
      | exact cutRecord_sendKept t h
      | exact freeRecord_sendKept t h
  refine SendKept.fold (fun t h => ?_) handles s
  unfold State.discardIfOf
  repeat' split
  all_goals first
    | exact .refl t
    | exact discarded t h

theorem postAll_sendKept (s : State) (ns : List Notice) : SendKept s (s.postAll ns) := .fold SendKept.post ns s

theorem removed_sendKept (s : State) (a : Nat) (c : OpFailure) :
    SendKept s ((s.removeRecords a).removeOperations a c) := by
  refine (removeRecords_sendKept s a).trans ?_
  unfold State.removeOperations
  split
  · exact (SendKept.update _ _ _).trans (postAll_sendKept _ _)
  · exact .refl _

theorem joinFailed_sendKept (s : State) (a : Nat) (id : LongId) : SendKept s (s.joinFailed a id) :=
  ((removed_sendKept s a .joinFailed).trans (.post _ (.joinFailed a id))).trans
    (.of (setEntry_plan _ a .vacant) (setEntry_burst _ a .vacant))

theorem enterCooling_sendKept (s : State) (a : Nat) : SendKept s (s.enterCooling a) := by
  unfold State.enterCooling
  split
  · exact .of (by simp) (by simp)
  · exact .refl s

theorem returnSending_sendKept (s : State) (a : Nat) : SendKept s (s.returnSending a) := by
  unfold State.returnSending
  split
  · exact .of (by simp [State.returnToReady]) (by simp [State.returnToReady])
  · exact .refl s

theorem judgeMiss_sendKept (s : State) (a : Nat) (l : Label) : SendKept s (s.judgeMiss a l) := by
  have missing (t : State) : SendKept t (t.goMissing a) :=
    ((SendKept.update t a _).trans (returnSending_sendKept _ a)).trans (.post _ _)
  unfold State.judgeMiss
  dsimp only
  split
  · exact .update s a _
  · split
    · exact (SendKept.update s a _).trans (missing _)
    · exact .update s a _

theorem useJoinAttempt_sendKept (s : State) (a : Nat) (l : Label) : SendKept s (s.useJoinAttempt a l) := by
  unfold State.useJoinAttempt
  split
  · split
    · exact joinFailed_sendKept s a _
    · exact .update s a _
  all_goals exact .refl s

theorem useReleaseAttempt_sendKept (s : State) (a : Nat) (l : Label) : SendKept s (s.useReleaseAttempt a l) := by
  unfold State.useReleaseAttempt
  split
  · split
    · exact (enterCooling_sendKept s a).trans (.post _ _)
    · exact .update s a _
  all_goals exact .refl s

theorem judgeCall_sendKept (s : State) (c : Call) : SendKept s (s.judgeCall c) := by
  unfold State.judgeCall
  split
  · exact .refl s
  · rename_i l _
    dsimp only
    refine SendKept.trans ?_ (.update _ _ _)
    split
    · split
      · exact useJoinAttempt_sendKept s _ l
      · exact judgeMiss_sendKept s _ l
      · exact .refl s
      · exact useReleaseAttempt_sendKept s _ l
    · exact .refl s

theorem judgeTransfer_sendKept (s : State) (a : Nat) : SendKept s (s.judgeTransfer a) := by
  have stalled (h : Nat) (cause : StallCause) : SendKept s (s.enterStalled h cause) := by
    unfold State.enterStalled
    split
    · exact .refl s
    · exact SendKept.trans (.of (by simp) (by simp)) (.post _ _)
  unfold State.judgeTransfer
  repeat' split
  all_goals first
    | exact .refl s
    | exact stalled _ _
    | exact .of rfl rfl

theorem takeCallEnd_sendKept (s : State) : SendKept s s.takeCallEnd := by
  unfold State.takeCallEnd
  split
  · exact .refl s
  · split
    · exact .refl s
    · refine SendKept.trans ?_ (.update _ _ _)
      refine SendKept.trans ?_ (judgeTransfer_sendKept _ _)
      refine SendKept.trans ?_ (judgeCall_sendKept _ _)
      exact ⟨rfl, rfl⟩

/-! ## What a slot sends (R46, R147) -/

/-- A burst has gone out: the transmitter was free, and it is not any more. -/
structure SentFrom (s t : State) : Prop where
  free : s.burst = none
  sent : t.burst.isSome = true
  plan : t.plan = s.plan

theorem SentFrom.trans {s t u : State} (h : SentFrom s t) (k : SendKept t u) : SentFrom s u :=
  ⟨h.free, k.burst.trans h.sent, k.plan.trans h.plan⟩

theorem sendRequest_sentFrom {s t : State} {lead count : Nat} {source : BurstSource}
    (e : s.sendRequest lead count source = some t) : SentFrom s t := by
  unfold State.sendRequest at e
  split at e
  · rename_i may
    cases e
    rw [Bool.and_eq_true, Option.isNone_iff_eq_none] at may
    exact ⟨may.2, rfl, (beginBlanking_sendKept s).plan⟩
  · cases e

theorem sendDirectory_sentFrom {s t : State} {a : Nat} {bytes : List Byte} {f : Label → Label}
    (e : s.sendDirectory a bytes f = some t) : SentFrom s t := by
  unfold State.sendDirectory at e
  split at e
  · rename_i h
    cases e
    exact (sendRequest_sentFrom h).trans (.update _ _ _)
  · cases e

theorem sendFragment_sentFrom {s t : State} {a h : Nat} (e : s.sendFragment a h = some t) : SentFrom s t := by
  unfold State.sendFragment at e
  repeat' split at e
  all_goals first
    | contradiction
    | (rename_i k
       cases e
       refine SentFrom.trans ?_ (.update _ _ _)
       exact (sendRequest_sentFrom k).trans (.of (setContext_plan _ _ _) (setContext_burst _ _ _)))

theorem sendPlace_sentFrom {s t : State} {slot : Nat} {p : Place} (e : s.sendPlace slot p = some t) : SentFrom s t := by
  unfold State.sendPlace at e
  split at e
  case h_1 =>
    unfold State.sendAssign at e
    repeat' split at e
    all_goals first
      | contradiction
      | exact sendDirectory_sentFrom e
  case h_2 =>
    unfold State.sendControl at e
    repeat' split at e
    all_goals first
      | contradiction
      | exact sendDirectory_sentFrom e
  case h_3 =>
    unfold State.sendProbe at e
    repeat' split at e
    all_goals first
      | contradiction
      | exact sendDirectory_sentFrom e
  case h_4 =>
    unfold State.sendRelease at e
    repeat' split at e
    all_goals first
      | contradiction
      | exact sendDirectory_sentFrom e
  case h_5 => exact sendFragment_sentFrom e

/-! ## The slot that begins (R22, R23, R148) -/

theorem openSlot_empty {s : State} (h : ∀ p, s.plan = some p → p.placeOf s.timebase.slot = none) :
    s.openSlot = { s with dataSlot := none } := by
  unfold State.openSlot
  split
  · rfl
  · rename_i p e
    rw [h p e]

theorem openSlot_sent {s w : State} {p : Plan} {place : Place} (h : s.plan = some p)
    (k : p.placeOf s.timebase.slot = some place) (e : s.sendPlace s.timebase.slot place = some w) :
    s.openSlot = { w with dataSlot := some (s.newDataSlot p place true) } := by
  unfold State.openSlot
  rw [h]
  dsimp only
  rw [k]
  dsimp only
  rw [e]

theorem openSlot_idle {s : State} {p : Plan} {place : Place} (h : s.plan = some p)
    (k : p.placeOf s.timebase.slot = some place) (e : s.sendPlace s.timebase.slot place = none) :
    s.openSlot = { s with dataSlot := some (s.newDataSlot p place false) } := by
  unfold State.openSlot
  rw [h]
  dsimp only
  rw [k]
  dsimp only
  rw [e]

theorem openSlot_plan (s : State) : s.openSlot.plan = s.plan := by
  unfold State.openSlot
  split
  · rfl
  · split
    · rfl
    · split
      · rename_i e
        exact (sendPlace_sentFrom e).plan
      · rfl

/-- A data slot with a place: its data slot, and whether its burst went out. -/
theorem openSlot_placed {v : State} {p : Plan} {place : Place} {slot : Nat} {round : Stamp} (h : v.plan = some p)
    (k : p.placeOf slot = some place) (hs : v.timebase.slot = slot) (hr : v.timebase.stamp = round) :
    ∃ d, v.openSlot.dataSlot = some d ∧ d.slot = slot ∧ d.round = round ∧ d.place = place
      ∧ d.windowOpen = d.endDue ∧ d.callEnd = p.callEnding slot
      ∧ (∀ w, v.sendPlace slot place = some w → v.openSlot = { w with dataSlot := some d } ∧ d.windowOpen = true)
      ∧ (v.sendPlace slot place = none → v.openSlot = { v with dataSlot := some d } ∧ d.windowOpen = false)
      ∧ (v.burst.isSome = true → d.windowOpen = false)
      ∧ (v.burst = none → (d.windowOpen = true ↔ v.openSlot.burst.isSome = true)) := by
  subst hs hr
  cases e : v.sendPlace v.timebase.slot place with
  | some w =>
    have sent := sendPlace_sentFrom e
    rw [openSlot_sent h k e]
    refine ⟨v.newDataSlot p place true, rfl, rfl, rfl, rfl, rfl, rfl, ?_, ?_, fun b => ?_, fun _ => ?_⟩
    · rintro _ ⟨⟩
      exact ⟨rfl, rfl⟩
    · rintro ⟨⟩
    · rw [sent.free] at b
      cases b
    · exact ⟨fun _ => sent.sent, fun _ => rfl⟩
  | none =>
    rw [openSlot_idle h k e]
    refine ⟨v.newDataSlot p place false, rfl, rfl, rfl, rfl, rfl, rfl, ?_, ?_, fun _ => rfl, fun b => ?_⟩
    · rintro _ ⟨⟩
    · exact fun _ => ⟨rfl, rfl⟩
    · refine ⟨by rintro ⟨⟩, fun z => ?_⟩
      have z : v.burst.isSome = true := z
      rw [b] at z
      cases z

/-! ## SLOT_START -/

theorem exec_slotStart {s : State} (h : s.held = false) : exec .slotStart s = .next s.takeSlotStart.choose :=
  live_next h _

/-- What is left of a slot ends before the next one begins. -/
def State.slotEnded (s : State) : State := s.firstTick.closeWindowAssembly.takeWindowEnd.takeCallEnd

theorem slotEnded_cell (s : State) : CellStep s s.slotEnded :=
  (((firstTick_cell s).trans (closeWindowAssembly_cell _)).trans (takeWindowEnd_cell _)).trans (takeCallEnd_cell _)

theorem slotEnded_sendKept (s : State) : SendKept s s.slotEnded :=
  (((firstTick_sendKept s).trans (closeWindowAssembly_sendKept _)).trans (takeWindowEnd_sendKept _)).trans
    (takeCallEnd_sendKept _)

theorem atSlotEnd_iff (s : State) :
    s.atSlotEnd = true ↔ s.timebase.running = true ∧ 16000 ≤ s.timebase.slotTime := by
  unfold State.atSlotEnd
  rw [Bool.and_eq_true, decide_eq_true_iff]
  rfl

theorem slotStart_atEnd {s : State} (r : s.timebase.running = true) (l : s.timebase.slot < 63)
    (t : 16000 ≤ s.timebase.slotTime) : s.slotStart = State.openSlot { s.slotEnded with
      timebase := ⟨true, s.timebase.stamp, s.timebase.slot + 1, 0⟩ } := by
  have next : s.slotEnded.nextSlot
      = { s.slotEnded with timebase := ⟨true, s.timebase.stamp, s.timebase.slot + 1, 0⟩ } := by
    unfold State.nextSlot
    rw [(slotEnded_cell s).timebase, ← r]
  rw [← next]
  exact if_pos ⟨(atSlotEnd_iff s).2 ⟨r, t⟩, l⟩

theorem slotStart_still {s : State}
    (h : s.timebase.running = false ∨ 63 ≤ s.timebase.slot ∨ s.timebase.slotTime < 16000) : s.slotStart = s := by
  refine if_neg ?_
  rw [atSlotEnd_iff]
  rintro ⟨⟨r, t⟩, l⟩
  have l : s.timebase.slot < 63 := l
  rcases h with h | h | h
  · rw [h] at r
    cases r
  · omega
  · omega

theorem takeSlotStart_atEnd {s : State} (r : s.timebase.running = true) (l : s.timebase.slot < 63)
    (t : 16000 ≤ s.timebase.slotTime) : s.takeSlotStart = s.slotStart := by
  rw [takeSlotStart_inPlace r l, toSlotEnd_atEnd t]

/-- Settles O25: the time left, the end of the slot, and the slot that begins. -/
theorem slotStartOpensTheNextSlot : Obligations.SlotStartOpensTheNextSlot := by
  unfold Obligations.SlotStartOpensTheNextSlot
  intro s h
  refine ⟨fun o => ?out, fun r l e he => ?left, fun f hf => ?ends, fun r l t => ?opens⟩
  case out => rw [exec_slotStart h, takeSlotStart_outOfPlace o]
  case left =>
    have toEnd : s.takeSlotStart = e.slotStart := by
      rw [takeSlotStart_inPlace r l, he]
      rfl
    have held : e.held = false := by
      rw [he]
      exact (idleFor_outside s _).held.trans h
    rw [exec_slotStart h, toEnd]
    refine ⟨fun r' l' t' => ?_, fun o => ?_⟩
    · rw [exec_slotStart held, takeSlotStart_atEnd r' l' t']
    · rw [slotStart_still o]
  case ends =>
    subst hf
    have closed := closeWindowAssembly_windowless s.firstTick
    have closed' : Windowless s.firstTick.closeWindowAssembly.takeWindowEnd.receiver := by
      rw [takeWindowEnd_receiver]
      exact closed
    have held : s.firstTick.closeWindowAssembly.held = false :=
      ((firstTick_cell s).trans (closeWindowAssembly_cell _)).held.trans h
    have window : s.firstTick.closeWindowAssembly.replyWindowEnd = s.firstTick.closeWindowAssembly.takeWindowEnd :=
      if_neg (by rw [windowHeldOpen_windowless closed]; exact Bool.false_ne_true)
    have call : s.firstTick.closeWindowAssembly.takeWindowEnd.callEnd
        = s.firstTick.closeWindowAssembly.takeWindowEnd.takeCallEnd :=
      if_neg (by rw [windowHeldOpen_windowless closed']; exact Bool.false_ne_true)
    refine ⟨closeWindowAssembly_closed _, windowHeldOpen_windowless closed, ?_, ?_⟩
    · rw [← window]
      exact live_next held _
    · rw [← call]
      exact live_next ((takeWindowEnd_cell _).held.trans held) _
  case opens =>
    have row : exec .slotStart s = .next s.slotStart.choose := by rw [exec_slotStart h, takeSlotStart_atEnd r l t]
    have event := slotStart_event s
    obtain ⟨v, hv⟩ : ∃ v, v = { s.slotEnded with timebase := ⟨true, s.timebase.stamp, s.timebase.slot + 1, 0⟩ } :=
      ⟨_, rfl⟩
    have start : s.slotStart = v.openSlot := by rw [hv, slotStart_atEnd r l t]
    have plan : v.plan = s.plan := by rw [hv]; exact (slotEnded_sendKept s).plan
    have burst : v.burst.isSome = s.burst.isSome := by rw [hv]; exact (slotEnded_sendKept s).burst
    have time : v.timebase = ⟨true, s.timebase.stamp, s.timebase.slot + 1, 0⟩ := by rw [hv]
    have free : s.burst = none → v.burst = none := by
      intro b
      rw [b] at burst
      exact Option.not_isSome_iff_eq_none.1 (by rw [burst]; exact Bool.false_ne_true)
    have empty (k : ∀ p, s.plan = some p → p.placeOf (s.timebase.slot + 1) = none) :
        v.openSlot = { v with dataSlot := none } ∧ (s.burst = none → v.openSlot.burst = none) := by
      have still : v.openSlot = { v with dataSlot := none } :=
        openSlot_empty fun p e => by rw [time]; exact k p (plan ▸ e)
      exact ⟨still, fun b => by rw [still]; exact free b⟩
    refine ⟨v.openSlot, start ▸ row, ?_, ?_, ?_, ?_, ?_, ?_, ?_, ?slot⟩
    · rw [(openSlot_cell v).timebase, time]
    · rw [openSlot_plan, plan]
    · rw [← start]; exact event.config
    · rw [← start]; exact event.memory
    · rw [← start]; exact event.parity
    · rw [← start, event.link]
    · rw [← start, event.link]
    case slot =>
      rintro _ w rfl hw
      have same : w = v := hw.trans hv.symm
      subst same
      refine ⟨fun p e k => empty fun q f => ?_, fun n => empty fun q f => ?_, fun p place e k => ?_⟩
      · rw [e] at f
        cases f
        exact k
      · rw [n] at f
        cases f
      · obtain ⟨d, slot, at_, round, here, due, call, sent, idle, busy, went⟩ :=
          openSlot_placed (plan.trans e) k (congrArg Timebase.slot time) (congrArg Timebase.stamp time)
        exact ⟨d, slot, at_, round, here, due, call, sent, idle, fun b => busy (burst.trans b), fun b => went (free b)⟩

end Sys2Proof.Machine

/-! PROOFS. The round boundary (R21, R26, R28, R55, R58, R69, R76, R135): what each block does in its turn, and the
state that comes of the turns. -/

namespace Sys2Proof.Machine

/-! ## Slot 63 ends -/

/-- What is left of slot 63 ends (R13). -/
def State.lastSlotEnded (s : State) : State := s.closeWindowAssembly.takeWindowEnd

theorem closeWindowAssembly_eq (s : State) :
    ∃ a h d, s.closeWindowAssembly = { s with
      receiver := { s.receiver with assembly := a }, hub := h, directory := d } := by
  rcases closeWindowAssembly_cases s with ⟨-, e⟩ | ⟨c, e⟩
  · exact ⟨_, _, _, e⟩
  · exact ⟨_, _, _, e.trans (endAssemblyBroken_eq s c)⟩

theorem lastSlotEnded_eq (s : State) : ∃ x d l h, s.lastSlotEnded = { s with
    dataSlot := x, directory := d, link := l, hub := h, receiver := s.closeWindowAssembly.receiver } := by
  obtain ⟨a, h, d, e⟩ := closeWindowAssembly_eq s
  obtain ⟨x, f, l, k⟩ := takeWindowEnd_eq s.closeWindowAssembly
  refine ⟨x, f, l, h, k.trans ?_⟩
  rw [e]

/-- The hub state stays, but for what a line test has heard. -/
theorem lastSlotEnded_time (s : State) : TimeKept s s.lastSlotEnded := by
  have window (t : State) : TimeKept t t.takeWindowEnd := by
    obtain ⟨x, d, l, e⟩ := takeWindowEnd_eq t
    rw [e]
    exact ⟨rfl, fun _ => rfl, id⟩
  have closed : TimeKept s s.closeWindowAssembly := by
    rcases closeWindowAssembly_cases s with ⟨-, e⟩ | ⟨c, e⟩
    · rw [e]
      exact .refl s
    · rw [e]
      exact endAssemblyBroken_time s c
  exact closed.trans (window _)

theorem lastSlotEnded_windowless (s : State) : Windowless s.lastSlotEnded.receiver := by
  unfold State.lastSlotEnded
  rw [takeWindowEnd_receiver]
  exact closeWindowAssembly_windowless s

theorem endsListening_iff (s : State) :
    s.endsListening = true ↔ ∃ b, s.hub = .listening (s.timebase.stamp + 1) b := by
  unfold State.endsListening
  cases h : s.hub with
  | listening e b =>
    rw [beq_iff_eq]
    refine ⟨fun k => ⟨b, by rw [← k]; rfl⟩, ?_⟩
    rintro ⟨c, ⟨⟩⟩
    rfl
  | _ => simp

theorem not_endsListening {s : State} (h : ∀ b, s.hub ≠ .listening (s.timebase.stamp + 1) b) :
    ¬ s.endsListening = true := by
  rw [endsListening_iff, not_exists]
  exact h

theorem lastSlotEnded_endsListening (s : State) : s.lastSlotEnded.endsListening = s.endsListening := by
  have time := lastSlotEnded_time s
  rw [Bool.eq_iff_iff, endsListening_iff, endsListening_iff, time.timebase]
  by_cases test : ∃ m, s.hub = .testing m
  · obtain ⟨n, e⟩ := time.test test
    obtain ⟨m, test⟩ := test
    rw [e, test]
    simp
  · rw [time.hub (not_exists.1 test)]

/-- The round begins: slot 0 of the next stamp. -/
theorem beginRound_eq {s : State} (r : s.timebase.running = true) : s.lastSlotEnded.beginRound = { s.lastSlotEnded with
    timebase := ⟨true, s.timebase.stamp + 1, 0, 0⟩, firstServed := s.endsListening } := by
  unfold State.beginRound
  rw [lastSlotEnded_endsListening, (lastSlotEnded_time s).timebase, ← r]

/-! ## STOPPING ends (R28, R121, R174) -/

/-- A record when STOPPING ends. -/
def Record.endSending (now : Stamp) (r : Record) : Record :=
  if r.state = .sending then { r with state := .ready, readyStamp := some now } else r

/-- Only the record slots and the contexts are changed. -/
def TransfersOnly (s t : State) : Prop := ∃ q c, t = { s with store := { s.store with records := q }, contexts := c }

theorem TransfersOnly.trans {s t u : State} (h : TransfersOnly s t) (k : TransfersOnly t u) : TransfersOnly s u := by
  obtain ⟨_, _, rfl⟩ := h
  obtain ⟨_, _, rfl⟩ := k
  exact ⟨_, _, rfl⟩

theorem readyIfSending_only (s : State) (h : Nat) : TransfersOnly s (s.readyIfSending h) := by
  unfold State.readyIfSending State.returnToReady State.updateRecord State.freeContextOf
  repeat' split
  all_goals exact ⟨_, _, rfl⟩

theorem readyIfSending_of_none {s : State} {h : Nat} (e : s.record h = none) : s.readyIfSending h = s := by
  unfold State.readyIfSending
  rw [e]

theorem readyIfSending_of_some {s : State} {h : Nat} {r : Record} (e : s.record h = some r) :
    s.readyIfSending h = if r.state = .sending then s.returnToReady h else s := by
  unfold State.readyIfSending
  rw [e]

theorem readyIfSending_record_other (s : State) {h k : Nat} (n : k ≠ h) :
    (s.readyIfSending h).record k = s.record k := by
  cases e : s.record h with
  | none => rw [readyIfSending_of_none e]
  | some r =>
    rw [readyIfSending_of_some e]
    split
    · rw [returnToReady_record e, if_neg n]
    · rfl

theorem readyIfSending_record_same (s : State) (h : Nat) :
    (s.readyIfSending h).record h = (s.record h).map (Record.endSending s.stamp) := by
  cases e : s.record h with
  | none => rw [readyIfSending_of_none e, e, Option.map_none]
  | some r =>
    rw [readyIfSending_of_some e, Option.map_some]
    unfold Record.endSending
    split
    · rw [returnToReady_record e, if_pos rfl]
    · exact e

theorem endSending_endSending (now : Stamp) (r : Record) :
    (r.endSending now).endSending now = r.endSending now := by
  unfold Record.endSending
  by_cases n : r.state = .sending
  · simp [n]
  · simp [n]

theorem readyAll_spec (l : List Nat) (s : State) : TransfersOnly s (l.foldl State.readyIfSending s)
    ∧ ∀ k, (l.foldl State.readyIfSending s).record k
      = if k ∈ l then (s.record k).map (Record.endSending s.stamp) else s.record k := by
  induction l generalizing s with
  | nil => exact ⟨⟨_, _, rfl⟩, fun k => by simp⟩
  | cons h l ih =>
    have one := readyIfSending_only s h
    have stamp : (s.readyIfSending h).stamp = s.stamp := by
      obtain ⟨_, _, e⟩ := one
      rw [e]
      rfl
    obtain ⟨only, records⟩ := ih (s.readyIfSending h)
    refine ⟨one.trans only, fun k => ?_⟩
    have twice : (Record.endSending s.stamp ∘ Record.endSending s.stamp) = Record.endSending s.stamp :=
      funext fun r => endSending_endSending _ r
    rw [List.foldl_cons, records, stamp]
    by_cases same : k = h
    · subst same
      rw [readyIfSending_record_same, Option.map_map, twice, ite_self, if_pos List.mem_cons_self]
    · rw [readyIfSending_record_other s same]
      simp only [List.mem_cons, same, false_or]

theorem endTransfers_eq (s : State) : ∃ q, s.endTransfers = { s with
      store := { s.store with records := q }, contexts := Vector.replicate 16 none }
    ∧ ∀ h, s.endTransfers.record h = (s.record h).map (Record.endSending s.stamp) := by
  obtain ⟨⟨q, c, e⟩, records⟩ := readyAll_spec handles s
  unfold State.endTransfers
  generalize handles.foldl State.readyIfSending s = w at e records
  refine ⟨q, by rw [e], fun h => (records h).trans ?_⟩
  split
  · rfl
  · rename_i out
    cases k : s.record h with
    | none => rfl
    | some r => exact absurd (List.mem_range.2 (record_lt k)) out

theorem context_none {s : State} (h : s.contexts = Vector.replicate 16 none) (i : Nat) : s.context i = none := by
  unfold State.context
  rw [h, Vector.getElem?_replicate]
  split <;> rfl

/-! ## Hub control settles its state (R26, R28) -/

theorem settleHub_still {s : State} (h : ∀ b, s.hub ≠ .listening s.stamp b) (k : s.hub ≠ .stopping) :
    s.settleHub = s := by
  unfold State.settleHub
  cases e : s.hub with
  | listening t b =>
    refine if_neg fun same => h b ?_
    rw [e, same]
  | stopping => exact absurd e k
  | _ => rfl

theorem settleHub_listening {s : State} {b : Bool} (h : s.hub = .listening s.stamp b) :
    s.settleHub = State.post { s with hub := .running } (.linkState .running .start) := by
  unfold State.settleHub
  rw [h]
  exact if_pos rfl

theorem settleHub_stopping {s : State} (h : s.hub = .stopping) :
    s.settleHub = (State.endTransfers { s with hub := .offline }).post (.linkState .offline .stop) := by
  unfold State.settleHub
  rw [h]

/-! ## The directory takes the boundary (R55, R58, R69, R76) -/

theorem clearForeignSeen_eq (s : State) : s.clearForeignSeen = { s with
    foreignSeen := if s.timebase.stamp.toNat % 16 = 0 then false else s.foreignSeen } := by
  unfold State.clearForeignSeen State.roundIndex roundIndexOf
  split <;> rfl

theorem directoryBoundary_eq (s : State) (ended : Epoch) :
    s.directoryBoundary ended = { s with directory := (s.directoryBoundary ended).directory } := by
  unfold State.directoryBoundary
  dsimp only
  split <;> rfl

theorem directoryBoundary_lists (s : State) (ended : Epoch) :
    (s.directoryBoundary ended).directory.admission
      = s.directory.admission.filter (fun x => decide ((s.timebase.stamp - x.lastHeard).toNat < 4))
    ∧ (s.directoryBoundary ended).directory.crowded = s.directory.accumulator
    ∧ (s.directoryBoundary ended).directory.accumulator = false := by
  unfold State.directoryBoundary
  dsimp only
  split <;> exact ⟨rfl, rfl, rfl⟩

theorem directoryBoundary_within {s : State} (h : s.timebase.stamp.toNat % 16 ≠ 0) (ended : Epoch) (a : Nat) :
    (s.directoryBoundary ended).entry a = s.entry a := by
  unfold State.directoryBoundary
  dsimp only
  rw [if_neg (show ¬ s.ageAdmission.updateCrowded.roundIndex = 0 from h)]
  rfl

theorem directoryBoundary_epoch {s : State} (h : s.timebase.stamp.toNat % 16 = 0) (ended : Epoch) (a : Nat) :
    (s.directoryBoundary ended).entry a = (s.entry a).epochBoundary ended s.epoch := by
  unfold State.directoryBoundary
  dsimp only
  rw [if_pos (show s.ageAdmission.updateCrowded.roundIndex = 0 from h), entry_atEpoch]
  rfl

theorem eq_epochOf_iff (e : Epoch) (t : Stamp) : e = epochOf t ↔ e.toNat = t.toNat / 16 % 65536 := by
  unfold epochOf
  rw [← BitVec.toNat_inj, BitVec.toNat_ofNat]

/-- An entry at an epoch boundary, case by case (R69, R76). -/
theorem epochBoundary_eq (before now : Stamp) (e : Entry) : e.epochBoundary (epochOf before) (epochOf now) =
    match e with
    | .vacant => .vacant
    | .cooling id e => if e.toNat = now.toNat / 16 % 65536 then .vacant else .cooling id e
    | .label l => .label (match l.planned with
        | some p => if p.effective.toNat = before.toNat / 16 % 65536
            then { l with current := p.profile, planned := none } else l
        | none => l) := by
  unfold Entry.epochBoundary Entry.endCooling
  cases e with
  | vacant => rfl
  | cooling id e =>
    dsimp only
    by_cases due : e = epochOf now
    · rw [if_pos due, if_pos ((eq_epochOf_iff e now).1 due)]
    · rw [if_neg due, if_neg fun k => due ((eq_epochOf_iff e now).2 k)]
  | label l =>
    dsimp only
    unfold Label.foldPlanned
    cases l.planned with
    | none => rfl
    | some p => simp only [eq_epochOf_iff]

/-! ## Claims depend on the store, the directory, the contexts and the stamp alone (R138, R143) -/

/-- Only claims are made: the store and the contexts. -/
def ClaimsOnly (s t : State) : Prop := ∃ q c, t = { s with store := q, contexts := c }

theorem ClaimsOnly.refl (s : State) : ClaimsOnly s s := ⟨_, _, rfl⟩

theorem ClaimsOnly.trans {s t u : State} (h : ClaimsOnly s t) (k : ClaimsOnly t u) : ClaimsOnly s u := by
  obtain ⟨_, _, rfl⟩ := h
  obtain ⟨_, _, rfl⟩ := k
  exact ⟨_, _, rfl⟩

theorem claimFor_only (s : State) (a : Nat) : ClaimsOnly s (s.claimFor a) := by
  unfold State.claimFor State.claim State.updateRecord
  repeat' split
  all_goals exact ⟨_, _, rfl⟩

theorem turn_only (c : Allocation) (x : Applicant) : ClaimsOnly c.state (c.turn x).state := by
  unfold Allocation.turn
  dsimp only
  repeat' split
  all_goals first
    | exact .refl _
    | exact claimFor_only _ _

theorem turns_only (q : List Applicant) (c : Allocation) : ClaimsOnly c.state (q.foldl Allocation.turn c).state := by
  induction q generalizing c with
  | nil => exact .refl _
  | cons x q ih => exact (turn_only c x).trans (ih _)

theorem buildPlan_eq (s : State) : ∃ q c p, s.buildPlan = { s with store := q, contexts := c, plan := some p } := by
  obtain ⟨q, c, e⟩ := turns_only s.candidates ⟨s, Config.dataSlots, 0, []⟩
  have state : s.allocate.state = { s with store := q, contexts := c } := e
  have planned : s.buildPlan
      = { s.allocate.state with plan := some (s.allocate.state.planOf s.allocate.shares) } := rfl
  generalize s.allocate.state.planOf s.allocate.shares = p at planned
  exact ⟨q, c, p, by rw [planned, state]⟩

/-- The mark of a first tick that is due. -/
def State.setDue (s : State) (d : Bool) : State := { s with blankingDue := d }

/-- The same turns, with another mark. -/
def Allocation.setDue (c : Allocation) (d : Bool) : Allocation := { c with state := c.state.setDue d }

theorem claimFor_setDue (s : State) (a : Nat) (d : Bool) : (s.setDue d).claimFor a = (s.claimFor a).setDue d := by
  have sending : (s.setDue d).sendingOf a = s.sendingOf a := rfl
  have best : (s.setDue d).bestReady a = s.bestReady a := rfl
  have free : (s.setDue d).freeContext = s.freeContext := rfl
  have record (h : Nat) : (s.setDue d).record h = s.record h := rfl
  unfold State.claimFor State.claim State.updateRecord
  rw [sending, best, free]
  simp only [record]
  cases s.sendingOf a with
  | some h => rfl
  | none =>
    cases s.bestReady a with
    | none => rfl
    | some h =>
      dsimp only
      cases s.record h <;> cases s.freeContext <;> rfl

theorem turn_setDue (c : Allocation) (x : Applicant) (d : Bool) : (c.setDue d).turn x = (c.turn x).setDue d := by
  have own : (c.setDue d).state.ownSlots x = c.state.ownSlots x := rfl
  have frag : (c.setDue d).state.fragmentSlots x = c.state.fragmentSlots x := rfl
  have handle : (c.setDue d).state.transferRecord x.address = c.state.transferRecord x.address := rfl
  have claim : (c.setDue d).state.claimFor x.address = (c.state.claimFor x.address).setDue d := claimFor_setDue _ _ _
  have shares : (c.setDue d).shares = c.shares := rfl
  have left : (c.setDue d).left = c.left := rfl
  have assigns : (c.setDue d).assigns = c.assigns := rfl
  unfold Allocation.turn
  simp only [own, frag, handle, claim, shares, left, assigns]
  split
  · rfl
  · split
    · rfl
    · split
      · split <;> rfl
      · split <;> rfl

theorem turns_setDue (q : List Applicant) (c : Allocation) (d : Bool) :
    q.foldl Allocation.turn (c.setDue d) = (q.foldl Allocation.turn c).setDue d := by
  induction q generalizing c with
  | nil => rfl
  | cons x q ih => rw [List.foldl_cons, List.foldl_cons, turn_setDue, ih]

theorem buildPlan_setDue (s : State) (d : Bool) : (s.setDue d).buildPlan = s.buildPlan.setDue d := by
  have turns : (s.setDue d).allocate = s.allocate.setDue d :=
    turns_setDue s.candidates ⟨s, Config.dataSlots, 0, []⟩ d
  unfold State.buildPlan
  rw [turns]
  rfl

/-! ## The planner takes the boundary (R37, R135) -/

theorem beginBlanking_running {s : State} (h : s.hub = .running) (w : Windowless s.receiver) :
    s.beginBlanking = { s with receiver := { s.receiver with blanked := true, assembly := none } } := by
  have out : s.inLoopTest = false := by
    unfold State.inLoopTest State.lineTest
    rw [h]
  have directory : brokenDirectory s.receiver.assembly s.hub s.directory = s.directory := by
    unfold brokenDirectory
    rw [h]
    cases e : s.receiver.assembly with
    | none => rfl
    | some a =>
      rw [Option.bind_some, w a e]
  have hub : brokenHub s.receiver.assembly s.hub = s.hub := by
    unfold brokenHub
    rw [h]
    cases s.receiver.assembly <;> rfl
  unfold State.beginBlanking
  rw [out, if_neg Bool.false_ne_true, endAssemblyBroken_eq, directory, hub]

/-- The transmitter after it is asked for the beacon: busy as it was, or with the beacon's lead. -/
def State.withBeacon (s : State) (p : Plan) : State :=
  if s.burst = none then { s with
    burst := some (newBurst s.config p.beacon.lead p.beacon.bytes.length (.planner p.beacon.bytes))
    receiver := { s.receiver with blanked := true, assembly := none } }
  else s

theorem sendBeacon_running {s : State} {p : Plan} (h : s.hub = .running) (w : Windowless s.receiver)
    (k : s.plan = some p) : s.sendBeacon = s.withBeacon p := by
  have may : s.mayTransmit = true := by
    unfold State.mayTransmit State.inService
    rw [h]
    rfl
  have request : s.sendRequest p.beacon.lead p.beacon.bytes.length (.planner p.beacon.bytes)
      = if s.burst.isNone then some (s.withBeacon p) else none := by
    unfold State.sendRequest State.withBeacon
    rw [may, beginBlanking_running h w, Bool.true_and]
    by_cases b : s.burst = none
    · rw [b]
      rfl
    · rw [if_neg (by rwa [Option.isNone_iff_eq_none]), if_neg (by rwa [Option.isNone_iff_eq_none])]
  unfold State.sendBeacon
  rw [k]
  dsimp only
  rw [request]
  by_cases b : s.burst = none
  · rw [if_pos (Option.isNone_iff_eq_none.2 b)]
  · rw [if_neg (by rwa [Option.isNone_iff_eq_none])]
    exact (if_neg b).symm

theorem withBeacon_eq (s : State) (p : Plan) : ∃ b r, s.withBeacon p = { s with burst := b, receiver := r } := by
  unfold State.withBeacon
  split <;> exact ⟨_, _, rfl⟩

theorem withBeacon_free {s : State} (h : s.burst = none) (p : Plan) : s.withBeacon p = { s with
    burst := some (newBurst s.config p.beacon.lead p.beacon.bytes.length (.planner p.beacon.bytes))
    receiver := { s.receiver with blanked := true, assembly := none } } := if_pos h

theorem plannerBoundary_running {s : State} (h : s.hub = .running) (w : Windowless s.receiver) :
    ∃ p, (State.buildPlan { s with plan := none }).plan = some p
      ∧ s.plannerBoundary = (State.buildPlan { s with plan := none }).withBeacon p := by
  obtain ⟨q, c, p, e⟩ := buildPlan_eq { s with plan := none }
  have plan : (State.buildPlan { s with plan := none }).plan = some p := by rw [e]
  have boundary : s.plannerBoundary = (State.buildPlan { s with plan := none }).sendBeacon := by
    unfold State.plannerBoundary
    split
    · rfl
    all_goals
      rename_i other
      rw [h] at other
      cases other
  exact ⟨p, plan, boundary.trans (sendBeacon_running (by rw [e]; exact h) (by rw [e]; exact w) plan)⟩

theorem plannerBoundary_other {s : State} (h : s.hub ≠ .running) : s.plannerBoundary = { s with plan := none } := by
  unfold State.plannerBoundary
  cases e : s.hub with
  | running => exact absurd e h
  | _ => rfl

/-- Only what the planner and the transmitter hold is changed. -/
def PlannedOnly (s t : State) : Prop := ∃ p q c b r d, t = { s with
  plan := p, store := q, contexts := c, burst := b, receiver := r, blankingDue := d }

theorem plannerBoundary_only {s : State} (w : Windowless s.receiver) : PlannedOnly s s.plannerBoundary := by
  by_cases h : s.hub = .running
  · obtain ⟨p, -, e⟩ := plannerBoundary_running h w
    obtain ⟨q, c, p', k⟩ := buildPlan_eq { s with plan := none }
    obtain ⟨b, r, beacon⟩ := withBeacon_eq (State.buildPlan { s with plan := none }) p
    rw [e, beacon, k]
    exact ⟨_, _, _, _, _, _, rfl⟩
  · rw [plannerBoundary_other h]
    exact ⟨_, _, _, _, _, _, rfl⟩

/-! ## The turns of a boundary -/

/-- Slot 0 of the next stamp, with what slot 63 has left. -/
def State.roundOpened (s : State) : State :=
  { s.lastSlotEnded with timebase := ⟨true, s.timebase.stamp + 1, 0, 0⟩ }

/-- Hub control has taken its turn. -/
def State.roundSettled (s : State) : State := s.lastSlotEnded.beginRound.settleHub

/-- All the blocks but the planner have taken their turns. -/
def State.roundBegun (s : State) : State := s.roundSettled.clearForeignSeen.directoryBoundary s.epoch

/-- The state of which a served round makes its plan. -/
def State.unplanned (s : State) : State := { s.roundBegun with plan := none }

theorem roundSettled_of_listening {s : State} (r : s.timebase.running = true) {b : Bool}
    (h : s.hub = .listening (s.timebase.stamp + 1) b) : s.roundSettled =
      State.post { s.roundOpened with hub := .running, firstServed := s.endsListening }
        (.linkState .running .start) := by
  have hub : s.lastSlotEnded.hub = s.hub := (lastSlotEnded_time s).hub (by rw [h]; rintro _ ⟨⟩)
  unfold State.roundSettled State.roundOpened
  rw [beginRound_eq r]
  exact settleHub_listening (hub.trans h)

theorem roundSettled_of_stopping {s : State} (r : s.timebase.running = true) (h : s.hub = .stopping) : s.roundSettled =
    (State.endTransfers { s.roundOpened with hub := .offline, firstServed := s.endsListening }).post
      (.linkState .offline .stop) := by
  have hub : s.lastSlotEnded.hub = s.hub := (lastSlotEnded_time s).hub (by rw [h]; rintro _ ⟨⟩)
  unfold State.roundSettled State.roundOpened
  rw [beginRound_eq r]
  exact settleHub_stopping (hub.trans h)

theorem roundSettled_of_other {s : State} (r : s.timebase.running = true)
    (h : ∀ b, s.hub ≠ .listening (s.timebase.stamp + 1) b) (k : s.hub ≠ .stopping) :
    s.roundSettled = { s.roundOpened with firstServed := s.endsListening } := by
  have time := lastSlotEnded_time s
  unfold State.roundSettled State.roundOpened
  rw [beginRound_eq r]
  by_cases test : ∃ m, s.hub = .testing m
  · obtain ⟨m, e⟩ := time.test test
    exact settleHub_still (fun b x => by rw [show s.lastSlotEnded.hub = _ from x] at e; cases e)
      (fun x => by rw [show s.lastSlotEnded.hub = _ from x] at e; cases e)
  · have hub := time.hub (not_exists.1 test)
    exact settleHub_still (fun b x => h b (hub.symm.trans x)) (fun x => k (hub.symm.trans x))

/-- What hub control leaves as it stands. -/
theorem roundSettled_eq {s : State} (r : s.timebase.running = true) : ∃ h q c l, s.roundSettled = { s.roundOpened with
    firstServed := s.endsListening, hub := h, store := { s.roundOpened.store with records := q }, contexts := c
    link := l } := by
  by_cases listening : ∃ b, s.hub = .listening (s.timebase.stamp + 1) b
  · obtain ⟨b, listening⟩ := listening
    exact ⟨_, _, _, _, roundSettled_of_listening r listening⟩
  · by_cases stopping : s.hub = .stopping
    · obtain ⟨q, e, -⟩ := endTransfers_eq { s.roundOpened with hub := .offline, firstServed := s.endsListening }
      rw [roundSettled_of_stopping r stopping, e]
      exact ⟨_, _, _, _, rfl⟩
    · exact ⟨_, _, _, _, roundSettled_of_other r (not_exists.1 listening) stopping⟩

/-- What the radio and the directory change. -/
theorem roundBegun_eq (s : State) : s.roundBegun = { s.roundSettled with
    foreignSeen := if s.roundSettled.timebase.stamp.toNat % 16 = 0 then false else s.roundSettled.foreignSeen
    directory := s.roundBegun.directory } := by
  unfold State.roundBegun
  rw [directoryBoundary_eq, clearForeignSeen_eq]

theorem roundBegun_windowless {s : State} (r : s.timebase.running = true) : Windowless s.roundBegun.receiver := by
  obtain ⟨_, _, _, _, settled⟩ := roundSettled_eq r
  rw [roundBegun_eq, settled]
  exact lastSlotEnded_windowless s

theorem clearForeignSeen_opened {s : State} (r : s.timebase.running = true) :
    s.roundSettled.clearForeignSeen.directory = s.roundOpened.directory
    ∧ s.roundSettled.clearForeignSeen.timebase = s.roundOpened.timebase := by
  obtain ⟨_, _, _, _, settled⟩ := roundSettled_eq r
  rw [clearForeignSeen_eq, settled]
  exact ⟨rfl, rfl⟩

theorem roundBegun_lists {s : State} (r : s.timebase.running = true) :
    s.roundBegun.directory.admission = s.roundOpened.directory.admission.filter
        (fun x => decide ((s.timebase.stamp + 1 - x.lastHeard).toNat < 4))
    ∧ s.roundBegun.directory.crowded = s.roundOpened.directory.accumulator
    ∧ s.roundBegun.directory.accumulator = false := by
  obtain ⟨directory, time⟩ := clearForeignSeen_opened r
  have lists := directoryBoundary_lists s.roundSettled.clearForeignSeen s.epoch
  rw [directory, time] at lists
  exact lists

theorem roundBegun_within {s : State} (r : s.timebase.running = true) (h : (s.timebase.stamp + 1).toNat % 16 ≠ 0)
    (a : Nat) : s.roundBegun.entry a = s.roundOpened.entry a := by
  obtain ⟨directory, time⟩ := clearForeignSeen_opened r
  have within := directoryBoundary_within (s := s.roundSettled.clearForeignSeen) (by rw [time]; exact h) s.epoch a
  exact within.trans (by unfold State.entry; rw [directory])

theorem roundBegun_epoch {s : State} (r : s.timebase.running = true) (h : (s.timebase.stamp + 1).toNat % 16 = 0)
    (a : Nat) : s.roundBegun.entry a
      = (s.roundOpened.entry a).epochBoundary s.epoch (epochOf (s.timebase.stamp + 1)) := by
  obtain ⟨directory, time⟩ := clearForeignSeen_opened r
  have folded := directoryBoundary_epoch (s := s.roundSettled.clearForeignSeen) (by rw [time]; exact h) s.epoch a
  have entry : s.roundSettled.clearForeignSeen.entry a = s.roundOpened.entry a := by
    unfold State.entry
    rw [directory]
  have epoch : s.roundSettled.clearForeignSeen.epoch = epochOf (s.timebase.stamp + 1) := by
    unfold State.epoch
    rw [time]
    rfl
  rw [entry, epoch] at folded
  exact folded

/-! ## ROUND_BOUNDARY -/

theorem exec_roundBoundary {s : State} (h : s.held = false) :
    exec .roundBoundary s = .next s.takeRoundBoundary.choose := live_next h _

theorem takeRoundBoundary_atEnd {s : State} (r : s.timebase.running = true) (l : s.timebase.slot = 63)
    (t : 16000 ≤ s.timebase.slotTime) : s.takeRoundBoundary = s.roundBoundary := by
  rw [takeRoundBoundary_inPlace r l, toSlotEnd_atEnd t]

theorem roundBoundary_still {s : State}
    (h : s.timebase.running = false ∨ s.timebase.slot ≠ 63 ∨ s.timebase.slotTime < 16000) : s.roundBoundary = s := by
  refine if_neg ?_
  rw [atSlotEnd_iff]
  rintro ⟨⟨r, t⟩, l⟩
  rcases h with h | h | h
  · rw [h] at r
    cases r
  · exact h l
  · omega

theorem roundBoundary_atEnd {s : State} (r : s.timebase.running = true) (l : s.timebase.slot = 63)
    (t : 16000 ≤ s.timebase.slotTime) : s.roundBoundary = if s.endsListening
      then s.roundBegun.plannerBoundary.hearOn s.closeWindowAssembly.receiver else s.roundBegun.plannerBoundary :=
  if_pos ⟨(atSlotEnd_iff s).2 ⟨r, t⟩, l⟩

theorem roundBoundary_planned {s : State} (r : s.timebase.running = true) (l : s.timebase.slot = 63)
    (t : 16000 ≤ s.timebase.slotTime) : PlannedOnly s.roundBegun s.roundBoundary := by
  obtain ⟨_, _, _, _, _, _, e⟩ := plannerBoundary_only (roundBegun_windowless r)
  rw [roundBoundary_atEnd r l t, e]
  split <;> exact ⟨_, _, _, _, _, _, rfl⟩

theorem roundBegun_hub (s : State) : s.roundBegun.hub = s.roundSettled.hub := by rw [roundBegun_eq]

/-- At the boundary that ends LISTENING the round is served. -/
theorem roundBegun_of_listening {s : State} (r : s.timebase.running = true) {b : Bool}
    (h : s.hub = .listening (s.timebase.stamp + 1) b) : s.roundBegun.hub = .running := by
  rw [roundBegun_hub, roundSettled_of_listening r h]
  rfl

/-- A round that is not served. -/
theorem roundBoundary_unserved {s : State} (r : s.timebase.running = true) (l : s.timebase.slot = 63)
    (t : 16000 ≤ s.timebase.slotTime) (h : s.roundBegun.hub ≠ .running) : s.roundBoundary = s.unplanned := by
  rw [roundBoundary_atEnd r l t, if_neg (not_endsListening fun b k => h (roundBegun_of_listening r k))]
  exact plannerBoundary_other h

/-- A served round has a plan, and asks for its beacon. -/
theorem roundBoundary_served {s : State} (r : s.timebase.running = true) (l : s.timebase.slot = 63)
    (t : 16000 ≤ s.timebase.slotTime) (h : s.roundBegun.hub = .running) :
    ∃ p, s.unplanned.buildPlan.plan = some p ∧ s.roundBoundary = if s.endsListening
      then (s.unplanned.buildPlan.withBeacon p).hearOn s.closeWindowAssembly.receiver
      else s.unplanned.buildPlan.withBeacon p := by
  obtain ⟨p, plan, e⟩ := plannerBoundary_running h (roundBegun_windowless r)
  exact ⟨p, plan, by rw [roundBoundary_atEnd r l t, e]; rfl⟩

/-- What the last slot's end leaves as it stands. -/
theorem roundOpened_eq (s : State) : ∃ x d l h, s.roundOpened = { s with
    timebase := ⟨true, s.timebase.stamp + 1, 0, 0⟩, dataSlot := x, directory := d, link := l, hub := h
    receiver := s.closeWindowAssembly.receiver } := by
  obtain ⟨x, d, l, h, e⟩ := lastSlotEnded_eq s
  unfold State.roundOpened
  exact ⟨x, d, l, h, by rw [e]⟩

/-- What each block has left for the boundary's end. -/
structure RoundTaken (s t : State) : Prop where
  timebase : t.timebase = ⟨true, s.timebase.stamp + 1, 0, 0⟩
  clock : t.clock = s.clock
  foreignSeen : t.foreignSeen = if (s.timebase.stamp + 1).toNat % 16 = 0 then false else s.foreignSeen
  firstServed : t.firstServed = s.endsListening
  dataSlot : t.dataSlot = s.roundOpened.dataSlot
  directory : t.directory = s.roundBegun.directory
  hub : t.hub = s.roundSettled.hub
  link : t.link = s.roundSettled.link

theorem roundBoundary_taken {s : State} (r : s.timebase.running = true) (l : s.timebase.slot = 63)
    (t : 16000 ≤ s.timebase.slotTime) : RoundTaken s s.roundBoundary := by
  obtain ⟨_, _, _, _, _, _, planned⟩ := roundBoundary_planned r l t
  obtain ⟨_, _, _, _, settled⟩ := roundSettled_eq r
  obtain ⟨_, _, _, _, opened⟩ := roundOpened_eq s
  constructor
  all_goals rw [planned]
  all_goals
    dsimp only
    rw [roundBegun_eq]
  all_goals
    dsimp only
    rw [settled]
  case timebase => rfl
  all_goals rw [opened]

theorem roundSettled_hub_of_other {s : State} (r : s.timebase.running = true)
    (h : ∀ b, s.hub ≠ .listening (s.timebase.stamp + 1) b) (k : s.hub ≠ .stopping) :
    s.roundSettled.hub = s.roundOpened.hub := by rw [roundSettled_of_other r h k]

theorem roundOpened_hub {s : State} (h : ∀ m, s.hub ≠ .testing m) : s.roundOpened.hub = s.hub :=
  (lastSlotEnded_time s).hub h

theorem roundSettled_hub_name {s : State} (r : s.timebase.running = true) : s.roundSettled.hub.name = match s.hub with
    | .offline => .offline
    | .listening e _ => if s.timebase.stamp + 1 = e then .running else .listening
    | .running => .running
    | .stopping => .offline
    | .testing _ => .testing := by
  cases e : s.hub with
  | listening n b =>
    by_cases ends : s.timebase.stamp + 1 = n
    · rw [roundSettled_of_listening r (e.trans (by rw [ends]))]
      exact (if_pos ends).symm
    · rw [roundSettled_hub_of_other r (by rw [e]; rintro c ⟨⟩; exact ends rfl) (by rw [e]; rintro ⟨⟩),
        roundOpened_hub (by rw [e]; rintro m ⟨⟩), e]
      exact (if_neg ends).symm
  | stopping =>
    rw [roundSettled_of_stopping r e]
    obtain ⟨_, k, -⟩ := endTransfers_eq { s.roundOpened with hub := .offline, firstServed := s.endsListening }
    rw [k]
    rfl
  | testing m =>
    rw [roundSettled_hub_of_other r (by rw [e]; rintro c ⟨⟩) (by rw [e]; rintro ⟨⟩)]
    obtain ⟨n, k⟩ := (lastSlotEnded_time s).test ⟨m, e⟩
    exact congrArg HubState.name k
  | _ =>
    rw [roundSettled_hub_of_other r (by rw [e]; rintro c ⟨⟩) (by rw [e]; rintro ⟨⟩),
      roundOpened_hub (by rw [e]; rintro m ⟨⟩), e]
    rfl

/-- Exactly a served round has a plan. -/
theorem roundBoundary_plan_iff {s : State} (r : s.timebase.running = true) (l : s.timebase.slot = 63)
    (t : 16000 ≤ s.timebase.slotTime) : s.roundBoundary.plan.isSome = true ↔ s.roundBoundary.hub = .running := by
  rw [(roundBoundary_taken r l t).hub, ← roundBegun_hub]
  by_cases h : s.roundBegun.hub = .running
  · obtain ⟨p, plan, e⟩ := roundBoundary_served r l t h
    obtain ⟨_, _, beacon⟩ := withBeacon_eq s.unplanned.buildPlan p
    have planned : s.roundBoundary.plan = some p := by
      rw [e, beacon]
      split <;> exact plan
    exact ⟨fun _ => h, fun _ => by rw [planned]; rfl⟩
  · rw [roundBoundary_unserved r l t h]
    exact ⟨by rintro ⟨⟩, fun k => absurd k h⟩

/-- The records and the contexts when STOPPING ends. -/
theorem roundSettled_transfers {s : State} (r : s.timebase.running = true) (h : s.hub = .stopping) :
    (∀ k, s.roundSettled.record k = (s.record k).map (Record.endSending (s.timebase.stamp + 1)))
    ∧ s.roundSettled.store.heldOrder = s.store.heldOrder ∧ ∀ i, s.roundSettled.context i = none := by
  obtain ⟨_, _, _, _, opened⟩ := roundOpened_eq s
  obtain ⟨q, e, records⟩ := endTransfers_eq { s.roundOpened with hub := .offline, firstServed := s.endsListening }
  have record (k : Nat) : State.record { s.roundOpened with hub := .offline, firstServed := s.endsListening } k
      = s.record k := by
    rw [opened]
    rfl
  rw [roundSettled_of_stopping r h]
  generalize State.endTransfers { s.roundOpened with hub := .offline, firstServed := s.endsListening } = w at e records
  refine ⟨fun k => ?_, ?_, fun i => ?_⟩
  · rw [← record]
    exact records k
  · rw [e, opened]
    rfl
  · exact context_none (by rw [e]; rfl) i

/-- Outside STOPPING the claims stand. -/
theorem roundSettled_claims {s : State} (r : s.timebase.running = true) (h : s.hub ≠ .stopping) :
    s.roundSettled.store = s.store ∧ s.roundSettled.contexts = s.contexts := by
  obtain ⟨_, _, _, _, opened⟩ := roundOpened_eq s
  by_cases listening : ∃ b, s.hub = .listening (s.timebase.stamp + 1) b
  · obtain ⟨b, listening⟩ := listening
    rw [roundSettled_of_listening r listening, opened]
    exact ⟨rfl, rfl⟩
  · rw [roundSettled_of_other r (not_exists.1 listening) h, opened]
    exact ⟨rfl, rfl⟩

theorem roundSettled_link {s : State} (r : s.timebase.running = true) :
    ((∃ b, s.hub = .listening (s.timebase.stamp + 1) b) →
        s.roundSettled.link = (s.roundOpened.post (.linkState .running .start)).link)
    ∧ (s.hub = .stopping → s.roundSettled.link = (s.roundOpened.post (.linkState .offline .stop)).link)
    ∧ ((∀ b, s.hub ≠ .listening (s.timebase.stamp + 1) b) → s.hub ≠ .stopping →
        s.roundSettled.link = s.roundOpened.link) := by
  refine ⟨fun ⟨b, h⟩ => ?_, fun h => ?_, fun h k => ?_⟩
  · rw [roundSettled_of_listening r h]
    rfl
  · obtain ⟨_, e, -⟩ := endTransfers_eq { s.roundOpened with hub := .offline, firstServed := s.endsListening }
    rw [roundSettled_of_stopping r h, e]
    rfl
  · rw [roundSettled_of_other r h k]

/-- What the planner starts from stands as it did before the boundary. -/
theorem roundBegun_kept {s : State} (r : s.timebase.running = true) : s.roundBegun.burst = s.burst
    ∧ s.roundBegun.receiver = s.roundOpened.receiver ∧ s.roundBegun.blankingDue = s.blankingDue
    ∧ s.roundBegun.store = s.roundSettled.store ∧ s.roundBegun.contexts = s.roundSettled.contexts
    ∧ s.roundBegun.config = s.config := by
  obtain ⟨_, _, _, _, settled⟩ := roundSettled_eq r
  obtain ⟨_, _, _, _, opened⟩ := roundOpened_eq s
  rw [roundBegun_eq]
  refine ⟨?_, ?_, ?_, rfl, rfl, ?_⟩
  all_goals rw [settled]
  all_goals rw [opened]

/-- The served round's plan, claims and beacon, of the state that the boundary has settled. -/
theorem roundBoundary_service {s v : State} (r : s.timebase.running = true) (l : s.timebase.slot = 63)
    (t : 16000 ≤ s.timebase.slotTime) (h : s.roundBoundary.hub = .running)
    (e : v = { s.roundBoundary with
      plan := none, burst := s.burst, receiver := s.roundOpened.receiver, store := s.store, contexts := s.contexts }) :
    s.roundBoundary.plan = v.buildPlan.plan ∧ s.roundBoundary.store = v.buildPlan.store
    ∧ s.roundBoundary.contexts = v.buildPlan.contexts
    ∧ ∀ p, s.roundBoundary.plan = some p → s.burst = none →
      s.roundBoundary.burst = some (newBurst s.config p.beacon.lead p.beacon.bytes.length (.planner p.beacon.bytes))
      ∧ ((∀ b, s.hub ≠ .listening (s.timebase.stamp + 1) b) →
          s.roundBoundary.receiver = { s.roundOpened.receiver with blanked := true, assembly := none }) := by
  have served : s.roundBegun.hub = .running := by rw [roundBegun_hub, ← (roundBoundary_taken r l t).hub, h]
  have stopping : s.hub ≠ .stopping := by
    intro k
    have name := roundSettled_hub_name r
    rw [← roundBegun_hub, served, k] at name
    cases name
  obtain ⟨burst, receiver, due, store, contexts, config⟩ := roundBegun_kept r
  obtain ⟨store', contexts'⟩ := roundSettled_claims r stopping
  have base : v = s.unplanned.setDue s.roundBoundary.blankingDue := by
    obtain ⟨_, _, _, _, _, _, planned⟩ := roundBoundary_planned r l t
    rw [e, ← burst, ← receiver, ← store', ← contexts', ← store, ← contexts, planned]
    rfl
  obtain ⟨p, plan, k⟩ := roundBoundary_served r l t served
  obtain ⟨q, c, p', built⟩ := buildPlan_eq s.unplanned
  rw [base, buildPlan_setDue]
  generalize s.unplanned.buildPlan = w at plan k built ⊢
  obtain ⟨b', r', beacon⟩ := withBeacon_eq w p
  have planned : s.roundBoundary.plan = w.plan ∧ s.roundBoundary.store = w.store
      ∧ s.roundBoundary.contexts = w.contexts := by
    rw [k, beacon]
    split <;> exact ⟨rfl, rfl, rfl⟩
  obtain ⟨hplan, hstore, hcontexts⟩ := planned
  refine ⟨hplan, hstore, hcontexts, fun p₁ e₁ free => ?_⟩
  have same : p₁ = p := by
    rw [hplan, plan] at e₁
    exact (Option.some.inj e₁).symm
  subst same
  have free' : w.burst = none := by
    rw [built]
    exact burst.trans free
  have config' : w.config = s.config := by
    rw [built]
    exact config
  have receiver' : w.receiver = s.roundOpened.receiver := by
    rw [built]
    exact receiver
  rw [withBeacon_free free', config', receiver'] at k
  refine ⟨?_, fun n => ?_⟩
  · rw [k]
    split <;> rfl
  · rw [k, if_neg (not_endsListening n)]

/-- When the receiver is blanked: at the beacon's first tick where LISTENING ends, else with the beacon's request. -/
theorem roundBoundary_blanking {s : State} (r : s.timebase.running = true) (l : s.timebase.slot = 63)
    (t : 16000 ≤ s.timebase.slotTime) :
    ((∃ b, s.hub = .listening (s.timebase.stamp + 1) b) → s.roundBoundary.receiver = s.roundOpened.receiver
      ∧ s.roundBoundary.blankingDue = s.roundBoundary.burst.isSome)
    ∧ ((∀ b, s.hub ≠ .listening (s.timebase.stamp + 1) b) → s.roundBoundary.blankingDue = s.blankingDue) := by
  refine ⟨fun listening => ?_, fun n => ?_⟩
  · have receiver : s.closeWindowAssembly.receiver = s.roundOpened.receiver := by
      obtain ⟨_, _, _, _, opened⟩ := roundOpened_eq s
      rw [opened]
    rw [roundBoundary_atEnd r l t, if_pos ((endsListening_iff s).2 listening), receiver]
    exact ⟨rfl, rfl⟩
  · obtain ⟨-, -, due, -, -, -⟩ := roundBegun_kept r
    by_cases h : s.roundBegun.hub = .running
    · obtain ⟨p, -, e⟩ := roundBoundary_served r l t h
      obtain ⟨_, _, _, built⟩ := buildPlan_eq s.unplanned
      obtain ⟨_, _, beacon⟩ := withBeacon_eq s.unplanned.buildPlan p
      rw [e, if_neg (not_endsListening n), beacon, built]
      exact due
    · rw [roundBoundary_unserved r l t h]
      exact due

theorem roundBoundary_stopped {s : State} (r : s.timebase.running = true) (l : s.timebase.slot = 63)
    (t : 16000 ≤ s.timebase.slotTime) (h : s.hub = .stopping) :
    (∀ k, s.roundBoundary.record k = (s.record k).map (Record.endSending (s.timebase.stamp + 1)))
    ∧ s.roundBoundary.store.heldOrder = s.store.heldOrder ∧ ∀ i, s.roundBoundary.context i = none := by
  obtain ⟨records, order, contexts⟩ := roundSettled_transfers r h
  obtain ⟨-, -, -, store, slots, -⟩ := roundBegun_kept r
  have offline : s.roundBegun.hub ≠ .running := by
    intro k
    have name := roundSettled_hub_name r
    rw [← roundBegun_hub, k, h] at name
    cases name
  have claims : s.roundBoundary.store = s.roundSettled.store
      ∧ s.roundBoundary.contexts = s.roundSettled.contexts := by
    rw [roundBoundary_unserved r l t offline]
    exact ⟨store, slots⟩
  obtain ⟨store', slots'⟩ := claims
  refine ⟨fun k => ?_, by rw [store', order], fun i => ?_⟩
  · rw [← records]
    unfold State.record
    rw [store']
  · rw [← contexts i]
    unfold State.context
    rw [slots']

/-- An unserved round sends nothing and hears on, and outside STOPPING it claims nothing. -/
theorem roundBoundary_idle {s : State} (r : s.timebase.running = true) (l : s.timebase.slot = 63)
    (t : 16000 ≤ s.timebase.slotTime) (h : s.roundBoundary.hub ≠ .running) :
    s.roundBoundary.burst = s.burst ∧ s.roundBoundary.receiver = s.roundOpened.receiver
    ∧ (s.hub ≠ .stopping → s.roundBoundary.store = s.store ∧ s.roundBoundary.contexts = s.contexts) := by
  obtain ⟨burst, receiver, -, store, contexts, -⟩ := roundBegun_kept r
  rw [(roundBoundary_taken r l t).hub, ← roundBegun_hub] at h
  rw [roundBoundary_unserved r l t h]
  refine ⟨burst, receiver, fun k => ?_⟩
  obtain ⟨store', contexts'⟩ := roundSettled_claims r k
  exact ⟨store.trans store', contexts.trans contexts'⟩

theorem RoundTaken.entry {s t : State} (h : RoundTaken s t) (a : Nat) : t.entry a = s.roundBegun.entry a := by
  unfold State.entry
  rw [h.directory]

/-- Settles O24: the time left, the end of slot 63, and the turn that each block takes at the boundary. -/
theorem roundBoundaryBeginsTheNextRound : Obligations.RoundBoundaryBeginsTheNextRound := by
  unfold Obligations.RoundBoundaryBeginsTheNextRound
  intro s h
  refine ⟨fun o => ?out, fun r l e he => ?left, closeWindowAssembly_closed s, ?_, ?window, fun r l t => ?round⟩
  case out => rw [exec_roundBoundary h, takeRoundBoundary_outOfPlace o]
  case left =>
    have toEnd : s.takeRoundBoundary = e.roundBoundary := by
      rw [takeRoundBoundary_inPlace r l, he]
      rfl
    have held : e.held = false := by
      rw [he]
      exact (idleFor_outside s _).held.trans h
    rw [exec_roundBoundary h, toEnd]
    refine ⟨fun r' l' t' => ?_, fun o => ?_⟩
    · rw [exec_roundBoundary held, takeRoundBoundary_atEnd r' l' t']
    · rw [roundBoundary_still o]
  · exact windowHeldOpen_windowless (closeWindowAssembly_windowless s)
  case window =>
    have window : s.closeWindowAssembly.replyWindowEnd = s.closeWindowAssembly.takeWindowEnd :=
      if_neg (by rw [windowHeldOpen_windowless (closeWindowAssembly_windowless s)]; exact Bool.false_ne_true)
    rw [← window]
    exact live_next ((closeWindowAssembly_cell s).held.trans h) _
  case round =>
    have event := roundBoundary_event s
    have taken := roundBoundary_taken r l t
    refine ⟨s.roundBoundary, ?_, taken.timebase, taken.clock, ?_, roundBoundary_plan_iff r l t, taken.foreignSeen,
      fun stopping => ?contexts, ?_, event.config, event.memory, event.parity, ?_, ?_, ?turns⟩
    · rw [exec_roundBoundary h, takeRoundBoundary_atEnd r l t]
    · rw [taken.hub]
      exact roundSettled_hub_name r
    case contexts =>
      obtain ⟨-, -, contexts⟩ := roundBoundary_stopped r l t stopping
      exact contexts
    · rw [taken.firstServed]
      exact endsListening_iff s
    · rw [event.link]
    · rw [event.link]
    case turns =>
      rintro u _ rfl hu
      have opened : u = s.roundOpened := hu
      subst opened
      obtain ⟨admission, crowded, accumulator⟩ := roundBegun_lists r
      obtain ⟨started, stopped, quiet⟩ := roundSettled_link r
      obtain ⟨heard, due⟩ := roundBoundary_blanking r l t
      refine ⟨taken.dataSlot, fun k => taken.link.trans (started k), fun k => ?stopping,
        fun n k => taken.link.trans (quiet n k), fun n k => ?hub, heard, due, ?_, ?_, ?_, fun within a => ?_,
        fun epoch a => ?_, roundBoundary_idle r l t, fun k v hv => roundBoundary_service r l t k hv⟩
      case stopping =>
        obtain ⟨records, order, -⟩ := roundBoundary_stopped r l t k
        exact ⟨taken.link.trans (stopped k), records, order⟩
      case hub =>
        have hub := taken.hub.trans (roundSettled_hub_of_other r n k)
        exact ⟨hub, fun out => hub.trans (roundOpened_hub out)⟩
      · rw [taken.directory, admission]
      · rw [taken.directory, crowded]
      · rw [taken.directory, accumulator]
      · rw [taken.entry, roundBegun_within r within]
      · exact ((taken.entry a).trans (roundBegun_epoch r epoch a)).trans (epochBoundary_eq _ _ _)

end Sys2Proof.Machine

/-! PROOFS. What an event about one label leaves alone, and what becomes of the records where an operation goes through
them, one handle after another. -/

namespace Sys2Proof.Machine

/-! ## An event about one label -/

namespace LabelFrame

theorem refl (a : Nat) (s : State) : LabelFrame a s s := ⟨fun _ _ => rfl, rfl, rfl, rfl⟩

theorem trans {a : Nat} {s t u : State} (h : LabelFrame a s t) (k : LabelFrame a t u) : LabelFrame a s u where
  entries b n := (k.entries b n).trans (h.entries b n)
  directory := (congrArg (fun d : Directory => { d with entries := s.directory.entries }) k.directory).trans h.directory
  store := (congrArg (fun p : PageStore => { p with records := s.store.records, heldOrder := s.store.heldOrder })
    k.store).trans h.store
  rest := (congrArg (fun x : State => { x with
    directory := s.directory, store := s.store, contexts := s.contexts, burst := s.burst
    link := { x.link with notices := s.link.notices, overflow := s.link.overflow } }) k.rest).trans h.rest

theorem setEntry (a : Nat) (s : State) (e : Entry) : LabelFrame a s (s.setEntry a e) := by
  refine ⟨fun b n => ?_, ?_, ?_, ?_⟩
  · rw [entry_setEntry, if_neg fun c => n c.1]
  all_goals
    unfold State.setEntry
    split <;> rfl

theorem post (a : Nat) (s : State) (n : Notice) : LabelFrame a s (s.post n) := ⟨fun _ _ => rfl, rfl, rfl, rfl⟩

theorem postAll (a : Nat) (ns : List Notice) (s : State) : LabelFrame a s (s.postAll ns) := by
  induction ns generalizing s with
  | nil => exact refl a s
  | cons n ns ih => exact (post a s n).trans (ih (s.post n))

theorem holding (a : Nat) (s : State) (l : Label) (ns : List Notice) : LabelFrame a s (s.holding a l ns) :=
  (setEntry a s (.label l)).trans (postAll a ns _)

end LabelFrame

/-! ## What an event about one label reads and posts -/

theorem setEntry_self {s : State} {a : Nat} {e : Entry} (h : s.entry a = e) : s.setEntry a e = s := by
  subst h
  unfold State.setEntry State.entry
  by_cases z : a = 0
  · rw [if_pos z]
  · rw [if_neg z, if_neg z]
    have same : s.directory.entries.setIfInBounds (a - 1) (s.directory.entries[a - 1]?.getD .vacant)
        = s.directory.entries := by
      ext i hi
      rw [Vector.getElem_setIfInBounds]
      split
      · rename_i e
        subst e
        simp [hi]
      · rfl
    rw [same]

/-- What is posted goes by the notices that wait and by the timebase alone. -/
theorem postAll_link {s t : State} (l : s.link = t.link) (b : s.timebase = t.timebase) (ns : List Notice) :
    (s.postAll ns).link = (t.postAll ns).link := by
  unfold State.postAll
  induction ns generalizing s t with
  | nil => exact l
  | cons n ns ih =>
    refine ih ?_ b
    unfold State.post State.noticeStamp
    rw [l, b]

theorem postAll_append (s : State) (ms ns : List Notice) : s.postAll (ms ++ ns) = (s.postAll ms).postAll ns :=
  List.foldl_append

theorem postAll_records (ns : List Notice) (s : State) : (s.postAll ns).contexts = s.contexts
    ∧ (s.postAll ns).burst = s.burst := by
  unfold State.postAll
  induction ns generalizing s with
  | nil => exact ⟨rfl, rfl⟩
  | cons n ns ih => exact ih (s.post n)

theorem updateLabel_setEntry {s : State} {a : Nat} {l : Label} (e : s.entry a = .label l) (f : Label → Label) :
    s.updateLabel a f = s.setEntry a (.label (f l)) := by
  unfold State.updateLabel
  rw [entry_label e]

theorem updateLabel_unheld {s : State} {a : Nat} (e : ∀ l, s.entry a ≠ .label l) (f : Label → Label) :
    s.updateLabel a f = s := by
  unfold State.updateLabel
  split
  · rename_i l k
    exact absurd (label_entry k) (e l)
  · rfl

theorem entry_setEntry_same {s : State} {a : Nat} (r : 1 ≤ a ∧ a ≤ 240) (e : Entry) : (s.setEntry a e).entry a = e := by
  rw [entry_setEntry, if_pos ⟨rfl, r⟩]

/-! ## The cut request (R7) -/

theorem abort_abort (b : Burst) : b.abort.abort = b.abort := by
  unfold Burst.abort
  cases p : b.part
  case data =>
    cases b.current with
    | none => simp [Burst.toAbortMark]
    | some x => simp
  case endMark => simp [p]
  case abortMark => simp [p]
  all_goals simp

theorem cutRequest_burst_eq (s : State) : s.cutRequest.burst = s.burst.map Burst.abort := by
  cases e : s.burst with
  | none => rw [cutRequest_none e, e, Option.map_none]
  | some b => rw [cutRequest_burst e, Option.map_some]

/-! ## What becomes of one record -/

/-- What an operation does about one record: what the slot holds then, and whether the record leaves the HELD order, the
context tied to it is freed and the burst is asked to end. -/
structure Edit where
  record : Option Record
  drops : Bool
  frees : Bool
  cuts : Bool

/-- An operation about the record at a handle does what an edit says, and nothing else. -/
structure Edited (h : Nat) (e : Edit) (s t : State) : Prop where
  records : ∀ k, t.record k = if k = h then e.record else s.record k
  order : t.store.heldOrder = if e.drops then s.store.heldOrder.filter (fun x => x != h) else s.store.heldOrder
  contexts : ∀ i, t.context i = if e.frees = true ∧ s.contextOf h = some i then none else s.context i
  burst : t.burst = if e.cuts then s.burst.map Burst.abort else s.burst
  store : { t.store with records := s.store.records, heldOrder := s.store.heldOrder } = s.store
  rest : { t with store := s.store, contexts := s.contexts, burst := s.burst } = s

theorem contextOf_congr {s t : State} (h : ∀ i, t.context i = s.context i) (k : Nat) : t.contextOf k = s.contextOf k := by
  unfold State.contextOf
  simp only [h]

theorem Edited.keep (s : State) (h : Nat) : Edited h ⟨s.record h, false, false, false⟩ s s where
  records k := by
    split
    · rename_i e
      rw [e]
    · rfl
  order := rfl
  contexts i := by simp
  burst := rfl
  store := rfl
  rest := rfl

theorem Edited.freeRecord {s : State} {h : Nat} {r : Record} (e : s.record h = some r) :
    Edited h ⟨none, true, false, false⟩ s (s.freeRecord h) where
  records _ := record_set (s := s) (o := none) (record_lt e)
  order := rfl
  contexts i := by
    simp
    rfl
  burst := rfl
  store := rfl
  rest := rfl

theorem Edited.updateRecord {s : State} {h : Nat} {r : Record} (e : s.record h = some r) (f : Record → Record) :
    Edited h ⟨some (f r), false, false, false⟩ s (s.updateRecord h f) where
  records _ := record_update e f
  order := by
    unfold State.updateRecord
    rw [e]
    rfl
  contexts i := by
    unfold State.updateRecord
    rw [e]
    simp
    rfl
  burst := by simp
  store := by
    unfold State.updateRecord
    rw [e]
    rfl
  rest := by
    unfold State.updateRecord
    rw [e]
    rfl

theorem Edited.dropHeld {s t : State} {h : Nat} {o : Option Record} {f c : Bool} (E : Edited h ⟨o, false, f, c⟩ s t) :
    Edited h ⟨o, true, f, c⟩ s (t.setHeldOrder (s.store.heldOrder.filter fun x => x != h)) :=
  ⟨E.records, rfl, E.contexts, E.burst, E.store, E.rest⟩

theorem Edited.freeContext {s t : State} {h : Nat} {o : Option Record} {d c : Bool}
    (E : Edited h ⟨o, d, false, c⟩ s t) : Edited h ⟨o, d, true, c⟩ s (t.freeContextOf h) := by
  obtain ⟨records, order, contexts, burst, store, rest⟩ := E
  have ctx (i : Nat) : t.context i = s.context i := by simpa using contexts i
  have tied : t.contextOf h = s.contextOf h := contextOf_congr ctx h
  unfold State.freeContextOf
  cases k : t.contextOf h with
  | none =>
    refine ⟨records, order, fun i => ?_, burst, store, rest⟩
    rw [← tied, k, if_neg (by simp), ctx]
  | some j =>
    obtain ⟨x, ex, -⟩ := contextOf_some k
    refine ⟨records, order, fun i => ?_, burst, store, rest⟩
    dsimp only
    rw [context_setContext, ← tied, k, ctx]
    by_cases same : i = j
    · subst same
      simp [context_lt ex]
    · simp [same, Ne.symm same]

theorem Edited.cutRequest {s : State} {h : Nat} {r : Record} (e : s.record h = some r) (f : Record → Record) :
    Edited h ⟨some (f r), false, false, true⟩ s (s.cutRequest.updateRecord h f) := by
  have e' : s.cutRequest.record h = some r := (cutRequest_record s h).trans e
  obtain ⟨records, order, contexts, burst, store, rest⟩ := Edited.updateRecord e' f
  obtain ⟨dir, str, ctx⟩ := cutRequest_frame s
  refine ⟨fun k => ?_, ?_, fun i => ?_, ?_, ?_, ?_⟩
  · rw [records, cutRequest_record]
  · rw [order, str]
  · have := contexts i
    simp only [Bool.false_eq_true, false_and, if_false] at this ⊢
    rw [this, context_eq ctx]
  · rw [burst]
    exact cutRequest_burst_eq s
  · rw [str] at store
    exact store
  · have back : { s.cutRequest with burst := s.burst } = s := by
      cases b : s.burst with
      | none => rw [cutRequest_none b, ← b]
      | some x => rw [cutRequest_burst b, ← b]
    exact (congrArg (fun x : State => { x with store := s.store, contexts := s.contexts, burst := s.burst }) rest).trans
      ((congrArg (fun x : State => { x with store := s.store, contexts := s.contexts }) back))

/-- A record changes, and another one's context and burst are as they were. -/
theorem Edited.other {s t : State} {h k : Nat} {e : Edit} (E : Edited h e s t) (n : k ≠ h) :
    t.record k = s.record k ∧ t.contextOf k = s.contextOf k ∧ t.fragmentOnAir k = s.fragmentOnAir k := by
  have freed (i : Nat) : t.context i = s.context i ∨ (t.context i = none ∧ ∃ c, s.context i = some c ∧ c.handle = h) := by
    rw [E.contexts i]
    split
    · rename_i f
      exact .inr ⟨rfl, contextOf_some f.2⟩
    · exact .inl rfl
  have tied : t.contextOf k = s.contextOf k := by
    unfold State.contextOf
    congr 1
    funext i
    rcases freed i with f | ⟨f, c, g, x⟩
    · rw [f]
    · rw [f, g]
      simp [x, Ne.symm n]
  refine ⟨by rw [E.records, if_neg n], tied, ?_⟩
  unfold State.fragmentOnAir
  rw [tied]
  cases c : s.contextOf k with
  | none => rfl
  | some i =>
    obtain ⟨x, ex, hx⟩ := contextOf_some c
    dsimp only
    rcases freed i with f | ⟨-, y, g, hy⟩
    · rw [f]
    · rw [ex] at g
      cases g
      exact absurd (hx.symm.trans hy) n

/-! ## What becomes of the records, one after another -/

/-- The records of a list of handles are edited, each as `e` says. -/
structure Edits (e : Nat → Edit) (l : List Nat) (s t : State) : Prop where
  records : ∀ k, t.record k = if k ∈ l then (e k).record else s.record k
  order : t.store.heldOrder = s.store.heldOrder.filter fun k => !(decide (k ∈ l) && (e k).drops)
  contexts : ∀ i, t.context i = if ∃ h ∈ l, (e h).frees = true ∧ s.contextOf h = some i then none else s.context i
  burst : t.burst = if ∃ h ∈ l, (e h).cuts = true then s.burst.map Burst.abort else s.burst
  store : { t.store with records := s.store.records, heldOrder := s.store.heldOrder } = s.store
  rest : { t with store := s.store, contexts := s.contexts, burst := s.burst } = s

theorem Edits.nil (e : Nat → Edit) (s : State) : Edits e [] s s := ⟨by simp, by simp, by simp, by simp, rfl, rfl⟩

theorem Edits.cons {e : Nat → Edit} {h : Nat} {l : List Nat} {s t u : State} (E : Edited h (e h) s t) (n : h ∉ l)
    (F : Edits e l t u) : Edits e (h :: l) s u where
  records k := by
    rw [F.records, E.records]
    by_cases same : k = h
    · subst same
      simp [n]
    · simp [same]
  order := by
    rw [F.order, E.order]
    split
    · rename_i d
      rw [List.filter_filter]
      congr 1
      funext k
      by_cases same : k = h
      · subst same
        simp [d]
      · simp [same]
    · rename_i d
      congr 1
      funext k
      by_cases same : k = h
      · subst same
        simp [n, d]
      · simp [same]
  contexts i := by
    have tied : (∃ k ∈ l, (e k).frees = true ∧ t.contextOf k = some i) ↔
        ∃ k ∈ l, (e k).frees = true ∧ s.contextOf k = some i := by
      refine exists_congr fun k => and_congr_right fun m => ?_
      rw [(E.other (k := k) (by rintro rfl; exact n m)).2.1]
    rw [F.contexts, E.contexts, if_congr tied rfl rfl]
    simp only [List.mem_cons, exists_eq_or_imp]
    by_cases x : (e h).frees = true ∧ s.contextOf h = some i <;> simp [x]
  burst := by
    rw [F.burst, E.burst]
    simp only [List.mem_cons, exists_eq_or_imp]
    have twice : (Burst.abort ∘ Burst.abort) = Burst.abort := funext abort_abort
    by_cases x : (e h).cuts = true <;> by_cases y : ∃ k ∈ l, (e k).cuts = true <;> simp [x, y, twice]
  store := (congrArg (fun p : PageStore => { p with records := s.store.records, heldOrder := s.store.heldOrder })
    F.store).trans E.store
  rest := (congrArg (fun x : State => { x with store := s.store, contexts := s.contexts, burst := s.burst })
    F.rest).trans E.rest

theorem Edits.congr {d e : Nat → Edit} {l : List Nat} {s t : State} (E : Edits d l s t) (same : ∀ k ∈ l, d k = e k) :
    Edits e l s t where
  records k := by
    rw [E.records]
    split
    · rename_i m
      rw [same k m]
    · rfl
  order := by
    rw [E.order]
    refine List.filter_congr fun k _ => ?_
    by_cases m : k ∈ l
    · rw [same k m]
    · simp [m]
  contexts i := by
    rw [E.contexts]
    refine if_congr (exists_congr fun k => and_congr_right fun m => ?_) rfl rfl
    rw [same k m]
  burst := by
    rw [E.burst]
    refine if_congr (exists_congr fun k => and_congr_right fun m => ?_) rfl rfl
    rw [same k m]
  store := E.store
  rest := E.rest

/-- An operation that edits one record at a time, each by what stands in its slot, whether its fragment is on the air,
and the stamp, edits those of a list of handles. -/
theorem Edits.fold {f : State → Nat → State} {e : State → Nat → Edit} (one : ∀ s h, Edited h (e s h) s (f s h))
    (alone : ∀ s t h, t.record h = s.record h → t.fragmentOnAir h = s.fragmentOnAir h → t.timebase = s.timebase →
      e t h = e s h) {l : List Nat} (once : l.Nodup) (s : State) : Edits (e s) l s (l.foldl f s) := by
  induction l generalizing s with
  | nil => exact .nil _ s
  | cons h l ih =>
    obtain ⟨n, once⟩ := List.nodup_cons.1 once
    have E := one s h
    refine .cons E n ((ih once (f s h)).congr fun k m => ?_)
    obtain ⟨record, -, air⟩ := E.other (k := k) (by rintro rfl; exact n m)
    exact alone s (f s h) k record air (congrArg State.timebase E.rest :)

section
variable {e : Nat → Edit} {l : List Nat} {s t : State}

theorem record_of_not_mem {s : State} {h : Nat} (n : h ∉ handles) : s.record h = none := by
  cases e : s.record h with
  | none => rfl
  | some r => exact absurd (List.mem_range.2 (record_lt e)) n

/-- With every handle gone through, each slot holds what its edit says. -/
theorem Edits.record (E : Edits e handles s t) (absent : ∀ h, s.record h = none → (e h).record = none) (h : Nat) :
    t.record h = (e h).record := by
  rw [E.records]
  split
  · rfl
  · rename_i n
    rw [record_of_not_mem n, absent h (record_of_not_mem n)]

theorem Edits.directory (E : Edits e l s t) : t.directory = s.directory :=
  (congrArg State.directory E.rest :)

theorem Edits.link (E : Edits e l s t) : t.link = s.link :=
  (congrArg State.link E.rest :)

theorem Edits.timebase (E : Edits e l s t) : t.timebase = s.timebase :=
  (congrArg State.timebase E.rest :)

theorem Edits.config (E : Edits e l s t) : t.config = s.config :=
  (congrArg State.config E.rest :)

theorem Edits.labelFrame (E : Edits e l s t) (a : Nat) : LabelFrame a s t where
  entries b _ := entry_eq E.directory b
  directory := by rw [E.directory]
  store := E.store
  rest := (congrArg (fun x : State => { x with
    directory := s.directory, link := { x.link with notices := s.link.notices, overflow := s.link.overflow } })
      E.rest)

end

end Sys2Proof.Machine

/-! PROOFS. Leaving (R65 to R69): the records of an address are removed (R131), its operations fail (R102), and its entry
goes to COOLING or RELEASING. -/

namespace Sys2Proof.Machine

/-! ## The records of an address are removed (R116, R131) -/

/-- What becomes of a record as the records of an address are removed: a SENDING one is cut, a VOID one stays, every
other is freed. -/
def State.removal (a : Nat) (s : State) (h : Nat) : Edit :=
  match s.record h with
  | none => ⟨none, false, false, false⟩
  | some r =>
    if r.address = a then
      match r.state with
      | .sending =>
        if s.fragmentOnAir h then ⟨some { r with state := .void, pinned := false }, false, false, true⟩
        else ⟨none, true, true, false⟩
      | .void => ⟨some r, false, false, false⟩
      | _ => ⟨none, true, false, false⟩
    else ⟨some r, false, false, false⟩

section
variable {s : State} {a h : Nat} {r : Record}

theorem removal_absent (e : s.record h = none) : s.removal a h = ⟨none, false, false, false⟩ := by
  unfold State.removal
  rw [e]

theorem removal_other (e : s.record h = some r) (n : r.address ≠ a) :
    s.removal a h = ⟨some r, false, false, false⟩ := by
  unfold State.removal
  rw [e]
  exact if_neg n

theorem removal_void (e : s.record h = some r) (k : r.state = .void) :
    s.removal a h = ⟨some r, false, false, false⟩ := by
  unfold State.removal
  rw [e]
  simp [k]

theorem removal_idle (e : s.record h = some r) (n : r.address = a) (k : r.state ≠ .sending) (v : r.state ≠ .void) :
    s.removal a h = ⟨none, true, false, false⟩ := by
  unfold State.removal
  rw [e]
  dsimp only
  rw [if_pos n]
  split
  · contradiction
  · contradiction
  · rfl

theorem removal_cut (e : s.record h = some r) (n : r.address = a) (k : r.state = .sending)
    (air : s.fragmentOnAir h = false) : s.removal a h = ⟨none, true, true, false⟩ := by
  unfold State.removal
  rw [e]
  simp [n, k, air]

theorem removal_onAir (e : s.record h = some r) (n : r.address = a) (k : r.state = .sending)
    (air : s.fragmentOnAir h = true) :
    s.removal a h = ⟨some { r with state := .void, pinned := false }, false, false, true⟩ := by
  unfold State.removal
  rw [e]
  simp [n, k, air]

end

theorem discardIfOf_edited (a : Nat) (s : State) (h : Nat) : Edited h (s.removal a h) s (State.discardIfOf a s h) := by
  have kept {t : State} (k : t = s) (x : s.removal a h = ⟨s.record h, false, false, false⟩) :
      Edited h (s.removal a h) s t := by
    rw [k, x]
    exact .keep s h
  unfold State.discardIfOf
  cases e : s.record h with
  | none => exact kept rfl (by rw [e, removal_absent e])
  | some r =>
    dsimp only
    split
    · rename_i n
      unfold State.discardRecord
      rw [e]
      dsimp only
      split
      · rename_i k
        unfold State.cutRecord
        cases air : s.fragmentOnAir h with
        | true =>
          rw [removal_onAir e n k air]
          exact .cutRequest e fun r => { r with state := .void, pinned := false }
        | false =>
          rw [removal_cut e n k air]
          exact (Edited.freeRecord e).freeContext
      · rename_i k
        exact kept rfl (by rw [e, removal_void e k])
      all_goals
        rename_i k
        rw [removal_idle e n (by rw [k]; simp) (by rw [k]; simp)]
        exact .freeRecord e
    · rename_i n
      exact kept rfl (by rw [e, removal_other e n])

theorem removeRecords_edits (s : State) (a : Nat) : Edits (s.removal a) handles s (s.removeRecords a) := by
  refine Edits.fold (discardIfOf_edited a) (fun s t h record air _ => ?_) List.nodup_range s
  unfold State.removal
  rw [record, air]

/-- A slot after the records of an address are removed. -/
theorem removeRecords_record (s : State) (a h : Nat) : (s.removeRecords a).record h = (s.removal a h).record :=
  (removeRecords_edits s a).record (fun h e => by rw [removal_absent e]) h

/-- Which records leave the HELD order, which free their context, and which cut the burst. -/
theorem removal_marks (s : State) (a h : Nat) :
    (s.removal a h).drops = !((s.record h).isNone || (s.removal a h).record.isSome)
    ∧ ((s.removal a h).frees = true ↔
      ∃ r, s.record h = some r ∧ r.address = a ∧ r.state = .sending ∧ s.fragmentOnAir h = false)
    ∧ ((s.removal a h).cuts = true ↔
      ∃ r, s.record h = some r ∧ r.address = a ∧ r.state = .sending ∧ s.fragmentOnAir h = true) := by
  cases e : s.record h with
  | none =>
    rw [removal_absent e]
    simp
  | some r =>
    by_cases n : r.address = a
    · by_cases k : r.state = .sending
      · cases air : s.fragmentOnAir h with
        | false =>
          rw [removal_cut e n k air]
          simp [n, k]
        | true =>
          rw [removal_onAir e n k air]
          simp [n, k]
      · by_cases v : r.state = .void
        · rw [removal_void e v]
          simp [k]
        · rw [removal_idle e n k v]
          simp [k]
    · rw [removal_other e n]
      simp [n]

theorem removeRecords_gone (s : State) (a : Nat) : RecordsGone a s (s.removeRecords a) := by
  have E := removeRecords_edits s a
  have slot := removeRecords_record s a
  have listed {h : Nat} {r : Record} (e : s.record h = some r) : h ∈ handles := List.mem_range.2 (record_lt e)
  refine ⟨fun h e => ?absent, fun h r e n => ?others, fun h r e n k v => ?idle, fun h r e n k air => ⟨?cut, fun i tied => ?freed⟩,
    fun h r e n k air => ?void, fun h r e n k => ?left, ?order, fun i n => ?contexts, fun n => ?line, ?ended⟩
  case absent => rw [slot, removal_absent e]
  case others => rw [slot, removal_other e n]
  case idle => rw [slot, removal_idle e n k v]
  case cut => rw [slot, removal_cut e n k air]
  case void => rw [slot, removal_onAir e n k air]
  case left => rw [slot, removal_void e k]
  case order =>
    rw [E.order]
    refine List.filter_congr fun h _ => ?_
    rw [(removal_marks s a h).1, slot]
    by_cases m : h ∈ handles
    · simp [m]
    · simp [m, record_of_not_mem m]
  case contexts =>
    rw [E.contexts, if_neg]
    rintro ⟨h, -, frees, tied⟩
    obtain ⟨r, e, address, -⟩ := (removal_marks s a h).2.1.1 frees
    obtain ⟨c, ec, rfl⟩ := contextOf_some tied
    exact n c r ec e address
  case line =>
    rw [E.burst, if_neg]
    rintro ⟨h, -, cuts⟩
    obtain ⟨r, e, address, k, air⟩ := (removal_marks s a h).2.2.1 cuts
    rw [n h r e address k] at air
    cases air
  case ended =>
    rintro ⟨h, r, e, address, k, air⟩
    rw [E.burst, if_pos ⟨h, listed e, (removal_marks s a h).2.2.2 ⟨r, e, address, k, air⟩⟩, cutRequest_burst_eq]
  case freed =>
    rw [E.contexts, if_pos ⟨h, listed e, (removal_marks s a h).2.1.2 ⟨r, e, n, k, air⟩, tied⟩]

theorem RecordsGone.same {a : Nat} {s t u : State} (G : RecordsGone a s t) (hs : u.store = t.store)
    (hc : u.contexts = t.contexts) (hb : u.burst = t.burst) : RecordsGone a s u := by
  have slot (h : Nat) : u.record h = t.record h := record_eq (congrArg PageStore.records hs) h
  have ctx (i : Nat) : u.context i = t.context i := context_eq hc i
  obtain ⟨absent, others, idle, cut, void, left, order, contexts, line, ended⟩ := G
  constructor
  case order =>
    rw [hs, order]
    simp only [slot]
  all_goals
    simp only [slot, ctx, hb]
    assumption

/-! ## An entry is left (R65 to R69, R102) -/

/-- The records of an address are removed, its entry is written, and notices are posted. -/
def State.leaving (s : State) (a : Nat) (e : Entry) (ns : List Notice) : State :=
  ((s.removeRecords a).setEntry a e).postAll ns

section
variable {s : State} {a : Nat} {l : Label}

theorem leaving_entry (r : 1 ≤ a ∧ a ≤ 240) (e : Entry) (ns : List Notice) : (s.leaving a e ns).entry a = e := by
  unfold State.leaving
  rw [entry_eq (postAll_entries _ ns), entry_setEntry_same r]

theorem leaving_link (e : Entry) (ns : List Notice) : (s.leaving a e ns).link = (s.postAll ns).link := by
  have E := removeRecords_edits s a
  refine postAll_link ?_ ?_ ns
  · rw [setEntry_link, E.link]
  · rw [setEntry_timebase, E.timebase]

theorem leaving_gone (e : Entry) (ns : List Notice) : RecordsGone a s (s.leaving a e ns) := by
  obtain ⟨-, -, store⟩ := postAll_frame ns ((s.removeRecords a).setEntry a e)
  obtain ⟨contexts, burst⟩ := postAll_records ns ((s.removeRecords a).setEntry a e)
  refine (removeRecords_gone s a).same ?_ ?_ ?_
  · exact store.trans (by simp)
  · exact contexts.trans (by simp)
  · exact burst.trans (by simp)

theorem leaving_frame (e : Entry) (ns : List Notice) : LabelFrame a s (s.leaving a e ns) :=
  (((removeRecords_edits s a).labelFrame a).trans (.setEntry a _ e)).trans (.postAll a ns _)

theorem removed_holding (e : s.entry a = .label l) (c : OpFailure) : (s.removeRecords a).removeOperations a c =
    (s.removeRecords a).holding a { l with queue := [] } (removalNotices a c l.queue) := by
  have e' : (s.removeRecords a).entry a = .label l := (entry_eq (removeRecords_edits s a).directory a).trans e
  unfold State.removeOperations
  rw [entry_label e']
  dsimp only
  rw [updateLabel_setEntry e']
  rfl

theorem holding_setEntry (e : Entry) (ns : List Notice) : (s.holding a l ns).setEntry a e =
    (s.setEntry a e).postAll ns := by
  unfold State.holding
  rw [setEntry_postAll, setEntry_setEntry]

/-- The operations fail and the entry goes to COOLING (R45, R69, R102). -/
theorem removed_cooling (e : s.entry a = .label l) (c : OpFailure) :
    ((s.removeRecords a).removeOperations a c).enterCooling a =
      s.leaving a (.cooling l.longId (s.epoch + 2)) (removalNotices a c l.queue) := by
  have r := entry_range (s := s) (a := a) (by rw [e]; simp)
  have epoch : (s.removeRecords a).epoch = s.epoch := by
    unfold State.epoch
    rw [(removeRecords_edits s a).timebase]
  unfold State.enterCooling
  rw [removed_holding e, holding_label r]
  dsimp only
  rw [holding_setEntry, holding_epoch, epoch]
  rfl

theorem forget_leaving (e : s.entry a = .label l) : s.forget a =
    s.leaving a (.cooling l.longId (s.epoch + 2)) (removalNotices a .forgotten l.queue) := removed_cooling e _

theorem releaseJoining_leaving (e : s.entry a = .label l) : s.releaseJoining a =
    s.leaving a (.cooling l.longId (s.epoch + 2)) (removalNotices a .released l.queue ++ [.labelReleased a false]) := by
  unfold State.releaseJoining
  rw [removed_cooling e]
  exact (postAll_append _ _ [.labelReleased a false]).symm

theorem releaseBound_leaving (e : s.entry a = .label l) (m : Bool) : s.releaseBound a m =
    s.leaving a (.label { l with
        phase := .releasing 2 m
        queue := [⟨.release, s.stamp, 0, false⟩]
        openSend := l.openSend.map fun w => { w with attached := false } })
      (removalNotices a .released l.queue) := by
  have r := entry_range (s := s) (a := a) (by rw [e]; simp)
  unfold State.releaseBound
  rw [removed_holding e, holding_update r]
  rfl

theorem joinFailed_leaving (e : s.entry a = .label l) (id : LongId) : s.joinFailed a id =
    s.leaving a .vacant (removalNotices a .joinFailed l.queue ++ [.joinFailed a id]) := by
  unfold State.joinFailed
  rw [removed_holding e, holding_post, holding_setEntry]
  rfl

end

/-! ## RELEASE and FORGET -/

theorem isReleasing_iff {p : Phase} : p.isReleasing = true ↔ ∃ n b, p = .releasing n b := by
  cases p <;> simp [Phase.isReleasing]

theorem isJoining_iff {p : Phase} : p.isJoining = true ↔ ∃ n b, p = .joining n b := by
  cases p <;> simp [Phase.isJoining]

theorem exec_release {s u : State} {tag a : Byte} (h : Ready s) (hu : u = s.inHand ⟨0x14, tag, [a]⟩) :
    exec (.release tag [a]) s = .next ((u.doRelease [a]).state.reply 0x14 tag (u.doRelease [a]).status
      (u.doRelease [a]).result) := by
  subst hu
  exact taken h (f := ⟨0x14, tag, [a]⟩) (k := .release) (by rfl) (by rfl) (Nat.le_of_ble_eq_true rfl)

theorem exec_forget {s u : State} {tag a : Byte} (h : Ready s) (hu : u = s.inHand ⟨0x15, tag, [a]⟩) :
    exec (.forget tag [a]) s = .next ((u.doForget [a]).state.reply 0x15 tag (u.doForget [a]).status
      (u.doForget [a]).result) := by
  subst hu
  exact taken h (f := ⟨0x15, tag, [a]⟩) (k := .forget) (by rfl) (by rfl) (Nat.le_of_ble_eq_true rfl)

theorem addressInRange_out {a : Byte} (h : a = 0 ∨ 240 < a.toNat) : addressInRange a.toNat = false := by
  rw [← Bool.not_eq_true, addressInRange_iff]
  rcases h with rfl | h
  · exact fun c => absurd c.1 (by decide)
  · omega

section
variable {s : State} {a : Byte} {l : Label}

theorem doRelease_badField (h : addressInRange a.toNat = false) : s.doRelease [a] = s.refuse .badField :=
  if_pos (congrArg Bool.not h)

theorem doForget_badField (h : addressInRange a.toNat = false) : s.doForget [a] = s.refuse .badField :=
  if_pos (congrArg Bool.not h)

theorem doRelease_unheld (r : addressInRange a.toNat = true) (h : s.label? a.toNat = none) :
    s.doRelease [a] = s.refuse .wrongState := by
  unfold State.doRelease
  simp only [show byteAt [a] 0 = a from rfl, r, h]
  rfl

theorem doForget_unheld (r : addressInRange a.toNat = true) (h : s.label? a.toNat = none) :
    s.doForget [a] = s.refuse .wrongState := by
  unfold State.doForget
  simp only [show byteAt [a] 0 = a from rfl, r, h]
  rfl

theorem label_inRange (e : s.entry a.toNat = .label l) : addressInRange a.toNat = true :=
  addressInRange_iff.2 (entry_range (s := s) (by rw [e]; simp))

theorem doForget_label (e : s.entry a.toNat = .label l) : s.doForget [a] = (s.forget a.toNat).accept [] := by
  unfold State.doForget
  simp only [show byteAt [a] 0 = a from rfl, label_inRange e, entry_label e]
  rfl

theorem doRelease_releasing (e : s.entry a.toNat = .label l) (p : l.phase.isReleasing = true) :
    s.doRelease [a] = s.refuse .wrongState := by
  unfold State.doRelease
  obtain ⟨n, b, k⟩ := isReleasing_iff.1 p
  simp only [show byteAt [a] 0 = a from rfl, label_inRange e, entry_label e, k]
  rfl

theorem doRelease_joining (e : s.entry a.toNat = .label l) (p : l.phase.isJoining = true) :
    s.doRelease [a] = (s.releaseJoining a.toNat).accept [] := by
  unfold State.doRelease
  obtain ⟨n, b, k⟩ := isJoining_iff.1 p
  simp only [show byteAt [a] 0 = a from rfl, label_inRange e, entry_label e, k]
  rfl

theorem doRelease_bound (e : s.entry a.toNat = .label l) (p : l.phase = .bound ∨ l.phase = .missing) :
    s.doRelease [a] = (s.releaseBound a.toNat (l.phase == .missing)).accept [] := by
  unfold State.doRelease
  simp only [show byteAt [a] 0 = a from rfl, label_inRange e, entry_label e]
  rcases p with p | p <;> rw [p] <;> rfl

end

/-- Settles O43: a leaving writes the entry and posts the notices of its operations, with the records of the address
gone. -/
theorem releaseAndForgetStartLeaving : Obligations.ReleaseAndForgetStartLeaving := by
  unfold Obligations.ReleaseAndForgetStartLeaving
  rintro tag a s u v h hu hv
  rw [exec_release h hu, exec_forget h hv]
  have eu : u.entry a.toNat = s.entry a.toNat := by rw [hu]; rfl
  have ev : v.entry a.toNat = s.entry a.toNat := by rw [hv]; rfl
  refine ⟨fun out => ?outside, fun low high none => ?unheld, fun l e => ?forget,
    fun l e => ⟨fun p => ?releasing, fun p => ?joining, fun p => ?bound⟩⟩
  case outside =>
    rw [doRelease_badField (addressInRange_out out), doForget_badField (addressInRange_out out)]
    exact ⟨rfl, rfl⟩
  case unheld =>
    have r := addressInRange_iff.2 ⟨low, high⟩
    rw [doRelease_unheld r ((congrArg Entry.label? eu).trans none),
      doForget_unheld r ((congrArg Entry.label? ev).trans none)]
    exact ⟨rfl, rfl⟩
  all_goals
    have r := entry_range (s := s) (a := a.toNat) (by rw [e]; simp)
    have ku := eu.trans e
    have kv := ev.trans e
  case forget =>
    rw [doForget_label kv, forget_leaving kv]
    refine ⟨_, rfl, (leaving_entry r _ _).trans ?_, leaving_link _ _, leaving_gone _ _, leaving_frame _ _⟩
    rw [hv]
    rfl
  case releasing =>
    rw [doRelease_releasing ku p]
    rfl
  case joining =>
    rw [doRelease_joining ku p, releaseJoining_leaving ku]
    refine ⟨_, rfl, (leaving_entry r _ _).trans ?_, leaving_link _ _, leaving_gone _ _, leaving_frame _ _⟩
    rw [hu]
    rfl
  case bound =>
    rw [doRelease_bound ku p, releaseBound_leaving ku]
    refine ⟨_, rfl, (leaving_entry r _ _).trans ?_, leaving_link _ _, leaving_gone _ _, leaving_frame _ _⟩
    rw [hu]
    rfl

end Sys2Proof.Machine

/-! PROOFS. Joining (R44, R50 to R57): the admission list, the new entry and its first reading, and a rejoin. -/

namespace Sys2Proof.Machine

/-! ## The directory's vacant entries and the holders of long ids (R43) -/

section
variable {s : State}

theorem lowestVacant_none (h : ∀ a, 1 ≤ a → a ≤ 240 → s.entry a ≠ .vacant) : s.lowestVacant = none := by
  rw [← Option.not_isSome_iff_eq_none, lowestVacant_isSome_iff]
  rintro ⟨a, low, high, e⟩
  exact h a low high e

theorem lowestVacant_first {a : Nat} (low : 1 ≤ a) (high : a ≤ 240) (e : s.entry a = .vacant)
    (below : ∀ b, 1 ≤ b → b < a → s.entry b ≠ .vacant) : s.lowestVacant = some a := by
  have vacant (e : Entry) : e.isVacant = true ↔ e = .vacant := by cases e <;> simp [Entry.isVacant]
  refine List.find?_range'_eq_some.2 ⟨by rw [e]; rfl, mem_addresses.2 ⟨low, high⟩, fun b lb lt => ?_⟩
  rw [Bool.not_eq_true', ← Bool.not_eq_true, vacant]
  exact below b lb lt

theorem holderOf_unheld {id : LongId} (h : ∀ a, 1 ≤ a → a ≤ 240 → (s.entry a).longId ≠ some id) :
    s.holderOf id = none := by
  unfold State.holderOf
  rw [List.find?_eq_none]
  intro a m
  obtain ⟨low, high⟩ := mem_addresses.1 m
  simpa using h a low high

/-! ## The admission list (R55) -/

theorem asking_unlisted {id : LongId} (h : ∀ x ∈ s.directory.admission, x.longId ≠ id) : s.asking id = none := by
  unfold State.asking
  rw [List.find?_eq_none]
  intro x m
  simpa using h x m

theorem asking_listed {id : LongId} {before after : List Asking} {x : Asking}
    (h : s.directory.admission = before ++ x :: after) (e : x.longId = id) (n : ∀ y ∈ before, y.longId ≠ id) :
    s.asking id = some x := by
  unfold State.asking
  rw [List.find?_eq_some_iff_append]
  refine ⟨by simpa using e, before, after, h, fun y m => ?_⟩
  simpa using n y m

theorem updateAsking_listed {id : LongId} {before after : List Asking} {x : Asking}
    (h : s.directory.admission = before ++ x :: after) (e : x.longId = id) (n : ∀ y ∈ before ++ after, y.longId ≠ id)
    (f : Asking → Asking) : s.updateAsking id f = s.setAdmission (before ++ f x :: after) := by
  have other {l : List Asking} (k : ∀ y ∈ l, y.longId ≠ id) : l.map (fun y => if y.longId = id then f y else y) = l :=
    (List.map_congr_left fun y m => if_neg (k y m)).trans (List.map_id' l)
  unfold State.updateAsking
  rw [h, List.map_append, List.map_cons, if_pos e, other fun y m => n y (List.mem_append_left _ m),
    other fun y m => n y (List.mem_append_right _ m)]

theorem dropAsking_unlisted {id : LongId} (h : ∀ x ∈ s.directory.admission, x.longId ≠ id) : s.dropAsking id = s := by
  unfold State.dropAsking
  rw [List.filter_eq_self.2 fun x m => by simpa using h x m]
  rfl

end

/-! ## The reading (R84 to R87) -/

theorem holding_records (s : State) (a : Nat) (l : Label) (ns : List Notice) : (s.holding a l ns).store = s.store
    ∧ (s.holding a l ns).contexts = s.contexts ∧ (s.holding a l ns).burst = s.burst := by
  obtain ⟨-, -, store⟩ := postAll_frame ns (s.setEntry a (.label l))
  obtain ⟨contexts, burst⟩ := postAll_records ns (s.setEntry a (.label l))
  exact ⟨store.trans (by simp), contexts.trans (by simp), burst.trans (by simp)⟩

theorem holding_link (s : State) (a : Nat) (l : Label) (ns : List Notice) :
    (s.holding a l ns).link = (s.postAll ns).link := postAll_link (by simp) (by simp) ns

theorem holding_entry (s : State) {a : Nat} (r : 1 ≤ a ∧ a ≤ 240) (l : Label) (ns : List Notice) :
    (s.holding a l ns).entry a = .label l := label_entry (holding_label r)

theorem takeReading_label {s : State} {a : Nat} {l : Label} (e : s.entry a = .label l) (mv : Option Nat) : ∃ m ns,
    ReadingTaken s.config s.stamp a mv l m ns ∧ s.takeReading a mv = s.holding a m ns := by
  have r := entry_range (s := s) (a := a) (by rw [e]; simp)
  have self : s.holding a l [] = s := setEntry_self e
  obtain ⟨m, ns, taken, k⟩ := holding_reading (v := s) (l := l) (ns := []) r mv
  rw [self] at k
  exact ⟨m, ns, taken, k⟩

/-- A reading changes the battery's fields, and through the saving profile the queue and the open send. -/
theorem ReadingTaken.fields {c : Configuration} {now : Stamp} {a : Nat} {mv : Option Nat} {l m : Label}
    {ns : List Notice} (h : ReadingTaken c now a mv l m ns) :
    { m with queue := l.queue, batteryMv := l.batteryMv, batteryClass := l.batteryClass, openSend := l.openSend } = l
    ∧ ∀ v, mv = some v → m.batteryMv = some v
      ∧ m.batteryClass = classify c.batteryLow c.batteryCritical l.batteryClass v := by
  cases mv with
  | none => exact ⟨by rw [(h.1 rfl).1], nofun⟩
  | some v =>
    obtain ⟨same, other⟩ := h.2 v _ (classify c.batteryLow c.batteryCritical l.batteryClass v == .critical
      && c.batterySaving) ⟨16, a % 16⟩ rfl rfl (by simp) rfl
    by_cases e : classify c.batteryLow c.batteryCritical l.batteryClass v = l.batteryClass
    · rw [(same e).1]
      refine ⟨rfl, ?_⟩
      rintro _ ⟨⟩
      exact ⟨rfl, e.symm⟩
    · obtain ⟨-, eq, -⟩ := other e
      rw [eq]
      refine ⟨rfl, ?_⟩
      rintro _ ⟨⟩
      exact ⟨rfl, rfl⟩

/-- The first reading of a new entry (R44, R86). -/
theorem ReadingTaken.first {s : State} {a : Nat} {id : LongId} {c : Capabilities} {mv : Option Nat} {heard : Stamp}
    {m : Label} {ns : List Notice}
    (h : ReadingTaken s.config s.stamp a mv (newLabel s.config.defaultPeriod a id c heard) m ns) :
    ns = firstReadingNotices s.config a mv ∧ NewJoining s a id c mv heard (.label m) := by
  cases mv with
  | none =>
    obtain ⟨rfl, rfl⟩ := h.1 rfl
    exact ⟨rfl, _, rfl, rfl, rfl, fun _ => ⟨rfl, rfl⟩, nofun⟩
  | some v =>
    generalize k : classify s.config.batteryLow s.config.batteryCritical .ok v = after
    obtain ⟨same, other⟩ := h.2 v after (after == .critical && s.config.batterySaving) ⟨16, a % 16⟩ rfl k.symm (by simp) rfl
    by_cases e : after = .ok
    · obtain ⟨rfl, rfl⟩ := same e
      subst e
      refine ⟨by simp [firstReadingNotices, k], _, rfl, rfl, rfl, nofun, ?_⟩
      rintro _ ⟨⟩
      exact ⟨k.symm, rfl⟩
    · obtain ⟨rfl, eq, empty, -⟩ := other e
      obtain ⟨send, queue⟩ := empty nofun
      have cl : m.batteryClass = after := by rw [eq]
      refine ⟨?_, m, rfl, ?_, ?_, nofun, ?_⟩
      · cases after with
        | ok => contradiction
        | low => simp [firstReadingNotices, k, newLabel]
        | critical => simp [firstReadingNotices, k, newLabel]
      · rw [eq, send]
        rfl
      · rw [eq]
      · rintro _ ⟨⟩
        refine ⟨cl.trans k.symm, ?_⟩
        have current : m.current = ⟨s.config.defaultPeriod, a % s.config.defaultPeriod⟩ := by rw [eq]; rfl
        rw [queue, cl, current]
        simp [newLabel, and_assoc]
        rfl

/-- A new entry in JOINING, made as the admission list becomes `q` (R44). -/
theorem createEntry_spec (s : State) {a : Nat} (r : 1 ≤ a ∧ a ≤ 240) (q : List Asking) (id : LongId) (c : Capabilities)
    (mv : Option Nat) (heard : Stamp) (t : State) (ht : t = (s.setAdmission q).createEntry a id c mv heard) :
    NewJoining s a id c mv heard (t.entry a) ∧ t.directory.admission = q
      ∧ t.link = (s.postAll (firstReadingNotices s.config a mv)).link
      ∧ LabelFrame a s { t with directory := { t.directory with admission := s.directory.admission } }
      ∧ SameRecords s t := by
  obtain ⟨m, ns, taken, k⟩ := holding_reading (v := s.setAdmission q) (a := a)
    (l := newLabel s.config.defaultPeriod a id c heard) (ns := []) r mv
  obtain ⟨rfl, new⟩ := ReadingTaken.first (s := s) taken
  obtain rfl : t = (s.setAdmission q).holding a m (firstReadingNotices s.config a mv) := ht.trans k
  obtain ⟨entries, directory, store, rest⟩ := LabelFrame.holding a (s.setAdmission q) m
    (firstReadingNotices s.config a mv)
  obtain ⟨same, contexts, burst⟩ := holding_records (s.setAdmission q) a m (firstReadingNotices s.config a mv)
  refine ⟨?_, (congrArg Directory.admission directory :), ?_, ⟨entries, ?_, store, ?_⟩,
    congrArg PageStore.records same, congrArg PageStore.heldOrder same, contexts, burst⟩
  · rw [holding_entry _ r]
    exact new
  · rw [holding_link]
    exact postAll_link (s := s.setAdmission q) (t := s) rfl rfl _
  · exact (congrArg (fun d : Directory => { d with admission := s.directory.admission }) directory :)
  · exact (congrArg (fun x : State => { x with directory := s.directory }) rest :)

/-! ## ADMIT (R57) -/

theorem byteAt_behind {l : List Byte} {n : Nat} (h : l.length = n) (m : List Byte) (i : Nat) :
    byteAt (l ++ m) (n + i) = byteAt m i := by
  subst h
  unfold byteAt
  rw [List.getD_append_right _ _ _ _ (Nat.le_add_right _ _), Nat.add_sub_cancel_left]

theorem exec_admit {s u : State} {tag d : Byte} {idBytes : List Byte} (h : Ready s) (n : idBytes.length = 6)
    (hu : u = s.inHand ⟨0x10, tag, idBytes ++ [d]⟩) : exec (.admitJoin tag (idBytes ++ [d])) s =
    .next ((u.doAdmit (idBytes ++ [d])).state.reply 0x10 tag (u.doAdmit (idBytes ++ [d])).status
      (u.doAdmit (idBytes ++ [d])).result) := by
  subst hu
  have length : (idBytes ++ [d]).length = 7 := by rw [List.length_append, n]; rfl
  refine taken h (f := ⟨0x10, tag, idBytes ++ [d]⟩) (k := .admitJoin) (by rfl) (beq_iff_eq.2 length) ?_
  show (idBytes ++ [d]).length ≤ 200
  omega

section
variable {s : State} {d : Byte} {idBytes : List Byte} {id : LongId}

theorem admitDecision_eq (n : idBytes.length = 6) : admitDecision (idBytes ++ [d]) = d.toNat :=
  congrArg BitVec.toNat (byteAt_behind n [d] 0)

theorem admit_longId (n : idBytes.length = 6) (k : id = BitVec.ofNat 48 (leNat idBytes)) :
    longIdAt (idBytes ++ [d]) 0 = id := by
  unfold longIdAt fieldAt
  rw [List.drop_zero, List.take_left' n, k]

theorem doAdmit_badField (n : idBytes.length = 6) (h : 1 < d.toNat) :
    s.doAdmit (idBytes ++ [d]) = s.refuse .badField := if_pos (by rw [admitDecision_eq n]; exact h)

theorem doAdmit_unlisted (n : idBytes.length = 6) (k : id = BitVec.ofNat 48 (leNat idBytes)) (h : d.toNat ≤ 1)
    (e : s.asking id = none) : s.doAdmit (idBytes ++ [d]) = s.refuse .noLabel := by
  unfold State.doAdmit
  simp only [admitDecision_eq n, admit_longId n k, e]
  exact if_neg (by omega)

theorem doAdmit_refuses (n : idBytes.length = 6) (k : id = BitVec.ofNat 48 (leNat idBytes)) {x : Asking}
    (e : s.asking id = some x) :
    s.doAdmit (idBytes ++ [1]) = (s.updateAsking id fun x => { x with refused := true }).accept [] := by
  unfold State.doAdmit
  simp only [admitDecision_eq n, admit_longId n k, e]
  rfl

theorem doAdmit_full (n : idBytes.length = 6) (k : id = BitVec.ofNat 48 (leNat idBytes)) {x : Asking}
    (e : s.asking id = some x) (v : s.lowestVacant = none) : s.doAdmit (idBytes ++ [0]) = s.refuse .tableFull := by
  unfold State.doAdmit
  simp only [admitDecision_eq n, admit_longId n k, e, v]
  rfl

theorem doAdmit_accepts (n : idBytes.length = 6) (k : id = BitVec.ofNat 48 (leNat idBytes)) {x : Asking} {a : Nat}
    (e : s.asking id = some x) (v : s.lowestVacant = some a) : s.doAdmit (idBytes ++ [0]) =
      ((s.dropAsking id).createEntry a id x.capabilities x.batteryMv x.lastHeard).accept [byteOf a] := by
  unfold State.doAdmit
  simp only [admitDecision_eq n, admit_longId n k, e, v]
  rfl

end

/-- Settles O41: the decision, the list and the room, in order; an acceptance makes the new entry. -/
theorem admitDecidesAListedRequest : Obligations.AdmitDecidesAListedRequest := by
  unfold Obligations.AdmitDecidesAListedRequest
  rintro tag d idBytes id s u h n k rfl
  rw [exec_admit h n rfl]
  refine ⟨fun bad => ?_, fun ok none => ?_, fun x e => ⟨?_, ?_, ?_⟩⟩
  · rw [doAdmit_badField n bad]
    rfl
  · rw [doAdmit_unlisted (s := s.inHand _) n k ok (asking_unlisted none)]
    rfl
  · rintro rfl
    rw [doAdmit_refuses (s := s.inHand _) n k e]
    rfl
  · rintro rfl full
    rw [doAdmit_full (s := s.inHand _) n k e (lowestVacant_none full)]
    rfl
  · rintro rfl a low high vacant below
    rw [doAdmit_accepts (s := s.inHand _) n k e (lowestVacant_first low high vacant below)]
    obtain ⟨new, list, link, frame, same⟩ := createEntry_spec (s.inHand ⟨0x10, tag, idBytes ++ [0]⟩) ⟨low, high⟩
      (s.directory.admission.filter fun y => y.longId != id) id x.capabilities x.batteryMv x.lastHeard _ rfl
    exact ⟨_, rfl, new, list, link, frame, same⟩

end Sys2Proof.Machine

/-! PROOFS. JOIN_REQ (R50 to R54, R130): the long id's holder first, and then the join policy. -/

namespace Sys2Proof.Machine

/-! ## A join request in a join slot (R50) -/

theorem exec_joinReq_taken {s : State} {n m : Nat} {body : List Byte} (h : Hearing s m (some (.join n)))
    (ok : arrives s.config.hubId (0x71 :: body) = true) : exec (.joinReq ⟨m, body⟩) s =
    .next (s.endBurst.takeJoinRequest (joinRequestOf (0x71 :: body))).choose := by
  obtain ⟨⟨held, hears⟩, window⟩ := h
  have delivered : s.endBurst.deliverWhole (some (.join n)) (0x71 :: body) =
      s.endBurst.takeJoinRequest (joinRequestOf (0x71 :: body)) :=
    (deliverWhole_window (by decide) _ _ _).trans (if_pos ok)
  rw [exec_joinReq held, wholeBurst_heard hears, window, delivered]

section
variable {s : State} {q : JoinRequest} {a : Nat} {l : Label}

theorem takeJoinRequest_rejoins (h : s.holderOf q.longId = some a) (e : s.entry a = .label l)
    (p : l.phase = .bound ∨ l.phase = .missing) : s.takeJoinRequest q = s.rejoin a q.mv := by
  unfold State.takeJoinRequest
  rcases p with p | p <;> simp only [h, entry_label e, p]

theorem takeJoinRequest_refreshes {k : Nat} {b : Bool} (h : s.holderOf q.longId = some a) (e : s.entry a = .label l)
    (p : l.phase = .joining k b) : s.takeJoinRequest q = s.joinRefresh a b := by
  unfold State.takeJoinRequest
  simp only [h, entry_label e, p]

theorem takeJoinRequest_releasing (h : s.holderOf q.longId = some a) (e : s.entry a = .label l)
    (p : l.phase.isReleasing = true) : s.takeJoinRequest q = s := by
  obtain ⟨n, b, k⟩ := isReleasing_iff.1 p
  unfold State.takeJoinRequest
  simp only [h, entry_label e, k]

theorem takeJoinRequest_cooling {id : LongId} {c : Epoch} (h : s.holderOf q.longId = some a)
    (e : s.entry a = .cooling id c) : s.takeJoinRequest q = s := by
  unfold State.takeJoinRequest State.label?
  simp only [h, e, Entry.label?]

theorem takeJoinRequest_ask (h : s.holderOf q.longId = none) (p : s.config.joinPolicy = .ask) :
    s.takeJoinRequest q = s.joinAskPolicy q := by
  unfold State.takeJoinRequest
  simp only [h, p]

theorem takeJoinRequest_open (h : s.holderOf q.longId = none) (p : s.config.joinPolicy = .openAll) :
    s.takeJoinRequest q = s.joinOpenPolicy q := by
  unfold State.takeJoinRequest
  simp only [h, p]

theorem takeJoinRequest_closed (h : s.holderOf q.longId = none) (p : s.config.joinPolicy = .closed) :
    s.takeJoinRequest q = s := by
  unfold State.takeJoinRequest
  simp only [h, p]

theorem joinRefresh_eq (e : s.entry a = .label l) (b : Bool) : s.joinRefresh a b =
    s.setEntry a (.label { l with phase := .joining 4 b, lastHeard := some s.stamp }) := updateLabel_setEntry e _

/-! ## ASK (R54) -/

theorem joinAsk_asks (h : s.asking q.longId = none) (room : s.directory.admission.length < 8) : s.joinAskPolicy q =
    (s.setAdmission (s.directory.admission ++ [⟨q.longId, q.capabilities, q.mv, s.stamp, false⟩])).post
      (.joinAsked q.longId q.capabilities q.mv) := by
  unfold State.joinAskPolicy
  simp only [h]
  exact if_pos room

theorem joinAsk_listFull (h : s.asking q.longId = none) (full : 8 ≤ s.directory.admission.length) :
    s.joinAskPolicy q = s.post (.joinRefused q.longId .listFull) := by
  unfold State.joinAskPolicy
  simp only [h]
  exact if_neg (Nat.not_lt.2 full)

theorem joinAsk_asksAgain {x : Asking} (h : s.asking q.longId = some x) (r : x.refused = false) : s.joinAskPolicy q =
    s.updateAsking q.longId fun x => { x with
      lastHeard := s.stamp, capabilities := q.capabilities, batteryMv := q.mv } := by
  unfold State.joinAskPolicy
  simp only [h, r]
  rfl

theorem joinAsk_refused {x : Asking} (h : s.asking q.longId = some x) (r : x.refused = true) :
    s.joinAskPolicy q = s.refreshRefused q.longId := by
  unfold State.joinAskPolicy
  simp only [h, r]
  rfl

/-! ## OPEN (R53; log 12) -/

theorem joinOpen_refused {x : Asking} (h : s.asking q.longId = some x) (r : x.refused = true) :
    s.joinOpenPolicy q = s.refreshRefused q.longId := by
  unfold State.joinOpenPolicy
  simp only [h, r]
  rfl

theorem joinOpen_full (h : ∀ x, s.asking q.longId = some x → x.refused = false) (v : s.lowestVacant = none) :
    s.joinOpenPolicy q = s.post (.joinRefused q.longId .full) := by
  unfold State.joinOpenPolicy
  cases e : s.asking q.longId with
  | none => simp only [v]
  | some x =>
    simp only [v, h x e]
    rfl

theorem joinOpen_takes (h : ∀ x, s.asking q.longId = some x → x.refused = false) (v : s.lowestVacant = some a) :
    s.joinOpenPolicy q = (s.dropAsking q.longId).createEntry a q.longId q.capabilities q.mv s.stamp := by
  unfold State.joinOpenPolicy
  cases e : s.asking q.longId with
  | none => simp only [v, dropAsking_unlisted (asking_none e)]
  | some x =>
    simp only [v, h x e]
    rfl

end

/-! ## The fields of a JOIN_REQ (R197) -/

/-- The fields of a JOIN_REQ laid out byte by byte (R197), and its arrival checks (R198). -/
theorem joinRequest_fields {hubId : Word16} {cap len batt : Byte} {idBytes body : List Byte} {id : LongId}
    (hb : body = hubId.setWidth 8 :: idBytes ++ [cap, len, batt]) (n : idBytes.length = 6)
    (k : id = BitVec.ofNat 48 (leNat idBytes)) :
    joinRequestOf (0x71 :: body) = ⟨id, ⟨cap.toNat % 16, 64 * len.toNat, cap.toNat / 16⟩,
      if batt = 0 then none else some (1500 + 10 * batt.toNat)⟩
    ∧ (id ≠ 0 → id ≠ 0xFFFFFFFFFFFF → 1 ≤ cap.toNat % 16 → cap.toNat % 16 ≤ 4 → 1 ≤ len.toNat → len.toNat ≤ 16 →
      arrives hubId (0x71 :: body) = true) := by
  have layout : (0x71 : Byte) :: body = [0x71, hubId.setWidth 8] ++ (idBytes ++ [cap, len, batt]) := by rw [hb]; rfl
  have capByte : byteAt (0x71 :: body) 8 = cap := by
    rw [layout]
    exact (byteAt_behind (n := 2) rfl _ 6).trans (byteAt_behind n _ 0)
  have lenByte : byteAt (0x71 :: body) 9 = len := by
    rw [layout]
    exact (byteAt_behind (n := 2) rfl _ 7).trans (byteAt_behind n _ 1)
  have battByte : byteAt (0x71 :: body) 10 = batt := by
    rw [layout]
    exact (byteAt_behind (n := 2) rfl _ 8).trans (byteAt_behind n _ 2)
  have idField : ((0x71 :: body).drop 2).take 6 = idBytes := by
    rw [layout]
    exact List.take_left' n
  have low : cap.toNat / 2 ^ 0 % 2 ^ 4 = cap.toNat % 16 := by omega
  have high : cap.toNat / 2 ^ 4 % 2 ^ 4 = cap.toNat / 16 := by
    have := cap.isLt
    omega
  constructor
  · unfold joinRequestOf bitsAt fieldAt batteryReading
    rw [capByte, lenByte, battByte, idField, low, high, k]
  · intro zero ones pages pages4 length length16
    rw [arrives_iff, joinReqArrives_iff, capByte, lenByte, idField]
    refine ⟨by rw [hb]; rfl, .inl ⟨rfl, ?_, fun z => zero ?_, fun z => ones ?_, pages, pages4, length, length16⟩⟩
    · rw [layout]
      simp [n]
    · rw [k, z]
      rfl
    · rw [k, z]
      rfl

/-! ## The admission list under ASK -/

/-- Settles O44: the four rows of R54. -/
theorem joinRequestUnderAskIsListed : Obligations.JoinRequestUnderAskIsListed := by
  unfold Obligations.JoinRequestUnderAskIsListed
  rintro cap len batt idBytes id c mv n m s u body hb h ask rfl six k zero ones rfl pages pages4 length length16 rfl unheld
  obtain ⟨fields, passes⟩ := joinRequest_fields hb six k
  rw [exec_joinReq_taken h (passes zero ones pages pages4 length length16), fields,
    takeJoinRequest_ask (s := s.endBurst) (holderOf_unheld (s := s.endBurst) (id := id) unheld) ask]
  refine ⟨fun unlisted => ⟨fun room => ?_, fun full => ?_⟩, fun before x after list e others => ?_⟩
  · rw [joinAsk_asks (s := s.endBurst) (asking_unlisted (s := s.endBurst) (id := id) unlisted) room]
    rfl
  · rw [joinAsk_listFull (s := s.endBurst) (asking_unlisted (s := s.endBurst) (id := id) unlisted) full]
  · have listed := asking_listed (s := s.endBurst) list e fun y m => others y (List.mem_append_left _ m)
    refine ⟨fun r => ?_, fun r => ?_⟩
    · rw [joinAsk_asksAgain listed r, updateAsking_listed (s := s.endBurst) list e others]
      rfl
    · rw [joinAsk_refused listed r, State.refreshRefused, updateAsking_listed (s := s.endBurst) list e others]
      rfl

/-! ## A rejoin (R51, R130) -/

/-- What becomes of a record as its label rejoins: a SENDING one is READY again and its context freed, a HELD one is
READY again and out of the HELD order. -/
def State.rejoining (a : Nat) (s : State) (h : Nat) : Edit :=
  match s.record h with
  | none => ⟨none, false, false, false⟩
  | some r =>
    if r.address = a then
      match r.state with
      | .sending => ⟨some { r with state := .ready, readyStamp := some s.stamp }, false, true, false⟩
      | .held => ⟨some { r with state := .ready, readyStamp := some s.stamp }, true, false, false⟩
      | _ => ⟨some r, false, false, false⟩
    else ⟨some r, false, false, false⟩

section
variable {s : State} {a h : Nat} {r : Record}

theorem rejoining_sending (e : s.record h = some r) (n : r.address = a) (k : r.state = .sending) :
    s.rejoining a h = ⟨some { r with state := .ready, readyStamp := some s.stamp }, false, true, false⟩ := by
  unfold State.rejoining
  simp only [e, n, k, if_true]

theorem rejoining_held (e : s.record h = some r) (n : r.address = a) (k : r.state = .held) :
    s.rejoining a h = ⟨some { r with state := .ready, readyStamp := some s.stamp }, true, false, false⟩ := by
  unfold State.rejoining
  simp only [e, n, k, if_true]

theorem rejoining_other (e : s.record h = some r) (n : ¬ (r.address = a ∧ (r.state = .sending ∨ r.state = .held))) :
    s.rejoining a h = ⟨some r, false, false, false⟩ := by
  unfold State.rejoining
  rw [e]
  dsimp only
  split
  · rename_i x
    split
    · rename_i k
      exact absurd ⟨x, .inl k⟩ n
    · rename_i k
      exact absurd ⟨x, .inr k⟩ n
    · rfl
  · rfl

theorem rejoining_absent (e : s.record h = none) : s.rejoining a h = ⟨none, false, false, false⟩ := by
  unfold State.rejoining
  rw [e]

end

theorem rejoinRecord_edited (a : Nat) (s : State) (h : Nat) :
    Edited h (s.rejoining a h) s (State.rejoinRecord a s h) := by
  have kept {t : State} (k : t = s) (x : s.rejoining a h = ⟨s.record h, false, false, false⟩) :
      Edited h (s.rejoining a h) s t := by
    rw [k, x]
    exact .keep s h
  unfold State.rejoinRecord
  cases e : s.record h with
  | none => exact kept rfl (by rw [e, rejoining_absent e])
  | some r =>
    dsimp only
    split
    · rename_i n
      split
      · rename_i k
        rw [rejoining_sending e n k]
        exact (Edited.updateRecord e fun r => { r with state := .ready, readyStamp := some s.stamp }).freeContext
      · rename_i k
        rw [rejoining_held e n k]
        exact (Edited.updateRecord e fun r => { r with state := .ready, readyStamp := some s.stamp }).dropHeld
      all_goals
        rename_i k
        exact kept rfl (by rw [e, rejoining_other e (by rw [k]; simp)])
    · rename_i n
      exact kept rfl (by rw [e, rejoining_other e fun c => n c.1])

theorem rejoinRecords_edits (s : State) (a : Nat) : Edits (s.rejoining a) handles s (s.rejoinRecords a) := by
  refine Edits.fold (rejoinRecord_edited a) (fun s t h record _ time => ?_) List.nodup_range s
  unfold State.rejoining State.stamp
  rw [record, time]

/-- What a rejoin makes of a slot, and whose records leave the HELD order, free their context and cut the burst. -/
theorem rejoining_marks (s : State) (a h : Nat) :
    (s.rejoining a h).record = ((s.record h).map fun r => if r.address = a ∧ (r.state = .sending ∨ r.state = .held)
      then { r with state := .ready, readyStamp := some s.stamp } else r)
    ∧ (s.rejoining a h).drops = (match s.record h with
      | some r => r.address == a && r.state == .held
      | none => false)
    ∧ ((s.rejoining a h).frees = true ↔ ∃ r, s.record h = some r ∧ r.address = a ∧ r.state = .sending)
    ∧ (s.rejoining a h).cuts = false := by
  cases e : s.record h with
  | none =>
    rw [rejoining_absent e]
    simp
  | some r =>
    by_cases x : r.address = a ∧ (r.state = .sending ∨ r.state = .held)
    · obtain ⟨n, k | k⟩ := x
      · rw [rejoining_sending e n k]
        simp [n, k]
      · rw [rejoining_held e n k]
        simp [n, k]
    · rw [rejoining_other e x]
      rw [not_and_or, not_or] at x
      by_cases n : r.address = a
      · simp [n, x.resolve_left (not_not.2 n)]
      · simp [n]

theorem queued_iff (l : Label) (k : OpKind) : l.queued k = true ↔ ∃ o ∈ l.queue, o.kind = k := by
  simp [Label.queued]

/-- The fields of an entry that a rejoin changes: its planned profile, if it has one, becomes a SET_PROFILE (R51). -/
theorem rejoin_eq (l : Label) (now : Stamp) : l.rejoin now = { l with
    phase := .joining 4 true, planned := none, profileState := .settled, missCount := 0
    drifted := false, displayMode := none, shownPage := none, lastHeard := some now
    queue := (match l.planned with
      | some p => if ∃ o ∈ l.queue, o.kind = .setProfile then l.queue
          else l.queue ++ [⟨.setProfile p.profile, now, 0, false⟩]
      | none => l.queue) } := by
  unfold Label.rejoin
  cases l.planned with
  | none => rfl
  | some p =>
    by_cases x : l.queued .setProfile = true
    · simp only [x, if_true, (queued_iff l _).1 x]
    · have y : ¬ ∃ o ∈ l.queue, o.kind = .setProfile := mt (queued_iff l _).2 x
      have tail : l.enqueue (.setProfile p.profile) now =
          { l with queue := l.queue ++ [⟨.setProfile p.profile, now, 0, false⟩] } := if_neg x
      simp only [if_neg x, if_neg y, tail]

/-- A rejoin: the entry's fields, then its records (R130), and the reading last. -/
theorem rejoin_spec {s : State} {a : Nat} {l : Label} (e : s.entry a = .label l) (mv : Option Nat) :
    ∃ (w : State) (k : Label) (ns : List Notice), s.rejoin a mv = w.holding a k ns
      ∧ ReadingTaken s.config s.stamp a mv (l.rejoin s.stamp) k ns
      ∧ Edits (s.rejoining a) handles (s.setEntry a (.label (l.rejoin s.stamp))) w := by
  have r := entry_range (s := s) (a := a) (by rw [e]; simp)
  have E := rejoinRecords_edits (s.setEntry a (.label (l.rejoin s.stamp))) a
  have entry : ((s.setEntry a (.label (l.rejoin s.stamp))).rejoinRecords a).entry a = .label (l.rejoin s.stamp) :=
    (entry_eq E.directory a).trans (entry_setEntry_same r _)
  have stamp : ((s.setEntry a (.label (l.rejoin s.stamp))).rejoinRecords a).stamp = s.stamp :=
    congrArg Timebase.stamp (E.timebase.trans (setEntry_timebase ..))
  obtain ⟨k, ns, taken, eq⟩ := takeReading_label entry mv
  refine ⟨(s.setEntry a (.label (l.rejoin s.stamp))).rejoinRecords a, k, ns, ?_, ?_, ?_⟩
  · unfold State.rejoin
    rw [updateLabel_setEntry e]
    exact eq
  · rw [E.config, setEntry_config, stamp] at taken
    exact taken
  · refine E.congr fun h _ => ?_
    unfold State.rejoining State.stamp
    rw [record_setEntry, setEntry_timebase]

/-- The records of a rejoin (R130): each SENDING and HELD one of the label is READY again, the HELD ones out of the HELD
order and the contexts of the SENDING ones freed, and nothing else is touched. -/
theorem rejoin_records {s w : State} {a : Nat} {x : Entry} (E : Edits (s.rejoining a) handles (s.setEntry a x) w) :
    (∀ h, w.record h = (s.record h).map fun r => if r.address = a ∧ (r.state = .sending ∨ r.state = .held)
      then { r with state := .ready, readyStamp := some s.stamp } else r)
    ∧ (∀ h r i, s.record h = some r → r.address = a → r.state = .sending → s.contextOf h = some i →
      w.context i = none)
    ∧ (∀ i, (∀ h r, s.record h = some r → r.address = a → r.state = .sending → s.contextOf h ≠ some i) →
      w.context i = s.context i)
    ∧ (w.store.heldOrder = s.store.heldOrder.filter fun h => !(match s.record h with
      | some r => r.address == a && r.state == .held
      | none => false))
    ∧ w.burst = s.burst := by
  have tied (h : Nat) : (s.setEntry a x).contextOf h = s.contextOf h := contextOf_congr (context_setEntry s a · x) h
  refine ⟨fun h => ?_, fun h r i e n k t => ?_, fun i free => ?_, ?_, ?_⟩
  · rw [E.record (fun h e => by rw [rejoining_absent ((record_setEntry s a h x).symm.trans e)]),
      (rejoining_marks s a h).1]
  · rw [E.contexts, if_pos]
    exact ⟨h, List.mem_range.2 (record_lt e), (rejoining_marks s a h).2.2.1.2 ⟨r, e, n, k⟩, (tied h).trans t⟩
  · rw [E.contexts, if_neg, context_setEntry]
    rintro ⟨h, -, frees, t⟩
    obtain ⟨r, e, n, k⟩ := (rejoining_marks s a h).2.2.1.1 frees
    exact free h r e n k ((tied h).symm.trans t)
  · rw [E.order, setEntry_store]
    refine List.filter_congr fun h _ => ?_
    rw [(rejoining_marks s a h).2.1]
    by_cases m : h ∈ handles
    · simp [m]
    · simp [m, record_of_not_mem m]
  · rw [E.burst, if_neg, setEntry_burst]
    rintro ⟨h, -, cuts⟩
    rw [(rejoining_marks s a h).2.2.2] at cuts
    cases cuts

/-- Settles O45: the holder's state, and without one the policy. -/
theorem joinRequestGoesByHolderAndPolicy : Obligations.JoinRequestGoesByHolderAndPolicy := by
  unfold Obligations.JoinRequestGoesByHolderAndPolicy
  rintro s u body q n m h ok hq rfl
  rw [exec_joinReq_taken h ok, ← hq]
  refine ⟨fun a holder => ⟨fun id c e => ?cooling, fun l e => ⟨fun p => ?releasing, fun k r p => ?joining,
    fun p => ?rejoin⟩⟩, fun unheld => ⟨fun p => ?closed, fun p => ⟨fun x listed r => ?refused,
      fun free => ⟨fun full => ?full, fun a low high vacant below => ?new⟩⟩⟩⟩
  case cooling => rw [takeJoinRequest_cooling (s := s.endBurst) holder e]
  case releasing => rw [takeJoinRequest_releasing (s := s.endBurst) holder e p]
  case joining =>
    rw [takeJoinRequest_refreshes (s := s.endBurst) holder e p, joinRefresh_eq (s := s.endBurst) e]
    rfl
  case rejoin =>
    have range := entry_range (s := s) (a := a) (by rw [e]; simp)
    obtain ⟨w, k, ns, eq, taken, E⟩ := rejoin_spec (s := s.endBurst) e q.mv
    obtain ⟨records, freed, kept, order, burst⟩ := rejoin_records E
    obtain ⟨store, contexts, air⟩ := holding_records w a k ns
    rw [rejoin_eq] at taken
    obtain ⟨fields, reading⟩ := taken.fields
    rw [takeJoinRequest_rejoins (s := s.endBurst) holder e p, eq]
    refine ⟨w.holding a k ns, k, rfl, holding_entry w range k ns, ?fields, fun none => ?unread, reading,
      ⟨ns, taken, ?link⟩, fun h => ?records, fun h r i e n k c => ?freed, fun i n => ?kept, ?order, air.trans burst,
      ?frame⟩
    case fields => exact (congrArg (fun x : Label => { x with queue := l.queue }) fields :)
    case unread =>
      rw [(taken.1 none).1]
      refine ⟨rfl, rfl, rfl, fun x => ?_, fun x planned y => ?_⟩
      · cases planned : l.planned with
        | none => rfl
        | some x' => exact if_pos (x.resolve_left (by rw [planned]; nofun))
      · rw [planned]
        exact if_neg fun ⟨o, m, c⟩ => y o m c
    case link =>
      rw [holding_link]
      exact postAll_link (E.link.trans (setEntry_link _ _ _)) (E.timebase.trans (setEntry_timebase _ _ _)) ns
    case records => exact (record_eq (congrArg PageStore.records store) h).trans (records h)
    case freed => exact (context_eq contexts i).trans (freed h r i e n k c)
    case kept => exact (context_eq contexts i).trans (kept i n)
    case order => exact (congrArg PageStore.heldOrder store).trans order
    case frame => exact ((LabelFrame.setEntry a _ _).trans (E.labelFrame a)).trans (.holding a w k ns)
  all_goals have empty := holderOf_unheld (s := s.endBurst) (id := q.longId) unheld
  case closed => rw [takeJoinRequest_closed empty p]
  all_goals rw [takeJoinRequest_open empty p]
  case refused =>
    rw [joinOpen_refused (s := s.endBurst) listed r]
    rfl
  case full => rw [joinOpen_full (s := s.endBurst) free (lowestVacant_none full)]
  case new =>
    rw [joinOpen_takes (s := s.endBurst) free (lowestVacant_first low high vacant below)]
    obtain ⟨new, list, link, frame, same⟩ := createEntry_spec s.endBurst ⟨low, high⟩
      (s.directory.admission.filter fun y => y.longId != q.longId) q.longId q.capabilities q.mv s.timebase.stamp _ rfl
    exact ⟨_, rfl, new, list, link, frame, same⟩

end Sys2Proof.Machine

/-! PROOFS. STATUS (R48, R94 to R99, R126 to R128, R197): by the state of the entry, and page by page. -/

namespace Sys2Proof.Machine

/-! ## A STATUS in a reply window (R48) -/

theorem exec_status_window {s : State} {n i : Nat} {body : List Byte} (h : Hearing s n (some (.reply i)))
    (ok : arrives s.config.hubId (0x73 :: body) = true) : exec (.status ⟨n, body⟩) s =
    .next (s.endBurst.deliverInWindow (.reply i) (0x73 :: body)).choose := by
  obtain ⟨⟨held, hears⟩, window⟩ := h
  have arrived : arrives s.endBurst.config.hubId (0x73 :: body) = true := ok
  rw [exec_status held]
  dsimp only
  rw [window, wholeBurst_heard hears, deliverWhole_window (by decide), if_pos arrived]

/-- A STATUS of the slot's own label is attributed to it. -/
theorem deliverInWindow_attributed {s : State} {d : DataSlot} {l : Label} {body : List Byte} (data : s.dataSlot = some d)
    (e : s.entry d.place.address = .label l) (own : (byteAt body 1).toNat = d.place.address) :
    s.deliverInWindow (.reply d.slot) (0x73 :: body) = s.takeAttributed d.place d.slot (0x73 :: body) := by
  have attributed : s.attributed d.place (0x73 :: body) = true := by
    unfold State.attributed
    rw [entry_label e]
    exact Bool.and_eq_true_iff.2 ⟨Bool.and_eq_true_iff.2 ⟨rfl, beq_iff_eq.2 own⟩, rfl⟩
  unfold State.deliverInWindow
  dsimp only
  rw [data]
  exact if_pos ⟨rfl, attributed⟩

/-- The engine's part of a STATUS: the contexts alone change. -/
theorem engineReply_contexts (s : State) (a h : Nat) (body : List Byte) :
    ∃ x, s.engineReply a h (0x73 :: body) = { s with contexts := x } := by
  unfold State.engineReply
  split
  · exact ⟨s.contexts, rfl⟩
  · split
    · split
      · exact ⟨s.contexts, rfl⟩
      · split
        · exact ⟨s.contexts, rfl⟩
        · exact ⟨_, rfl⟩
    · exact ⟨s.contexts, rfl⟩

theorem engineReply_unanswered {s : State} {a h : Nat} {d : List Byte}
    (no : (∀ q, s.record h = some q → q.state ≠ .sending ∨ q.address ≠ a) ∨ s.contextOf h = none) :
    s.engineReply a h d = s := by
  unfold State.engineReply
  split
  · rfl
  · rename_i q k
    split
    · rename_i own
      rcases no with no | no
      · exact absurd own (by have := no q k; tauto)
      · rw [no]
    · rfl

theorem engineReply_answers {s : State} {a h i : Nat} {q : Record} {c : Context} (body : List Byte)
    (k : s.record h = some q) (sending : q.state = .sending) (own : q.address = a) (tied : s.contextOf h = some i)
    (e : s.context i = some c) : s.engineReply a h (0x73 :: body) =
    s.setContext i (some { c with answered := true, plainAnswer := true }) := by
  unfold State.engineReply
  rw [k]
  dsimp only
  rw [if_pos ⟨sending, own⟩, tied]
  dsimp only
  rw [e]
  rfl

/-- The label's mark and the engine's part: the state in which the directory takes the STATUS. -/
theorem takeAttributed_status {s v : State} {p : Place} {l : Label} {slot : Nat} {body : List Byte}
    (e : s.entry p.address = .label l)
    (engine : ((∀ h, p.kind ≠ .fragment h) ∧ v = s)
      ∨ ∃ h, p.kind = .fragment h ∧ v = s.engineReply p.address h (0x73 :: body)) :
    s.takeAttributed p slot (0x73 :: body) =
      (v.holding p.address (l.hear s.stamp) []).takeStatus p.address slot (statusOf (0x73 :: body)) := by
  unfold State.takeAttributed
  rw [updateLabel_setEntry e]
  rcases engine with ⟨no, rfl⟩ | ⟨h, k, rfl⟩
  · cases k : p.kind with
    | fragment h => exact absurd k (no h)
    | assign => rfl
    | control => rfl
    | probe => rfl
    | release => rfl
  · rw [k]
    dsimp only
    rw [engineReply_setEntry _ _ _ _ _ rfl]
    rfl

theorem takeStatus_holding {v : State} {a : Nat} (r : 1 ≤ a ∧ a ≤ 240) (l : Label) (ns : List Notice) (slot : Nat)
    (q : StatusReport) : (v.holding a l ns).takeStatus a slot q =
      (v.holding a (l.noteEcho slot q) ns).takeParts a slot q := by
  unfold State.takeStatus
  rw [holding_update r]

/-! ## The parts by the entry's state (R48) -/

section
variable {v : State} {a slot : Nat} {l : Label} {ns : List Notice} {q : StatusReport}

/-- A JOINING entry without the JOINED flag and a RELEASING one without the RELEASED flag take nothing. -/
theorem takeParts_ignored (r : 1 ≤ a ∧ a ≤ 240)
    (k : (l.phase.isJoining = true ∧ q.joined = false) ∨ (l.phase.isReleasing = true ∧ q.released = false)) :
    (v.holding a l ns).takeParts a slot q = v.holding a l ns := by
  unfold State.takeParts
  rw [holding_label r]
  dsimp only
  cases e : l.phase with
  | joining n b =>
    have no : q.joined = false := by simpa [e, Phase.isJoining, Phase.isReleasing] using k
    simp [no]
  | bound => simp [e, Phase.isJoining, Phase.isReleasing] at k
  | missing => simp [e, Phase.isJoining, Phase.isReleasing] at k
  | releasing n b =>
    have no : q.released = false := by simpa [e, Phase.isJoining, Phase.isReleasing] using k
    simp [no]

/-- A release is confirmed by its flag alone (R67). -/
theorem takeParts_released (r : 1 ≤ a ∧ a ≤ 240) (k : l.phase.isReleasing = true) (released : q.released = true) :
    (v.holding a l []).takeParts a slot q =
      (v.setEntry a (.cooling l.longId (v.epoch + 2))).post (.labelReleased a true) := by
  obtain ⟨n, b, e⟩ := isReleasing_iff.1 k
  unfold State.takeParts
  rw [holding_label r]
  dsimp only
  rw [e]
  dsimp only
  rw [if_pos released]
  unfold State.releaseConfirmed State.enterCooling
  rw [holding_label r, holding_epoch]
  exact congrArg (fun t => State.post t _) (setEntry_setEntry v a _ _)

/-- A JOINING entry with the JOINED flag, a MISSING one and a BOUND one take every part as a BOUND entry does. -/
theorem takeParts_bound {first : List Notice} {misses : Nat} {drifted : Bool} (r : 1 ≤ a ∧ a ≤ 240)
    (k : (∃ n b, l.phase = .joining n b ∧ q.joined = true ∧ first = [Notice.labelJoined a l.longId b]
        ∧ misses = 0 ∧ drifted = false)
      ∨ (l.phase = .missing ∧ first = [.labelBack a] ∧ misses = 0 ∧ drifted = false)
      ∨ (l.phase = .bound ∧ first = [] ∧ misses = l.missCount ∧ drifted = l.drifted)) :
    (v.holding a l []).takeParts a slot q =
      (v.holding a { l with phase := .bound, missCount := misses, drifted := drifted } first).takeBoundStatus
        a slot q := by
  unfold State.takeParts
  rw [holding_label r]
  dsimp only
  rcases k with ⟨n, b, e, joined, rfl, rfl, rfl⟩ | ⟨e, rfl, rfl, rfl⟩ | ⟨e, rfl, rfl, rfl⟩
  · rw [e]
    dsimp only
    rw [if_pos joined, State.labelJoined, holding_update r, holding_post]
    rfl
  · rw [e]
    dsimp only
    rw [State.labelBack, holding_update r, holding_post]
    rfl
  · rw [e]
    dsimp only
    rw [← e]

end

/-! ## The held pages, each by R127's table -/

section
variable {s : State} {a p h : Nat} {r : StatusReport}

theorem pageWanted_known {l : Label} (e : s.entry a = .label l) (m : p ∈ l.wanted) : s.pageWanted a p = s := by
  unfold State.pageWanted
  rw [entry_label e]
  exact if_pos (List.contains_iff_mem.2 m)

theorem pageWanted_new {l : Label} (e : s.entry a = .label l) (m : p ∉ l.wanted) : s.pageWanted a p =
    (s.setEntry a (.label { l with wanted := setInsert p l.wanted })).post (.pageWanted a p) := by
  unfold State.pageWanted
  rw [entry_label e]
  dsimp only
  rw [if_neg (mt List.contains_iff_mem.1 m), updateLabel_setEntry e]

theorem enterHeld_eq {q : Record} {v w : State} (k : s.record h = some q)
    (hv : v = s.setRecord h (some { q with state := .held }))
    (freed : s.contextOf h = none ∧ w = v ∨ ∃ i, s.contextOf h = some i ∧ w = v.setContext i none) :
    s.enterHeld h = (w.setHeldOrder (if q.pinned then s.store.heldOrder else s.store.heldOrder ++ [h])).post
      (.pageDelivered q.address q.page q.generation) := by
  subst hv
  have tied : (s.setRecord h (some { q with state := .held })).contextOf h = s.contextOf h := rfl
  unfold State.enterHeld State.freeContextOf
  rw [k]
  dsimp only
  rw [tied]
  rcases freed with ⟨no, rfl⟩ | ⟨i, free, rfl⟩
  · rw [no]
    cases q.pinned <;> rfl
  · rw [free]
    cases q.pinned <;> rfl

theorem reopen_eq {q : Record} (k : s.record h = some q) : s.reopen h =
    (s.setRecord h (some { q with state := .ready, readyStamp := some s.stamp })).setHeldOrder
      (s.store.heldOrder.filter fun x => x != h) := by
  unfold State.reopen State.updateRecord
  rw [k]

theorem reconcilePage_heldUnloaded {g : Byte} (no : s.liveOf a p = none) (holds : r.holds p = some g) :
    State.reconcilePage a r s p = s := by
  unfold State.reconcilePage
  rw [no, holds]

theorem reconcilePage_absentUnloaded (no : s.liveOf a p = none) (holds : r.holds p = none) :
    State.reconcilePage a r s p = s.pageWanted a p := by
  unfold State.reconcilePage
  rw [no, holds]

theorem reconcilePage_settled {q : Record} (live : s.liveOf a p = some h) (k : s.record h = some q)
    (holds : r.holds p = some q.generation) (state : q.state = .held ∨ ∃ c, q.state = .stalled c) :
    State.reconcilePage a r s p = s := by
  unfold State.reconcilePage
  rw [live]
  dsimp only
  rw [k]
  dsimp only
  rw [if_pos holds]
  rcases state with e | ⟨c, e⟩ <;> rw [e]

theorem reconcilePage_delivered {q : Record} (live : s.liveOf a p = some h) (k : s.record h = some q)
    (holds : r.holds p = some q.generation) (state : q.state = .ready ∨ q.state = .sending) :
    State.reconcilePage a r s p = s.enterHeld h := by
  unfold State.reconcilePage
  rw [live]
  dsimp only
  rw [k]
  dsimp only
  rw [if_pos holds]
  rcases state with e | e <;> rw [e]

theorem reconcilePage_lost {q : Record} (live : s.liveOf a p = some h) (k : s.record h = some q)
    (holds : r.holds p ≠ some q.generation) (state : q.state = .held) :
    State.reconcilePage a r s p = s.reopen h := by
  unfold State.reconcilePage
  rw [live]
  dsimp only
  rw [k]
  dsimp only
  rw [if_neg holds, state]

theorem reconcilePage_unheld {q : Record} (live : s.liveOf a p = some h) (k : s.record h = some q)
    (holds : r.holds p ≠ some q.generation) (state : q.state ≠ .held) : State.reconcilePage a r s p = s := by
  unfold State.reconcilePage
  rw [live]
  dsimp only
  rw [k]
  dsimp only
  rw [if_neg holds]
  cases e : q.state with
  | held => exact absurd e state
  | _ => rfl

end

/-! ## The fields of a STATUS (R197) -/

theorem echoResultOf_done (b : Byte) : echoResultOf b = .done ↔ b.toNat / 16 % 4 = 1 := by
  show echoResultOf b = .done ↔ bitsAt b 4 2 = 1
  unfold echoResultOf
  split <;> simp_all

theorem echoResultOf_refused (b : Byte) : echoResultOf b = .refused ↔ b.toNat / 16 % 4 = 2 := by
  show echoResultOf b = .refused ↔ bitsAt b 4 2 = 2
  unfold echoResultOf
  split <;> simp_all

theorem bitAt_high (b : Byte) : bitAt b 7 = true ↔ 128 ≤ b.toNat := by
  have bound := b.isLt
  show b.toNat.testBit 7 = true ↔ _
  rw [Nat.testBit_eq_decide_div_mod_eq, decide_eq_true_iff]
  omega

theorem periodOfCode_some {k n : Nat} : periodOfCode k = some n ↔ k ≤ 4 ∧ 2 ^ k = n := by
  unfold periodOfCode
  split
  · simp [*]
  · simp [*]

theorem valid_code_small {k f : Nat} (h : (Profile.mk (2 ^ k) f).valid = true) : k ≤ 4 := by
  by_contra big
  have large : 2 ^ 5 ≤ 2 ^ k := Nat.pow_le_pow_right (by decide) (by omega)
  simp only [Profile.valid, isPeriod, Bool.and_eq_true, Bool.or_eq_true, beq_iff_eq] at h
  omega

/-- The valid profile a profile byte names, field by field. -/
theorem profileOfByte_iff (b : Byte) (p : Profile) : profileOfByte b = some p ↔
    128 ≤ b.toNat ∧ p.valid = true ∧ p.period = 2 ^ (b.toNat / 16 % 8) ∧ p.phase = b.toNat % 16 := by
  have code : bitsAt b 4 3 = b.toNat / 16 % 8 := rfl
  have phase : bitsAt b 0 4 = b.toNat % 16 := by
    show b.toNat / 1 % 16 = _
    rw [Nat.div_one]
  rw [← bitAt_high, ← code, ← phase]
  unfold profileOfByte
  by_cases present : bitAt b 7 = true
  · rw [if_pos present]
    cases e : periodOfCode (bitsAt b 4 3) with
    | some n =>
      obtain ⟨-, rfl⟩ := periodOfCode_some.1 e
      dsimp only
      rcases p with ⟨period, f⟩
      split
      · rename_i ok
        simp only [Option.some.injEq, Profile.mk.injEq, present, true_and]
        constructor
        · rintro ⟨rfl, rfl⟩
          exact ⟨ok, rfl, rfl⟩
        · rintro ⟨-, rfl, rfl⟩
          exact ⟨rfl, rfl⟩
      · rename_i bad
        simp only [reduceCtorEq, present, true_and, false_iff]
        rintro ⟨ok, rfl, rfl⟩
        exact bad ok
    | none =>
      rcases p with ⟨period, f⟩
      simp only [reduceCtorEq, present, true_and, false_iff]
      rintro ⟨ok, rfl, rfl⟩
      exact absurd (periodOfCode_some.2 ⟨valid_code_small ok, rfl⟩) (by rw [e]; simp)
  · simp [present]

theorem displayModeOf_iff (n : Nat) (k : DisplayMode) : displayModeOf n = some k ↔ n = k.code := by
  unfold displayModeOf
  split
  case h_5 => cases k <;> simp_all [DisplayMode.code]
  all_goals cases k <;> decide

theorem displayByteMode_iff (b : Byte) (k : DisplayMode) : displayByteMode b = some k ↔ b.toNat % 8 = k.code + 1 := by
  have bits : bitsAt b 0 3 = b.toNat % 8 := by
    show b.toNat / 1 % 8 = _
    rw [Nat.div_one]
  rw [← bits]
  unfold displayByteMode
  cases bitsAt b 0 3 with
  | zero => simp
  | succ n => exact (displayModeOf_iff n k).trans Nat.succ_inj.symm

theorem displayBytePage_iff (b : Byte) (p : Nat) : displayBytePage b = some p ↔ p < 4 ∧ b.toNat / 16 % 8 = p + 1 := by
  show _ ↔ p < 4 ∧ bitsAt b 4 3 = p + 1
  unfold displayBytePage
  cases bitsAt b 4 3 with
  | zero => simp
  | succ n =>
    dsimp only
    split
    · simp only [Option.some.injEq]
      omega
    · simp only [reduceCtorEq, false_iff]
      omega

theorem pendingOf_absent {d : List Byte} : pendingOf d = .absent ↔ (byteAt d 7).toNat < 128 := by
  rw [← not_le, ← bitAt_high]
  unfold pendingOf
  split
  · rename_i present
    split <;> simp [present]
  · rename_i absent
    simp [absent]

theorem pendingOf_named {d : List Byte} {q : PlannedProfile} : pendingOf d = .named q ↔
    128 ≤ (byteAt d 7).toNat ∧ profileOfByte (byteAt d 7) = some q.profile
      ∧ q.effective = BitVec.ofNat 16 (fieldAt d 8 2) := by
  rw [← bitAt_high]
  rcases q with ⟨p, x⟩
  unfold pendingOf
  split
  · rename_i present
    cases profileOfByte (byteAt d 7) with
    | some o => simp [present, eq_comm]
    | none => simp [present]
  · rename_i absent
    simp [absent]

/-! ## STATUS in a reply window -/

/-- Settles O46: by the state of the entry (R48), then the engine's part (R160), the held pages by R127's table, and the
fields of R197. -/
theorem statusIsTakenByTheEntryState : Obligations.StatusIsTakenByTheEntryState := by
  unfold Obligations.StatusIsTakenByTheEntryState
  refine ⟨?taken, fun s a h body => ⟨engineReply_unanswered, fun q i c => engineReply_answers body⟩, ?pages, ?fields⟩
  case taken =>
    rintro n s u body r d l a h data rfl e ok rfl rfl
    rw [exec_status_window h ok]
    have e' : s.endBurst.entry d.place.address = .label l := e
    have range := entry_range (s := s) (a := d.place.address) (by rw [e]; simp)
    refine ⟨fun other => ?_, fun own m hm v engine => ?_⟩
    · have elsewhere := attributed_otherLabel (s := s.endBurst) (p := d.place) (.inr other) 0x73
      unfold State.deliverInWindow
      dsimp only
      rw [show s.endBurst.dataSlot = some d from data]
      dsimp only
      rw [if_neg (by rw [elsewhere]; simp)]
    · rw [deliverInWindow_attributed (s := s.endBurst) data e' own, takeAttributed_status e' engine,
        takeStatus_holding range]
      have marked : (l.hear s.endBurst.stamp).noteEcho d.slot (statusOf (0x73 :: body)) = m := hm.symm
      have frame : v.stamp = s.timebase.stamp ∧ v.config = s.config := by
        rcases engine with ⟨-, rfl⟩ | ⟨h, -, rfl⟩
        · exact ⟨rfl, rfl⟩
        · obtain ⟨x, k⟩ := engineReply_contexts s.endBurst d.place.address h body
          rw [k]
          exact ⟨rfl, rfl⟩
      have epoch : v.epoch = s.epoch := congrArg epochOf frame.1
      have phase : m.phase = l.phase := by rw [hm]
      have id : m.longId = l.longId := by rw [hm]
      rw [marked]
      refine ⟨fun k => ?_, fun k released => ?_, fun first misses drifted k => ?_⟩
      · rw [takeParts_ignored range (by rw [phase]; exact k)]
        rfl
      · rw [takeParts_released range (by rw [phase]; exact k) released, epoch, id]
      · have k' := takeParts_bound (v := v) (l := m) (q := statusOf (0x73 :: body)) (slot := d.slot)
          (first := first) (misses := misses) (drifted := drifted) range (by rw [hm]; exact k)
        obtain ⟨l1, l2, l3, l4, n1, n3, n4, answered, display, report, reading, eq⟩ :=
          holding_bound (v := v) (l := { m with phase := .bound, missCount := misses, drifted := drifted })
            (ns := first) range d.slot (statusOf (0x73 :: body))
        have pages : m.capabilities = l.capabilities := by rw [hm]
        rw [epoch] at answered report
        rw [frame.1, frame.2] at reading
        rw [← pages]
        refine ⟨l1, l2, l3, l4, n1, n3, n4, answered, display, report, reading, ?_⟩
        rw [k', eq]
        rfl
  case pages =>
    rintro a p r s t rfl
    refine ⟨fun no => ⟨fun g => reconcilePage_heldUnloaded no, fun l holds e => ⟨fun m => ?_, fun m => ?_⟩⟩,
      fun h q live k => ⟨fun holds => ⟨reconcilePage_settled live k holds, fun state v w hv freed => ?_⟩,
        fun holds => ⟨reconcilePage_unheld live k holds, fun state => ?_⟩⟩⟩
    · rw [reconcilePage_absentUnloaded no holds, pageWanted_known e m]
    · rw [reconcilePage_absentUnloaded no holds, pageWanted_new e m]
      exact ⟨_, fun x => mem_setInsert p l.wanted x, rfl⟩
    · rw [reconcilePage_delivered live k holds state, enterHeld_eq k hv freed]
    · rw [reconcilePage_lost live k holds state, reopen_eq k]
      rfl
  case fields =>
    rintro tag adr echo flags batt act pend e0 e1 disp mask g0 g1 g2 g3 r rfl
    refine ⟨?_, echoResultOf_done echo, echoResultOf_refused echo, rfl, rfl, rfl, profileOfByte_iff act, pendingOf_absent,
      fun q => ?_, fun k => ?_, displayBytePage_iff disp, fun p _ => rfl⟩
    · show (BitVec.ofNat 4 (bitsAt echo 0 4)).toNat = _
      simp [bitsAt]
    · refine pendingOf_named.trans (and_congr_right fun present => ?_)
      have pair : fieldAt [0x73, tag, adr, echo, flags, batt, act, pend, e0, e1, disp, mask, g0, g1, g2, g3] 8 2 =
          e0.toNat + 256 * e1.toNat := rfl
      have small : e0.toNat + 256 * e1.toNat < 2 ^ 16 := by
        have := e0.isLt
        have := e1.isLt
        omega
      rw [pair, ← BitVec.toNat_inj, BitVec.toNat_ofNat, Nat.mod_eq_of_lt small]
      refine (and_congr_left fun _ => profileOfByte_iff pend q.profile).trans ?_
      simp only [and_assoc]
      exact and_iff_right present
    · refine (displayByteMode_iff disp k).trans ?_
      cases k <;> rfl

end Sys2Proof.Machine

/-! PROOFS. CALL_END (R49, R61 to R63, R67, R76, R101): the directory's judgement first, and then the engine's (log 17). -/

namespace Sys2Proof.Machine

/-! ## What the transfer engine writes at a call end: records, contexts and notices (R121, R166 to R169) -/

/-- The state with other contexts and other page records. -/
def State.withRecords (s : State) (x : Vector (Option Context) 16) (y : Vector (Option Record) 128) : State :=
  { s with contexts := x, store := { s.store with records := y } }

section
variable {s : State} {a : Nat}

theorem withRecords_setEntry (x : Vector (Option Context) 16) (y : Vector (Option Record) 128) (e : Entry) :
    (s.setEntry a e).withRecords x y = (s.withRecords x y).setEntry a e := by
  unfold State.setEntry
  split <;> rfl

theorem withRecords_frame (a : Nat) (x : Vector (Option Context) 16) (y : Vector (Option Record) 128) :
    LabelFrame a s (s.withRecords x y) := ⟨fun _ _ => rfl, rfl, rfl, rfl⟩

theorem setContext_withRecords (i : Nat) (c : Option Context) :
    s.setContext i c = s.withRecords (s.contexts.setIfInBounds i c) s.store.records := rfl

theorem changeFree_shape (s : State) (h : Nat) (r : Option Record) : ∃ x y, ∀ t : State, t.contexts = s.contexts →
    t.store = s.store → (t.setRecord h r).freeContextOf h = t.withRecords x y := by
  have tied (t : State) (k : t.contexts = s.contexts) : (t.setRecord h r).contextOf h = s.contextOf h :=
    contextOf_congr (fun i => context_eq (t := t.setRecord h r) k i) h
  unfold State.freeContextOf
  cases e : s.contextOf h with
  | none =>
    refine ⟨s.contexts, s.store.records.setIfInBounds h r, fun t hc hs => ?_⟩
    rw [tied t hc, e, ← hc, ← hs]
    rfl
  | some i =>
    refine ⟨s.contexts.setIfInBounds i none, s.store.records.setIfInBounds h r, fun t hc hs => ?_⟩
    rw [tied t hc, e, ← hc, ← hs]
    rfl

theorem sendingOf_congr {t : State} (k : t.store = s.store) (a : Nat) : t.sendingOf a = s.sendingOf a := by
  have same (h : Nat) : t.record h = s.record h := record_eq (congrArg PageStore.records k) h
  unfold State.sendingOf
  simp only [same]

/-- What a return to READY writes goes by the store, the contexts and the time alone. -/
theorem returnSending_shape (s : State) (a : Nat) : ∃ x y, ∀ t : State, t.contexts = s.contexts → t.store = s.store →
    t.timebase = s.timebase → t.returnSending a = t.withRecords x y := by
  unfold State.returnSending
  cases e : s.sendingOf a with
  | none =>
    refine ⟨s.contexts, s.store.records, fun t hc hs _ => ?_⟩
    rw [sendingOf_congr hs, e, ← hc, ← hs]
    rfl
  | some h =>
    obtain ⟨r, k, -, -⟩ := sendingOf_some e
    obtain ⟨x, y, free⟩ := changeFree_shape s h (some { r with state := .ready, readyStamp := some s.stamp })
    refine ⟨x, y, fun t hc hs ht => ?_⟩
    have k' : t.record h = some r := (record_eq (congrArg PageStore.records hs) h).trans k
    rw [sendingOf_congr hs, e]
    dsimp only
    unfold State.returnToReady State.updateRecord
    rw [k']
    dsimp only
    rw [show t.stamp = s.stamp from congrArg Timebase.stamp ht, free t hc hs]

/-- What the engine's judgement writes and posts goes by the store, the contexts and the configuration alone. -/
theorem judgeTransfer_shape (s : State) (a : Nat) : ∃ x y ns, ∀ t : State, t.contexts = s.contexts →
    t.store = s.store → t.config = s.config → t.judgeTransfer a = (t.withRecords x y).postAll ns := by
  have same (t : State) (hc : t.contexts = s.contexts) (hs : t.store = s.store) :
      t = t.withRecords s.contexts s.store.records := by
    rw [← hc, ← hs]
    rfl
  unfold State.judgeTransfer
  cases e : s.sendingOf a with
  | none =>
    refine ⟨s.contexts, s.store.records, [], fun t hc hs _ => ?_⟩
    rw [sendingOf_congr hs, e]
    exact same t hc hs
  | some h =>
    have tied (t : State) (hc : t.contexts = s.contexts) : t.contextOf h = s.contextOf h :=
      contextOf_congr (context_eq hc) h
    cases k : s.contextOf h with
    | none =>
      refine ⟨s.contexts, s.store.records, [], fun t hc hs _ => ?_⟩
      rw [sendingOf_congr hs, e]
      dsimp only
      rw [tied t hc, k]
      exact same t hc hs
    | some i =>
      obtain ⟨c, ec, -⟩ := contextOf_some k
      have reads (t : State) (hc : t.contexts = s.contexts) (hs : t.store = s.store) : t.sendingOf a = some h
          ∧ t.contextOf h = some i ∧ t.context i = some c :=
        ⟨(sendingOf_congr hs a).trans e, (tied t hc).trans k, (context_eq hc i).trans ec⟩
      by_cases idle : c.sentThisRound = []
      · refine ⟨s.contexts.setIfInBounds i (some c.clearMarks), s.store.records, [], fun t hc hs _ => ?_⟩
        obtain ⟨sending, number, context⟩ := reads t hc hs
        simp only [sending, number, context]
        rw [if_pos idle, setContext_withRecords, hc, hs]
        rfl
      · cases verdict : judge s.config.stallLimit c with
        | stall cause =>
          obtain ⟨r, hr, -, -⟩ := sendingOf_some e
          obtain ⟨x, y, free⟩ := changeFree_shape s h (some { r with state := .stalled cause })
          refine ⟨x, y, [.transferFailed r.address r.page r.generation cause], fun t hc hs hf => ?_⟩
          obtain ⟨sending, number, context⟩ := reads t hc hs
          have record : t.record h = some r := (record_eq (congrArg PageStore.records hs) h).trans hr
          simp only [sending, number, context]
          rw [if_neg idle, hf, verdict]
          dsimp only
          unfold State.enterStalled
          rw [record]
          dsimp only
          rw [free t hc hs]
          rfl
        | counts stall busy =>
          refine ⟨s.contexts.setIfInBounds i (some { c.clearMarks with stallCount := stall, busyCount := busy }),
            s.store.records, [], fun t hc hs hf => ?_⟩
          obtain ⟨sending, number, context⟩ := reads t hc hs
          simp only [sending, number, context]
          rw [if_neg idle, hf, verdict]
          dsimp only
          rw [setContext_withRecords, hc, hs]
          rfl

/-! ## A return to READY, record by record (R63, R121) -/

theorem returnSending_unsent (e : s.sendingOf a = none) : s.returnSending a = s := by
  unfold State.returnSending
  rw [e]

theorem returnSending_edited {h : Nat} {r : Record} (e : s.sendingOf a = some h) (k : s.record h = some r) :
    Edited h ⟨some { r with state := .ready, readyStamp := some s.stamp }, false, true, false⟩ s
      (s.returnSending a) := by
  unfold State.returnSending
  rw [e]
  exact (Edited.updateRecord k fun r => { r with state := .ready, readyStamp := some s.stamp }).freeContext

theorem returnSending_setEntry (e : Entry) : (s.setEntry a e).returnSending a = (s.returnSending a).setEntry a e := by
  obtain ⟨x, y, shape⟩ := returnSending_shape s a
  rw [shape s rfl rfl rfl, shape (s.setEntry a e) (by simp) (by simp) (by simp), withRecords_setEntry]

theorem returnSending_frame : LabelFrame a s (s.returnSending a) ∧ (s.returnSending a).burst = s.burst
    ∧ (s.returnSending a).link = s.link ∧ (s.returnSending a).timebase = s.timebase := by
  obtain ⟨x, y, shape⟩ := returnSending_shape s a
  rw [shape s rfl rfl rfl]
  exact ⟨withRecords_frame a x y, rfl, rfl, rfl⟩

/-- What a label's one SENDING record leaves as it returns to READY. -/
theorem returnSending_records (one : ∀ h k r q, s.record h = some r → s.record k = some q → r.address = a →
      q.address = a → r.state = .sending → q.state = .sending → h = k) :
    (s.returnSending a).sendingOf a = none
    ∧ (∀ h, (s.returnSending a).record h = (s.record h).map fun r => if r.address = a ∧ r.state = .sending
        then { r with state := .ready, readyStamp := some s.stamp } else r)
    ∧ (s.returnSending a).store.heldOrder = s.store.heldOrder
    ∧ (∀ i, (s.returnSending a).context i = if ∃ h, s.sendingOf a = some h ∧ s.contextOf h = some i
        then none else s.context i) := by
  cases e : s.sendingOf a with
  | none =>
    rw [returnSending_unsent e]
    refine ⟨e, fun h => ?_, rfl, fun i => by simp⟩
    cases k : s.record h with
    | none => rfl
    | some r => exact congrArg some (if_neg fun own => sendingOf_none e k own.1 own.2).symm
  | some h =>
    obtain ⟨r, k, own, sending⟩ := sendingOf_some e
    have E := returnSending_edited e k
    refine ⟨?_, fun g => ?_, E.order, fun i => ?_⟩
    · cases left : (s.returnSending a).sendingOf a with
      | none => rfl
      | some g =>
        obtain ⟨q, kq, ownq, sendingq⟩ := sendingOf_some left
        rw [E.records] at kq
        split at kq
        · cases kq
          cases sendingq
        · rename_i other
          exact absurd (one g h q r kq k ownq own sendingq sending) other
    · rw [E.records]
      split
      · rename_i same
        rw [same, k, Option.map_some, if_pos ⟨own, sending⟩]
      · rename_i other
        cases kq : s.record g with
        | none => rfl
        | some q =>
          exact congrArg some (if_neg fun mine => other (one g h q r kq k mine.1 own mine.2 sending)).symm
    · rw [E.contexts]
      simp

/-! ## The engine's judgement: what it leaves unchanged -/

theorem judgeTransfer_none (e : s.sendingOf a = none) : s.judgeTransfer a = s := by
  unfold State.judgeTransfer
  rw [e]

theorem judgeTransfer_setEntry (b : Nat) (e : Entry) :
    (s.setEntry b e).judgeTransfer a = (s.judgeTransfer a).setEntry b e := by
  obtain ⟨x, y, ns, shape⟩ := judgeTransfer_shape s a
  rw [shape s rfl rfl rfl, shape (s.setEntry b e) (by simp) (by simp) (by simp), setEntry_postAll,
    withRecords_setEntry]

theorem judgeTransfer_directory : (s.judgeTransfer a).directory = s.directory := by
  obtain ⟨x, y, ns, shape⟩ := judgeTransfer_shape s a
  rw [shape s rfl rfl rfl, postAll_entries]
  rfl

theorem judgeTransfer_burst : (s.judgeTransfer a).burst = s.burst := by
  obtain ⟨x, y, ns, shape⟩ := judgeTransfer_shape s a
  rw [shape s rfl rfl rfl, (postAll_records ns _).2]
  rfl

theorem judgeTransfer_frame (b : Nat) : LabelFrame b s (s.judgeTransfer a) := by
  obtain ⟨x, y, ns, shape⟩ := judgeTransfer_shape s a
  rw [shape s rfl rfl rfl]
  exact (withRecords_frame b x y).trans (.postAll b ns _)

theorem judgeTransfer_posts : ∃ ns, (s.judgeTransfer a).link = (s.postAll ns).link := by
  obtain ⟨x, y, ns, shape⟩ := judgeTransfer_shape s a
  rw [shape s rfl rfl rfl]
  exact ⟨ns, postAll_link (s := s.withRecords x y) (t := s) rfl rfl ns⟩

theorem judgeTransfer_post (n : Notice) : ((s.post n).judgeTransfer a).contexts = (s.judgeTransfer a).contexts
    ∧ ((s.post n).judgeTransfer a).store = (s.judgeTransfer a).store := by
  obtain ⟨x, y, ns, shape⟩ := judgeTransfer_shape s a
  rw [shape s rfl rfl rfl, shape (s.post n) rfl rfl rfl]
  rw [(postAll_records ns _).1, (postAll_records ns _).1, (postAll_frame ns _).2.2, (postAll_frame ns _).2.2]
  exact ⟨rfl, rfl⟩

/-- The engine judges a SENDING record alone. -/
theorem judgeTransfer_record {h : Nat} {r : Record} (k : s.record h = some r) (idle : r.state ≠ .sending) :
    (s.judgeTransfer a).record h = some r := by
  unfold State.judgeTransfer
  cases e : s.sendingOf a with
  | none => exact k
  | some g =>
    obtain ⟨q, kq, -, sending⟩ := sendingOf_some e
    have other : h ≠ g := by
      rintro rfl
      cases k.symm.trans kq
      exact idle sending
    dsimp only
    split
    · exact k
    · split
      · exact k
      · split
        · exact k
        · split
          · unfold State.enterStalled
            rw [kq]
            dsimp only
            rw [show ∀ (t : State) (n : Notice), (t.post n).record h = t.record h from fun _ _ => rfl,
              freeContextOf_record, record_set (record_lt kq), if_neg other, k]
          · exact k

theorem isBound_iff {p : Phase} : p.isBound = true ↔ p = .bound := by
  cases p <;> simp [Phase.isBound]

/-! ## The directory's judgement (R49, R61 to R63, R67) -/

/-- What the directory's judgement of a call does about an entry's fields, before the marks are cleared. -/
def State.judgement (s : State) (c : Call) (l : Label) : State :=
  if l.sentMark && c.kind.fits l.phase then
    match c.kind with
    | .assign => s.useJoinAttempt c.address l
    | .service => s.judgeMiss c.address l
    | .probe => s
    | .release => s.useReleaseAttempt c.address l
  else s

theorem judgeCall_label {c : Call} {l : Label} (e : s.entry c.address = .label l) :
    s.judgeCall c = (s.judgement c l).updateLabel c.address Label.clearMarks := by
  unfold State.judgeCall State.judgement
  rw [entry_label e] <;> rfl

theorem label_none (e : ∀ l, s.entry a ≠ .label l) : s.label? a = none := by
  unfold State.label? Entry.label?
  cases k : s.entry a with
  | label l => exact absurd k (e l)
  | vacant => rfl
  | cooling id x => rfl

theorem judgeCall_unheld {c : Call} (e : ∀ l, s.entry c.address ≠ .label l) : s.judgeCall c = s := by
  unfold State.judgeCall
  rw [label_none e]

end

section
variable {s : State} {c : Call} {l : Label}

theorem judgement_unjudged (e : s.entry c.address = .label l)
    (no : l.sentMark = false ∨ c.kind.fits l.phase = false ∨ c.kind = .probe) :
    s.judgement c l = s.setEntry c.address (.label l) := by
  rw [setEntry_self e]
  unfold State.judgement
  rcases no with no | no | no
  · rw [no]
    rfl
  · rw [no, Bool.and_false]
    rfl
  · rw [no]
    exact ite_self _

theorem judgement_assign (sent : l.sentMark = true) (kind : c.kind = .assign) {n : Nat} {b : Bool}
    (phase : l.phase = .joining n b) : s.judgement c l = s.useJoinAttempt c.address l := by
  unfold State.judgement
  rw [sent, kind, phase]
  rfl

theorem judgement_service (sent : l.sentMark = true) (kind : c.kind = .service) (phase : l.phase = .bound) :
    s.judgement c l = s.judgeMiss c.address l := by
  unfold State.judgement
  rw [sent, kind, phase]
  rfl

theorem judgement_release (sent : l.sentMark = true) (kind : c.kind = .release) {n : Nat} {b : Bool}
    (phase : l.phase = .releasing n b) : s.judgement c l = s.useReleaseAttempt c.address l := by
  unfold State.judgement
  rw [sent, kind, phase]
  rfl

end

section
variable {s : State} {a : Nat} {l : Label}

theorem judgeMiss_heard (e : s.entry a = .label l) (heard : l.heardMark = true) : s.judgeMiss a l =
    s.setEntry a (.label { l with missCount := 0, drifted := false }) := by
  unfold State.judgeMiss
  rw [if_pos heard, updateLabel_setEntry e]

theorem judgeMiss_missed (e : s.entry a = .label l) (silent : l.heardMark = false)
    (room : min 15 (l.missCount + 1) < s.config.missLimit) : s.judgeMiss a l =
    s.setEntry a (.label { l with missCount := min 15 (l.missCount + 1), drifted := true }) := by
  unfold State.judgeMiss
  rw [if_neg (by rw [silent]; simp), if_neg (not_le.2 room), updateLabel_setEntry e]

/-- At the miss limit the entry goes MISSING and its SENDING record returns to READY (R63). -/
theorem judgeMiss_missing (e : s.entry a = .label l) (silent : l.heardMark = false)
    (limit : s.config.missLimit ≤ min 15 (l.missCount + 1)) : s.judgeMiss a l =
    ((s.returnSending a).post (.labelMissing a)).setEntry a
      (.label { l with missCount := min 15 (l.missCount + 1), drifted := true, phase := .missing }) := by
  have r := entry_range (s := s) (a := a) (by rw [e]; simp)
  unfold State.judgeMiss State.goMissing
  rw [if_neg (by rw [silent]; simp), if_pos limit, updateLabel_setEntry e,
    updateLabel_setEntry (entry_setEntry_same r _), setEntry_setEntry, returnSending_setEntry, setEntry_post]

theorem useJoinAttempt_left {n : Nat} {b : Bool} (e : s.entry a = .label l) (phase : l.phase = .joining n b)
    (left : 1 < n) : s.useJoinAttempt a l = s.setEntry a (.label { l with phase := .joining (n - 1) b }) := by
  unfold State.useJoinAttempt
  rw [phase]
  dsimp only
  rw [if_neg (not_le.2 left), updateLabel_setEntry e]

theorem useJoinAttempt_last {n : Nat} {b : Bool} (e : s.entry a = .label l) (phase : l.phase = .joining n b)
    (last : n ≤ 1) : s.useJoinAttempt a l =
      s.leaving a .vacant (removalNotices a .joinFailed l.queue ++ [.joinFailed a l.longId]) := by
  unfold State.useJoinAttempt
  rw [phase]
  dsimp only
  rw [if_pos last, joinFailed_leaving e]

theorem useReleaseAttempt_left {n : Nat} {b : Bool} (e : s.entry a = .label l) (phase : l.phase = .releasing n b)
    (left : 1 < n) : s.useReleaseAttempt a l = s.setEntry a (.label { l with phase := .releasing (n - 1) b }) := by
  unfold State.useReleaseAttempt
  rw [phase]
  dsimp only
  rw [if_neg (not_le.2 left), updateLabel_setEntry e]

theorem useReleaseAttempt_last {n : Nat} {b : Bool} (e : s.entry a = .label l) (phase : l.phase = .releasing n b)
    (last : n ≤ 1) : s.useReleaseAttempt a l =
      (s.post (.labelReleased a false)).setEntry a (.cooling l.longId (s.epoch + 2)) := by
  unfold State.useReleaseAttempt State.enterCooling
  rw [phase]
  dsimp only
  rw [if_pos last, entry_label e, setEntry_post]

end

/-! ## The call end (R49, R76) -/

/-- The call end of a call: the directory's judgement, the engine's, and the planned profile folded (log 17). -/
def State.endCall (s : State) (c : Call) (e : Epoch) : State :=
  ((s.judgeCall c).judgeTransfer c.address).updateLabel c.address fun l => l.foldPlanned e

section
variable {s : State}

theorem exec_callEnd (h : s.held = false) : exec .callEnd s = .next s.callEnd.choose := live_next h _

theorem callEnd_heldOpen (h : s.windowHeldOpen = true) : s.callEnd = s := if_pos h

theorem callEnd_nothing (h : s.dataSlot = none ∨ ∃ d, s.dataSlot = some d ∧ d.callEnd = none) : s.callEnd = s := by
  unfold State.callEnd State.takeCallEnd
  rcases h with h | ⟨d, h, k⟩
  · rw [h]
    exact ite_self _
  · rw [h]
    dsimp only
    rw [k]
    exact ite_self _

theorem callEnd_due {d : DataSlot} {c : Call} (closed : s.windowHeldOpen = false) (h : s.dataSlot = some d)
    (k : d.callEnd = some c) : s.callEnd =
      { s with dataSlot := some { d with windowOpen := false, callEnd := none } }.endCall c (epochOf d.round) := by
  unfold State.callEnd State.takeCallEnd
  rw [closed, h]
  dsimp only
  rw [k]
  rfl

theorem foldPlanned_clearMarks (m : Label) (e : Epoch) : m.clearMarks.foldPlanned e = { m with
    sentMark := false, heardMark := false, queue := m.queue.map fun o => { o with sentThisRound := false }
    current := (match m.planned with
      | some p => if p.effective = e then p.profile else m.current
      | none => m.current)
    planned := m.planned.filter fun p => p.effective != e } := by
  unfold Label.foldPlanned Label.clearMarks
  cases k : m.planned with
  | none => rfl
  | some p => by_cases x : p.effective = e <;> simp [x, Option.filter_some]

variable {c : Call} {l : Label} {x : Epoch}

/-- The entry still holds a label's fields after the judgement. -/
theorem endCall_kept {w : State} {m : Label} (e : s.entry c.address = .label l)
    (j : s.judgement c l = w.setEntry c.address (.label m)) : s.endCall c x =
      (w.judgeTransfer c.address).setEntry c.address (.label (m.clearMarks.foldPlanned x)) := by
  have r := entry_range (s := s) (a := c.address) (by rw [e]; simp)
  unfold State.endCall
  rw [judgeCall_label e, j, updateLabel_setEntry (entry_setEntry_same r _), setEntry_setEntry, judgeTransfer_setEntry,
    updateLabel_setEntry (entry_setEntry_same r _), setEntry_setEntry]

theorem endCall_gone {w : State} (j : s.judgeCall c = w) (gone : ∀ m, w.entry c.address ≠ .label m) :
    s.endCall c x = w.judgeTransfer c.address := by
  unfold State.endCall
  rw [j, updateLabel_unheld fun m => by rw [entry_eq judgeTransfer_directory]; exact gone m]

/-- The entry is VACANT or COOLING after the judgement. -/
theorem endCall_left {w : State} (e : s.entry c.address = .label l) (j : s.judgement c l = w)
    (gone : ∀ m, w.entry c.address ≠ .label m) : s.endCall c x = w.judgeTransfer c.address :=
  endCall_gone (by rw [judgeCall_label e, j, updateLabel_unheld gone]) gone

theorem endCall_entry {w : State} {m : Label} (e : s.entry c.address = .label l)
    (j : s.judgement c l = w.setEntry c.address (.label m)) :
    (s.endCall c x).entry c.address = .label (m.clearMarks.foldPlanned x) := by
  rw [endCall_kept e j, entry_setEntry_same (entry_range (s := s) (by rw [e]; simp))]

/-- The four ways a judgement ends: the entry alone is written, the label goes MISSING, the join fails, or the release
ends. -/
theorem judgement_cases (e : s.entry c.address = .label l) :
    (∃ m, s.judgement c l = s.setEntry c.address (.label m))
    ∨ (l.sentMark = true ∧ c.kind = .service ∧ l.phase = .bound ∧ l.heardMark = false
      ∧ s.config.missLimit ≤ min 15 (l.missCount + 1))
    ∨ (∃ n b, l.sentMark = true ∧ c.kind = .assign ∧ l.phase = .joining n b ∧ n ≤ 1)
    ∨ (∃ n b, l.sentMark = true ∧ c.kind = .release ∧ l.phase = .releasing n b ∧ n ≤ 1) := by
  cases sent : l.sentMark with
  | false => exact .inl ⟨_, judgement_unjudged e (.inl sent)⟩
  | true =>
    cases fits : c.kind.fits l.phase with
    | false => exact .inl ⟨_, judgement_unjudged e (.inr (.inl fits))⟩
    | true =>
      cases kind : c.kind with
      | assign =>
        rw [kind] at fits
        obtain ⟨n, b, phase⟩ := isJoining_iff.1 fits
        rcases Nat.lt_or_ge 1 n with left | last
        · exact .inl ⟨_, (judgement_assign sent kind phase).trans (useJoinAttempt_left e phase left)⟩
        · exact .inr (.inr (.inl ⟨n, b, rfl, rfl, phase, last⟩))
      | service =>
        rw [kind] at fits
        have phase := isBound_iff.1 fits
        cases heard : l.heardMark with
        | true => exact .inl ⟨_, (judgement_service sent kind phase).trans (judgeMiss_heard e heard)⟩
        | false =>
          rcases Nat.lt_or_ge (min 15 (l.missCount + 1)) s.config.missLimit with room | limit
          · exact .inl ⟨_, (judgement_service sent kind phase).trans (judgeMiss_missed e heard room)⟩
          · exact .inr (.inl ⟨rfl, rfl, phase, rfl, limit⟩)
      | probe => exact .inl ⟨_, judgement_unjudged e (.inr (.inr kind))⟩
      | release =>
        rw [kind] at fits
        obtain ⟨n, b, phase⟩ := isReleasing_iff.1 fits
        rcases Nat.lt_or_ge 1 n with left | last
        · exact .inl ⟨_, (judgement_release sent kind phase).trans (useReleaseAttempt_left e phase left)⟩
        · exact .inr (.inr (.inr ⟨n, b, rfl, rfl, phase, last⟩))

/-- With no miss at the limit and no last attempt used the directory writes the entry alone. -/
theorem judgement_kept (e : s.entry c.address = .label l)
    (spared : l.sentMark = true → c.kind.fits l.phase = true →
      (c.kind = .service → l.heardMark = true ∨ min 15 (l.missCount + 1) < s.config.missLimit)
      ∧ (∀ n b, c.kind = .assign → l.phase = .joining n b → 1 < n)
      ∧ (∀ n b, c.kind = .release → l.phase = .releasing n b → 1 < n)) :
    ∃ m, s.judgement c l = s.setEntry c.address (.label m) := by
  rcases judgement_cases e with kept | ⟨sent, kind, phase, silent, limit⟩ | ⟨n, b, sent, kind, phase, last⟩
    | ⟨n, b, sent, kind, phase, last⟩
  · exact kept
  · obtain ⟨service, -, -⟩ := spared sent (by rw [kind, phase]; rfl)
    rcases service kind with heard | room
    · exact absurd (silent.symm.trans heard) (by simp)
    · exact absurd room (not_lt.2 limit)
  · obtain ⟨-, assign, -⟩ := spared sent (by rw [kind, phase]; rfl)
    exact absurd (assign n b kind phase) (not_lt.2 last)
  · obtain ⟨-, -, release⟩ := spared sent (by rw [kind, phase]; rfl)
    exact absurd (release n b kind phase) (not_lt.2 last)

/-- At the miss limit: the entry, and what was posted and returned to READY before the engine judged. -/
theorem judgement_missing (e : s.entry c.address = .label l) (sent : l.sentMark = true) (kind : c.kind = .service)
    (phase : l.phase = .bound) (silent : l.heardMark = false) (limit : s.config.missLimit ≤ min 15 (l.missCount + 1)) :
    s.judgement c l = ((s.returnSending c.address).post (.labelMissing c.address)).setEntry c.address
      (.label { l with missCount := min 15 (l.missCount + 1), drifted := true, phase := .missing }) := by
  rw [judgement_service sent kind phase, judgeMiss_missing e silent limit]

theorem RecordsGone.unsent {a : Nat} {t : State} (G : RecordsGone a s t) : t.sendingOf a = none := by
  cases e : t.sendingOf a with
  | none => rfl
  | some h =>
    obtain ⟨r, k, own, sending⟩ := sendingOf_some e
    cases before : s.record h with
    | none => exact absurd (k.symm.trans (G.absent h before)) (by simp)
    | some q =>
      by_cases mine : q.address = a
      · by_cases sent : q.state = .sending
        · cases air : s.fragmentOnAir h with
          | false =>
            obtain ⟨gone, -⟩ := G.cut h q before mine sent air
            exact absurd (k.symm.trans gone) (by simp)
          | true =>
            cases k.symm.trans (G.void h q before mine sent air)
            cases sending
        · by_cases void : q.state = .void
          · cases k.symm.trans (G.left h q before mine void)
            exact absurd sending sent
          · exact absurd (k.symm.trans (G.idle h q before mine sent void)) (by simp)
      · cases k.symm.trans (G.others h q before mine)
        exact absurd own mine

section
variable (e : s.entry c.address = .label l) (sent : l.sentMark = true) (kind : c.kind = .service)
  (phase : l.phase = .bound) (silent : l.heardMark = false) (limit : s.config.missLimit ≤ min 15 (l.missCount + 1))
include e sent kind phase silent limit

theorem endCall_missing_link : ∃ later,
    (s.endCall c x).link = (s.postAll (.labelMissing c.address :: later)).link := by
  obtain ⟨later, posted⟩ := judgeTransfer_posts (a := c.address)
    (s := (s.returnSending c.address).post (.labelMissing c.address))
  obtain ⟨-, -, link, timebase⟩ := returnSending_frame (s := s) (a := c.address)
  rw [endCall_kept e (judgement_missing e sent kind phase silent limit), setEntry_link, posted]
  exact ⟨later, postAll_link link timebase (.labelMissing c.address :: later)⟩

theorem endCall_missing_record {h : Nat} {r : Record} (sending : s.sendingOf c.address = some h)
    (k : s.record h = some r) :
    (s.endCall c x).record h = some { r with state := .ready, readyStamp := some s.stamp } := by
  have ready := (returnSending_edited sending k).records h
  rw [if_pos rfl] at ready
  rw [endCall_kept e (judgement_missing e sent kind phase silent limit), record_setEntry]
  exact judgeTransfer_record (s := (s.returnSending c.address).post (.labelMissing c.address)) ready (by simp)

/-- With one SENDING record of the label the engine has nothing left to judge (R63). -/
theorem endCall_missing_one (one : ∀ h k r q, s.record h = some r → s.record k = some q → r.address = c.address →
      q.address = c.address → r.state = .sending → q.state = .sending → h = k) :
    ∃ m, s.endCall c x = ((s.returnSending c.address).post (.labelMissing c.address)).setEntry c.address (.label m) := by
  obtain ⟨unsent, -⟩ := returnSending_records one
  rw [endCall_kept e (judgement_missing e sent kind phase silent limit),
    judgeTransfer_none (s := (s.returnSending c.address).post (.labelMissing c.address)) unsent]
  exact ⟨_, rfl⟩

end

/-- The last join attempt is used: the records are gone, and the engine has nothing left to judge. -/
theorem endCall_joinFailed {n : Nat} {b : Bool} (e : s.entry c.address = .label l) (sent : l.sentMark = true)
    (kind : c.kind = .assign) (phase : l.phase = .joining n b) (last : n ≤ 1) : s.endCall c x =
      s.leaving c.address .vacant
        (removalNotices c.address .joinFailed l.queue ++ [.joinFailed c.address l.longId]) := by
  have r := entry_range (s := s) (a := c.address) (by rw [e]; simp)
  have j := (judgement_assign sent kind phase).trans (useJoinAttempt_last e phase last)
  rw [endCall_left e j fun m => by rw [leaving_entry r]; simp]
  exact judgeTransfer_none (leaving_gone .vacant _).unsent

theorem endCall_released {n : Nat} {b : Bool} (e : s.entry c.address = .label l) (sent : l.sentMark = true)
    (kind : c.kind = .release) (phase : l.phase = .releasing n b) (last : n ≤ 1) : s.endCall c x =
      ((s.post (.labelReleased c.address false)).judgeTransfer c.address).setEntry c.address
        (.cooling l.longId (s.epoch + 2)) := by
  have r := entry_range (s := s) (a := c.address) (by rw [e]; simp)
  have j := (judgement_release sent kind phase).trans (useReleaseAttempt_last e phase last)
  rw [endCall_left e j fun m => by rw [entry_setEntry_same r]; simp, judgeTransfer_setEntry]

/-! ## What a call end leaves unchanged -/

theorem updateLabel_frame (s : State) (a : Nat) (f : Label → Label) : LabelFrame a s (s.updateLabel a f)
    ∧ (s.updateLabel a f).burst = s.burst := by
  unfold State.updateLabel
  split
  · exact ⟨.setEntry a s _, by simp⟩
  · exact ⟨.refl a s, rfl⟩

theorem judgement_frame (e : s.entry c.address = .label l) : LabelFrame c.address s (s.judgement c l)
    ∧ ((s.judgement c l).burst = s.burst ∨ l.phase.isJoining = true) := by
  rcases judgement_cases e with ⟨m, j⟩ | ⟨sent, kind, phase, silent, limit⟩ | ⟨n, b, sent, kind, phase, last⟩
    | ⟨n, b, sent, kind, phase, last⟩
  · rw [j]
    exact ⟨.setEntry _ s _, .inl (by simp)⟩
  · obtain ⟨frame, burst, -, -⟩ := returnSending_frame (s := s) (a := c.address)
    rw [judgement_missing e sent kind phase silent limit]
    exact ⟨(frame.trans (.post _ _ _)).trans (.setEntry _ _ _), .inl ((setEntry_burst ..).trans burst)⟩
  · rw [judgement_assign sent kind phase, useJoinAttempt_last e phase last]
    exact ⟨leaving_frame _ _, .inr (by rw [phase]; rfl)⟩
  · rw [judgement_release sent kind phase, useReleaseAttempt_last e phase last]
    exact ⟨(LabelFrame.post _ s _).trans (.setEntry _ _ _), .inl (setEntry_burst ..)⟩

theorem endCall_frame (e : s.entry c.address = .label l) : LabelFrame c.address s (s.endCall c x)
    ∧ ((s.endCall c x).burst = s.burst ∨ l.phase.isJoining = true) := by
  obtain ⟨frame, burst⟩ := judgement_frame e
  obtain ⟨marks, marksBurst⟩ := updateLabel_frame (s.judgement c l) c.address Label.clearMarks
  obtain ⟨fold, foldBurst⟩ := updateLabel_frame ((s.judgeCall c).judgeTransfer c.address) c.address
    fun l => l.foldPlanned x
  unfold State.endCall
  refine ⟨.trans (.trans ?_ (judgeTransfer_frame c.address)) fold, burst.imp_left fun same => ?_⟩
  · rw [judgeCall_label e]
    exact frame.trans marks
  · rw [foldBurst, judgeTransfer_burst, judgeCall_label e, marksBurst, same]

end

/-! ## CALL_END -/

/-- Settles O47: nothing to judge, a label's entry by the judgement's outcome, and an entry that has been left. -/
theorem callEndJudgesTheCall : Obligations.CallEndJudgesTheCall := by
  unfold Obligations.CallEndJudgesTheCall
  refine ⟨fun s h no => by rw [exec_callEnd h, callEnd_nothing no], ?label, ?gone⟩
  case label =>
    intro s u d c l after h data call e hu hafter
    have e' : u.entry c.address = .label l := by
      rw [hu]
      exact e
    have r := entry_range (s := u) (a := c.address) (by rw [e']; simp)
    have rule (m : Label) : after m = m.clearMarks.foldPlanned (epochOf d.round) :=
      (hafter m).trans (foldPlanned_clearMarks m _).symm
    have kept {w : State} {m : Label} (j : u.judgement c l = w.setEntry c.address (.label m)) :
        (u.endCall c (epochOf d.round)).entry c.address = .label (after m) := by rw [endCall_entry e' j, rule]
    refine ⟨fun o => by rw [exec_callEnd h, callEnd_heldOpen o], fun o => ⟨u.endCall c (epochOf d.round), ?_, ?_⟩⟩
    · rw [exec_callEnd h, callEnd_due o data call, hu]
    obtain ⟨frame, burst⟩ := endCall_frame (x := epochOf d.round) e'
    refine ⟨frame, ?_, fun no => kept (judgement_unjudged e' no), fun sent kind phase => ?service, fun spared => ?engine,
      fun sent kind phase silent limit one => ?missing, fun n b sent kind phase => ?assign,
      fun n b sent kind phase => ?release⟩
    · rw [hu] at burst ⊢
      exact burst
    case service =>
      have j := judgement_service (s := u) sent kind phase
      refine ⟨fun heard => kept (j.trans (judgeMiss_heard e' heard)), fun silent room => ?_, fun silent limit => ?_⟩
      · exact kept (j.trans (judgeMiss_missed e' silent (by rw [hu]; exact room)))
      · have missing := judgement_missing e' sent kind phase silent (by rw [hu]; exact limit)
        refine ⟨kept missing, ?_, fun h r sending record => ?_⟩
        · exact endCall_missing_link e' sent kind phase silent (by rw [hu]; exact limit)
        · have ready := endCall_missing_record (x := epochOf d.round) (h := h) (r := r) e' sent kind phase silent
            (by rw [hu]; exact limit) (by rw [hu]; exact sending) (by rw [hu]; exact record)
          rw [ready, hu]
          rfl
    case engine =>
      obtain ⟨m, j⟩ := judgement_kept e' (by rw [hu]; exact spared)
      rw [endCall_kept e' j]
      simp
    case missing =>
      have one' : ∀ h k r q, u.record h = some r → u.record k = some q → r.address = c.address →
          q.address = c.address → r.state = .sending → q.state = .sending → h = k := by
        rw [hu]
        exact one
      obtain ⟨m, eq⟩ := endCall_missing_one (x := epochOf d.round) e' sent kind phase silent
        (by rw [hu]; exact limit) one'
      obtain ⟨-, records, order, contexts⟩ := returnSending_records one'
      obtain ⟨-, -, link, timebase⟩ := returnSending_frame (s := u) (a := c.address)
      rw [eq, setEntry_link, setEntry_store]
      refine ⟨postAll_link link timebase [.labelMissing c.address], fun h => ?_, ?_, fun i => ?_⟩
      · rw [record_setEntry]
        refine (records h).trans ?_
        rw [hu]
        rfl
      · refine order.trans ?_
        rw [hu]
      · rw [context_setEntry]
        refine (contexts i).trans ?_
        rw [hu]
        rfl
    case assign =>
      have j := judgement_assign (s := u) sent kind phase
      refine ⟨fun left => kept (j.trans (useJoinAttempt_left e' phase left)), fun last => ?_⟩
      rw [endCall_joinFailed e' sent kind phase last]
      exact ⟨leaving_entry r _ _, leaving_gone _ _, leaving_link _ _⟩
    case release =>
      have j := judgement_release (s := u) sent kind phase
      refine ⟨fun left => kept (j.trans (useReleaseAttempt_left e' phase left)), fun last => ?_⟩
      rw [endCall_released e' sent kind phase last]
      obtain ⟨contexts, store⟩ := judgeTransfer_post (s := u) (a := c.address) (.labelReleased c.address false)
      obtain ⟨later, posted⟩ := judgeTransfer_posts (s := u.post (.labelReleased c.address false)) (a := c.address)
      refine ⟨?_, ⟨later, ?_⟩, ?_, ?_, ?_⟩
      · rw [entry_setEntry_same r, hu]
        rfl
      · rw [setEntry_link, posted]
        rfl
      · rw [setEntry_contexts, contexts]
      · rw [setEntry_store, store]
      · rw [setEntry_link]
  case gone =>
    intro s u d c h data call gone hu
    have gone' : ∀ l, u.entry c.address ≠ .label l := by
      rw [hu]
      exact gone
    refine ⟨fun o => by rw [exec_callEnd h, callEnd_heldOpen o], fun o => ?_⟩
    have closed : exec .callEnd s = .next (u.judgeTransfer c.address).choose := by
      rw [exec_callEnd h, callEnd_due o data call, ← hu, endCall_gone (judgeCall_unheld gone') gone']
    refine ⟨closed, fun idle => ?_⟩
    rw [closed, judgeTransfer_none]
    cases sending : u.sendingOf c.address with
    | none => rfl
    | some g =>
      obtain ⟨r, record, own, state⟩ := sendingOf_some sending
      rw [hu] at record
      exact absurd state (idle g r record own)

end Sys2Proof.Machine

/-! PROOFS. LABEL_QUERY, LABEL_LIST and PAGE_QUERY (R70, R71, R125): the state as it stands, in the bytes of R195. -/

namespace Sys2Proof.Machine

/-! ## The queries, as commands -/

section
variable {s : State} {tag : Byte} {p : List Byte}

theorem exec_labelQuery (h : Ready s) (ok : payloadOk .labelQuery p = true) (short : p.length ≤ 200) :
    exec (.labelQuery tag p) s = .next (((s.inHand ⟨0x11, tag, p⟩).doLabelQuery p).state.reply 0x11 tag
      ((s.inHand ⟨0x11, tag, p⟩).doLabelQuery p).status ((s.inHand ⟨0x11, tag, p⟩).doLabelQuery p).result) :=
  taken h (f := ⟨0x11, tag, p⟩) (k := .labelQuery) (by rfl) ok short

theorem exec_labelList (h : Ready s) (ok : payloadOk .labelList p = true) (short : p.length ≤ 200) :
    exec (.labelList tag p) s = .next (((s.inHand ⟨0x12, tag, p⟩).doLabelList p).state.reply 0x12 tag
      ((s.inHand ⟨0x12, tag, p⟩).doLabelList p).status ((s.inHand ⟨0x12, tag, p⟩).doLabelList p).result) :=
  taken h (f := ⟨0x12, tag, p⟩) (k := .labelList) (by rfl) ok short

theorem exec_pageQuery (h : Ready s) (ok : payloadOk .pageQuery p = true) (short : p.length ≤ 200) :
    exec (.pageQuery tag p) s = .next (((s.inHand ⟨0x27, tag, p⟩).doPageQuery p).state.reply 0x27 tag
      ((s.inHand ⟨0x27, tag, p⟩).doPageQuery p).status ((s.inHand ⟨0x27, tag, p⟩).doPageQuery p).result) :=
  taken h (f := ⟨0x27, tag, p⟩) (k := .pageQuery) (by rfl) ok short

end

/-! ## What each query answers -/

section
variable {s : State} {a g : Byte}

theorem byteAt_one (p : List Byte) : byteAt (1 :: p) 0 ≠ 0 := by
  show (1 : Byte) ≠ 0
  decide

theorem doLabelQuery_badField (h : addressInRange a.toNat = false) : s.doLabelQuery [0, a] = s.refuse .badField :=
  (if_pos rfl).trans (if_neg (Bool.eq_false_iff.1 h))

theorem doLabelQuery_address (h : addressInRange a.toNat = true) :
    s.doLabelQuery [0, a] = s.accept (s.entryBytes a.toNat) := if_pos h

theorem longIdAt_behind {idBytes : List Byte} (n : idBytes.length = 6) (x : Byte) :
    longIdAt (x :: idBytes) 1 = BitVec.ofNat 48 (leNat idBytes) := by
  unfold longIdAt fieldAt
  rw [List.drop_succ_cons, List.drop_zero, List.take_of_length_le n.le]

theorem doLabelQuery_held {idBytes : List Byte} {b : Nat} (n : idBytes.length = 6)
    (h : s.holderOf (BitVec.ofNat 48 (leNat idBytes)) = some b) :
    s.doLabelQuery (1 :: idBytes) = s.accept (s.entryBytes b) := by
  unfold State.doLabelQuery
  rw [if_neg (byteAt_one _), longIdAt_behind n, h]

theorem doLabelQuery_unheld {idBytes : List Byte} (n : idBytes.length = 6)
    (h : s.holderOf (BitVec.ofNat 48 (leNat idBytes)) = none) :
    s.doLabelQuery (1 :: idBytes) = s.refuse .noLabel := by
  unfold State.doLabelQuery
  rw [if_neg (byteAt_one _), longIdAt_behind n, h]

theorem doLabelList_badField (h : addressInRange a.toNat = false) : s.doLabelList [a] = s.refuse .badField :=
  if_neg (Bool.eq_false_iff.1 h)

theorem doLabelList_address (h : addressInRange a.toNat = true) :
    s.doLabelList [a] = s.accept (s.listBytes a.toNat) := if_pos h

theorem doPageQuery_noHandle (h : 128 ≤ a.toNat) : s.doPageQuery [0, a] = s.refuse .badField := if_pos h

theorem doPageQuery_noRecord (h : a.toNat < 128) (no : s.record a.toNat = none) :
    s.doPageQuery [0, a] = s.refuse .noRecord := by
  have slot : ¬ Config.recordSlots ≤ (byteAt [0, a] 1).toNat := not_le.2 h
  have free : s.record (byteAt [0, a] 1).toNat = none := no
  unfold State.doPageQuery
  rw [if_pos (by rfl)]
  dsimp only
  rw [if_neg slot, free]

theorem doPageQuery_record {r : Record} (h : a.toNat < 128) (e : s.record a.toNat = some r) :
    s.doPageQuery [0, a] = s.accept (1 :: s.recordBytes a.toNat r) := by
  have slot : ¬ Config.recordSlots ≤ (byteAt [0, a] 1).toNat := not_le.2 h
  have used : s.record (byteAt [0, a] 1).toNat = some r := e
  unfold State.doPageQuery State.recordsBytes
  rw [if_pos (by rfl)]
  dsimp only
  rw [if_neg slot, used]
  dsimp only
  rw [List.flatMap_cons, List.flatMap_nil, List.append_nil, used]
  rfl

theorem doPageQuery_key : s.doPageQuery [1, a, g] =
    if addressInRange a.toNat && decide (g.toNat ≤ 3) then
      if (s.liveOf a.toNat g.toNat).toList ++ (s.fillingOf a.toNat g.toNat).toList = [] then s.refuse .noRecord
      else s.accept (s.recordsBytes ((s.liveOf a.toNat g.toNat).toList ++ (s.fillingOf a.toNat g.toNat).toList))
    else s.refuse .badField := by
  unfold State.doPageQuery
  rw [if_neg (byteAt_one _)]
  refine if_congr Iff.rfl ?_ rfl
  split
  · rename_i empty
    exact (if_pos empty).symm
  · rename_i found
    exact (if_neg found).symm

end

/-! ## The bytes of an entry (R195, R197) -/

theorem byteOf_toNat (b : Byte) : byteOf b.toNat = b := BitVec.ofNat_toNat 8 b

theorem isVacant_not (e : Entry) : (!e.isVacant) = (e != .vacant) := by
  cases e <;> rfl

theorem toNat_byteOf {n : Nat} (h : n < 256) : (byteOf n).toNat = n := by
  unfold byteOf
  rw [BitVec.toNat_ofNat, Nat.mod_eq_of_lt h]

theorem toNat_profileByte {p : Profile} {k : Nat} (ok : p.valid = true) (period : p.period = 2 ^ k) :
    (profileByte p).toNat = 128 + 16 * k + p.phase := by
  obtain ⟨n, f⟩ := p
  dsimp only at period
  subst period
  have small := valid_code_small ok
  have code : codeOfPeriod (2 ^ k) = k := by
    interval_cases k <;> rfl
  have phase : f < 2 ^ k := of_decide_eq_true (Bool.and_eq_true_iff.1 ok).2
  have bound : 2 ^ k ≤ 2 ^ 4 := Nat.pow_le_pow_right (by decide) small
  unfold profileByte
  dsimp only
  rw [code, toNat_byteOf (by omega), Nat.mul_comm]

theorem toNat_displayByte (mode : Option DisplayMode) (page : Option Nat) : (∀ p, page = some p → p < 4) →
    (displayByte mode page).toNat =
      (match mode with | none => 0 | some .normal => 1 | some .inverted => 2 | some .blank => 3 | some .allOn => 4)
        + 16 * (match page with | none => 0 | some p => p + 1) := by
  intro h
  have modes : mode = none ∨ mode = some .normal ∨ mode = some .inverted ∨ mode = some .blank ∨ mode = some .allOn := by
    rcases mode with _ | m
    · simp
    · cases m <;> simp
  cases page with
  | none => rcases modes with rfl | rfl | rfl | rfl | rfl <;> rfl
  | some p =>
    have small := h p rfl
    rcases modes with rfl | rfl | rfl | rfl | rfl <;> exact toNat_byteOf (by simp only [DisplayMode.code]; omega)

/-- A RELEASE is on the air until its release burst's reply window has ended, another operation as long as the open
send is attached to it (R92). -/
theorem opOnAir_iff (s : State) (a : Nat) (l : Label) (o : Operation) :
    (o.fields ≠ .release → (s.opOnAir a l o = true ↔
      ∃ w, l.openSend = some w ∧ w.attached = true ∧ w.fields.kind = o.fields.kind))
    ∧ (o.fields = .release → (s.opOnAir a l o = true ↔
        ∃ d, s.dataSlot = some d ∧ d.endDue = true ∧ d.place = ⟨a, .release⟩)) := by
  unfold State.opOnAir
  constructor
  · intro other
    split
    · rename_i e
      exact absurd e other
    · cases l.openSend with
      | none => simp
      | some w => simp [Operation.kind]
  · intro e
    rw [e]
    dsimp only
    cases s.dataSlot with
    | none => simp
    | some d => simp

/-! ## The bytes of a record (R195) -/

theorem heldPosition_absent {s : State} {h : Nat} (no : h ∉ s.store.heldOrder) : s.heldPosition h = 0 := by
  unfold State.heldPosition
  rw [List.findIdx?_eq_none_iff.2 fun x m => by
    rw [beq_eq_false_iff_ne]
    rintro rfl
    exact no m]

theorem heldPosition_behind {s : State} {h : Nat} {before behind : List Nat}
    (e : s.store.heldOrder = before ++ h :: behind) (first : h ∉ before) : s.heldPosition h = before.length + 1 := by
  have ahead : before.findIdx? (fun x => x == h) = none := List.findIdx?_eq_none_iff.2 fun x m => by
    rw [beq_eq_false_iff_ne]
    rintro rfl
    exact first m
  unfold State.heldPosition
  rw [e, List.findIdx?_append, ahead, List.findIdx?_cons]
  simp

theorem confirmedOf_untied {s : State} {h : Nat} (e : s.contextOf h = none) : s.confirmedOf h = [] := by
  unfold State.confirmedOf
  rw [e]

theorem confirmedOf_tied {s : State} {h i : Nat} {c : Context} (e : s.contextOf h = some i) (k : s.context i = some c) :
    s.confirmedOf h = c.confirmed := by
  unfold State.confirmedOf
  rw [e]
  dsimp only
  rw [k]

/-! ## The layouts (R195) -/

theorem append_congr {a b c d : List Byte} (h : a = b) (k : c = d) : a ++ c = b ++ d := congrArg₂ _ h k

theorem bitmapBytes_mem (k : Nat) (l : List Nat) : bitmapBytes k l =
    (List.range k).map fun i => byteOfBits ((List.range 8).map fun j => decide (8 * i + j ∈ l)) := by
  unfold bitmapBytes
  simp only [List.contains_eq_mem]

theorem bitmapBytes_one (l : List Nat) :
    bitmapBytes 1 l = [byteOfBits ((List.range 8).map fun j => decide (j ∈ l))] := by
  rw [bitmapBytes_mem]
  simp

theorem lowestUnwritten_mem (n : Nat) (w : List Nat) :
    lowestUnwritten n w = ((List.range n).find? fun o => decide (o ∉ w)).getD n := by
  unfold lowestUnwritten
  simp only [List.contains_eq_mem, decide_not]

/-! ## The queries -/

/-- Settles O42: what each query answers, and then the bytes of an entry and of a record, part by part. -/
theorem queriesAnswerAndChangeNothing : Obligations.QueriesAnswerAndChangeNothing := by
  unfold Obligations.QueriesAnswerAndChangeNothing
  refine ⟨fun tag a g idBytes s h n => ⟨fun out => ?badField, fun low high => ⟨?entry, ?list⟩, fun b held => ?held,
      fun unheld => ?unheld, fun big => ?noHandle, fun small => ?handle, fun out => ?noKey, fun low high page hs e => ?key⟩,
    fun s a l => ?label, fun l => ?phase, opOnAir_iff, fun p k => toNat_profileByte, toNat_displayByte,
    fun bits i length small => ?bits, fun s h r => ?record,
    fun s h => ⟨heldPosition_absent, fun before behind => heldPosition_behind, confirmedOf_untied,
      fun i c => confirmedOf_tied⟩⟩
  case badField =>
    have range := addressInRange_out out
    rw [exec_labelQuery h (by rfl) (by simp), exec_labelList h (by rfl) (by simp), doLabelQuery_badField range,
      doLabelList_badField range]
    exact ⟨rfl, rfl⟩
  case entry =>
    rw [exec_labelQuery h (by rfl) (by simp), doLabelQuery_address (addressInRange_iff.2 ⟨low, high⟩)]
    have same : (s.inHand ⟨0x11, tag, [0, a]⟩).entryBytes a.toNat = s.entryBytes a.toNat := rfl
    unfold State.accept
    dsimp only
    rw [same]
    unfold State.entryBytes
    rw [byteOf_toNat]
    cases s.entry a.toNat <;> rfl
  case list =>
    rw [exec_labelList h (by rfl) (by simp), doLabelList_address (addressInRange_iff.2 ⟨low, high⟩)]
    unfold State.accept State.listBytes
    simp only [isVacant_not]
    rfl
  case held =>
    rw [exec_labelQuery h (beq_iff_eq.2 (congrArg (· + 1) n)) (by rw [List.length_cons]; omega),
      doLabelQuery_held (s := s.inHand _) n held]
    rfl
  case unheld =>
    rw [exec_labelQuery h (beq_iff_eq.2 (congrArg (· + 1) n)) (by rw [List.length_cons]; omega),
      doLabelQuery_unheld (s := s.inHand _) n (holderOf_unheld (s := s.inHand _) unheld)]
    rfl
  case noHandle =>
    rw [exec_pageQuery h (by rfl) (by simp), doPageQuery_noHandle big]
    rfl
  case handle =>
    rw [exec_pageQuery h (by rfl) (by simp)]
    cases e : s.record a.toNat with
    | none =>
      rw [doPageQuery_noRecord (s := s.inHand _) small e]
      rfl
    | some r =>
      rw [doPageQuery_record (s := s.inHand _) small e]
      rfl
  case noKey =>
    have bad : (addressInRange a.toNat && decide (g.toNat ≤ 3)) = false := by
      rw [Bool.and_eq_false_iff, decide_eq_false_iff_not, not_le]
      exact (or_assoc.2 out).imp_left addressInRange_out
    rw [exec_pageQuery h (by rfl) (by simp), doPageQuery_key, bad]
    rfl
  case key =>
    have ok : (addressInRange a.toNat && decide (g.toNat ≤ 3)) = true :=
      Bool.and_eq_true_iff.2 ⟨addressInRange_iff.2 ⟨low, high⟩, decide_eq_true page⟩
    subst e
    rw [exec_pageQuery h (by rfl) (by simp), doPageQuery_key, if_pos ok]
    refine ⟨fun empty => ?_, fun found => ?_⟩
    · rw [if_pos (by exact empty)]
      rfl
    · rw [if_neg (by exact found)]
      rfl
  case label =>
    unfold State.labelBytes
    refine append_congr (append_congr (append_congr ?_ ?heard) rfl) ?queue
    case heard => cases l.lastHeard <;> rfl
    case queue =>
      refine congrArg (l.queue.flatMap ·) (funext fun o => ?_)
      unfold State.operationBytes Operation.kind
      cases o.fields <;> rfl
    rw [bitmapBytes_one, List.append_assoc _ [l.batteryClass.code, _]]
    refine append_congr (append_congr (append_congr (append_congr (append_congr (append_congr ?_ ?planned) ?profile) rfl)
      ?leaving) rfl) ?battery
    case planned => cases l.planned <;> rfl
    case profile => cases l.profileState <;> rfl
    case leaving => cases l.phase <;> rfl
    case battery => cases l.batteryClass <;> rfl
    rfl
  case phase => cases l.phase <;> rfl
  case bits =>
    rw [getLsbD_byteOfBits, decide_eq_true small, Bool.true_and]
  case record =>
    unfold State.recordBytes
    refine append_congr (append_congr (append_congr (append_congr ?head ?written) ?ready) ?cause) ?sending
    case head => cases r.state <;> rfl
    case written =>
      rw [lowestUnwritten_mem]
      cases r.state <;> rfl
    case ready => cases r.readyStamp <;> rfl
    case cause =>
      cases r.state with
      | stalled c => cases c <;> rfl
      | _ => rfl
    case sending =>
      rw [bitmapBytes_mem]

end Sys2Proof.Machine

/-! PROOFS. Wake profiles (R72, R74) and the class of a battery reading (R85). -/

namespace Sys2Proof.Machine

/-! ## Valid profiles and the rounds in which they wake (R72) -/

section
variable {p : Profile}

theorem isPeriod_iff (n : Nat) : isPeriod n = true ↔ n = 1 ∨ n = 2 ∨ n = 4 ∨ n = 8 ∨ n = 16 := by
  simp [isPeriod, or_assoc]

theorem Profile.valid_iff (p : Profile) : p.valid = true ↔
    (p.period = 1 ∨ p.period = 2 ∨ p.period = 4 ∨ p.period = 8 ∨ p.period = 16) ∧ p.phase < p.period := by
  rw [Profile.valid, Bool.and_eq_true_iff, isPeriod_iff, decide_eq_true_iff]

/-- A period divides the epoch's 16 rounds. -/
theorem Profile.period_dvd (ok : p.valid = true) : p.period ∣ 16 := by
  obtain ⟨period, -⟩ := p.valid_iff.1 ok
  rcases period with e | e | e | e | e <;> rw [e] <;> decide

theorem Profile.wakes_iff (p : Profile) (r : Nat) : p.wakes r = true ↔ r = 0 ∨ r % p.period = p.phase := by
  rw [Profile.wakes, Bool.or_eq_true_iff, beq_iff_eq, beq_iff_eq]

theorem Profile.wakes_iff_modEq (small : p.phase < p.period) (r : Nat) :
    p.wakes r = true ↔ r = 0 ∨ r ≡ p.phase [MOD p.period] := by
  rw [p.wakes_iff, Nat.ModEq, Nat.mod_eq_of_lt small]

/-- The wake rounds are those that leave the phase, and round 0 beside them when it is not one of these. -/
theorem Profile.countP_wakes (small : p.phase < p.period) (n : Nat) : (List.range (n + 1)).countP p.wakes =
    Nat.count (· ≡ p.phase [MOD p.period]) (n + 1) + if p.phase = 0 then 0 else 1 := by
  have first : 0 ≡ p.phase [MOD p.period] ↔ p.phase = 0 := by
    rw [Nat.ModEq, Nat.zero_mod, Nat.mod_eq_of_lt small, eq_comm]
  have later : (List.range n).countP (p.wakes ∘ Nat.succ) = Nat.count (fun r => r + 1 ≡ p.phase [MOD p.period]) n :=
    List.countP_congr fun r _ => by
      rw [Function.comp_apply, wakes_iff_modEq small, or_iff_right (Nat.succ_ne_zero r), decide_eq_true_iff]
  have always : p.wakes 0 = true := (p.wakes_iff 0).2 (.inl rfl)
  rw [List.range_succ_eq_map, List.countP_cons_of_pos always, List.countP_map, later, Nat.count_succ', if_congr first rfl rfl]
  split <;> rfl

/-- As many rounds of an epoch leave one phase as leave any other, because a period divides 16. -/
theorem Profile.count_phase (ok : p.valid = true) : Nat.count (· ≡ p.phase [MOD p.period]) 16 = 16 / p.period := by
  obtain ⟨-, small⟩ := p.valid_iff.1 ok
  rw [Nat.count_modEq_card 16 (Nat.zero_lt_of_lt small), Nat.mod_eq_zero_of_dvd (period_dvd ok), if_neg (Nat.not_lt_zero _),
    Nat.add_zero]

theorem Profile.length_wakeRounds (ok : p.valid = true) : ((List.range 16).filter fun r => p.wakes r).length =
    16 / p.period + if p.phase = 0 then 0 else 1 := by
  obtain ⟨-, small⟩ := p.valid_iff.1 ok
  rw [← List.countP_eq_length_filter, countP_wakes small 15, count_phase ok]

end

/-! ## The applicable profile (R74) -/

section
variable {l : Label}

theorem applicable_unplanned (h : l.planned = none) (e : Epoch) : l.applicable e = l.current := by
  rw [Label.applicable, h]

theorem applicable_planned {p : PlannedProfile} (h : l.planned = some p) (e : Epoch) :
    l.applicable e = if p.effective = e then p.profile else l.current := by
  rw [Label.applicable, h]

end

/-- Settles O50: the count of the wake rounds is that of the rounds which leave the phase (Nat.count_modEq_card), and the
always round beside them when the phase is not 0. -/
theorem profileWakesByPeriodAndPhase : Obligations.ProfileWakesByPeriodAndPhase :=
  ⟨Profile.wakes_iff, Profile.valid_iff, fun _ => Profile.length_wakeRounds,
    fun _ e => ⟨fun h => applicable_unplanned h e, fun _ h => applicable_planned h e⟩⟩

/-! ## The class of a reading (R85)

A class falls at its threshold and rises 50 mV above it, so the class held before says where each of the two lines
lies. -/

/-- The reading below which a label of this class is found CRITICAL. -/
def criticalLine (critical : Nat) : BatteryClass → Nat
  | .critical => critical + 50
  | _ => critical

/-- The reading from which a label of this class is found OK. -/
def okLine (low : Nat) : BatteryClass → Nat
  | .ok => low
  | _ => low + 50

section
variable {L C mv : Nat} {b : BatteryClass}

theorem classify_eq (L C : Nat) (b : BatteryClass) (mv : Nat) : classify L C b mv =
    if mv < criticalLine C b then .critical else if mv < okLine L b then .low else .ok := by
  cases b <;> rfl

theorem le_criticalLine (C : Nat) (b : BatteryClass) : C ≤ criticalLine C b := by
  cases b <;> simp [criticalLine]

theorem criticalLine_le (C : Nat) (b : BatteryClass) : criticalLine C b ≤ C + 50 := by
  cases b <;> simp [criticalLine]

theorem le_okLine (L : Nat) (b : BatteryClass) : L ≤ okLine L b := by
  cases b <;> simp [okLine]

theorem okLine_le (L : Nat) (b : BatteryClass) : okLine L b ≤ L + 50 := by
  cases b <;> simp [okLine]

theorem classify_critical (h : mv < criticalLine C b) : classify L C b mv = .critical := by
  rw [classify_eq, if_pos h]

theorem classify_low (above : criticalLine C b ≤ mv) (below : mv < okLine L b) : classify L C b mv = .low := by
  rw [classify_eq, if_neg above.not_gt, if_pos below]

/-- The critical line lies below the ok line, since C + 100 ≤ L (R38). -/
theorem classify_ok (apart : C + 100 ≤ L) (above : okLine L b ≤ mv) : classify L C b mv = .ok := by
  have := criticalLine_le C b
  have := le_okLine L b
  rw [classify_eq, if_neg (by omega), if_neg above.not_gt]

end

/-- Settles O51, column by column of R85's table: in the outer columns and the middle one every class lies on the same
side of both lines. -/
theorem batteryClassFollowsTheTable : Obligations.BatteryClassFollowsTheTable := by
  intro L C mv apart
  refine ⟨fun below b => ?belowC, fun above below => ?nearC, fun above below b => ?between, fun above below => ?nearL,
    fun above b => ?aboveL⟩
  case belowC => exact classify_critical (below.trans_le (le_criticalLine C b))
  case nearC =>
    have under : mv < L := by omega
    exact ⟨classify_low above under, classify_low above (under.trans_le (le_okLine L _)), classify_critical below⟩
  case between => exact classify_low ((criticalLine_le C b).trans above) (below.trans_le (le_okLine L b))
  case nearL =>
    have clear : C + 50 ≤ mv := by omega
    exact ⟨classify_ok apart above, classify_low ((criticalLine_le C _).trans clear) below, classify_low clear below⟩
  case aboveL => exact classify_ok apart ((okLine_le L b).trans above)

end Sys2Proof.Machine

/-! PROOFS. LABEL_OP (R90, R91) and REPLY_WINDOW_END (R79, R97): an operation joins the queue or replaces the one of its
kind, and an unanswered send charges its operation an attempt or ends it. -/

namespace Sys2Proof.Machine

/-! ## The one operation of a kind in a queue (R88, R91) -/

section
variable {k : OpKind} {before behind : List Operation} {o : Operation}

theorem findIdx_ofKind (kind : o.kind = k) (ahead : ∀ x ∈ before, x.kind ≠ k) :
    (before ++ o :: behind).findIdx? (fun x => x.kind == k) = some before.length := by
  have absent : before.findIdx? (fun x => x.kind == k) = none :=
    List.findIdx?_eq_none_iff.2 fun x m => beq_eq_false_iff_ne.2 (ahead x m)
  rw [List.findIdx?_append, absent, List.findIdx?_cons]
  simp [kind]

theorem find_ofKind (kind : o.kind = k) (ahead : ∀ x ∈ before, x.kind ≠ k) :
    (before ++ o :: behind).find? (fun x => x.kind == k) = some o :=
  List.find?_eq_some_iff_append.2 ⟨beq_iff_eq.2 kind, before, behind, rfl, fun x m => by simpa using ahead x m⟩

/-- A change of the operations of a kind changes the one operation of that kind, in its place. -/
theorem map_ofKind (kind : o.kind = k) (others : ∀ x ∈ before ++ behind, x.kind ≠ k) (change : Operation → Operation) :
    (before ++ o :: behind).map (fun x => if x.kind = k then change x else x) = before ++ change o :: behind := by
  have kept : ∀ q : List Operation, (∀ x ∈ q, x.kind ≠ k) → q.map (fun x => if x.kind = k then change x else x) = q :=
    fun q other => (List.map_congr_left fun x m => if_neg (other x m)).trans (List.map_id' q)
  obtain ⟨ahead, after⟩ := List.forall_mem_append.1 others
  rw [List.map_append, List.map_cons, kept before ahead, kept behind after, if_pos kind]

theorem filter_notOfKind (kind : o.kind = k) (others : ∀ x ∈ before ++ behind, x.kind ≠ k) :
    (before ++ o :: behind).filter (fun x => x.kind != k) = before ++ behind := by
  have kept : ∀ q : List Operation, (∀ x ∈ q, x.kind ≠ k) → q.filter (fun x => x.kind != k) = q :=
    fun q other => List.filter_eq_self.2 fun x m => bne_iff_ne.2 (other x m)
  obtain ⟨ahead, after⟩ := List.forall_mem_append.1 others
  rw [List.filter_append, List.filter_cons_of_neg (by simp [kind]), kept before ahead, kept behind after]

end

/-! ## An operation is queued (R91) -/

section
variable {l : Label} {f : OpFields}

theorem positionOf_behind {k : OpKind} {before behind : List Operation} {o : Operation}
    (queue : l.queue = before ++ o :: behind) (kind : o.kind = k) (ahead : ∀ x ∈ before, x.kind ≠ k) :
    l.positionOf k = before.length + 1 := by
  unfold Label.positionOf
  rw [queue, findIdx_ofKind kind ahead]

theorem queued_new (new : ∀ o ∈ l.queue, o.kind ≠ f.kind) : l.queued f.kind = false :=
  List.any_eq_false.2 fun o m => by simpa using new o m

theorem enqueue_new (new : ∀ o ∈ l.queue, o.kind ≠ f.kind) (now : Stamp) :
    l.enqueue f now = { l with queue := l.queue ++ [⟨f, now, 0, false⟩] } := by
  unfold Label.enqueue
  rw [queued_new new]
  rfl

section
variable {before behind : List Operation} {o : Operation}

theorem queued_one (queue : l.queue = before ++ o :: behind) (kind : o.kind = f.kind) : l.queued f.kind = true :=
  (queued_iff l f.kind).2 ⟨o, by simp [queue], kind⟩

theorem enqueue_replaces (queue : l.queue = before ++ o :: behind) (kind : o.kind = f.kind)
    (others : ∀ x ∈ before ++ behind, x.kind ≠ f.kind) (now : Stamp) : l.enqueue f now = { l with
      queue := before ++ { o with fields := f, attempts := 0, sentThisRound := false } :: behind
      openSend := l.openSend.map (OpenSend.detach f.kind) } := by
  unfold Label.enqueue
  rw [if_pos (queued_one queue kind), queue]
  exact congrArg (fun q => { l with queue := q, openSend := l.openSend.map (OpenSend.detach f.kind) })
    (map_ofKind kind others _)

end

variable {s : State} {a : Nat}

theorem queueOperation_new (e : s.entry a = .label l) (new : ∀ o ∈ l.queue, o.kind ≠ f.kind) :
    s.queueOperation a l f = State.accept
      (s.setEntry a (.label { l with queue := l.queue ++ [⟨f, s.timebase.stamp, 0, false⟩] }))
      [byteOf (l.queue.length + 1), 0, 0] := by
  unfold State.queueOperation
  rw [updateLabel_setEntry e, queued_new new, enqueue_new new, positionOf_behind (k := f.kind) rfl rfl new]
  rfl

theorem queueOperation_replaces {before behind : List Operation} {o : Operation} (e : s.entry a = .label l)
    (queue : l.queue = before ++ o :: behind) (kind : o.kind = f.kind)
    (others : ∀ x ∈ before ++ behind, x.kind ≠ f.kind) : s.queueOperation a l f = State.accept
      (s.setEntry a (.label { l with
        queue := before ++ { o with fields := f, attempts := 0, sentThisRound := false } :: behind
        openSend := l.openSend.map (OpenSend.detach f.kind) }))
      [byteOf (before.length + 1), 1, flagByte (l.attachedSend f.kind)] := by
  have ahead := (List.forall_mem_append.1 others).1
  unfold State.queueOperation
  rw [updateLabel_setEntry e, queued_one queue kind, enqueue_replaces queue kind others,
    positionOf_behind (k := f.kind) rfl rfl ahead]
  rfl

end

/-! ## The operation that a LABEL_OP names (R90, R195) -/

theorem eq_byteOf_iff {n : Nat} (small : n < 256) (b : Byte) : b = byteOf n ↔ b.toNat = n := by
  rw [← BitVec.toNat_inj, toNat_byteOf small]

section
variable {pages : Nat} {f : OpFields}

theorem opForm_ping : OpForm pages [0] f ↔ f = .ping := by
  simp [OpForm]

theorem opForm_setProfile (n k : Byte) : OpForm pages [1, n, k] f ↔
    (Profile.mk n.toNat k.toNat).valid = true ∧ f = .setProfile ⟨n.toNat, k.toNat⟩ := by
  constructor
  · rintro (⟨⟨⟩, -⟩ | ⟨i, j, ok, e, rfl⟩ | ⟨m, ⟨⟩, -⟩ | ⟨g, -, -, ⟨⟩, -⟩)
    have small : i ≤ 16 ∧ j < i := by
      obtain ⟨period, phase⟩ := (Profile.valid_iff _).1 ok
      dsimp only at period phase
      omega
    obtain ⟨rfl, rfl⟩ : n = byteOf i ∧ k = byteOf j := by simpa using e
    rw [toNat_byteOf (by omega), toNat_byteOf (by omega)]
    exact ⟨ok, rfl⟩
  · rintro ⟨ok, rfl⟩
    exact .inr (.inl ⟨_, _, ok, by rw [byteOf_toNat, byteOf_toNat], rfl⟩)

theorem opForm_setMode (b : Byte) : OpForm pages [2, b] f ↔ ∃ m : DisplayMode, b.toNat = m.code ∧ f = .setMode m := by
  have code (m : DisplayMode) : b = byteOf m.code ↔ b.toNat = m.code :=
    eq_byteOf_iff (by cases m <;> decide) b
  simp [OpForm, code]

theorem opForm_showPage (b : Byte) : OpForm pages [3, b] f ↔ b.toNat < pages ∧ f = .showPage b.toNat := by
  constructor
  · rintro (⟨⟨⟩, -⟩ | ⟨i, j, -, ⟨⟩, -⟩ | ⟨m, ⟨⟩, -⟩ | ⟨g, page, small, e, rfl⟩)
    obtain rfl : b = byteOf g := by simpa using e
    rw [toNat_byteOf small]
    exact ⟨page, rfl⟩
  · rintro ⟨page, rfl⟩
    exact .inr (.inr (.inr ⟨_, page, b.isLt, by rw [byteOf_toNat], rfl⟩))

end

/-- The payload check leaves each operation kind its own number of bytes (R182, R195). -/
theorem payloadOk_labelOp {a : Byte} {bytes : List Byte} (ok : payloadOk .labelOp (a :: bytes) = true)
    (kind : (byteAt bytes 0).toNat ≤ 3) :
    bytes = [0] ∨ (∃ n k, bytes = [1, n, k]) ∨ (∃ m, bytes = [2, m]) ∨ ∃ g, bytes = [3, g] := by
  have second : byteAt (a :: bytes) 1 = byteAt bytes 0 := rfl
  have kinds : byteAt bytes 0 = 0 ∨ byteAt bytes 0 = 1 ∨ byteAt bytes 0 = 2 ∨ byteAt bytes 0 = 3 := by
    bv_omega
  unfold payloadOk at ok
  simp only [second, List.length_cons, Bool.and_eq_true] at ok
  obtain ⟨-, length⟩ := ok
  rcases kinds with e | e | e | e <;> rw [e] at length
  · obtain ⟨x, rfl⟩ := List.length_eq_one_iff.1 (Nat.succ.inj (beq_iff_eq.1 length))
    obtain rfl : x = 0 := e
    exact .inl rfl
  · obtain ⟨x, n, k, rfl⟩ := List.length_eq_three.1 (Nat.succ.inj (beq_iff_eq.1 length))
    obtain rfl : x = 1 := e
    exact .inr (.inl ⟨n, k, rfl⟩)
  · obtain ⟨x, m, rfl⟩ := List.length_eq_two.1 (Nat.succ.inj (beq_iff_eq.1 length))
    obtain rfl : x = 2 := e
    exact .inr (.inr (.inl ⟨m, rfl⟩))
  · obtain ⟨x, g, rfl⟩ := List.length_eq_two.1 (Nat.succ.inj (beq_iff_eq.1 length))
    obtain rfl : x = 3 := e
    exact .inr (.inr (.inr ⟨g, rfl⟩))

theorem labelOp_length {p : List Byte} (ok : payloadOk .labelOp p = true) : p.length ≤ 4 := by
  unfold payloadOk at ok
  simp only [Bool.and_eq_true, decide_eq_true_iff] at ok
  exact ok.1.2

theorem opFieldsOf_iff {a : Byte} {bytes : List Byte} (ok : payloadOk .labelOp (a :: bytes) = true)
    (kind : (byteAt bytes 0).toNat ≤ 3) (pages : Nat) (f : OpFields) :
    opFieldsOf pages (a :: bytes) = some f ↔ OpForm pages bytes f := by
  rcases payloadOk_labelOp ok kind with rfl | ⟨n, k, rfl⟩ | ⟨m, rfl⟩ | ⟨g, rfl⟩
  · rw [opForm_ping, eq_comm (a := f)]
    exact Option.some_inj
  · rw [opForm_setProfile, eq_comm (a := f)]
    exact Option.ite_none_right_eq_some.trans (and_congr_right' Option.some_inj)
  · rw [opForm_setMode]
    show (displayModeOf m.toNat).map OpFields.setMode = some f ↔ _
    simp [Option.map_eq_some_iff, displayModeOf_iff, eq_comm (a := f)]
  · rw [opForm_showPage, eq_comm (a := f)]
    exact Option.ite_none_right_eq_some.trans (and_congr_right' Option.some_inj)

/-! ## LABEL_OP (R90) -/

theorem takesWork_not (p : Phase) : p.takesWork = !p.isReleasing := by
  cases p <;> rfl

theorem exec_labelOp {s : State} {tag : Byte} {p : List Byte} (h : Ready s) (ok : payloadOk .labelOp p = true) :
    exec (.labelOp tag p) s = .next (((s.inHand ⟨0x13, tag, p⟩).doLabelOp p).state.reply 0x13 tag
      ((s.inHand ⟨0x13, tag, p⟩).doLabelOp p).status ((s.inHand ⟨0x13, tag, p⟩).doLabelOp p).result) :=
  taken h (f := ⟨0x13, tag, p⟩) (k := .labelOp) (by rfl) ok ((labelOp_length ok).trans (by decide))

section
variable {s : State} {a : Byte} {bytes : List Byte} {l : Label}

theorem doLabelOp_badField (out : addressInRange a.toNat = false) : s.doLabelOp (a :: bytes) = s.refuse .badField :=
  if_pos (congrArg Bool.not out)

theorem doLabelOp_badKind (r : addressInRange a.toNat = true) (bad : 3 < (byteAt bytes 0).toNat) :
    s.doLabelOp (a :: bytes) = s.refuse .badField :=
  (if_neg (by rw [show byteAt (a :: bytes) 0 = a from rfl, r]; decide)).trans (if_pos bad)

/-- Past the checks of the address and the kind, the entry decides (R90). -/
theorem doLabelOp_entry (r : addressInRange a.toNat = true) (kind : (byteAt bytes 0).toNat ≤ 3) :
    s.doLabelOp (a :: bytes) = match s.label? a.toNat with
      | none => s.refuse .wrongState
      | some l =>
        if l.phase.takesWork then
          match opFieldsOf l.capabilities.pageCount (a :: bytes) with
          | some f => s.queueOperation a.toNat l f
          | none => s.refuse .badField
        else s.refuse .wrongState :=
  (if_neg (by rw [show byteAt (a :: bytes) 0 = a from rfl, r]; decide)).trans (if_neg (Nat.not_lt.2 kind))

theorem doLabelOp_wrongState (r : addressInRange a.toNat = true) (kind : (byteAt bytes 0).toNat ≤ 3)
    (leaving : ∀ l, s.entry a.toNat = .label l → l.phase.isReleasing = true) :
    s.doLabelOp (a :: bytes) = s.refuse .wrongState := by
  rw [doLabelOp_entry r kind]
  cases e : s.label? a.toNat with
  | none => rfl
  | some l => simp [takesWork_not, leaving l (label_entry e)]

theorem doLabelOp_badForm (kind : (byteAt bytes 0).toNat ≤ 3) (e : s.entry a.toNat = .label l)
    (stays : l.phase.isReleasing = false) (bad : opFieldsOf l.capabilities.pageCount (a :: bytes) = none) :
    s.doLabelOp (a :: bytes) = s.refuse .badField := by
  rw [doLabelOp_entry (label_inRange e) kind, entry_label e]
  simp [takesWork_not, stays, bad]

theorem doLabelOp_queues {f : OpFields} (kind : (byteAt bytes 0).toNat ≤ 3) (e : s.entry a.toNat = .label l)
    (stays : l.phase.isReleasing = false) (form : opFieldsOf l.capabilities.pageCount (a :: bytes) = some f) :
    s.doLabelOp (a :: bytes) = s.queueOperation a.toNat l f := by
  rw [doLabelOp_entry (label_inRange e) kind, entry_label e]
  simp [takesWork_not, stays, form]

end

/-- Settles O48: the checks in their order, and then the queue with or without an operation of the kind. -/
theorem labelOpIsQueuedOrReplaces : Obligations.LabelOpIsQueuedOrReplaces := by
  unfold Obligations.LabelOpIsQueuedOrReplaces
  rintro tag a bytes s u h ok hu
  rw [exec_labelOp h ok, ← hu]
  have eu : u.entry a.toNat = s.entry a.toNat := by rw [hu]; rfl
  have now : u.timebase.stamp = s.timebase.stamp := by rw [hu]; rfl
  refine ⟨fun out => ?address, fun low high => ⟨fun bad => ?kind, fun kind => ⟨fun leaving => ?state,
    fun l e stays => ⟨fun bad => ?form, fun f form => ⟨fun new => ?new,
      fun before o behind queue same others => ?replaced⟩⟩⟩⟩⟩
  case address =>
    rw [doLabelOp_badField (addressInRange_out out)]
    rfl
  case kind =>
    rw [doLabelOp_badKind (addressInRange_iff.2 ⟨low, high⟩) bad]
    rfl
  case state =>
    rw [doLabelOp_wrongState (addressInRange_iff.2 ⟨low, high⟩) kind (eu ▸ leaving)]
    rfl
  case form =>
    have unnamed := Option.eq_none_iff_forall_ne_some.2 fun f x => bad f ((opFieldsOf_iff ok kind _ f).1 x)
    rw [doLabelOp_badForm kind (eu.trans e) stays unnamed]
    rfl
  case new =>
    rw [doLabelOp_queues kind (eu.trans e) stays ((opFieldsOf_iff ok kind _ f).2 form),
      queueOperation_new (eu.trans e) new, now]
    rfl
  case replaced =>
    rw [doLabelOp_queues kind (eu.trans e) stays ((opFieldsOf_iff ok kind _ f).2 form),
      queueOperation_replaces (eu.trans e) queue same others]
    rfl

/-! ## An unanswered send (R79, R97) -/

theorem unansweredProfile_eq (l : Label) (w : OpenSend) : { l.unansweredProfile w with openSend := none } = { l with
    openSend := none
    profileState := (match w.fields with
      | .setProfile p => if l.phase.isJoining = true ∨ w.echoed = true then l.profileState else .uncertain p
      | _ => l.profileState) } := by
  have states : l.phase.mayBeUncertain = !l.phase.isJoining := by
    cases l.phase <;> rfl
  unfold Label.unansweredProfile
  rw [states]
  cases w.fields with
  | setProfile p => cases l.phase.isJoining <;> cases w.echoed <;> rfl
  | _ => rfl

section
variable {l : Label} {k : OpKind} {before behind : List Operation} {o : Operation}

theorem attemptsOf_one (queue : l.queue = before ++ o :: behind) (kind : o.kind = k)
    (ahead : ∀ x ∈ before, x.kind ≠ k) : l.attemptsOf k = o.attempts := by
  unfold Label.attemptsOf
  rw [queue, find_ofKind kind ahead]

theorem chargeAttempt_one (queue : l.queue = before ++ o :: behind) (kind : o.kind = k)
    (others : ∀ x ∈ before ++ behind, x.kind ≠ k) : l.chargeAttempt k =
      { l with queue := before ++ { o with attempts := o.attempts + 1 } :: behind } := by
  unfold Label.chargeAttempt
  rw [queue, map_ofKind kind others]

theorem dequeue_one (queue : l.queue = before ++ o :: behind) (kind : o.kind = k)
    (others : ∀ x ∈ before ++ behind, x.kind ≠ k) : l.dequeue k = { l with queue := before ++ behind } := by
  unfold Label.dequeue
  rw [queue, filter_notOfKind kind others]

end

section
variable {s : State} {a : Nat} {l m : Label} {w : OpenSend}

theorem sendUnanswered_detached (e : s.entry a = .label l)
    (ended : { l.unansweredProfile w with openSend := none } = m) (detached : w.attached = false) :
    s.sendUnanswered a w = s.setEntry a (.label m) := by
  unfold State.sendUnanswered
  rw [updateLabel_setEntry e, ended, detached]
  rfl

/-- An attached send uses an attempt of its operation, and at the op attempts setting the operation fails. -/
theorem sendUnanswered_attached (e : s.entry a = .label l)
    (ended : { l.unansweredProfile w with openSend := none } = m) (attached : w.attached = true) :
    s.sendUnanswered a w = if s.config.opAttempts ≤ m.attemptsOf w.fields.kind + 1 then
      (s.setEntry a (.label (m.dequeue w.fields.kind))).post (.opFailed a w.fields.kind .noAnswer)
    else s.setEntry a (.label (m.chargeAttempt w.fields.kind)) := by
  have held := entry_setEntry_same (s := s) (entry_range (s := s) (a := a) (by rw [e]; simp)) (.label m)
  unfold State.sendUnanswered
  rw [updateLabel_setEntry e, ended, if_pos attached]
  dsimp only
  rw [entry_label held]
  dsimp only
  rw [updateLabel_setEntry held, updateLabel_setEntry held, setEntry_setEntry, setEntry_setEntry]

end

/-! ## The end of a reply window (R13, R97) -/

section
variable {s : State}

theorem exec_replyWindowEnd (h : s.held = false) : exec .replyWindowEnd s = .next s.replyWindowEnd.choose :=
  live_next h _

theorem windowHeldOpen_iff (s : State) : s.windowHeldOpen = true ↔ ∃ d a, s.dataSlot = some d
    ∧ s.receiver.assembly = some a ∧ a.window = some (.reply d.slot) := by
  unfold State.windowHeldOpen
  cases s.dataSlot <;> cases s.receiver.assembly <;> simp

theorem replyWindowEnd_noSlot (h : s.dataSlot = none) : s.replyWindowEnd = s := by
  unfold State.replyWindowEnd State.takeWindowEnd
  rw [h]
  exact ite_self _

variable {d : DataSlot} {a slot : Nat} {l : Label} {w : OpenSend}

theorem replyWindowEnd_idle (h : s.dataSlot = some d) (idle : d.endDue = false ∨ s.windowHeldOpen = true) :
    s.replyWindowEnd = s := by
  unfold State.replyWindowEnd State.takeWindowEnd
  rcases idle with idle | idle
  · rw [h]
    dsimp only
    rw [idle]
    exact ite_self _
  · exact if_pos idle

theorem replyWindowEnd_due {u : State} (h : s.dataSlot = some d)
    (hu : u = { s with dataSlot := some { d with windowOpen := false, endDue := false } }) (due : d.endDue = true)
    (closed : s.windowHeldOpen = false) : s.replyWindowEnd = u.windowSend d.place.address d.slot := by
  subst hu
  unfold State.replyWindowEnd State.takeWindowEnd
  rw [closed, h]
  dsimp only
  rw [due]
  rfl

theorem windowSend_unheld (e : ∀ l, s.entry a ≠ .label l) : s.windowSend a slot = s := by
  unfold State.windowSend
  rw [label_none e]

theorem windowSend_otherSlot (e : s.entry a = .label l) (other : ∀ x, l.openSend = some x → x.slot ≠ slot) :
    s.windowSend a slot = s := by
  unfold State.windowSend
  rw [entry_label e]
  dsimp only
  cases send : l.openSend with
  | none => rfl
  | some x => exact if_neg (other x send)

theorem windowSend_open (e : s.entry a = .label l) (send : l.openSend = some w) (own : w.slot = slot) :
    s.windowSend a slot = s.sendUnanswered a w := by
  unfold State.windowSend
  rw [entry_label e]
  dsimp only
  rw [send]
  exact if_pos own

end

/-- Settles O49: nothing to end, an entry that holds no fields, and the open send of the slot, detached or charged. -/
theorem unansweredSendUsesAnAttempt : Obligations.UnansweredSendUsesAnAttempt := by
  unfold Obligations.UnansweredSendUsesAnAttempt
  refine ⟨fun s h free => ?noSlot, windowHeldOpen_iff, ?unheld, ?label⟩
  case noSlot => rw [exec_replyWindowEnd h, replyWindowEnd_noSlot free]
  case unheld =>
    intro s u d h data e hu
    rw [exec_replyWindowEnd h]
    refine ⟨fun idle => by rw [replyWindowEnd_idle data idle], fun due closed => ?_⟩
    have eu : ∀ l, u.entry d.place.address ≠ .label l := by rw [hu]; exact e
    rw [replyWindowEnd_due data hu due closed, windowSend_unheld eu]
  case label =>
    rintro s u d l m w a h data rfl e hu
    rw [exec_replyWindowEnd h]
    refine ⟨fun idle => by rw [replyWindowEnd_idle data idle], fun due closed => ?_⟩
    have eu : u.entry d.place.address = .label l := by rw [hu]; exact e
    have limit : u.config = s.config := by rw [hu]
    rw [replyWindowEnd_due data hu due closed]
    refine ⟨fun other => by rw [windowSend_otherSlot eu other], fun send own hm => ?_⟩
    have ended := (unansweredProfile_eq l w).trans hm.symm
    rw [windowSend_open eu send own]
    refine ⟨fun detached => by rw [sendUnanswered_detached eu ended detached],
      fun before o behind attached queue kind others => ?_⟩
    have queue : m.queue = before ++ o :: behind := by rw [hm]; exact queue
    rw [sendUnanswered_attached eu ended attached, limit,
      attemptsOf_one queue kind (List.forall_mem_append.1 others).1]
    refine ⟨fun left => ?_, fun last => ?_⟩
    · rw [if_neg (not_le.2 left), chargeAttempt_one queue kind others]
    · rw [if_pos last, dequeue_one queue kind others]

end Sys2Proof.Machine

/-! PROOFS. The record that a page command's handle names, and PAGE_PIN, PAGE_UNPIN and PAGE_REQUEUE (R122 to R124): a
mark is set or cleared, and a STALLED record becomes READY again. -/

namespace Sys2Proof.Machine

/-! ## The record that a handle names -/

section
variable {s : State} {h : Nat} {r : Record}

theorem named_badField (out : 128 ≤ h) : s.named h = .error .badField := if_pos out

theorem named_noRecord (slot : h < 128) (gone : s.record h = none ∨ ∃ r, s.record h = some r ∧ r.state = .void) :
    s.named h = .error .noRecord := by
  have slot : ¬ Config.recordSlots ≤ h := Nat.not_le.2 slot
  unfold State.named
  rw [if_neg slot]
  rcases gone with free | ⟨r, used, void⟩
  · rw [free]
  · rw [used]
    exact if_pos void

theorem named_of_record (e : s.record h = some r) (present : r.state ≠ .void) : s.named h = .ok r := by
  have slot : ¬ Config.recordSlots ≤ h := Nat.not_le.2 (record_lt e)
  unfold State.named
  rw [if_neg slot, e]
  exact if_neg present

theorem byteAt_head (b : Byte) (p : List Byte) : byteAt (b :: p) 0 = b := rfl

end

/-! ## The pinned count (R122) -/

/-- The handles of the pinned records. -/
def State.pinnedHandles (s : State) : List Nat := handles.filter fun h => (s.record h).any Record.pinned

theorem pinnedCount_eq (s : State) : s.pinnedCount = s.pinnedHandles.length := by
  unfold State.pinnedCount State.pinnedHandles
  congr 2
  funext h
  cases s.record h <;> rfl

section
variable {s : State} {h : Nat} {r : Record}

theorem pinnedHandles_unpin (e : s.record h = some r) :
    (s.setRecord h (some { r with pinned := false })).pinnedHandles = s.pinnedHandles.erase h := by
  have once : s.pinnedHandles.Nodup := List.Nodup.filter _ List.nodup_range
  rw [once.erase_eq_filter]
  unfold State.pinnedHandles
  rw [List.filter_filter]
  refine List.filter_congr fun k _ => ?_
  rw [record_set (record_lt e)]
  by_cases same : k = h <;> simp [same]

/-- A pinned record that is unpinned is one pinned record less. -/
theorem pinnedCount_unpin (e : s.record h = some r) (pinned : r.pinned = true) :
    (s.setRecord h (some { r with pinned := false })).pinnedCount + 1 = s.pinnedCount := by
  have counted : h ∈ s.pinnedHandles := List.mem_filter.2 ⟨List.mem_range.2 (record_lt e), by simp [e, pinned]⟩
  rw [pinnedCount_eq, pinnedCount_eq, pinnedHandles_unpin e, List.length_erase_of_mem counted,
    Nat.sub_add_cancel (List.length_pos_of_mem counted)]

end

/-! ## What each command answers -/

section
variable {s : State} {hb : Byte} {r : Record} {why : Status}

theorem doPagePin_refused (e : s.named hb.toNat = .error why) : s.doPagePin [hb] = s.refuse why := by
  simp only [State.doPagePin, byteAt_head, e]

theorem doPagePin_record (e : s.named hb.toNat = .ok r) : s.doPagePin [hb] =
    if r.pinned then s.accept []
    else if Config.maxPinned ≤ s.pinnedCount then s.refuse .pinLimit
    else (s.pin hb.toNat r).accept [] := by
  simp only [State.doPagePin, byteAt_head, e]

theorem doPageUnpin_refused (e : s.named hb.toNat = .error why) : s.doPageUnpin [hb] = s.refuse why := by
  simp only [State.doPageUnpin, byteAt_head, e]

theorem doPageUnpin_record (e : s.named hb.toNat = .ok r) : s.doPageUnpin [hb] =
    if r.pinned then (s.unpin hb.toNat r).accept [] else s.accept [] := by
  simp only [State.doPageUnpin, byteAt_head, e]

theorem unpin_eq (s : State) (h : Nat) (r : Record) : s.unpin h r =
    (s.setRecord h (some { r with pinned := false })).setHeldOrder
      (if r.state = .held then s.store.heldOrder ++ [h] else s.store.heldOrder) := by
  unfold State.unpin
  split <;> rfl

theorem doPageRequeue_refused (e : s.named hb.toNat = .error why) : s.doPageRequeue [hb] = s.refuse why := by
  simp only [State.doPageRequeue, byteAt_head, e]

theorem doPageRequeue_damaged (e : s.named hb.toNat = .ok r) (damaged : r.damaged = true) :
    s.doPageRequeue [hb] = s.refuse .damaged := by
  simp only [State.doPageRequeue, byteAt_head, e, damaged, if_true]

theorem doPageRequeue_wrongState (e : s.named hb.toNat = .ok r) (whole : r.damaged = false)
    (other : ∀ c, r.state ≠ .stalled c) : s.doPageRequeue [hb] = s.refuse .wrongState := by
  simp only [State.doPageRequeue, byteAt_head, e, whole, Bool.false_eq_true, if_false]
  split
  · rename_i c k
    exact absurd k (other c)
  all_goals rfl

theorem doPageRequeue_stalled {c : StallCause} (e : s.named hb.toNat = .ok r) (whole : r.damaged = false)
    (k : r.state = .stalled c) : s.doPageRequeue [hb] =
      State.accept (s.setRecord hb.toNat (some { r with state := .ready, readyStamp := some s.stamp })) [] := by
  simp only [State.doPageRequeue, byteAt_head, e, whole, k, Bool.false_eq_true, if_false]

end

/-! ## PAGE_PIN, PAGE_UNPIN and PAGE_REQUEUE -/

section
variable {s : State} {tag hb : Byte} {x : Answer}

theorem exec_pagePin (ready : Ready s) (e : (s.inHand ⟨0x24, tag, [hb]⟩).doPagePin [hb] = x) :
    exec (.pagePin tag [hb]) s = .next (x.state.reply 0x24 tag x.status x.result) := by
  subst e
  exact taken ready (f := ⟨0x24, tag, [hb]⟩) (k := .pagePin) (by rfl) (by rfl) (Nat.le_of_ble_eq_true rfl)

theorem exec_pageUnpin (ready : Ready s) (e : (s.inHand ⟨0x25, tag, [hb]⟩).doPageUnpin [hb] = x) :
    exec (.pageUnpin tag [hb]) s = .next (x.state.reply 0x25 tag x.status x.result) := by
  subst e
  exact taken ready (f := ⟨0x25, tag, [hb]⟩) (k := .pageUnpin) (by rfl) (by rfl) (Nat.le_of_ble_eq_true rfl)

theorem exec_pageRequeue (ready : Ready s) (e : (s.inHand ⟨0x26, tag, [hb]⟩).doPageRequeue [hb] = x) :
    exec (.pageRequeue tag [hb]) s = .next (x.state.reply 0x26 tag x.status x.result) := by
  subst e
  exact taken ready (f := ⟨0x26, tag, [hb]⟩) (k := .pageRequeue) (by rfl) (by rfl) (Nat.le_of_ble_eq_true rfl)

end

/-- Settles O58: the handle first, and then the mark of the record it names, or its return to READY. -/
theorem pinUnpinAndRequeueMarkTheRecord : Obligations.PinUnpinAndRequeueMarkTheRecord := by
  unfold Obligations.PinUnpinAndRequeueMarkTheRecord
  rintro tag hb h s u v w ready rfl rfl rfl rfl
  have refused {why : Status} (e : s.named hb.toNat = .error why) :
      exec (.pagePin tag [hb]) s = .next ((s.inHand ⟨0x24, tag, [hb]⟩).reply 0x24 tag why [])
      ∧ exec (.pageUnpin tag [hb]) s = .next ((s.inHand ⟨0x25, tag, [hb]⟩).reply 0x25 tag why [])
      ∧ exec (.pageRequeue tag [hb]) s = .next ((s.inHand ⟨0x26, tag, [hb]⟩).reply 0x26 tag why []) :=
    ⟨exec_pagePin ready (doPagePin_refused e), exec_pageUnpin ready (doPageUnpin_refused e),
      exec_pageRequeue ready (doPageRequeue_refused e)⟩
  refine ⟨fun out => refused (named_badField out), fun slot gone => refused (named_noRecord slot gone),
    fun r e present => ?_⟩
  have named : s.named hb.toNat = .ok r := named_of_record e present
  have pin := exec_pagePin (tag := tag) ready (doPagePin_record named)
  have unpin := exec_pageUnpin (tag := tag) ready (doPageUnpin_record named)
  refine ⟨fun pinned => ?pinned, fun free full => ?full, fun free room => ?pins, fun free => ?unpinned,
    fun pinned => ?unpins, pinnedCount_unpin e,
    fun damaged => exec_pageRequeue ready (doPageRequeue_damaged named damaged),
    fun whole other => exec_pageRequeue ready (doPageRequeue_wrongState named whole other),
    fun c whole stalled => exec_pageRequeue ready (doPageRequeue_stalled named whole stalled)⟩
  case pinned =>
    rw [if_pos pinned] at pin
    exact pin
  case full =>
    have limit : Config.maxPinned ≤ (s.inHand ⟨0x24, tag, [hb]⟩).pinnedCount := full
    rw [free, if_neg Bool.false_ne_true, if_pos limit] at pin
    exact pin
  case pins =>
    have limit : ¬ Config.maxPinned ≤ (s.inHand ⟨0x24, tag, [hb]⟩).pinnedCount := Nat.not_le.2 room
    rw [free, if_neg Bool.false_ne_true, if_neg limit] at pin
    exact pin
  case unpinned =>
    rw [free, if_neg Bool.false_ne_true] at unpin
    exact unpin
  case unpins =>
    rw [if_pos pinned, unpin_eq] at unpin
    exact unpin

end Sys2Proof.Machine

/-! PROOFS. PAGE_DATA (R112): each byte stands at its offset in the record's blocks with its parity (R104), and no other
byte of the store changes. -/

namespace Sys2Proof.Machine

/-! ## Where a byte offset lies (R104) -/

section
variable {r : Record} {o c k : Nat}

theorem byteAddress_of_block (bound : ∀ b ∈ r.blocks, b < Config.storeBlocks) (block : r.blocks[o / 256]? = some k) :
    r.byteAddress o = some (k * 256 + o % 256) := by
  have block : r.blocks[o / Config.blockBytes]? = some k := block
  unfold Record.byteAddress
  rw [block]
  exact if_pos (bound k (List.mem_of_getElem? block))

theorem byteAddress_some (e : r.byteAddress o = some c) : ∃ k, r.blocks[o / 256]? = some k ∧ c = k * 256 + o % 256 := by
  unfold Record.byteAddress at e
  split at e
  · rename_i k block
    exact ⟨k, block, (Option.some.inj (Option.ite_none_right_eq_some.1 e).2).symm⟩
  · cases e

/-- No two offsets of a page lie at one address. -/
theorem byteAddress_inj (once : r.blocks.Nodup) {x y : Nat} (ex : r.byteAddress x = some c)
    (ey : r.byteAddress y = some c) : x = y := by
  obtain ⟨i, xi, cx⟩ := byteAddress_some ex
  obtain ⟨j, yj, cy⟩ := byteAddress_some ey
  obtain rfl : i = j := by omega
  have position : x / 256 = y / 256 :=
    (List.getElem?_inj (List.getElem?_eq_some_iff.1 xi).1 once).1 (xi.trans yj.symm)
  omega

/-- The blocks of one record are among the store's, none twice (R104). -/
theorem BlocksOk.record {s : State} (ok : BlocksOk s) {h : Nat} (e : s.record h = some r) :
    r.blocks.Nodup ∧ ∀ b ∈ r.blocks, b < Config.storeBlocks := by
  obtain ⟨once, bound⟩ := ok
  have m : h ∈ handles := List.mem_range.2 (record_lt e)
  have slot : slotBlocks (s.record h) = r.blocks := by
    rw [e]
    rfl
  rw [usedBlocks_eq] at once bound
  exact ⟨slot ▸ (List.nodup_flatMap.1 once).1 h m, fun b k => bound b (List.mem_flatMap.2 ⟨h, m, slot ▸ k⟩)⟩

end

/-! ## A page write, byte by byte -/

theorem storeParity_write_same {s : State} (h : StoreOk s.store) (a : Nat) (b : Byte) :
    (s.writeStoreByte a b).storeParity a = parityOf b := read_write_same _ h.2.1 a (parityOf b)

theorem storeParity_write_other (s : State) {a c : Nat} (b : Byte) (hc : c ≠ a) :
    (s.writeStoreByte a b).storeParity c = s.storeParity c := read_write_other _ _ (parityOf b) hc

/-- An address that no offset of the write names keeps its parity bit. -/
theorem writePage_otherParity (r : Record) (data : List Byte) (o : Nat) (s : State) {c : Nat}
    (unnamed : ∀ i < data.length, r.byteAddress (o + i) ≠ some c) :
    (State.writePage r o data s).storeParity c = s.storeParity c := by
  induction data generalizing o s with
  | nil => rfl
  | cons b data ih =>
    have first : r.byteAddress o ≠ some c := unnamed 0 (Nat.zero_lt_succ _)
    unfold State.writePage
    rw [ih (o + 1)]
    · split
      · rename_i a block
        exact storeParity_write_other s b fun same => first (same ▸ block)
      · rfl
    · intro i lt
      rw [Nat.add_right_comm]
      exact unnamed (i + 1) (Nat.succ_lt_succ lt)

/-- Each byte of a page write reads back at its offset, with its parity. -/
theorem writePage_written {r : Record} (once : r.blocks.Nodup) {data : List Byte} {o i c : Nat} {x : Byte} {s : State}
    (ok : StoreOk s.store) (byte : data[i]? = some x) (place : r.byteAddress (o + i) = some c) :
    (State.writePage r o data s).storeByte c = x ∧ (State.writePage r o data s).storeParity c = parityOf x := by
  induction data generalizing o i s with
  | nil => cases byte
  | cons b data ih =>
    unfold State.writePage
    cases i with
    | zero =>
      obtain rfl : b = x := Option.some.inj byte
      have later : ∀ i < data.length, r.byteAddress (o + 1 + i) ≠ some c := fun i _ named => by
        have same := byteAddress_inj once place named
        omega
      have place : r.byteAddress o = some c := place
      rw [place, writePage_other r data (o + 1) _ later, writePage_otherParity r data (o + 1) _ later]
      exact ⟨storeByte_write_same ok c b, storeParity_write_same ok c b⟩
    | succ i =>
      refine ih ?_ byte (by rw [Nat.add_right_comm]; exact place)
      split
      · exact writeStoreByte_ok ok _ _
      · exact ok

/-! ## What the command does to the record -/

section
variable {s : State} {h o : Nat} {r : Record} {w : List Nat} {data : List Byte}

theorem writeData_record (lt : h < 128) (k : Nat) : (s.writeData h r w o data).record k = if k = h then
    some { r with state := .filling (setUnion (writtenOffsets o data.length) w) } else s.record k := by
  unfold State.writeData
  rw [record_set lt, writePage_record]

theorem writeData_rest (s : State) (h : Nat) (r : Record) (w : List Nat) (o : Nat) (data : List Byte) :
    (s.writeData h r w o data).store.heldOrder = s.store.heldOrder
      ∧ { s.writeData h r w o data with store := s.store } = s := by
  unfold State.writeData
  rw [writePage_frame]
  exact ⟨rfl, rfl⟩

theorem mem_written (x : Nat) : x ∈ setUnion (writtenOffsets o data.length) w ↔
    x ∈ w ∨ (o ≤ x ∧ x < o + data.length) := by
  rw [mem_setUnion, writtenOffsets, List.mem_range'_1, or_comm]

end

/-! ## PAGE_DATA -/

/-- The payload of a PAGE_DATA (R195): handle, offset, count and data. -/
def dataPayload (hb lo hi : Byte) (data : List Byte) : List Byte := [hb, lo, hi, byteOf data.length] ++ data

section
variable {s : State} {hb lo hi : Byte} {data : List Byte} {r : Record}

theorem dataPayload_fields (hb lo hi : Byte) (data : List Byte) : byteAt (dataPayload hb lo hi data) 0 = hb
    ∧ fieldAt (dataPayload hb lo hi data) 1 2 = lo.toNat + 256 * hi.toNat
    ∧ (dataPayload hb lo hi data).drop 4 = data := ⟨rfl, rfl, rfl⟩

theorem doPageData_refused {why : Status} (e : s.named hb.toNat = .error why) :
    s.doPageData (dataPayload hb lo hi data) = s.refuse why := by
  obtain ⟨handle, -, -⟩ := dataPayload_fields hb lo hi data
  simp only [State.doPageData, handle, e]

theorem doPageData_wrongState (e : s.named hb.toNat = .ok r) (other : r.state.isFilling = false) :
    s.doPageData (dataPayload hb lo hi data) = s.refuse .wrongState := by
  obtain ⟨handle, -, -⟩ := dataPayload_fields hb lo hi data
  simp only [State.doPageData, handle, e]
  split
  · rename_i w k
    rw [k] at other
    cases other
  all_goals rfl

theorem doPageData_filling {w : List Nat} (e : s.named hb.toNat = .ok r) (k : r.state = .filling w) :
    s.doPageData (dataPayload hb lo hi data) =
      if r.length < lo.toNat + 256 * hi.toNat + data.length then s.refuse .badField
      else (s.writeData hb.toNat r w (lo.toNat + 256 * hi.toNat) data).accept [] := by
  obtain ⟨handle, offset, bytes⟩ := dataPayload_fields hb lo hi data
  simp only [State.doPageData, handle, offset, bytes, e, k]

theorem dataPayload_ok (nonempty : 1 ≤ data.length) (most : data.length ≤ 192) :
    payloadOk .pageData (dataPayload hb lo hi data) = true ∧ (dataPayload hb lo hi data).length ≤ 200 := by
  have count : (byteAt (dataPayload hb lo hi data) 3).toNat = data.length := toNat_byteOf (by omega)
  have length : (dataPayload hb lo hi data).length = 4 + data.length := by
    rw [dataPayload, List.length_append]
    rfl
  unfold payloadOk
  simp only [count, length, Bool.and_eq_true, decide_eq_true_eq, beq_self_eq_true, and_true]
  omega

theorem exec_pageData {tag : Byte} {p : List Byte} {x : Answer} (ready : Ready s) (ok : payloadOk .pageData p = true)
    (short : p.length ≤ 200) (e : (s.inHand ⟨0x21, tag, p⟩).doPageData p = x) :
    exec (.pageData tag p) s = .next (x.state.reply 0x21 tag x.status x.result) := by
  subst e
  exact taken ready (f := ⟨0x21, tag, p⟩) (k := .pageData) (by rfl) ok short

end

/-- Settles O56: the checks in their order, and then what a page write leaves at each address of the store. -/
theorem pageDataWritesItsBytesAlone : Obligations.PageDataWritesItsBytesAlone := by
  unfold Obligations.PageDataWritesItsBytesAlone
  rintro tag hb lo hi data o h s u p ready blocks store nonempty most rfl rfl rfl rfl
  obtain ⟨ok, short⟩ := dataPayload_ok (hb := hb) (lo := lo) (hi := hi) nonempty most
  have run {x : Answer} := exec_pageData (tag := tag) (x := x) ready ok short
  refine ⟨fun out => run (doPageData_refused (named_badField out)),
    fun slot gone => run (doPageData_refused (named_noRecord slot gone)),
    fun r e present other => run (doPageData_wrongState (named_of_record e present) other), fun r w e k => ?_⟩
  have named := named_of_record e (by rw [k]; simp)
  have answer := run (doPageData_filling named k)
  refine ⟨fun long => ?_, fun fits => ?_⟩
  · rw [if_pos long] at answer
    exact answer
  · rw [if_neg (Nat.not_lt.2 fits)] at answer
    obtain ⟨once, bound⟩ := blocks.record e
    obtain ⟨order, rest⟩ := writeData_rest (s.inHand ⟨0x21, tag, dataPayload hb lo hi data⟩) hb.toNat r w
      (lo.toNat + 256 * hi.toNat) data
    refine ⟨_, setUnion (writtenOffsets (lo.toNat + 256 * hi.toNat) data.length) w, answer, ?_, ?_, ?_, mem_written, ?_,
      order, rest⟩
    · intro i x byte k block
      exact writePage_written once store byte (byteAddress_of_block bound block)
    · intro c apart
      have unnamed : ∀ i < data.length, r.byteAddress (lo.toNat + 256 * hi.toNat + i) ≠ some c := fun i lt named => by
        obtain ⟨k, block, same⟩ := byteAddress_some named
        exact apart i k lt block same
      exact ⟨writePage_other r data _ _ unnamed, writePage_otherParity r data _ _ unnamed⟩
    · exact (writeData_record (record_lt e) _).trans (if_pos rfl)
    · exact fun j other => (writeData_record (record_lt e) j).trans (if_neg other)

end Sys2Proof.Machine

/-! PROOFS. PAGE_END and PAGE_DISCARD (R113 to R116, R170): a record is freed or cut by its state, and a FILLING record
with every offset written takes the place of the key's live record. -/

namespace Sys2Proof.Machine

/-! ## A record is discarded (R114 to R116) -/

section
variable {s : State} {h : Nat} {r : Record}

theorem discardIfOf_own (e : s.record h = some r) : State.discardIfOf r.address s h = s.discardRecord h := by
  unfold State.discardIfOf
  rw [e]
  exact if_pos rfl

/-- A discarded record goes as the records of its address do when they are removed. -/
theorem discardRecord_edited (e : s.record h = some r) : Edited h (s.removal r.address h) s (s.discardRecord h) :=
  discardIfOf_own e ▸ discardIfOf_edited r.address s h

theorem discardRecord_idle (e : s.record h = some r) (still : r.state ≠ .sending) (present : r.state ≠ .void) :
    s.discardRecord h = s.freeRecord h := by
  unfold State.discardRecord
  rw [e]
  dsimp only
  split
  · contradiction
  · contradiction
  all_goals rfl

theorem discardRecord_sending (e : s.record h = some r) (sending : r.state = .sending) :
    s.discardRecord h = s.cutRecord h := by
  unfold State.discardRecord
  rw [e]
  dsimp only
  rw [sending]

theorem discardRecord_onAir (e : s.record h = some r) (sending : r.state = .sending) (air : s.fragmentOnAir h = true) :
    s.discardRecord h = s.cutRequest.setRecord h (some { r with state := .void, pinned := false }) := by
  rw [discardRecord_sending e sending]
  unfold State.cutRecord State.updateRecord
  rw [if_pos air, cutRequest_record, e]

theorem discardRecord_offAir (e : s.record h = some r) (sending : r.state = .sending)
    (air : s.fragmentOnAir h = false) : s.discardRecord h = (s.freeRecord h).freeContextOf h :=
  (discardRecord_sending e sending).trans (if_neg (by simp [air]))

theorem freeContextOf_tied {i : Nat} (tied : s.contextOf h = some i) : s.freeContextOf h = s.setContext i none := by
  unfold State.freeContextOf
  rw [tied]

theorem freeContextOf_untied (untied : s.contextOf h = none) : s.freeContextOf h = s := by
  unfold State.freeContextOf
  rw [untied]

theorem fragmentOnAir_untied (untied : s.contextOf h = none) : s.fragmentOnAir h = false := by
  unfold State.fragmentOnAir
  rw [untied]

theorem discardRecord_tied {i : Nat} (e : s.record h = some r) (sending : r.state = .sending)
    (air : s.fragmentOnAir h = false) (tied : s.contextOf h = some i) :
    s.discardRecord h = (s.freeRecord h).setContext i none :=
  (discardRecord_offAir e sending air).trans (freeContextOf_tied (s := s.freeRecord h) tied)

theorem discardRecord_untied (e : s.record h = some r) (sending : r.state = .sending) (untied : s.contextOf h = none) :
    s.discardRecord h = s.freeRecord h :=
  (discardRecord_offAir e sending (fragmentOnAir_untied untied)).trans
    (freeContextOf_untied (s := s.freeRecord h) untied)

theorem live_present {x : RecordState} (live : x.isLive = true) : x ≠ .void := not_void.2 (.inr live)

theorem contexts_of_context {s t : State} (same : ∀ i, t.context i = s.context i) : t.contexts = s.contexts := by
  ext1 i lt
  simpa [State.context, lt] using same i

/-- What a discarded live record leaves in its slot (R114, R116). -/
theorem discardRecord_record (e : s.record h = some r) (live : r.state.isLive = true) :
    (s.discardRecord h).record h = if r.state = .sending ∧ s.fragmentOnAir h = true
      then some { r with state := .void, pinned := false } else none := by
  rw [(discardRecord_edited e).records, if_pos rfl]
  by_cases sending : r.state = .sending
  · cases air : s.fragmentOnAir h with
    | true => simp [removal_onAir e rfl sending air, sending]
    | false => simp [removal_cut e rfl sending air]
  · simp [removal_idle e rfl sending (live_present live), sending]

/-- What becomes of the burst, the HELD order and the contexts, from `s` to `t`, as the live record `r` at a handle is
discarded (R107, R116, R170). -/
def Discarded (s t : State) (h : Nat) (r : Record) : Prop :=
  (r.state = .sending ∧ s.fragmentOnAir h = true → t.burst = s.cutRequest.burst
      ∧ t.contexts = s.contexts ∧ t.store.heldOrder = s.store.heldOrder)
    ∧ (r.state ≠ .sending ∨ s.fragmentOnAir h = false → t.burst = s.burst
      ∧ t.store.heldOrder = s.store.heldOrder.filter fun x => x != h)
    ∧ (r.state = .sending → s.fragmentOnAir h = false → ∀ i,
      t.context i = if s.contextOf h = some i then none else s.context i)
    ∧ (r.state ≠ .sending → t.contexts = s.contexts)

theorem discardRecord_live (e : s.record h = some r) (live : r.state.isLive = true) :
    Discarded s (s.discardRecord h) h r := by
  have E := discardRecord_edited e
  have idle (still : r.state ≠ .sending) := removal_idle e rfl still (live_present live)
  have cut (sending : r.state = .sending) (air : s.fragmentOnAir h = false) := removal_cut e rfl sending air
  refine ⟨fun ⟨sending, air⟩ => ?_, fun freed => ?_, fun sending air i => ?_, fun still => ?_⟩
  · rw [removal_onAir e rfl sending air] at E
    exact ⟨E.burst.trans (cutRequest_burst_eq s).symm, contexts_of_context fun i => by simpa using E.contexts i,
      E.order⟩
  · by_cases sending : r.state = .sending
    · rw [cut sending (freed.resolve_left fun still => still sending)] at E
      exact ⟨E.burst, E.order⟩
    · rw [idle sending] at E
      exact ⟨E.burst, E.order⟩
  · rw [cut sending air] at E
    simpa using E.contexts i
  · rw [idle still] at E
    exact contexts_of_context fun i => by simpa using E.contexts i

end

theorem Edited.labelFrame {s t : State} {h : Nat} {e : Edit} (E : Edited h e s t) (a : Nat) :
    LabelFrame a s t ∧ t.link = s.link :=
  have one : Edits (fun _ => e) [h] s t := .cons E List.not_mem_nil (.nil _ t)
  ⟨one.labelFrame a, one.link⟩

/-! ## The key's live record is superseded (R114) -/

section
variable {s : State} {a p h : Nat}

theorem supersede_none (no : s.liveOf a p = none) : s.supersede a p = s := by
  unfold State.supersede
  rw [no]

theorem supersede_live (live : s.liveOf a p = some h) : s.supersede a p = s.discardRecord h := by
  unfold State.supersede
  rw [live]

theorem liveOf_isLive {q : Record} (live : s.liveOf a p = some h) (e : s.record h = some q) :
    q.state.isLive = true := by
  obtain ⟨r, f, -, -, isLive⟩ := liveOf_some live
  rwa [Option.some.inj (e.symm.trans f)]

theorem supersede_other (n : s.liveOf a p ≠ some h) : (s.supersede a p).record h = s.record h := by
  cases live : s.liveOf a p with
  | none => rw [supersede_none live]
  | some k =>
    rw [supersede_live live]
    exact discardRecord_only s k h fun same => n (same ▸ live)

theorem supersede_frame (s : State) (a p b : Nat) : LabelFrame b s (s.supersede a p)
    ∧ (s.supersede a p).link = s.link ∧ (s.supersede a p).directory = s.directory := by
  cases live : s.liveOf a p with
  | none =>
    rw [supersede_none live]
    exact ⟨.refl b s, rfl, rfl⟩
  | some k =>
    obtain ⟨q, e, -⟩ := liveOf_some live
    obtain ⟨frame, link⟩ := (discardRecord_edited e).labelFrame b
    rw [supersede_live live]
    exact ⟨frame, link, discardRecord_directory s k⟩

end

/-! ## PAGE_END accepted (R113) -/

section
variable {s : State} {h : Nat} {r : Record} {l : Label}

theorem endPage_record (lt : h < 128) (k : Nat) : (s.endPage h r).record k = if k = h then
    some { r with state := .ready, readyStamp := some s.timebase.stamp }
    else (s.supersede r.address r.page).record k := by
  unfold State.endPage
  refine Eq.trans ?_ (record_set lt)
  unfold State.record
  rw [updateLabel_store]
  rfl

theorem endPage_kept (s : State) (h : Nat) (r : Record) :
    (s.endPage h r).store.heldOrder = (s.supersede r.address r.page).store.heldOrder
      ∧ (s.endPage h r).contexts = (s.supersede r.address r.page).contexts
      ∧ (s.endPage h r).burst = (s.supersede r.address r.page).burst := by
  unfold State.endPage
  rw [updateLabel_store, updateLabel_contexts, updateLabel_burst]
  exact ⟨rfl, rfl, rfl⟩

theorem endPage_other {j : Nat} (lt : h < 128) (other : j ≠ h) (notLive : s.liveOf r.address r.page ≠ some j) :
    (s.endPage h r).record j = s.record j := by
  rw [endPage_record lt, if_neg other, supersede_other notLive]

theorem endPage_superseded {j : Nat} {q : Record} (e : s.record h = some r) (filling : r.state.isFilling = true)
    (live : s.liveOf r.address r.page = some j) (f : s.record j = some q) : (s.endPage h r).record j =
      if q.state = .sending ∧ s.fragmentOnAir j = true then some { q with state := .void, pinned := false }
      else none := by
  have isLive := liveOf_isLive live f
  have other : j ≠ h := by
    rintro rfl
    obtain rfl : q = r := Option.some.inj (f.symm.trans e)
    cases k : q.state <;> simp [k, RecordState.isFilling, RecordState.isLive] at filling isLive
  rw [endPage_record (record_lt e), if_neg other, supersede_live live]
  exact discardRecord_record f isLive

theorem endPage_discards {j : Nat} {q : Record} (live : s.liveOf r.address r.page = some j) (f : s.record j = some q) :
    Discarded s (s.endPage h r) j q := by
  obtain ⟨order, contexts, burst⟩ := endPage_kept s h r
  have gone := discardRecord_live f (liveOf_isLive live f)
  rw [supersede_live live] at order contexts burst
  unfold Discarded at gone ⊢
  simpa only [order, contexts, burst, context_eq contexts] using gone

theorem endPage_alone (no : s.liveOf r.address r.page = none) : (s.endPage h r).store.heldOrder = s.store.heldOrder
    ∧ (s.endPage h r).contexts = s.contexts ∧ (s.endPage h r).burst = s.burst := by
  have kept := endPage_kept s h r
  rwa [supersede_none no] at kept

/-- The entry as the wanted-reported set is about to lose the page: no record has touched it. -/
theorem supersede_entry (s : State) (a p h : Nat) (o : Option Record) (b : Nat) :
    ((s.supersede a p).setRecord h o).entry b = s.entry b :=
  entry_eq (supersede_frame s a p b).2.2 b

theorem endPage_entry_label (e : s.entry r.address = .label l) : (s.endPage h r).entry r.address =
    .label { l with wanted := l.wanted.filter fun x => x != r.page } := by
  unfold State.endPage
  rw [entry_updateLabel, if_pos rfl, supersede_entry, e]

theorem endPage_entry_other (e : ∀ l, s.entry r.address ≠ .label l) :
    (s.endPage h r).entry r.address = s.entry r.address := by
  unfold State.endPage
  rw [updateLabel_unheld fun l => by rw [supersede_entry]; exact e l, supersede_entry]

theorem LabelFrame.setRecord (a : Nat) (s : State) (h : Nat) (o : Option Record) : LabelFrame a s (s.setRecord h o) :=
  ⟨fun _ _ => rfl, rfl, rfl, rfl⟩

theorem endPage_frame (s : State) (h : Nat) (r : Record) :
    LabelFrame r.address s (s.endPage h r) ∧ (s.endPage h r).link = s.link := by
  obtain ⟨frame, link, -⟩ := supersede_frame s r.address r.page r.address
  unfold State.endPage
  rw [updateLabel_link]
  exact ⟨(frame.trans (.setRecord _ _ h _)).trans (updateLabel_frame _ _ _).1, link⟩

theorem allWritten_iff {n : Nat} {w : List Nat} : allWritten n w = true ↔ ∀ o, o < n → o ∈ w := by
  simp [allWritten]

end

/-! ## What each command answers -/

section
variable {s : State} {hb : Byte} {r : Record} {why : Status}

theorem doPageEnd_refused (e : s.named hb.toNat = .error why) : s.doPageEnd [hb] = s.refuse why := by
  simp only [State.doPageEnd, byteAt_head, e]

theorem doPageEnd_wrongState (e : s.named hb.toNat = .ok r) (other : r.state.isFilling = false) :
    s.doPageEnd [hb] = s.refuse .wrongState := by
  simp only [State.doPageEnd, byteAt_head, e]
  split
  · rename_i w k
    rw [k] at other
    cases other
  all_goals rfl

theorem doPageEnd_filling {w : List Nat} (e : s.named hb.toNat = .ok r) (k : r.state = .filling w) :
    s.doPageEnd [hb] =
      if allWritten r.length w then (s.endPage hb.toNat r).accept [hb] else s.refuse .incomplete := by
  simp only [State.doPageEnd, byteAt_head, e, k, byteOf_toNat]

theorem doPageDiscard_refused (e : s.named hb.toNat = .error why) : s.doPageDiscard [hb] = s.refuse why := by
  simp only [State.doPageDiscard, byteAt_head, e]

theorem doPageDiscard_record (e : s.named hb.toNat = .ok r) :
    s.doPageDiscard [hb] = (s.discardRecord hb.toNat).accept [] := by
  simp only [State.doPageDiscard, byteAt_head, e]

variable {tag : Byte} {x : Answer}

theorem exec_pageEnd (ready : Ready s) (e : (s.inHand ⟨0x22, tag, [hb]⟩).doPageEnd [hb] = x) :
    exec (.pageEnd tag [hb]) s = .next (x.state.reply 0x22 tag x.status x.result) := by
  subst e
  exact taken ready (f := ⟨0x22, tag, [hb]⟩) (k := .pageEnd) (by rfl) (by rfl) (Nat.le_of_ble_eq_true rfl)

theorem exec_pageDiscard (ready : Ready s) (e : (s.inHand ⟨0x23, tag, [hb]⟩).doPageDiscard [hb] = x) :
    exec (.pageDiscard tag [hb]) s = .next (x.state.reply 0x23 tag x.status x.result) := by
  subst e
  exact taken ready (f := ⟨0x23, tag, [hb]⟩) (k := .pageDiscard) (by rfl) (by rfl) (Nat.le_of_ble_eq_true rfl)

end

/-! ## PAGE_END and PAGE_DISCARD -/

/-- Settles O57: the checks of the handle, the record that PAGE_END makes READY with what it supersedes, and the ways
out of a discarded record. -/
theorem pageEndAndDiscardSettleTheRecord : Obligations.PageEndAndDiscardSettleTheRecord := by
  unfold Obligations.PageEndAndDiscardSettleTheRecord
  rintro tag hb h s u v ready rfl rfl rfl
  have refused {why : Status} (e : s.named hb.toNat = .error why) :
      exec (.pageEnd tag [hb]) s = .next ((s.inHand ⟨0x22, tag, [hb]⟩).reply 0x22 tag why [])
      ∧ exec (.pageDiscard tag [hb]) s = .next ((s.inHand ⟨0x23, tag, [hb]⟩).reply 0x23 tag why []) :=
    ⟨exec_pageEnd ready (doPageEnd_refused e), exec_pageDiscard ready (doPageDiscard_refused e)⟩
  refine ⟨fun out => refused (named_badField out), fun slot gone => refused (named_noRecord slot gone),
    fun r e present other => exec_pageEnd ready (doPageEnd_wrongState (named_of_record e present) other),
    fun r w e k missing => ?incomplete, fun r w e k full => ?ended, fun r e present => ?discard⟩
  case incomplete =>
    obtain ⟨o, lt, unwritten⟩ := missing
    have answer := exec_pageEnd (tag := tag) ready (doPageEnd_filling (named_of_record e (by rw [k]; simp)) k)
    rw [if_neg fun all => unwritten (allWritten_iff.1 all o lt)] at answer
    exact answer
  case ended =>
    have filling : r.state.isFilling = true := by rw [k]; rfl
    have answer := exec_pageEnd (tag := tag) ready (doPageEnd_filling (named_of_record e (by rw [k]; simp)) k)
    rw [if_pos (allWritten_iff.2 full)] at answer
    obtain ⟨frame, link⟩ := endPage_frame (s.inHand ⟨0x22, tag, [hb]⟩) hb.toNat r
    refine ⟨(s.inHand ⟨0x22, tag, [hb]⟩).endPage hb.toNat r, answer,
      (endPage_record (record_lt e) _).trans (if_pos rfl),
      fun j other notLive => endPage_other (record_lt e) other notLive, fun j q live f => ?superseded,
      fun j q live f => ?discarded, fun l held => endPage_entry_label held, fun unheld => ?unheld, fun no => ?alone,
      link, frame⟩
    case superseded => exact endPage_superseded (s := s.inHand ⟨0x22, tag, [hb]⟩) e filling live f
    case discarded =>
      have cut : (s.inHand ⟨0x22, tag, [hb]⟩).cutRequest.burst = s.cutRequest.burst := by
        rw [cutRequest_burst_eq, cutRequest_burst_eq]
        rfl
      have gone := endPage_discards (s := s.inHand ⟨0x22, tag, [hb]⟩) (h := hb.toNat) live f
      rw [Discarded, cut] at gone
      exact gone
    case unheld => exact endPage_entry_other (s := s.inHand ⟨0x22, tag, [hb]⟩) unheld
    case alone => exact endPage_alone (s := s.inHand ⟨0x22, tag, [hb]⟩) no
  case discard =>
    have discard {t : State} (d : (s.inHand ⟨0x23, tag, [hb]⟩).discardRecord hb.toNat = t) :
        exec (.pageDiscard tag [hb]) s = .next (t.reply 0x23 tag .ok []) :=
      exec_pageDiscard ready (x := t.accept []) (d ▸ doPageDiscard_record (named_of_record e present))
    exact ⟨fun still => discard (discardRecord_idle e still present),
      fun sending air => discard (discardRecord_onAir e sending air),
      fun sending air i tied => discard (discardRecord_tied e sending air tied),
      fun sending untied => discard (discardRecord_untied e sending untied)⟩

end Sys2Proof.Machine

/-! PROOFS. PAGE_BEGIN (R109 to R111): its checks, the eviction from the head of the HELD order for as long as there is
no room and no further, and the new record. -/

namespace Sys2Proof.Machine

/-! ## Eviction makes the room (R110) -/

section
variable {s : State} {k : Nat}

theorem evict_record {h : Nat} {r : Record} (e : s.record h = some r) : s.evict h = State.post
    ((s.setRecord h none).setHeldOrder (s.store.heldOrder.filter fun x => x != h))
    (.pageEvicted r.address r.page r.generation) := by
  unfold State.evict
  rw [e]
  rfl

theorem hasRoom_eq_false_iff : s.hasRoom k = false ↔ s.freeSlots = [] ∨ s.freeBlocks.length < k := by
  unfold State.hasRoom
  rw [Bool.and_eq_false_iff, decide_eq_false_iff_not, decide_eq_false_iff_not, Nat.not_le, Nat.not_le,
    Nat.lt_one_iff, List.length_eq_zero_iff]

/-- What is left once the candidates up to the `m`th are evicted. -/
def State.afterEvicting (s : State) (order : List Nat) (m : Nat) : State := (order.take m).foldl State.evict s

theorem evictUntil_first {order : List Nat} {m : Nat} (room : (s.afterEvicting order m).hasRoom k = true)
    (before : ∀ j < m, (s.afterEvicting order j).hasRoom k = false) :
    State.evictUntil k order s = s.afterEvicting order m := by
  induction order generalizing s m with
  | nil =>
    unfold State.afterEvicting
    rw [List.take_nil]
    rfl
  | cons h order ih =>
    unfold State.evictUntil
    cases m with
    | zero => exact if_pos room
    | succ m =>
      have tight : s.hasRoom k = false := before 0 (Nat.zero_lt_succ m)
      rw [tight, if_neg Bool.false_ne_true]
      exact ih room fun j lt => before (j + 1) (Nat.succ_lt_succ lt)

theorem evictUntil_none {order : List Nat} (tight : ∀ m, (s.afterEvicting order m).hasRoom k = false) :
    (State.evictUntil k order s).hasRoom k = false := by
  induction order generalizing s with
  | nil => exact tight 0
  | cons h order ih =>
    have now : s.hasRoom k = false := tight 0
    unfold State.evictUntil
    rw [now, if_neg Bool.false_ne_true]
    exact ih fun m => tight (m + 1)

end

/-! ## The room that a PAGE_BEGIN makes (R110, R111) -/

section
variable {s v : State} {q : BeginRequest}

/-- The state in which the candidates are taken in hand: the key's FILLING record is freed. -/
theorem makeRoom_eq (freed : s.fillingOf q.address q.page = none ∧ v = s
      ∨ ∃ h, s.fillingOf q.address q.page = some h ∧ v = s.freeRecord h) :
    s.makeRoom q = State.evictUntil (blocksFor q.length) v.store.heldOrder v := by
  unfold State.makeRoom
  rcases freed with ⟨alone, rfl⟩ | ⟨h, filling, rfl⟩
  · rw [alone]
  · rw [filling]

theorem beginPage_full (tight : (s.makeRoom q).hasRoom (blocksFor q.length) = false) :
    s.beginPage q = s.refuse .storeFull := by
  unfold State.beginPage
  dsimp only
  rcases hasRoom_eq_false_iff.1 tight with slots | blocks
  · rw [slots]
  · split
    · rfl
    · exact if_neg (Nat.not_le.2 blocks)

theorem beginPage_room {t : State} {h : Nat} {rest : List Nat} (made : s.makeRoom q = t)
    (slots : t.freeSlots = h :: rest) (blocks : blocksFor q.length ≤ t.freeBlocks.length) : s.beginPage q =
      State.accept (t.setRecord h (some (newRecord q (t.freeBlocks.take (blocksFor q.length))))) [byteOf h] := by
  unfold State.beginPage
  rw [made]
  dsimp only
  rw [slots]
  exact if_pos blocks

end

/-! ## The checks (R109) -/

section
variable {s : State} {p : List Byte} {q : BeginRequest} {l : Label}

theorem inRange_iff {a g gen urg : Byte} {n : Nat} :
    (BeginRequest.mk a.toNat g.toNat gen n urg.toNat).inRange = true ↔ 1 ≤ a.toNat ∧ a.toNat ≤ 240 ∧ g.toNat ≤ 3
      ∧ 1 ≤ n ∧ n ≤ 1024 ∧ urg.toNat ≤ 1 := by
  unfold BeginRequest.inRange
  simp only [Bool.and_eq_true, addressInRange_iff, decide_eq_true_eq, and_assoc]

theorem inRange_out {a g gen urg : Byte} {n : Nat} (out : a = 0 ∨ 240 < a.toNat ∨ 3 < g.toNat ∨ n = 0 ∨ 1024 < n
      ∨ 1 < urg.toNat) : (BeginRequest.mk a.toNat g.toNat gen n urg.toNat).inRange = false := by
  rw [← Bool.not_eq_true, inRange_iff]
  rintro ⟨low, high, page, short, long, flag⟩
  rcases out with rfl | out
  · exact absurd low (by decide)
  · omega

theorem duplicates_iff : s.duplicates q = true ↔ ∃ h r, s.liveOf q.address q.page = some h ∧ s.record h = some r
    ∧ r.generation = q.generation := by
  unfold State.duplicates
  cases s.liveOf q.address q.page with
  | none => simp
  | some h => cases e : s.record h <;> simp [e]

theorem doPageBegin_outOfRange (fields : beginOf p = q) (out : q.inRange = false) :
    s.doPageBegin p = s.refuse .badField := by
  unfold State.doPageBegin
  rw [fields]
  exact if_pos (by rw [out]; rfl)

/-- Past the ranges, the entry decides (R109). -/
theorem doPageBegin_inRange (fields : beginOf p = q) (ok : q.inRange = true) :
    s.doPageBegin p = match s.label? q.address with
      | none => s.refuse .wrongState
      | some l =>
        if !l.phase.takesWork then s.refuse .wrongState
        else if !(decide (q.page < l.capabilities.pageCount) && decide (q.length ≤ l.capabilities.maxLength)) then
          s.refuse .badField
        else if s.duplicates q then s.refuse .duplicate
        else s.beginPage q := by
  unfold State.doPageBegin
  rw [fields]
  exact if_neg (by rw [ok]; simp)

theorem doPageBegin_wrongState (fields : beginOf p = q) (ok : q.inRange = true)
    (leaving : ∀ l, s.entry q.address = .label l → l.phase.isReleasing = true) :
    s.doPageBegin p = s.refuse .wrongState := by
  rw [doPageBegin_inRange fields ok]
  cases e : s.label? q.address with
  | none => rfl
  | some l => simp [takesWork_not, leaving l (label_entry e)]

theorem doPageBegin_label (fields : beginOf p = q) (ok : q.inRange = true) (e : s.entry q.address = .label l)
    (stays : l.phase.isReleasing = false) : s.doPageBegin p =
      if !(decide (q.page < l.capabilities.pageCount) && decide (q.length ≤ l.capabilities.maxLength)) then
        s.refuse .badField
      else if s.duplicates q then s.refuse .duplicate
      else s.beginPage q := by
  rw [doPageBegin_inRange fields ok, entry_label e]
  exact if_neg (by simp [takesWork_not, stays])

theorem doPageBegin_unsuited (fields : beginOf p = q) (ok : q.inRange = true) (e : s.entry q.address = .label l)
    (stays : l.phase.isReleasing = false)
    (unsuited : l.capabilities.pageCount ≤ q.page ∨ l.capabilities.maxLength < q.length) :
    s.doPageBegin p = s.refuse .badField := by
  rw [doPageBegin_label fields ok e stays]
  exact if_pos (by simp only [Bool.not_eq_true', Bool.and_eq_false_iff, decide_eq_false_iff_not]; omega)

/-- Past the ranges, the entry's state and what the label can show, the key's live record decides (R109). -/
theorem doPageBegin_suited (fields : beginOf p = q) (ok : q.inRange = true) (e : s.entry q.address = .label l)
    (stays : l.phase.isReleasing = false) (page : q.page < l.capabilities.pageCount)
    (length : q.length ≤ l.capabilities.maxLength) :
    (s.duplicates q = true → s.doPageBegin p = s.refuse .duplicate)
      ∧ (s.duplicates q = false → s.doPageBegin p = s.beginPage q) := by
  rw [doPageBegin_label fields ok e stays, if_neg (by simp [page, length])]
  exact ⟨fun twice => if_pos twice, fun new => if_neg (by simp [new])⟩

theorem beginOf_bytes (a g gen lo hi urg : Byte) : beginOf [a, g, gen, lo, hi, urg] =
    ⟨a.toNat, g.toNat, gen, lo.toNat + 256 * hi.toNat, urg.toNat⟩ := rfl

theorem exec_pageBegin {tag : Byte} {x : Answer} (ready : Ready s) (length : p.length = 6)
    (e : (s.inHand ⟨0x20, tag, p⟩).doPageBegin p = x) :
    exec (.pageBegin tag p) s = .next (x.state.reply 0x20 tag x.status x.result) := by
  subst e
  exact taken ready (f := ⟨0x20, tag, p⟩) (k := .pageBegin) (by rfl) (beq_iff_eq.2 length)
    (length.le.trans (Nat.le_of_ble_eq_true rfl))

end

/-! ## PAGE_BEGIN -/

/-- Settles O55: the checks in their order, and then the first point in the HELD order at which there is room. -/
theorem pageBeginMakesItsRoom : Obligations.PageBeginMakesItsRoom := by
  unfold Obligations.PageBeginMakesItsRoom
  refine ⟨fun s h r e => evict_record e, ?_⟩
  rintro tag a g gen lo hi urg n k s u p ready rfl rfl hn hk
  have run {x : Answer} := exec_pageBegin (tag := tag) (x := x) ready (p := [a, g, gen, lo, hi, urg]) rfl
  have fields := beginOf_bytes a g gen lo hi urg
  rw [← hn] at fields
  refine ⟨fun out => run (doPageBegin_outOfRange fields (inRange_out out)), fun low high page short long flag => ?_⟩
  have ok := inRange_iff (gen := gen).2 ⟨low, high, page, short, long, flag⟩
  refine ⟨fun leaving => run (doPageBegin_wrongState fields ok leaving), fun l e stays =>
    ⟨fun unsuited => run (doPageBegin_unsuited fields ok e stays unsuited), fun suits fits => ?_⟩⟩
  obtain ⟨twice, begins⟩ := doPageBegin_suited (s := s.inHand ⟨0x20, tag, [a, g, gen, lo, hi, urg]⟩) fields ok e stays
    suits fits
  refine ⟨fun h r live f same => run (twice (duplicates_iff.2 ⟨h, r, live, f, same⟩)),
    fun new v freed after hafter => ?_⟩
  have begins := begins (Bool.eq_false_iff.2 fun twice => by
    obtain ⟨h, r, live, f, same⟩ := duplicates_iff.1 twice
    exact new h r live f same)
  obtain rfl : after = v.afterEvicting v.store.heldOrder := funext hafter
  have made := makeRoom_eq (s := s.inHand ⟨0x20, tag, [a, g, gen, lo, hi, urg]⟩)
    (q := ⟨a.toNat, g.toNat, gen, n, urg.toNat⟩) freed
  obtain rfl : blocksFor n = k := hk.symm
  refine ⟨fun tight => run (begins.trans (beginPage_full ?full)), fun m h rest slots blocks before => ?room⟩
  case full =>
    rw [made]
    exact evictUntil_none fun m => hasRoom_eq_false_iff.2 (tight m)
  case room =>
    have room : (v.afterEvicting v.store.heldOrder m).hasRoom (blocksFor n) = true := by
      rw [← Bool.not_eq_false, hasRoom_eq_false_iff, slots]
      simpa using blocks
    have first := evictUntil_first room fun j lt => hasRoom_eq_false_iff.2 (before j lt)
    exact run (begins.trans (beginPage_room (made.trans first) slots blocks))

end Sys2Proof.Machine

/-! PROOFS. What a data slot sends (R46, R47, R92, R147, R156, R157): the work its place names, if it is still there, is
one send request and the marks that go with it. -/

namespace Sys2Proof.Machine

/-! ## The transmitter as a slot opens (R6, R15) -/

theorem mayTransmit_iff (s : State) :
    s.mayTransmit = true ↔ s.hub = .running ∨ s.hub = .stopping ∨ ∃ t, s.hub = .testing t := by
  unfold State.mayTransmit State.inService State.lineTest
  cases s.hub <;> simp

theorem beginBlanking_loop {s : State} {t : LineTest} (test : s.hub = .testing t) (m : t.mode = .loop) :
    s.beginBlanking = s := by
  refine if_pos ?_
  unfold State.inLoopTest
  rw [lineTest_testing test]
  exact beq_iff_eq.2 m

theorem inLoopTest_quiet {s : State} (quiet : ∀ t, s.hub = .testing t → t.mode = .quiet) : s.inLoopTest = false := by
  unfold State.inLoopTest
  cases e : s.lineTest with
  | none => rfl
  | some t =>
    dsimp only
    rw [quiet t (lineTest_some e)]
    rfl

theorem beginBlanking_blanks {s : State} (out : s.inLoopTest = false) : s.beginBlanking =
    { s.endAssemblyBroken .truncated with
      receiver := { (s.endAssemblyBroken .truncated).receiver with blanked := true } } := by
  unfold State.beginBlanking
  rw [out]
  rfl

theorem beginBlanking_entries (s : State) : s.beginBlanking.directory.entries = s.directory.entries := by
  unfold State.beginBlanking
  split
  · rfl
  · rw [endAssemblyBroken_eq]
    unfold brokenDirectory
    split <;> rfl

/-- The state in which a burst has begun, with the blanking that goes with it. -/
def State.beginBurst (s : State) (b : Burst) : State := { s.beginBlanking with burst := some b }

theorem entry_beginBurst (s : State) (b : Burst) (a : Nat) : (s.beginBurst b).entry a = s.entry a := by
  unfold State.entry State.beginBurst
  rw [beginBlanking_entries]

theorem sendRequest_refused {s : State} (no : s.mayTransmit = false ∨ s.burst.isSome = true) (lead count : Nat)
    (source : BurstSource) : s.sendRequest lead count source = none := by
  refine if_neg ?_
  rw [Bool.and_eq_true, Option.isNone_iff_eq_none]
  rintro ⟨may, free⟩
  rcases no with no | no
  · rw [no] at may
    cases may
  · rw [free] at no
    cases no

theorem sendRequest_free {s : State} (may : s.mayTransmit = true) (free : s.burst = none) (lead count : Nat)
    (source : BurstSource) :
    s.sendRequest lead count source = some (s.beginBurst (newBurst s.config lead count source)) :=
  if_pos (by rw [may, free]; rfl)

/-! ## The work of a slot -/

/-- What a slot asks the transmitter for, and the marks that its burst leaves once it is taken. -/
structure SlotWork where
  count : Nat
  source : BurstSource
  marks : State → State

/-- A directory burst to a label, with what becomes of the label's fields. -/
def directoryWork (a : Nat) (bytes : List Byte) (f : Label → Label) : SlotWork where
  count := bytes.length
  source := .directory bytes
  marks := fun t => t.updateLabel a f

/-- What a control slot changes of an entry: its operation is sent, and an open send created (R92). -/
def Label.sendOperation (slot : Nat) (q : BitVec 4) (o : Operation) (effective : Epoch) (l : Label) : Label :=
  { (l.markSent q).markOpSent o.kind with openSend := some ⟨slot, q, o.fields, effective, true, false⟩ }

/-- The work of one of the directory's slots for the fields held for its address (R59, R64, R67, R93). -/
def State.labelWork (s : State) (slot a : Nat) (l : Label) : SlotKind → Option SlotWork
  | .assign =>
    if l.phase.isJoining then
      some (directoryWork a (assignBytes s.config.hubId a l.longId (l.sequence + 1) (l.applicable s.epoch))
        (Label.markSent (l.sequence + 1)))
    else none
  | .control =>
    if l.phase.isBound then
      l.nextOperation.map fun o =>
        directoryWork a (controlBytes s.config.hubId a (l.sequence + 1) o.fields (s.epoch + 1))
          (Label.sendOperation slot (l.sequence + 1) o (s.epoch + 1))
    else none
  | .probe =>
    if l.phase.isMissing then
      some (directoryWork a (controlBytes s.config.hubId a (l.sequence + 1) .ping (s.epoch + 1))
        (Label.markSent (l.sequence + 1)))
    else none
  | .release =>
    if l.phase.isReleasing then
      some (directoryWork a (controlBytes s.config.hubId a (l.sequence + 1) .release (s.epoch + 1))
        fun m => (m.markSent (l.sequence + 1)).markOpSent .release)
    else none
  | .fragment _ => none

/-- A FRAGMENT burst of a context, with what becomes of the context and of the label's sent mark (R156, R157). -/
def State.fragmentBurst (s : State) (a : Nat) (r : Record) (i : Nat) (c : Context) (f : Nat) : SlotWork where
  count := fragmentCount r f
  source := .transfer i (hubTag s.config.hubId)
  marks := fun t =>
    (t.setContext i (some { c with sentThisRound := setInsert f c.sentThisRound, onAir := some f })).updateLabel a
      fun l => { l with sentMark := true }

/-- The work of a fragment slot (R147, R156). -/
def State.fragmentWork (s : State) (a h : Nat) : Option SlotWork :=
  (s.record h).bind fun r =>
    if r.state = .sending ∧ r.address = a then
      (s.contextOf h).bind fun i => (s.context i).bind fun c =>
        (chooseFragment r.fragments c).map (s.fragmentBurst a r i c)
    else none

/-- The work that a place names, if it is still there (R147). -/
def State.slotWork (s : State) (slot : Nat) (p : Place) : Option SlotWork :=
  match p.kind with
  | .fragment h => s.fragmentWork p.address h
  | k => (s.label? p.address).bind fun l => s.labelWork slot p.address l k

/-- Ask the transmitter for a slot's work. -/
def State.request (s : State) (w : SlotWork) : Option State := (s.sendRequest 8 w.count w.source).map w.marks

theorem sendDirectory_eq (s : State) (a : Nat) (bytes : List Byte) (f : Label → Label) :
    s.sendDirectory a bytes f = s.request (directoryWork a bytes f) := by
  unfold State.sendDirectory State.request
  cases e : s.sendRequest Config.shortLead bytes.length (.directory bytes) <;>
    exact (congrArg (Option.map fun t => t.updateLabel a f) e).symm

theorem sendFragment_eq (s : State) (a h : Nat) : s.sendFragment a h = (s.fragmentWork a h).bind s.request := by
  unfold State.sendFragment State.fragmentWork
  cases s.record h with
  | none => rfl
  | some r =>
    dsimp only [Option.bind_some]
    split
    · cases s.contextOf h with
      | none => rfl
      | some i =>
        dsimp only [Option.bind_some]
        cases s.context i with
        | none => rfl
        | some c =>
          dsimp only [Option.bind_some]
          cases chooseFragment r.fragments c with
          | none => rfl
          | some f =>
            rw [Option.map_some, Option.bind_some]
            dsimp only
            cases e : s.sendRequest Config.shortLead (fragmentCount r f) (.transfer i (hubTag s.config.hubId)) <;>
              exact (congrArg (Option.map (s.fragmentBurst a r i c f).marks) e).symm
    · rfl

/-- A slot sends its work exactly when the work is there and the transmitter takes the request (R147). -/
theorem sendPlace_eq (s : State) (slot : Nat) (p : Place) :
    s.sendPlace slot p = (s.slotWork slot p).bind s.request := by
  obtain ⟨a, k⟩ := p
  cases k with
  | fragment h => exact sendFragment_eq s a h
  | control =>
    simp only [State.sendPlace, State.sendControl, State.slotWork, sendDirectory_eq]
    cases s.label? a with
    | none => rfl
    | some l =>
      dsimp only [Option.bind_some, State.labelWork]
      split
      · cases l.nextOperation <;> rfl
      · rfl
  | _ =>
    simp only [State.sendPlace, State.sendAssign, State.sendProbe, State.sendRelease, State.slotWork, sendDirectory_eq]
    cases s.label? a with
    | none => rfl
    | some l =>
      dsimp only [Option.bind_some, State.labelWork]
      split <;> rfl

section
variable {s : State} {slot : Nat} {p : Place}

theorem sendPlace_refused (no : s.mayTransmit = false ∨ s.burst.isSome = true) (slot : Nat) (p : Place) :
    s.sendPlace slot p = none := by
  rw [sendPlace_eq, Option.bind_eq_none_iff]
  intro w _
  unfold State.request
  rw [sendRequest_refused no, Option.map_none]

theorem sendPlace_idle (idle : s.slotWork slot p = none) : s.sendPlace slot p = none := by
  rw [sendPlace_eq, idle, Option.bind_none]

theorem request_free (may : s.mayTransmit = true) (free : s.burst = none) (w : SlotWork) :
    s.request w = some (w.marks (s.beginBurst (newBurst s.config 8 w.count w.source))) := by
  unfold State.request
  rw [sendRequest_free may free, Option.map_some]

theorem sendPlace_free {w : SlotWork} (may : s.mayTransmit = true) (free : s.burst = none)
    (work : s.slotWork slot p = some w) :
    s.sendPlace slot p = some (w.marks (s.beginBurst (newBurst s.config 8 w.count w.source))) := by
  rw [sendPlace_eq, work, Option.bind_some, request_free may free]

theorem sendPlace_isSome (may : s.mayTransmit = true) (free : s.burst = none) :
    (s.sendPlace slot p).isSome = (s.slotWork slot p).isSome := by
  rw [sendPlace_eq]
  cases s.slotWork slot p with
  | none => rfl
  | some w => rw [Option.bind_some, request_free may free]; rfl

end

/-! ## The directory's slots (R46, R47, R59, R64, R67, R92, R93) -/

section
variable {s : State} {slot a : Nat} {l : Label} {k : SlotKind}

theorem slotWork_directory (s : State) (slot a : Nat) (directory : ∀ h, k ≠ .fragment h) :
    s.slotWork slot ⟨a, k⟩ = (s.label? a).bind fun l => s.labelWork slot a l k := by
  cases k with
  | fragment h => exact absurd rfl (directory h)
  | _ => rfl

theorem slotWork_label (e : s.label? a = some l) (directory : ∀ h, k ≠ .fragment h) :
    s.slotWork slot ⟨a, k⟩ = s.labelWork slot a l k := by
  rw [slotWork_directory s slot a directory, e, Option.bind_some]

/-- An entry that is VACANT or COOLING has nothing to send. -/
theorem sendPlace_unheld (unheld : ∀ l, s.entry a ≠ .label l) (directory : ∀ h, k ≠ .fragment h) :
    s.sendPlace slot ⟨a, k⟩ = none := by
  have none_held : s.label? a = none := Option.eq_none_iff_forall_ne_some.2 fun l e => unheld l (label_entry e)
  exact sendPlace_idle (by rw [slotWork_directory s slot a directory, none_held, Option.bind_none])

theorem labelWork_assign_isSome : (s.labelWork slot a l .assign).isSome = l.phase.isJoining := by
  unfold State.labelWork
  cases l.phase.isJoining <;> rfl

theorem labelWork_control_isSome : (s.labelWork slot a l .control).isSome =
    (l.phase.isBound && l.queue.any fun o => !o.sentThisRound) := by
  unfold State.labelWork Label.nextOperation
  cases l.phase.isBound with
  | false => rfl
  | true =>
    rw [if_pos rfl, Option.isSome_map, Bool.true_and, Bool.eq_iff_iff, List.find?_isSome, List.any_eq_true]

theorem labelWork_probe_isSome : (s.labelWork slot a l .probe).isSome = l.phase.isMissing := by
  unfold State.labelWork
  cases l.phase.isMissing <;> rfl

theorem labelWork_release_isSome : (s.labelWork slot a l .release).isSome = l.phase.isReleasing := by
  unfold State.labelWork
  cases l.phase.isReleasing <;> rfl

/-- The operation of a control slot is the one behind those that are sent (R93). -/
theorem nextOperation_behind {before behind : List Operation} {o : Operation} (q : l.queue = before ++ o :: behind)
    (sent : ∀ x ∈ before, x.sentThisRound = true) (unsent : o.sentThisRound = false) : l.nextOperation = some o := by
  have none_before : before.find? (fun x => !x.sentThisRound) = none :=
    List.find?_eq_none.2 fun x m => by simp [sent x m]
  unfold Label.nextOperation
  rw [q, List.find?_append, none_before, Option.none_or, List.find?_cons_of_pos (by simp [unsent])]

theorem labelWork_assign (joining : l.phase.isJoining = true) : s.labelWork slot a l .assign =
    some (directoryWork a (assignBytes s.config.hubId a l.longId (l.sequence + 1) (l.applicable s.epoch))
      (Label.markSent (l.sequence + 1))) := if_pos joining

theorem labelWork_control {o : Operation} (bound : l.phase = .bound) (next : l.nextOperation = some o) :
    s.labelWork slot a l .control =
      some (directoryWork a (controlBytes s.config.hubId a (l.sequence + 1) o.fields (s.epoch + 1))
        (Label.sendOperation slot (l.sequence + 1) o (s.epoch + 1))) := by
  unfold State.labelWork
  rw [if_pos (isBound_iff.2 bound), next, Option.map_some]

theorem labelWork_probe (missing : l.phase = .missing) : s.labelWork slot a l .probe =
    some (directoryWork a (controlBytes s.config.hubId a (l.sequence + 1) .ping (s.epoch + 1))
      (Label.markSent (l.sequence + 1))) := if_pos (by rw [missing]; rfl)

theorem labelWork_release (releasing : l.phase.isReleasing = true) : s.labelWork slot a l .release =
    some (directoryWork a (controlBytes s.config.hubId a (l.sequence + 1) .release (s.epoch + 1))
      fun m => (m.markSent (l.sequence + 1)).markOpSent .release) := if_pos releasing

/-- A slot of the directory that has its burst taken. -/
theorem sendPlace_directoryWork {bytes : List Byte} {f : Label → Label} (may : s.mayTransmit = true)
    (free : s.burst = none) (e : s.label? a = some l) (directory : ∀ h, k ≠ .fragment h)
    (work : s.labelWork slot a l k = some (directoryWork a bytes f)) :
    s.sendPlace slot ⟨a, k⟩ = some ((s.beginBurst (newBurst s.config 8 bytes.length (.directory bytes))).setEntry a
      (.label (f l))) := by
  rw [sendPlace_free may free ((slotWork_label e directory).trans work)]
  exact congrArg some (updateLabel_setEntry ((entry_beginBurst ..).trans (label_entry e)) f)

end

/-! ## The fragment slots (R147, R156, R157) -/

theorem chooseFragment_none {n : Nat} {c : Context} (all : ∀ f, f < n → f ∈ c.confirmed) :
    chooseFragment n c = none := by
  have confirmed (f : Nat) (m : f ∈ List.range n) : c.confirmed.contains f = true :=
    List.contains_iff_mem.2 (all f (List.mem_range.1 m))
  unfold chooseFragment
  rw [List.find?_eq_none.2 fun f m => by rw [confirmed f m]; simp]
  exact List.find?_eq_none.2 fun f m => by rw [confirmed f m]; simp

/-- The lowest fragment neither confirmed nor sent in this call. -/
theorem chooseFragment_unsent {n f : Nat} {c : Context} (lt : f < n) (unconfirmed : f ∉ c.confirmed)
    (unsent : f ∉ c.sentThisRound) (least : ∀ g, g < f → g ∈ c.confirmed ∨ g ∈ c.sentThisRound) :
    chooseFragment n c = some f := by
  unfold chooseFragment
  rw [List.find?_range_eq_some.2 ⟨by simp [unconfirmed, unsent], List.mem_range.2 lt, fun g hg => by
    simpa [or_iff_not_imp_left] using least g hg⟩]

/-- The lowest fragment not confirmed, when none is left that this call has not sent. -/
theorem chooseFragment_sent {n f : Nat} {c : Context} (lt : f < n) (unconfirmed : f ∉ c.confirmed)
    (covered : ∀ g, g < n → g ∈ c.confirmed ∨ g ∈ c.sentThisRound) (least : ∀ g, g < f → g ∈ c.confirmed) :
    chooseFragment n c = some f := by
  unfold chooseFragment
  rw [List.find?_eq_none.2 fun g m => by simpa [or_iff_not_imp_left] using covered g (List.mem_range.1 m)]
  exact List.find?_range_eq_some.2 ⟨by simp [unconfirmed], List.mem_range.2 lt, fun g hg => by simp [least g hg]⟩

theorem entry_setContext (s : State) (i : Nat) (c : Option Context) (a : Nat) :
    (s.setContext i c).entry a = s.entry a := rfl

section
variable {s : State} {slot a h i : Nat} {r : Record} {c : Context}

theorem fragmentWork_untied
    (idle : (∀ r, s.record h = some r → r.state ≠ .sending ∨ r.address ≠ a) ∨ s.contextOf h = none) :
    s.fragmentWork a h = none := by
  refine Option.bind_eq_none_iff.2 fun r e => ?_
  rcases idle with other | untied
  · exact if_neg fun ⟨sending, here⟩ => (other r e).elim (· sending) (· here)
  · rw [untied, Option.bind_none, ite_self]

theorem fragmentWork_sending (e : s.record h = some r) (sending : r.state = .sending) (here : r.address = a)
    (tied : s.contextOf h = some i) (k : s.context i = some c) :
    s.fragmentWork a h = (chooseFragment r.fragments c).map (s.fragmentBurst a r i c) := by
  unfold State.fragmentWork
  rw [e, Option.bind_some, if_pos ⟨sending, here⟩, tied, Option.bind_some, k, Option.bind_some]

/-- A fragment slot that has its burst taken. -/
theorem sendPlace_fragmentBurst {f : Nat} {l : Label} (may : s.mayTransmit = true) (free : s.burst = none)
    (e : s.entry a = .label l) (work : s.fragmentWork a h = some (s.fragmentBurst a r i c f)) :
    s.sendPlace slot ⟨a, .fragment h⟩ = some (State.setEntry
      ((s.beginBurst (newBurst s.config 8 (fragmentCount r f) (.transfer i (hubTag s.config.hubId)))).setContext i
        (some { c with sentThisRound := setInsert f c.sentThisRound, onAir := some f }))
      a (.label { l with sentMark := true })) := by
  rw [sendPlace_free may free (p := ⟨a, .fragment h⟩) work]
  refine congrArg some (updateLabel_setEntry ?held _)
  case held => rw [entry_setContext, entry_beginBurst, e]

end

/-! ## What the slots send -/

/-- Settles O26: the slots of the directory, the entries without a label, the fragment slots, and the transmitter. -/
theorem directorySlotSendsWhileItsEntryStands : Obligations.DirectorySlotSendsWhileItsEntryStands := by
  unfold Obligations.DirectorySlotSendsWhileItsEntryStands
  refine ⟨fun s slot a l e may free => ?directory, fun s slot a unheld => ?unheld, fun s slot a h => ?fragment,
    fun s => ?transmitter⟩
  case directory =>
    have sends {k : SlotKind} (directory : ∀ h, k ≠ .fragment h) :
        (s.sendPlace slot ⟨a, k⟩).isSome = (s.labelWork slot a l k).isSome :=
      (sendPlace_isSome may free).trans (congrArg Option.isSome (slotWork_label e directory))
    refine ⟨(sends (by nofun)).trans labelWork_assign_isSome, (sends (by nofun)).trans labelWork_control_isSome,
      (sends (by nofun)).trans labelWork_probe_isSome, (sends (by nofun)).trans labelWork_release_isSome, ?_⟩
    rintro q v begins rfl rfl hbegins out hout
    obtain rfl : begins = s.beginBurst := funext hbegins
    obtain rfl : out = fun bytes => newBurst s.config 8 bytes.length (.directory bytes) := funext hout
    have taken {k : SlotKind} {bytes : List Byte} {f : Label → Label} (directory : ∀ h, k ≠ .fragment h) :=
      sendPlace_directoryWork (slot := slot) (k := k) (bytes := bytes) (f := f) may free e directory
    refine ⟨fun joining => taken (by nofun) (labelWork_assign joining),
      fun before o behind bound queue sent unsent => ?control,
      fun missing => taken (by nofun) (labelWork_probe missing),
      fun releasing => taken (by nofun) (labelWork_release releasing)⟩
    case control =>
      rw [taken (by nofun) (labelWork_control bound (nextOperation_behind queue sent unsent))]
      unfold Label.sendOperation
      cases o.fields with
      | setMode m => cases m <;> rfl
      | _ => rfl
  case unheld =>
    exact ⟨sendPlace_unheld unheld (by nofun), sendPlace_unheld unheld (by nofun), sendPlace_unheld unheld (by nofun),
      sendPlace_unheld unheld (by nofun)⟩
  case fragment =>
    refine ⟨fun idle => sendPlace_idle (fragmentWork_untied idle), fun r i c e sending here tied k => ?_⟩
    have work := fragmentWork_sending e sending here tied k
    refine ⟨fun all => sendPlace_idle (work.trans ?none), fun f l lt unconfirmed which may free held => ?_⟩
    case none => rw [chooseFragment_none (n := r.fragments) all, Option.map_none]
    have chosen : chooseFragment r.fragments c = some f := by
      rcases which with ⟨unsent, least⟩ | ⟨covered, least⟩
      · exact chooseFragment_unsent lt unconfirmed unsent least
      · exact chooseFragment_sent lt unconfirmed covered least
    rw [chosen, Option.map_some] at work
    exact ⟨setInsert f c.sentThisRound, mem_setInsert f c.sentThisRound, sendPlace_fragmentBurst may free held work⟩
  case transmitter =>
    refine ⟨sendPlace_refused, mayTransmit_iff s, fun ⟨t, test, loop⟩ => beginBlanking_loop test loop,
      fun quiet closed => ?_, fun a outside heard => ?_⟩
    · rw [beginBlanking_blanks (inLoopTest_quiet quiet), endAssemblyBroken_none closed]
    · rw [beginBlanking_blanks (inLoopTest_outside outside), endAssemblyBroken_outside heard outside]
      rfl

end Sys2Proof.Machine

/-! PROOFS. FRAGMENT bursts (R157 to R159, R171, R172): the bytes they carry, read with their parity, and what their end
does to the record. -/

namespace Sys2Proof.Machine

/-! ## A context is written in its place -/

section
variable {s : State} {i : Nat} {c d : Context}

/-- The context of each record stays the same one while its handle does. -/
theorem contextOf_setContext (e : s.context i = some c) (tied : d.handle = c.handle) (h : Nat) :
    (s.setContext i (some d)).contextOf h = s.contextOf h := by
  refine List.find?_congr fun j _ => ?_
  rw [context_setContext]
  by_cases here : j = i
  · subst here
    rw [if_pos ⟨rfl, context_lt e⟩, e]
    dsimp only
    rw [tied]
  · rw [if_neg fun there => here there.1]

theorem setContext_setContext (s : State) (i : Nat) (x y : Option Context) :
    (s.setContext i x).setContext i y = s.setContext i y :=
  congrArg (fun v => { s with contexts := v }) (Vector.setIfInBounds_setIfInBounds ..)

theorem context_setContext_same (e : s.context i = some c) (o : Option Context) : (s.setContext i o).context i = o := by
  rw [context_setContext, if_pos ⟨rfl, context_lt e⟩]

theorem context_setContext_other {j : Nat} (n : j ≠ i) (o : Option Context) :
    (s.setContext i o).context j = s.context j := by
  rw [context_setContext, if_neg fun here => n here.1]

/-- A record with a context that goes STALLED (R120). -/
theorem enterStalled_tied {h : Nat} {r : Record} (k : s.record h = some r) (tied : s.contextOf h = some i)
    (cause : StallCause) : s.enterStalled h cause =
      ((s.setRecord h (some { r with state := .stalled cause })).setContext i none).post
        (.transferFailed r.address r.page r.generation cause) := by
  unfold State.enterStalled
  rw [k]
  dsimp only
  rw [freeContextOf_tied (s := s.setRecord h _) tied]

end

/-! ## The bytes of a FRAGMENT burst (R158) -/

theorem byteAddress_inStore {r : Record} {o k : Nat} (block : r.blocks[o / 256]? = some k) (inStore : k < 384) :
    r.byteAddress o = some (k * 256 + o % 256) := by
  have block : r.blocks[o / Config.blockBytes]? = some k := block
  unfold Record.byteAddress
  rw [block]
  exact if_pos inStore

section
variable {s : State} {b : Burst} {i f : Nat} {tag : Byte} {c : Context} {r : Record} {upset : Bool}

theorem sourceAnswer_header (source : b.source = .transfer i tag) (e : s.context i = some c) (air : c.onAir = some f)
    (k : s.record c.handle = some r) (header : b.sent < 7) :
    s.sourceAnswer b upset = .byte (byteAt (fragmentHeader tag r f) b.sent) := by
  unfold State.sourceAnswer State.fragmentByte
  simp only [source, e, k, air]
  exact if_pos header

/-- A payload byte is given where it reads with its parity, and is a parity error elsewhere. -/
theorem sourceAnswer_payload {n : Nat} (source : b.source = .transfer i tag) (e : s.context i = some c)
    (air : c.onAir = some f) (k : s.record c.handle = some r) (payload : 7 ≤ b.sent)
    (at_ : r.byteAddress (48 * f + (b.sent - 7)) = some n) : s.sourceAnswer b upset =
      if s.storeParity n = parityOf (s.storeByte n) ∧ upset = false then .byte (s.storeByte n)
      else .parityError c.handle := by
  have at_ : r.byteAddress (Config.fragmentBytes * f + (b.sent - 7)) = some n := at_
  unfold State.sourceAnswer State.fragmentByte
  simp only [source, e, k, air]
  rw [if_neg (by omega), at_]
  simp only [Bool.and_eq_true, beq_iff_eq, Bool.not_eq_true']

theorem sourceMoved_transfer (source : b.source = .transfer i tag) (t : State) : t.sourceMoved b = t := by
  unfold State.sourceMoved
  rw [source]

/-- A parity error marks the record damaged, and the abort mark comes in place of the byte (log 14). -/
theorem takeSourceAnswer_parityError {h : Nat} (live : s.held = false) (part : b.part = .data)
    (awaited : b.current = none) (k : s.record h = some r) : s.takeSourceAnswer b (.parityError h) =
      .next (State.setRecord { s with burst := some b.toAbortMark } h (some { r with damaged := true })).choose := by
  have between : b.abort = b.toAbortMark := by simp [Burst.abort, part, awaited]
  have k' : State.record { s with burst := some b.toAbortMark } h = some r := k
  refine (live_next live _).trans ?_
  unfold State.updateRecord
  rw [between, k']

end

/-- Settles O33: a header byte, and a payload byte by its parity. -/
theorem fragmentByteIsReadWithItsParity : Obligations.FragmentByteIsReadWithItsParity := by
  unfold Obligations.FragmentByteIsReadWithItsParity
  intro upset s b i f tag c r live e part awaited source ctx air k
  refine ⟨fun header x hx => ?header, fun payload block hblock inStore n x hn hx => ?payload⟩
  case header =>
    subst hx
    rw [exec_byteRequest live e part awaited, sourceAnswer_header source ctx air k header, takeSourceAnswer_byte live,
      sourceMoved_transfer source]
    rfl
  case payload =>
    subst hx hn
    rw [exec_byteRequest live e part awaited,
      sourceAnswer_payload source ctx air k payload (byteAddress_inStore hblock inStore)]
    refine ⟨fun parity calm => ?_, fun failed => ?_⟩
    · rw [if_pos ⟨parity, calm⟩, takeSourceAnswer_byte live, sourceMoved_transfer source]
      rfl
    · rw [if_neg fun ⟨parity, calm⟩ => failed.elim (· parity) (by simp [calm]),
        takeSourceAnswer_parityError live part awaited k]
      rfl

/-! ## The end of a FRAGMENT burst (R159) -/

theorem exec_burstEnd_fragment {s : State} {b : Burst} {i : Nat} {tag : Byte} (live : s.held = false)
    (e : s.burst = some b) (last : b.part = .endMark ∨ b.part = .abortMark) (source : b.source = .transfer i tag) :
    exec .burstEnd s = .next (State.fragmentBurstEnd { s with burst := none } i).choose := by
  obtain ⟨o, ended⟩ : ∃ o, b.outcome = some o := by
    unfold Burst.outcome
    rcases last with p | p <;> rw [p] <;> exact ⟨_, rfl⟩
  rw [exec_burstEnd live, burstEnd_ended e ended]
  unfold State.reportBurstEnd
  rw [source]

section
variable {s : State} {i : Nat} {c : Context} {r : Record}

theorem fragmentBurstEnd_sound (e : s.context i = some c) (k : s.record c.handle = some r)
    (sending : r.state = .sending) (sound : r.damaged = false) :
    s.fragmentBurstEnd i = s.setContext i (some { c with onAir := none }) := by
  unfold State.fragmentBurstEnd
  simp only [e, k, sending]
  exact if_neg (by simp [sound])

/-- A VOID record is freed with its context (R171). -/
theorem fragmentBurstEnd_void (e : s.context i = some c) (k : s.record c.handle = some r) (void : r.state = .void) :
    s.fragmentBurstEnd i = (s.freeRecord c.handle).setContext i none := by
  unfold State.fragmentBurstEnd
  simp only [e, k, void]
  exact setContext_setContext (s.freeRecord c.handle) i _ none

/-- A damaged record that is still SENDING goes STALLED (R172). -/
theorem fragmentBurstEnd_damaged (e : s.context i = some c) (k : s.record c.handle = some r)
    (sending : r.state = .sending) (damaged : r.damaged = true) (tied : s.contextOf c.handle = some i) :
    s.fragmentBurstEnd i =
      ((s.setRecord c.handle (some { r with state := .stalled .storeError })).setContext i none).post
        (.transferFailed r.address r.page r.generation .storeError) := by
  have k' : (s.setContext i (some { c with onAir := none })).record c.handle = some r := k
  have tied' := (contextOf_setContext (d := { c with onAir := none }) e rfl c.handle).trans tied
  unfold State.fragmentBurstEnd
  simp only [e, k, sending]
  rw [if_pos damaged, enterStalled_tied k' tied']
  exact congrArg (State.post · _) (setContext_setContext (s.setRecord c.handle _) i _ none)

end

/-- Settles O35: by the record's state and its damaged mark. -/
theorem fragmentBurstEndSettlesTheRecord : Obligations.FragmentBurstEndSettlesTheRecord := by
  unfold Obligations.FragmentBurstEndSettlesTheRecord
  intro s b i tag c r live e last source ctx k tied
  have ended := exec_burstEnd_fragment live e last source
  have settled (x : Option Record) (h : Nat) : (s.setRecord c.handle x).record h = if h = c.handle then x else s.record h :=
    record_set (record_lt k)
  refine ⟨fun sending sound => ?sound, fun void => ?void, fun sending damaged => ?damaged⟩
  case sound => rw [ended, fragmentBurstEnd_sound (s := { s with burst := none }) ctx k sending sound]
  case void =>
    rw [fragmentBurstEnd_void (s := { s with burst := none }) ctx k void] at ended
    exact ⟨_, ended, (settled none _).trans (if_pos rfl), context_setContext_same (s := { s with burst := none }) ctx none,
      rfl, fun h n => (settled none h).trans (if_neg n), fun j n => context_setContext_other (s := s) n none, rfl⟩
  case damaged =>
    rw [fragmentBurstEnd_damaged (s := { s with burst := none }) ctx k sending damaged tied] at ended
    exact ⟨_, ended, (settled _ _).trans (if_pos rfl), context_setContext_same (s := { s with burst := none }) ctx none,
      rfl, fun h n => (settled _ h).trans (if_neg n), fun j n => context_setContext_other (s := s) n none, rfl⟩

end Sys2Proof.Machine

/-! PROOFS. The judgement of a transfer at its call end (R166 to R169). -/

namespace Sys2Proof.Machine

/-! ## The rows of R167 -/

section
variable {limit : Nat} {c : Context}

theorem judge_grew (answered : c.answered = true) (grew : c.grew = true) : judge limit c = .counts 0 0 := by
  unfold judge
  rw [if_pos answered, if_pos grew]

theorem judge_busy (answered : c.answered = true) (stuck : c.grew = false) (busy : c.plainAnswer = false) :
    judge limit c = if 8 ≤ c.busyCount + 1 then .stall .labelBusy else .counts c.stallCount (c.busyCount + 1) := by
  unfold judge
  rw [if_pos answered, if_neg (by simp [stuck]), if_neg (by simp [busy])]
  rfl

theorem judge_plain (answered : c.answered = true) (stuck : c.grew = false) (plain : c.plainAnswer = true) :
    judge limit c =
      if limit ≤ c.stallCount + 1 then .stall .noProgress else .counts (c.stallCount + 1) c.busyCount := by
  unfold judge
  rw [if_pos answered, if_neg (by simp [stuck]), if_pos plain]

theorem judge_unanswered (silent : c.answered = false) : judge limit c = .counts c.stallCount c.busyCount :=
  if_neg (by simp [silent])

end

/-! ## What a judgement does (R168, R169) -/

section
variable {s : State} {a h i : Nat} {c : Context}

theorem judgeTransfer_untied (sending : s.sendingOf a = some h) (untied : s.contextOf h = none) :
    s.judgeTransfer a = s := by
  unfold State.judgeTransfer
  rw [sending]
  dsimp only
  rw [untied]

/-- With no fragment sent in the call nothing is judged (R166). -/
theorem judgeTransfer_unsent (sending : s.sendingOf a = some h) (tied : s.contextOf h = some i)
    (e : s.context i = some c) (unsent : c.sentThisRound = []) :
    s.judgeTransfer a = s.setContext i (some c.clearMarks) := by
  unfold State.judgeTransfer
  simp only [sending, tied, e]
  exact if_pos unsent

theorem judgeTransfer_counts {x y : Nat} (sending : s.sendingOf a = some h) (tied : s.contextOf h = some i)
    (e : s.context i = some c) (sent : c.sentThisRound ≠ []) (verdict : judge s.config.stallLimit c = .counts x y) :
    s.judgeTransfer a = s.setContext i (some { c.clearMarks with stallCount := x, busyCount := y }) := by
  unfold State.judgeTransfer
  simp only [sending, tied, e]
  rw [if_neg sent, verdict]

theorem judgeTransfer_stall {why : StallCause} (sending : s.sendingOf a = some h) (tied : s.contextOf h = some i)
    (e : s.context i = some c) (sent : c.sentThisRound ≠ []) (verdict : judge s.config.stallLimit c = .stall why) :
    s.judgeTransfer a = s.enterStalled h why := by
  unfold State.judgeTransfer
  simp only [sending, tied, e]
  rw [if_neg sent, verdict]

end

/-- Settles O54: the rows of the table, and what each judgement does to the record and its context. -/
theorem transferIsJudgedByTheTable : Obligations.TransferIsJudgedByTheTable := by
  unfold Obligations.TransferIsJudgedByTheTable
  refine ⟨fun limit c => ⟨judge_grew, judge_busy, judge_plain, judge_unanswered⟩, ?effect,
    fun s a => ⟨judgeTransfer_none, fun h => judgeTransfer_untied⟩⟩
  rintro s a h i c r sending k tied e m rfl
  refine ⟨judgeTransfer_unsent sending tied e, fun sent =>
    ⟨fun x y => judgeTransfer_counts sending tied e sent, fun why verdict => ?stall⟩⟩
  case stall => rw [judgeTransfer_stall sending tied e sent verdict, enterStalled_tied k tied]

end Sys2Proof.Machine

/-! PROOFS. RECEIPT in the reply window of a fragment slot (R160 to R164, R119). -/

namespace Sys2Proof.Machine

/-! ## The fields of a RECEIPT (R197, R198) -/

/-- The data bytes of a RECEIPT burst after its kind. -/
def receiptBody (hub adr page gen flags : Byte) (bitmap : List Byte) : List Byte :=
  [hub, adr, page, gen, flags] ++ bitmap

section
variable {hub adr page gen flags : Byte} {bitmap : List Byte}

theorem arrives_receipt {id : Word16} (three : bitmap.length = 3) (low : 1 ≤ adr.toNat) (high : adr.toNat ≤ 240)
    (pages : page.toNat ≤ 3) : arrives id (0x72 :: receiptBody (id.setWidth 8) adr page gen flags bitmap) = true :=
  arrives_iff.2 ⟨rfl, .inr (.inl ⟨rfl, receiptArrives_iff.2 ⟨by simp [receiptBody, three], low, high, pages⟩⟩)⟩

theorem mem_receiptBitmap {f : Nat} : f ∈ (receiptOf (0x72 :: receiptBody hub adr page gen flags bitmap)).bitmap ↔
    f < 22 ∧ (bitmap.getD (f / 8) 0).getLsbD (f % 8) = true := by
  have place : byteAt (0x72 :: receiptBody hub adr page gen flags bitmap) (6 + f / 8) = bitmap.getD (f / 8) 0 := by
    rw [Nat.add_comm]
    rfl
  unfold receiptOf
  rw [List.mem_filter, List.mem_range, place]
  rfl

end

/-! ## A RECEIPT in a reply window (R48) -/

section
variable {s : State} {d : DataSlot} {l : Label} {body : List Byte}

/-- A RECEIPT of the slot's own label is attributed to it. -/
theorem exec_receipt_attributed {n : Nat} (h : Hearing s n (some (.reply d.slot)))
    (ok : arrives s.config.hubId (0x72 :: body) = true) (data : s.dataSlot = some d)
    (e : s.entry d.place.address = .label l) (own : (byteAt body 1).toNat = d.place.address) :
    exec (.receipt ⟨n, body⟩) s = .next (s.endBurst.takeAttributed d.place d.slot (0x72 :: body)).choose := by
  obtain ⟨⟨held, hears⟩, window⟩ := h
  have arrived : arrives s.endBurst.config.hubId (0x72 :: body) = true := ok
  have data' : s.endBurst.dataSlot = some d := data
  have known : s.endBurst.label? d.place.address = some l := entry_label (s := s.endBurst) e
  have attributed : s.endBurst.attributed d.place (0x72 :: body) = true := by
    unfold State.attributed
    rw [known]
    exact Bool.and_eq_true_iff.2 ⟨Bool.and_eq_true_iff.2 ⟨rfl, beq_iff_eq.2 own⟩, rfl⟩
  rw [exec_receipt held]
  dsimp only
  rw [window, wholeBurst_heard hears, deliverWhole_window (by decide), if_pos arrived]
  unfold State.deliverInWindow
  dsimp only
  rw [data']
  dsimp only
  rw [if_pos ⟨rfl, attributed⟩]

theorem exec_receipt_otherLabel {n : Nat} (h : Hears s) (data : s.dataSlot = some d)
    (other : (byteAt body 1).toNat ≠ d.place.address) :
    exec (.receipt ⟨n, body⟩) s = .next s.endBurst.choose := by
  obtain ⟨held, hears⟩ := h
  have elsewhere := deliverWhole_otherLabel (b := ⟨n, body⟩) (kind := 0x72) (by simp) data (.inr other)
  rw [exec_receipt held, wholeBurst_discarded hears (elsewhere _)]

/-- In a slot of another kind a RECEIPT sets the heard mark and no more (R48). -/
theorem takeAttributed_receipt_directory {p : Place} {slot : Nat} (e : s.entry p.address = .label l)
    (other : ∀ h, p.kind ≠ .fragment h) :
    s.takeAttributed p slot (0x72 :: body) = s.setEntry p.address (.label (l.hear s.stamp)) := by
  unfold State.takeAttributed
  rw [updateLabel_setEntry e]
  cases k : p.kind with
  | fragment h => exact absurd k (other h)
  | _ => rfl

/-- In a fragment slot the heard mark is set and the engine takes the RECEIPT (R160). -/
theorem takeAttributed_receipt_fragment {p : Place} {slot h : Nat} (e : s.entry p.address = .label l)
    (k : p.kind = .fragment h) : s.takeAttributed p slot (0x72 :: body) =
      (s.setEntry p.address (.label (l.hear s.stamp))).engineReply p.address h (0x72 :: body) := by
  unfold State.takeAttributed
  rw [updateLabel_setEntry e, k]
  rfl

end

/-! ## The engine takes a RECEIPT (R160 to R164) -/

section
variable {s : State} {a h i : Nat} {r : Record} {c : Context}

theorem engineReply_receipt (k : s.record h = some r) (sending : r.state = .sending) (own : r.address = a)
    (tied : s.contextOf h = some i) (e : s.context i = some c) (body : List Byte) :
    s.engineReply a h (0x72 :: body) = s.takeReceipt i c r (receiptOf (0x72 :: body)) := by
  unfold State.engineReply
  rw [k]
  dsimp only
  rw [if_pos ⟨sending, own⟩, tied]
  dsimp only
  rw [e]
  rfl

variable {q : ReceiptReport}

theorem takeReceipt_busy (busy : q.busy = true) :
    s.takeReceipt i c r q = s.setContext i (some { c with answered := true }) := if_pos busy

/-- A receipt for another page or generation is a plain answer (R161). -/
theorem takeReceipt_unmatched (ready : q.busy = false) (other : q.page ≠ r.page ∨ q.generation ≠ r.generation) :
    s.takeReceipt i c r q = s.setContext i (some { c with answered := true, plainAnswer := true }) := by
  unfold State.takeReceipt
  rw [if_neg (by simp [ready])]
  exact if_neg fun ⟨page, generation⟩ => other.elim (· page) (· generation)

/-- The context after a matched receipt (R162). -/
def Context.matched (c : Context) (r : Record) (q : ReceiptReport) : Context :=
  Context.merge { c with answered := true, plainAnswer := true } r.fragments q.bitmap

theorem mem_matched {f : Nat} :
    f ∈ (c.matched r q).confirmed ↔ f ∈ c.confirmed ∨ (f ∈ q.bitmap ∧ f < (r.length + 47) / 48) := by
  unfold Context.matched Context.merge
  rw [mem_setUnion, List.mem_filter, decide_eq_true_iff, or_comm]
  rfl

/-- What grows the confirmed set is what it holds then and did not hold before. -/
theorem matched_eq : c.matched r q = { c with
    answered := true, plainAnswer := true, confirmed := (c.matched r q).confirmed
    grew := c.grew || (c.matched r q).confirmed.any fun f => !c.confirmed.contains f } := by
  have same : ((q.bitmap.filter fun f => decide (f < r.fragments)).any fun f => !c.confirmed.contains f) =
      (c.matched r q).confirmed.any fun f => !c.confirmed.contains f := by
    rw [Bool.eq_iff_iff, List.any_eq_true, List.any_eq_true]
    refine exists_congr fun f => and_congr_left fun new => ?_
    have unconfirmed : f ∉ c.confirmed := by simpa using new
    rw [mem_matched, or_iff_right unconfirmed, List.mem_filter, decide_eq_true_iff]
    rfl
  rw [← same]
  rfl

theorem confirmsAll_iff {n : Nat} {g : List Nat} : confirmsAll n g = true ↔ ∀ f, f < n → f ∈ g := by
  simp [confirmsAll]

theorem takeReceipt_matched (ready : q.busy = false) (page : q.page = r.page) (generation : q.generation = r.generation) :
    s.takeReceipt i c r q = if confirmsAll r.fragments (c.matched r q).confirmed
      then (s.setContext i (some (c.matched r q))).enterHeld c.handle
      else s.setContext i (some (c.matched r q)) := by
  unfold State.takeReceipt
  rw [if_neg (by simp [ready])]
  exact if_pos ⟨page, generation⟩

theorem takeReceipt_incomplete (ready : q.busy = false) (page : q.page = r.page) (generation : q.generation = r.generation)
    (missing : ∃ f, f < (r.length + 47) / 48 ∧ f ∉ (c.matched r q).confirmed) :
    s.takeReceipt i c r q = s.setContext i (some (c.matched r q)) := by
  obtain ⟨f, lt, missing⟩ := missing
  rw [takeReceipt_matched ready page generation]
  exact if_neg fun all => missing (confirmsAll_iff.1 all f lt)

/-- A complete set delivers the page (R164, R119). -/
theorem takeReceipt_complete (k : s.record h = some r) (tied : s.contextOf h = some i) (e : s.context i = some c)
    (ready : q.busy = false) (page : q.page = r.page) (generation : q.generation = r.generation)
    (all : ∀ f, f < (r.length + 47) / 48 → f ∈ (c.matched r q).confirmed) :
    s.takeReceipt i c r q =
      (((s.setRecord h (some { r with state := .held })).setContext i none).setHeldOrder
        (if r.pinned then s.store.heldOrder else s.store.heldOrder ++ [h])).post
        (.pageDelivered r.address r.page r.generation) := by
  obtain ⟨x, hx, own⟩ := contextOf_some tied
  obtain rfl : c = x := Option.some.inj (e.symm.trans hx)
  have tied' := (contextOf_setContext (d := c.matched r q) e rfl h).trans tied
  rw [takeReceipt_matched ready page generation, if_pos (confirmsAll_iff (n := r.fragments).2 all), own,
    enterHeld_eq (s := s.setContext i (some (c.matched r q))) k rfl (.inr ⟨i, tied', rfl⟩)]
  exact congrArg (fun t : State => (t.setHeldOrder _).post _)
    (setContext_setContext (s.setRecord h (some { r with state := .held })) i _ none)

end

/-! ## RECEIPT -/

/-- Settles O53: by the label, the slot and the record, then by the receipt's flag and key, and by the set that it leaves. -/
theorem receiptConfirmsFragments : Obligations.ReceiptConfirmsFragments := by
  unfold Obligations.ReceiptConfirmsFragments
  rintro n s u d l adr page gen flags bitmap body hbody three low high pages hearing data e hu
  obtain rfl : body = receiptBody (s.config.hubId.setWidth 8) adr page gen flags bitmap := hbody
  have hu : u = s.endBurst.setEntry d.place.address (.label (l.hear s.endBurst.stamp)) := hu
  have arrived := arrives_receipt (id := s.config.hubId) (gen := gen) (flags := flags) three low high pages
  have e' : s.endBurst.entry d.place.address = .label l := e
  refine ⟨fun other => exec_receipt_otherLabel hearing.1 data other, fun own => ?own⟩
  case own =>
    have taken := exec_receipt_attributed hearing arrived data e own
    have record (h : Nat) : u.record h = s.record h := record_eq (by simp [hu, State.endBurst, State.setAssembly]) h
    have context (i : Nat) : u.context i = s.context i := context_eq (by simp [hu, State.endBurst, State.setAssembly]) i
    have order : u.store.heldOrder = s.store.heldOrder := by simp [hu, State.endBurst, State.setAssembly]
    refine ⟨fun idle => ?idle, fun h r i c fragment k sending address tied ctx => ?engine⟩
    case idle =>
      by_cases fragment : ∃ h, d.place.kind = .fragment h
      · obtain ⟨h, fragment⟩ := fragment
        rw [takeAttributed_receipt_fragment e' fragment, ← hu, engineReply_unanswered (.inl fun q k => ?_)] at taken
        · exact taken
        · exact own ▸ idle h q fragment ((record h).symm.trans k)
      · rw [takeAttributed_receipt_directory e' fun h k => fragment ⟨h, k⟩, ← hu] at taken
        exact taken
    case engine =>
      have k := (record h).trans k
      have tied := (contextOf_congr context h).trans tied
      have ctx := (context i).trans ctx
      rw [takeAttributed_receipt_fragment e' fragment, ← hu, ← own,
        engineReply_receipt k sending address tied ctx] at taken
      refine ⟨fun busy => ?busy, fun ready other => ?unmatched, fun ready samePage sameGen => ?matched,
        fun b => engineReply_answers b k sending rfl tied ctx⟩
      case busy => rw [taken, takeReceipt_busy busy]
      case unmatched => rw [taken, takeReceipt_unmatched ready other]
      case matched =>
        refine ⟨(c.matched r (receiptOf (0x72 :: receiptBody (s.config.hubId.setWidth 8) adr page gen flags
          bitmap))).confirmed, fun f => ?members, fun missing => ?incomplete, fun all => ?complete⟩
        case members =>
          rw [mem_matched, mem_receiptBitmap]
          tauto
        case incomplete => rw [taken, takeReceipt_incomplete ready samePage sameGen missing, ← matched_eq]
        case complete => rw [taken, takeReceipt_complete k tied ctx ready samePage sameGen all, order]

end Sys2Proof.Machine

/-! PROOFS. The resets (R190 to R192): the part held in reset, the state that a reset leaves and its forms, and RESET. -/

namespace Sys2Proof.Machine

/-! ## The reset state (R192) -/

section
variable (c : ResetCause) (s : State)

theorem resetBy_entry (a : Nat) : (s.resetBy c).entry a = .vacant := by
  simp only [State.entry, State.resetBy, State.blank, Vector.getElem?_replicate]
  repeat' split
  all_goals rfl

theorem resetBy_record (h : Nat) : (s.resetBy c).record h = none := by
  simp only [State.record, State.resetBy, State.blank, Vector.getElem?_replicate]
  split <;> rfl

theorem resetBy_context (i : Nat) : (s.resetBy c).context i = none := by
  simp only [State.context, State.resetBy, State.blank, Vector.getElem?_replicate]
  split <;> rfl

/-- The transmitter begins HUB_READY as the reset ends (log 10). -/
theorem resetBy_choose : (s.resetBy c).choose = { State.reset with
    link := { State.reset.link with notices := [], sending := some (.notice ⟨0, .hubReady c⟩) }
    pdinAhead := s.pdinAhead
    rxdAhead := s.rxdAhead
    pending := s.pending } := rfl

end

theorem reset_eq_resetBy : State.reset = State.blank.resetBy .power := rfl

theorem freeBlocks_of_noRecord {s : State} (empty : ∀ h, s.record h = none) : s.freeBlocks = List.range 384 := by
  have unused : s.usedBlocks = [] := List.flatMap_eq_nil_iff.2 fun h _ => by rw [empty h]
  exact List.filter_eq_self.2 fun b _ => by rw [unused]; rfl

/-- Settles O2. -/
theorem resetStateHoldsTheResetValues : Obligations.ResetStateHoldsTheResetValues := by
  unfold Obligations.ResetStateHoldsTheResetValues
  have entries := resetBy_entry .power State.blank
  have records := resetBy_record .power State.blank
  have contexts := resetBy_context .power State.blank
  exact ⟨rfl, rfl, rfl, rfl, entries, rfl, rfl, rfl, records, rfl, freeBlocks_of_noRecord records, contexts, rfl, rfl,
    rfl, rfl, rfl, rfl, rfl, rfl, rfl, rfl, rfl, rfl, rfl, rfl, rfl, rfl, rfl, rfl, rfl, rfl⟩

/-- Settles O59: the reset state is what a power-on leaves, and every reset leaves a state in every form. -/
theorem resetStateHasEveryForm : Obligations.ResetStateHasEveryForm := by
  unfold Obligations.ResetStateHasEveryForm
  exact Sound.resetBy State.blank .power

/-! ## The resets from outside (R191) -/

/-- Settles O3. -/
theorem pinAndPowerResetsRestartThePart : Obligations.PinAndPowerResetsRestartThePart := by
  unfold Obligations.PinAndPowerResetsRestartThePart
  exact fun s => ⟨congrArg Host.Outcome.next (resetBy_choose .power s),
    congrArg Host.Outcome.next (resetBy_choose .pin s), rfl⟩

theorem live_held {s : State} (h : s.held = true) (t : State) : live s t = .next s := by
  unfold live
  rw [if_pos h]

/-- Settles O4: every row but the resets is an event that a part held in reset does not take. -/
theorem heldPartTakesNoOtherEvent : Obligations.HeldPartTakesNoOtherEvent := by
  unfold Obligations.HeldPartTakesNoOtherEvent
  intro c s held notPower notPin notLow
  cases c with
  | powerOn => exact absurd rfl notPower
  | rstnReset => exact absurd rfl notPin
  | rstnLow => exact absurd rfl notLow
  | byteRequest upset => exact if_pos held
  | _ => exact live_held held _

/-! ## RESET (R190) -/

section
variable {s : State} {tag : Byte} (online : s.link.sending = some (.reply ⟨0x07, tag, .ok, [], true⟩))
include online

theorem commandReset_resets : s.commandReset = s.resetBy .command :=
  if_pos (by unfold State.resetOnLine; rw [online]; rfl)

theorem frameSent_resets : s.frameSent = s.resetBy .command := by
  unfold State.frameSent
  rw [online]
  rfl

end

/-- Settles O5: RESET as a command, and the two rows that can end its reply's frame. -/
theorem resetCommandResetsAfterItsReply : Obligations.ResetCommandResetsAfterItsReply := by
  unfold Obligations.ResetCommandResetsAfterItsReply
  refine fun tag s => ⟨fun ready => taken ready (f := ⟨0x07, tag, []⟩) (k := .reset) rfl rfl (Nat.zero_le _),
    fun unheld online => ?_⟩
  have command : exec .commandReset s = .next (s.resetBy .command).choose := by
    rw [← commandReset_resets online]
    exact live_next unheld _
  have sent : exec .frameSent s = .next (s.resetBy .command).choose := by
    rw [← frameSent_resets online]
    exact live_next unheld _
  exact ⟨command.trans (congrArg Host.Outcome.next (resetBy_choose .command s)), sent.trans command.symm⟩

end Sys2Proof.Machine

/-! PROOFS. Whole frames at the host link (R178 to R182): what the command queue does with one, what a command that is
carried out leaves alone, and what a refusal is. -/

namespace Sys2Proof.Machine

/-! ## A frame and the command queue (R180) -/

section
variable {s : State} {f : HostFrame}

theorem takeFrame_short (short : f.payload.length ≤ 200) :
    s.takeFrame f = (s.setReceiver FrameReceiver.hunting).admitFrame f := if_neg (Nat.not_lt.2 short)

theorem queueIsFull_of (full : s.link.commands.length = 4) : s.queueIsFull = true := decide_eq_true full.ge

theorem queueIsFull_not (room : s.link.commands.length < 4) : ¬s.queueIsFull = true :=
  fun full => Nat.not_le.2 room (of_decide_eq_true full)

theorem admitFrame_queued (busy : s.link.commands ≠ []) (room : s.link.commands.length < 4) :
    s.admitFrame f = s.setCommands (s.link.commands ++ [f]) := by
  rw [State.admitFrame, if_neg (queueIsFull_not room)]
  exact if_neg busy

theorem admitFrame_answered (full : s.link.commands.length = 4)
    (room : (s.link.replies.filter fun r => !r.ofHead).length < 4) :
    s.admitFrame f = s.addReply ⟨f.kind, f.tag, .queueFull, [], false⟩ := by
  rw [State.admitFrame, if_pos (queueIsFull_of full)]
  exact if_pos room

theorem admitFrame_noRoom (full : s.link.commands.length = 4)
    (noRoom : 4 ≤ (s.link.replies.filter fun r => !r.ofHead).length) : s.admitFrame f = s.discardFrame := by
  rw [State.admitFrame, if_pos (queueIsFull_of full)]
  exact if_neg (Nat.not_lt.2 noRoom)

theorem takeFrame_queued (short : f.payload.length ≤ 200) (busy : s.link.commands ≠ [])
    (room : s.link.commands.length < 4) : s.takeFrame f = { s with link := { s.link with
      receiver := ⟨.hunting, [], 0xFFFF⟩, commands := s.link.commands ++ [f] } } :=
  (takeFrame_short short).trans (admitFrame_queued (s := s.setReceiver FrameReceiver.hunting) busy room)

theorem takeFrame_answered (short : f.payload.length ≤ 200) (full : s.link.commands.length = 4)
    (room : (s.link.replies.filter fun r => !r.ofHead).length < 4) : s.takeFrame f = { s with link := { s.link with
      receiver := ⟨.hunting, [], 0xFFFF⟩, replies := s.link.replies ++ [⟨f.kind, f.tag, .queueFull, [], false⟩] } } :=
  (takeFrame_short short).trans (admitFrame_answered (s := s.setReceiver FrameReceiver.hunting) full room)

theorem takeFrame_noRoom (short : f.payload.length ≤ 200) (full : s.link.commands.length = 4)
    (noRoom : 4 ≤ (s.link.replies.filter fun r => !r.ofHead).length) : s.takeFrame f = s.discardFrame :=
  (takeFrame_short short).trans (admitFrame_noRoom (s := s.setReceiver FrameReceiver.hunting) full noRoom)

end

theorem commandKindOf_eq_none {k : Byte} : commandKindOf k = none ↔ k ∉ commandKindBytes := by
  have bytes : commandKindBytes = CommandKind.all.map CommandKind.code := rfl
  simp [commandKindOf, bytes]

/-- A host command's row is the last character of its frame (log 3). -/
theorem exec_hostFrame {c : Instr} {f : HostFrame} (wf : c.wf = true) (h : hostFrameOf c = some f) (s : State) :
    exec c s = live s (s.takeFrame f) ∧ f.payload.length ≤ 200 := by
  cases c with
  | malformedCommand k tag p =>
    obtain rfl := Option.some.inj h
    obtain ⟨short, other⟩ := Bool.and_eq_true_iff.1 wf
    have noKind : (commandKindOf k).isNone = true := by
      rw [commandKindOf_eq_none.2 (by simpa using other)]
      rfl
    exact ⟨congrArg (live s) (if_pos noKind), of_decide_eq_true short⟩
  | _ =>
    cases h <;> exact ⟨rfl, of_decide_eq_true wf⟩

/-- Settles O8. -/
theorem frameIsQueuedAnsweredOrDropped : Obligations.FrameIsQueuedAnsweredOrDropped := by
  unfold Obligations.FrameIsQueuedAnsweredOrDropped
  intro c f s wf h unheld
  obtain ⟨row, short⟩ := exec_hostFrame wf h s
  rw [row, live_next unheld]
  exact ⟨fun idle => by rw [takeFrame_ready idle f short], fun busy room => by rw [takeFrame_queued short busy room],
    fun full room => by rw [takeFrame_answered short full room],
    fun full noRoom => by rw [takeFrame_noRoom short full noRoom]; rfl⟩

/-- Settles O9: the row is in place exactly with the queue full. -/
theorem queueFullFrameIsNotQueued : Obligations.QueueFullFrameIsNotQueued := by
  unfold Obligations.QueueFullFrameIsNotQueued
  intro k tag p s short unheld
  have row : exec (.queueFull k tag p) s = .next (s.queueFull ⟨k, tag, p⟩).choose := live_next unheld _
  have inPlace (full : s.link.commands.length = 4) : s.queueFull ⟨k, tag, p⟩ = s.takeFrame ⟨k, tag, p⟩ :=
    if_pos (queueIsFull_of full)
  have outOfPlace (few : s.link.commands.length < 4) : s.queueFull ⟨k, tag, p⟩ = s :=
    if_neg (queueIsFull_not few)
  rw [row]
  exact ⟨fun full room => by rw [inPlace full, takeFrame_answered short full room],
    fun full noRoom => by rw [inPlace full, takeFrame_noRoom short full noRoom]; rfl,
    fun few => by rw [outOfPlace few]⟩

/-! ## Frames discarded (R179) -/

theorem frameDiscard_noRoom {s : State} (full : s.link.commands.length = 4)
    (waiting : (s.link.replies.filter fun r => !r.ofHead).length = 4) : s.frameDiscard .noRoom = s.discardFrame :=
  if_pos (Bool.and_eq_true_iff.2 ⟨queueIsFull_of full, decide_eq_true waiting.ge⟩)

theorem frameDiscard_room {s : State} (room : s.link.commands.length < 4
    ∨ (s.link.replies.filter fun r => !r.ofHead).length < 4) : s.frameDiscard .noRoom = s := by
  refine if_neg fun noRoom => ?_
  obtain ⟨full, waiting⟩ := Bool.and_eq_true_iff.1 noRoom
  exact room.elim (Nat.not_lt.2 (of_decide_eq_true full)) (Nat.not_lt.2 (of_decide_eq_true waiting))

/-- Settles O13: by the cause of the discard, and by what ends a gap. -/
theorem discardedFrameIsCounted : Obligations.DiscardedFrameIsCounted := by
  unfold Obligations.DiscardedFrameIsCounted
  intro s unheld
  have discard (cause : DiscardCause) : exec (.frameDiscard cause) s = .next (s.frameDiscard cause).choose :=
    live_next unheld _
  have gap : exec .frameGap s = .next s.frameGap.choose := live_next unheld _
  refine ⟨fun c m => ?_, fun full waiting => ?_, fun room => ?_, fun inFrame still => ?_, fun out => ?_⟩
  · rw [List.mem_pair] at m
    rcases m with rfl | rfl <;> exact discard _
  · rw [discard, frameDiscard_noRoom full waiting]
    rfl
  · rw [discard, frameDiscard_room room]
  · rw [gap, show s.frameGap = s.discardFrame from if_neg (by simp [inFrame, still])]
    rfl
  · rw [gap, show s.frameGap = s from if_pos out]

/-! ## Carrying out a command (R181, R182) -/

/-- Settles O12: whatever the command does, it leaves the rest of the link alone, and its reply joins those waiting. -/
theorem commandMakesOneReplyWithItsTag : Obligations.CommandMakesOneReplyWithItsTag := by
  unfold Obligations.CommandMakesOneReplyWithItsTag
  intro s f
  have kept := perform_answer s f
  have link {α : Type} (part : HostLink → α)
      (same : ∀ l n o d, part { l with notices := n, overflow := o, dropped := d } = part l) :
      part (s.perform f).state.link = part s.link := by
    rw [kept.link, same]
  exact ⟨⟨_, _, congrArg (· ++ [_]) (link HostLink.replies fun _ _ _ _ => rfl)⟩,
    link HostLink.commands fun _ _ _ _ => rfl, link HostLink.sending fun _ _ _ _ => rfl,
    link HostLink.receiver fun _ _ _ _ => rfl, kept.held, kept.pending⟩

/-- An answer that is a refusal in full or not at all. -/
def Answer.RefusesWhole (s : State) (a : Answer) : Prop := a.status ≠ .ok → a.state = s ∧ a.result = []

theorem refuse_whole (s : State) (why : Status) : (s.refuse why).RefusesWhole s := fun _ => ⟨rfl, rfl⟩

theorem accept_whole (s t : State) (result : List Byte) : (t.accept result).RefusesWhole s := fun no => absurd rfl no

/-- Each command's checks come before its effect: every branch of its rule ends in a refusal of the state as it stood or
in an acceptance. -/
theorem runCommand_whole (s : State) (k : CommandKind) (p : List Byte) : (s.runCommand k p).RefusesWhole s := by
  cases k with
  | getInfo | getStatus | stop | reset => exact accept_whole s _ _
  | _ =>
    dsimp only [State.runCommand, State.doConfigure, State.doStart, State.doLineTest, State.doAdmit, State.doLabelQuery,
      State.doLabelList, State.doLabelOp, State.queueOperation, State.doRelease, State.doForget, State.doPageBegin,
      State.beginPage, State.doPageData, State.doPageEnd, State.doPageDiscard, State.doPagePin, State.doPageUnpin,
      State.doPageRequeue, State.doPageQuery]
    repeat' split
    all_goals first
      | exact refuse_whole s _
      | exact accept_whole s _ _

/-- Settles O11: a refusal comes from the check of R182 or from the command's own checks. -/
theorem refusedCommandChangesNothing : Obligations.RefusedCommandChangesNothing := by
  unfold Obligations.RefusedCommandChangesNothing
  intro s f
  show (s.perform f).RefusesWhole s
  unfold State.perform
  split
  · exact refuse_whole s _
  · split
    · exact runCommand_whole s _ _
    · exact refuse_whole s _

/-! ## Payloads of a wrong form (R182, R194 to R196) -/

theorem code_of_commandKindOf {b : Byte} {k : CommandKind} (h : commandKindOf b = some k) : b = k.code :=
  (beq_iff_eq.1 (List.find?_some (p := fun c : CommandKind => c.code == b) h)).symm

theorem payloadOk_fixedLength {k : CommandKind} {n : Nat} (h : (k.code, n) ∈ fixedLengths) (p : List Byte) :
    payloadOk k p = (p.length == n) := by
  cases k <;> simp [fixedLengths, CommandKind.code] at h <;> subst h <;> rfl

theorem payloadOk_wrongForm {f : HostFrame} {k : CommandKind} (h : commandKindOf f.kind = some k) (wrong : WrongForm f) :
    payloadOk k f.payload = false := by
  have kindIs {b : Byte} (e : f.kind = b) {c : CommandKind} (code : commandKindOf b = some c) : k = c :=
    Option.some.inj (h.symm.trans (e ▸ code))
  refine Bool.eq_false_iff.2 fun ok => ?_
  rcases wrong with unknown | ⟨n, fixed, length⟩ | ⟨e, form⟩ | ⟨e, form⟩ | ⟨e, form⟩ | ⟨e, form⟩ | ⟨e, form⟩
  · rw [commandKindOf_eq_none.2 unknown] at h
    cases h
  · rw [code_of_commandKindOf h] at fixed
    rw [payloadOk_fixedLength fixed] at ok
    exact length (beq_iff_eq.1 ok)
  · obtain rfl := kindIs e (c := .configure) rfl
    simp only [payloadOk, Bool.and_eq_true, decide_eq_true_eq, beq_iff_eq] at ok
    obtain ⟨⟨long, mask⟩, length⟩ := ok
    rcases form with short | reserved | other
    · omega
    · exact Nat.not_le.2 mask reserved
    · exact other length
  · obtain rfl := kindIs e (c := .labelQuery) rfl
    simp only [payloadOk, Bool.or_eq_true, Bool.and_eq_true, beq_iff_eq] at ok
    exact ok.elim form.1 form.2
  · obtain rfl := kindIs e (c := .labelOp) rfl
    simp only [payloadOk, Bool.and_eq_true, decide_eq_true_eq] at ok
    obtain ⟨⟨two, four⟩, length⟩ := ok
    rcases form with short | long | ⟨op, other⟩ | ⟨op, other⟩ | ⟨op | op, other⟩
    · omega
    · omega
    all_goals
      rw [op] at length
      exact other (beq_iff_eq.1 length)
  · obtain rfl := kindIs e (c := .pageData) rfl
    simp only [payloadOk, Bool.and_eq_true, decide_eq_true_eq, beq_iff_eq] at ok
    omega
  · obtain rfl := kindIs e (c := .pageQuery) rfl
    simp only [payloadOk, Bool.or_eq_true, Bool.and_eq_true, beq_iff_eq] at ok
    exact ok.elim form.1 form.2

theorem perform_wrongForm {f : HostFrame} (wrong : WrongForm f) (s : State) : s.perform f = s.refuse .malformed := by
  unfold State.perform
  split
  · rfl
  · rename_i k known
    rw [payloadOk_wrongForm known wrong, if_neg Bool.false_ne_true]

/-- Settles O10. -/
theorem malformedCommandIsRefused : Obligations.MalformedCommandIsRefused := by
  unfold Obligations.MalformedCommandIsRefused
  intro c f s wf h ready wrong
  obtain ⟨row, short⟩ := exec_hostFrame wf h s
  rw [row, live_next ready.1, takeFrame_ready ready.2 f short, carryOut_eq, perform_wrongForm wrong]
  rfl

/-! ## GET_INFO and GET_STATUS (R188, R189) -/

/-- Settles O6. -/
theorem getInfoAnswersTheFixedValues : Obligations.GetInfoAnswersTheFixedValues := by
  unfold Obligations.GetInfoAnswersTheFixedValues
  exact fun tag s ready => taken ready (f := ⟨0x01, tag, []⟩) (k := .getInfo) rfl rfl (Nat.zero_le _)

/-- The report of R189 in the layout of R196. -/
theorem statusBytes_eq (s : State) : statusBytes s =
    [s.hub.name.code, flagByte s.timebase.running] ++ leBytes 2 (s.stamp.toNat / 16 % 65536)
      ++ [byteOf (s.stamp.toNat % 16)] ++ leBytes 4 s.stamp.toNat
      ++ [byteOf (s.entriesInState 0), byteOf (s.entriesInState 1), byteOf (s.entriesInState 2),
          byteOf (s.entriesInState 3), byteOf (s.entriesInState 4), byteOf (s.entriesInState 5)]
      ++ [byteOf s.directory.admission.length, flagByte s.directory.crowded]
      ++ leBytes 2 s.freeBlocks.length
      ++ [byteOf s.freeSlots.length, byteOf s.pinnedCount, byteOf s.contextsInUse, flagByte s.foreignSeen,
          flagByte s.link.overflow]
      ++ leBytes 2 s.link.dropped := by
  have epoch : s.epoch.toNat = s.stamp.toNat / 16 % 65536 := BitVec.toNat_ofNat _ 16
  unfold statusBytes
  rw [epoch]
  rfl

theorem entriesInState_reset (code : Byte) : State.reset.entriesInState code = if code = 0 then 240 else 0 := by
  have vacant (a : Nat) : (State.reset.entry a).code = 0 := congrArg Entry.code (resetBy_entry .power State.blank a)
  unfold State.entriesInState
  simp only [vacant]
  split
  · rename_i e
    subst e
    exact congrArg List.length (List.filter_eq_self.2 fun _ _ => rfl)
  · rename_i other
    exact congrArg List.length (List.filter_eq_nil_iff.2 fun _ _ same => other (beq_iff_eq.1 same).symm)

theorem freeSlots_of_noRecord {s : State} (empty : ∀ h, s.record h = none) : s.freeSlots = handles :=
  List.filter_eq_self.2 fun h _ => by rw [empty h]; rfl

theorem pinnedCount_of_noRecord {s : State} (empty : ∀ h, s.record h = none) : s.pinnedCount = 0 :=
  congrArg List.length (List.filter_eq_nil_iff.2 fun h _ => by rw [empty h]; exact Bool.false_ne_true)

theorem contextsInUse_of_noContext {s : State} (free : ∀ i, s.context i = none) : s.contextsInUse = 0 :=
  congrArg List.length (List.filter_eq_nil_iff.2 fun i _ => by rw [free i]; exact Bool.false_ne_true)

theorem statusBytes_reset : statusBytes State.reset =
    [0, 0, 0, 0, 0, 0, 0, 0, 0, 240, 0, 0, 0, 0, 0, 0, 0, 0x80, 1, 128, 0, 0, 0, 0, 0, 0] := by
  have records := resetBy_record .power State.blank
  rw [← reset_eq_resetBy] at records
  have contexts := resetBy_context .power State.blank
  rw [← reset_eq_resetBy] at contexts
  rw [statusBytes_eq, freeBlocks_of_noRecord records, freeSlots_of_noRecord records, pinnedCount_of_noRecord records,
    contextsInUse_of_noContext contexts]
  simp only [entriesInState_reset, handles, List.length_range]
  rfl

/-- Settles O7. -/
theorem getStatusReportsAndClears : Obligations.GetStatusReportsAndClears := by
  unfold Obligations.GetStatusReportsAndClears
  refine ⟨fun tag s ready => ⟨(s.inHand ⟨0x02, tag, []⟩).doGetStatus.state, ?_, rfl, rfl, rfl⟩, statusBytes_reset⟩
  rw [← statusBytes_eq]
  exact taken ready (f := ⟨0x02, tag, []⟩) (k := .getStatus) rfl rfl (Nat.zero_le _)

/-! ## The end of a frame sent (R181, R184) -/

section
variable {s : State} {r : Reply}

theorem frameSent_notice {n : Posted} (online : s.link.sending = some (.notice n)) : s.frameSent = s.endFrame := by
  unfold State.frameSent
  rw [online]

theorem frameSent_queueFull (online : s.link.sending = some (.reply r)) (other : r.ofHead = false) :
    s.frameSent = s.endFrame := by
  unfold State.frameSent Reply.endsInReset
  rw [online]
  dsimp only
  rw [other]
  rfl

theorem endsInReset_not (other : r.kind ≠ 0x07 ∨ r.status ≠ .ok) : r.endsInReset = false := by
  refine Bool.eq_false_iff.2 fun ends => ?_
  unfold Reply.endsInReset at ends
  rw [Bool.and_eq_true, Bool.and_eq_true, beq_iff_eq, beq_iff_eq] at ends
  obtain ⟨⟨-, kind⟩, status⟩ := ends
  exact other.elim (absurd kind) (absurd status)

theorem frameSent_ofHead (online : s.link.sending = some (.reply r)) (head : r.ofHead = true)
    (other : r.kind ≠ 0x07 ∨ r.status ≠ .ok) : s.frameSent = s.endFrame.nextCommand := by
  unfold State.frameSent
  rw [online]
  dsimp only
  rw [endsInReset_not other, head]
  rfl

theorem nextCommand_last {f : HostFrame} (one : s.link.commands = [f]) : s.nextCommand = s.setCommands [] := by
  unfold State.nextCommand
  rw [one]

theorem nextCommand_behind {f g : HostFrame} {rest : List HostFrame} (more : s.link.commands = f :: g :: rest) :
    s.nextCommand = (s.setCommands (g :: rest)).carryOut g := by
  unfold State.nextCommand
  rw [more]

end

/-- Settles O16: by the frame that was on the line, and by what waits behind the command in hand. -/
theorem frameSentFreesTheLine : Obligations.FrameSentFreesTheLine := by
  unfold Obligations.FrameSentFreesTheLine
  intro s unheld
  rw [show exec .frameSent s = .next s.frameSent.choose from live_next unheld _]
  refine ⟨fun n online => ?_, fun r online other => ?_, fun r f online head other one => ?_,
    fun r f g rest online head other more => ?_⟩
  · rw [frameSent_notice online]
    rfl
  · rw [frameSent_queueFull online other]
    rfl
  · rw [frameSent_ofHead online head other, nextCommand_last (s := s.endFrame) one]
    rfl
  · rw [frameSent_ofHead online head other, nextCommand_behind (s := s.endFrame) more]
    rfl

end Sys2Proof.Machine

/-! PROOFS. The frame receiver, character by character (R178), and the watch on RXD (R177; log 30). -/

namespace Sys2Proof.Machine

/-! ## A character by the phase of the frame receiver (R178) -/

section
variable {s : State} {r : FrameReceiver} {b : Byte}

theorem takeCharacter_hunting (h : s.link.receiver = r) (phase : r.phase = .hunting) :
    s.takeCharacter b = if b = 0xC3 then s.setReceiver ⟨.lengthLow, [], 0xFFFF⟩ else s := by
  simp only [State.takeCharacter, h, phase]
  rfl

theorem takeCharacter_lengthLow (h : s.link.receiver = r) (phase : r.phase = .lengthLow) :
    s.takeCharacter b = s.setReceiver ⟨.lengthHigh, r.bytes ++ [b], crcByte r.crc b⟩ := by
  simp only [State.takeCharacter, h, phase]
  rfl

theorem takeCharacter_lengthHigh (h : s.link.receiver = r) (phase : r.phase = .lengthHigh) :
    s.takeCharacter b = if leNat ((r.bytes ++ [b]).take 2) ≤ 200 then
      s.setReceiver ⟨.kind, r.bytes ++ [b], crcByte r.crc b⟩ else s.discardFrame := by
  simp only [State.takeCharacter, h, phase]
  exact (ite_not _ _ _).symm.trans (if_congr Nat.not_lt rfl rfl)

theorem takeCharacter_kind (h : s.link.receiver = r) (phase : r.phase = .kind) :
    s.takeCharacter b = s.setReceiver ⟨.tag, r.bytes ++ [b], crcByte r.crc b⟩ := by
  simp only [State.takeCharacter, h, phase]
  rfl

theorem takeCharacter_tag (h : s.link.receiver = r) (phase : r.phase = .tag) :
    s.takeCharacter b = s.setReceiver ⟨if leNat (r.bytes.take 2) = 0 then .crcLow else .payload, r.bytes ++ [b],
      crcByte r.crc b⟩ := by
  simp only [State.takeCharacter, h, phase]
  rfl

theorem takeCharacter_payload (h : s.link.receiver = r) (phase : r.phase = .payload) :
    s.takeCharacter b = s.setReceiver ⟨if r.bytes.length + 1 < 4 + leNat (r.bytes.take 2) then .payload else .crcLow,
      r.bytes ++ [b], crcByte r.crc b⟩ := by
  simp only [State.takeCharacter, h, phase]
  rfl

theorem takeCharacter_crcLow (h : s.link.receiver = r) (phase : r.phase = .crcLow) :
    s.takeCharacter b = s.setReceiver ⟨.crcHigh, r.bytes ++ [b], r.crc⟩ := by
  simp only [State.takeCharacter, h, phase]

theorem takeCharacter_crcHigh (h : s.link.receiver = r) (phase : r.phase = .crcHigh) :
    s.takeCharacter b = if [byteAt r.bytes (4 + leNat (r.bytes.take 2)), b] = crcBytes r.crc then
      s.takeFrame ⟨byteAt r.bytes 2, byteAt r.bytes 3, (r.bytes.drop 4).take (leNat (r.bytes.take 2))⟩
      else s.discardFrame := by
  simp only [State.takeCharacter, h, phase]
  exact if_congr beq_iff_eq rfl rfl

end

/-! ## The characters of a frame, one after another (R178) -/

/-- The characters of the payload fill it, and the last of them makes the receiver await the CRC. -/
theorem payload_taken (s : State) (rest : List Byte) (bytes : List Byte) (crc : Word16) (nonempty : rest ≠ [])
    (header : 2 ≤ bytes.length) (length : bytes.length + rest.length = 4 + leNat (bytes.take 2)) :
    rest.foldl State.takeCharacter (s.setReceiver ⟨.payload, bytes, crc⟩)
      = s.setReceiver ⟨.crcLow, bytes ++ rest, rest.foldl crcByte crc⟩ := by
  induction rest generalizing bytes crc with
  | nil => exact absurd rfl nonempty
  | cons b rest ih =>
    have taken : (s.setReceiver ⟨.payload, bytes, crc⟩).takeCharacter b = s.setReceiver
        ⟨if bytes.length + 1 < 4 + leNat (bytes.take 2) then .payload else .crcLow, bytes ++ [b], crcByte crc b⟩ :=
      takeCharacter_payload rfl rfl
    rw [List.length_cons] at length
    rw [List.foldl_cons, taken]
    cases rest with
    | nil =>
      rw [if_neg (by rw [List.length_nil] at length; omega)]
      rfl
    | cons c rest =>
      rw [if_pos (by rw [List.length_cons] at length; omega)]
      have next := ih (bytes ++ [b]) (crcByte crc b) (List.cons_ne_nil c rest)
        (by rw [List.length_append]; omega)
        (by rw [List.take_append_of_le_length header, List.length_append, List.length_singleton]; omega)
      rw [List.append_assoc] at next
      exact next

/-- The bytes of a frame between its start byte and its CRC (R194). -/
def HostFrame.body (f : HostFrame) : List Byte :=
  [byteOf f.payload.length, byteOf (f.payload.length / 256), f.kind, f.tag] ++ f.payload

theorem frameBytes_body (f : HostFrame) :
    frameBytes f.kind f.tag f.payload = 0xC3 :: (f.body ++ crcBytes (crcOf f.body)) := rfl

/-- After the start byte the receiver takes the header, and awaits the payload if there is one. -/
theorem header_taken (s : State) {low high kind tag : Byte} {n : Nat} (count : leNat [low, high] = n) (short : n ≤ 200) :
    [low, high, kind, tag].foldl State.takeCharacter (s.setReceiver ⟨.lengthLow, [], 0xFFFF⟩)
      = s.setReceiver ⟨if n = 0 then .crcLow else .payload, [low, high, kind, tag], crcOf [low, high, kind, tag]⟩ := by
  have lowTaken : (s.setReceiver ⟨.lengthLow, [], 0xFFFF⟩).takeCharacter low
      = s.setReceiver ⟨.lengthHigh, [low], crcOf [low]⟩ := takeCharacter_lengthLow rfl rfl
  have highTaken : (s.setReceiver ⟨.lengthHigh, [low], crcOf [low]⟩).takeCharacter high
      = s.setReceiver ⟨.kind, [low, high], crcOf [low, high]⟩ :=
    (takeCharacter_lengthHigh rfl rfl).trans (if_pos (count.trans_le short))
  have kindTaken : (s.setReceiver ⟨.kind, [low, high], crcOf [low, high]⟩).takeCharacter kind
      = s.setReceiver ⟨.tag, [low, high, kind], crcOf [low, high, kind]⟩ := takeCharacter_kind rfl rfl
  have tagTaken : (s.setReceiver ⟨.tag, [low, high, kind], crcOf [low, high, kind]⟩).takeCharacter tag
      = s.setReceiver ⟨if n = 0 then .crcLow else .payload, [low, high, kind, tag], crcOf [low, high, kind, tag]⟩ := by
    rw [← count]
    exact takeCharacter_tag rfl rfl
  simp only [List.foldl_cons, List.foldl_nil, lowTaken, highTaken, kindTaken, tagTaken]

/-- With the last byte of a CRC that matches the running one, the frame received is taken. -/
theorem crc_matches (s : State) {bytes : List Byte} {n : Nat} {x y : Byte} {c : Word16}
    (count : leNat (bytes.take 2) = n) (last : byteAt bytes (4 + n) = x) (crc : [x, y] = crcBytes c) :
    (s.setReceiver ⟨.crcHigh, bytes, c⟩).takeCharacter y
      = s.takeFrame ⟨byteAt bytes 2, byteAt bytes 3, (bytes.drop 4).take n⟩ := by
  subst count last
  exact (takeCharacter_crcHigh rfl rfl).trans (if_pos crc)

section
variable {f : HostFrame} (short : f.payload.length ≤ 200)
include short

theorem leNat_length : leNat [byteOf f.payload.length, byteOf (f.payload.length / 256)] = f.payload.length := by
  simp only [leNat, byteOf, BitVec.toNat_ofNat]
  omega

theorem body_taken (s : State) : f.body.foldl State.takeCharacter (s.setReceiver ⟨.lengthLow, [], 0xFFFF⟩)
    = s.setReceiver ⟨.crcLow, f.body, crcOf f.body⟩ := by
  have count := leNat_length short
  unfold HostFrame.body
  rw [List.foldl_append, header_taken s count short]
  by_cases empty : f.payload = []
  · rw [if_pos (List.length_eq_zero_iff.2 empty), empty]
    rfl
  · rw [if_neg fun zero => empty (List.length_eq_zero_iff.1 zero), crcOf_append]
    exact payload_taken s f.payload _ _ empty (Nat.le_add_left 2 2) (congrArg (4 + ·) count.symm)

/-- With both bytes of the CRC taken, the frame that is taken is the one that was sent. -/
theorem crc_taken (s : State) : (crcBytes (crcOf f.body)).foldl State.takeCharacter
    (s.setReceiver ⟨.crcLow, f.body, crcOf f.body⟩) = s.takeFrame f := by
  rw [crcBytes_eq]
  generalize low : byteOf (crcOf f.body).toNat = x
  generalize high : byteOf ((crcOf f.body).toNat / 256) = y
  have count : leNat ((f.body ++ [x]).take 2) = f.payload.length := leNat_length short
  have payload : ((f.body ++ [x]).drop 4).take f.payload.length = f.payload := List.take_left
  have last : byteAt (f.body ++ [x]) (4 + f.payload.length) = x := by
    have length : f.body.length = 4 + f.payload.length := Nat.add_comm _ 4
    rw [← length]
    simp [byteAt]
  have lowTaken : (s.setReceiver ⟨.crcLow, f.body, crcOf f.body⟩).takeCharacter x
      = s.setReceiver ⟨.crcHigh, f.body ++ [x], crcOf f.body⟩ := takeCharacter_crcLow rfl rfl
  have highTaken := crc_matches s count last (y := y) (c := crcOf f.body) (by rw [crcBytes_eq, low, high])
  rw [payload] at highTaken
  rw [List.foldl_cons, lowTaken, List.foldl_cons, highTaken]
  rfl

end

/-- Settles O15: the start byte, the header and the payload, and the CRC. -/
theorem charactersOfAFrameTakeIt : Obligations.CharactersOfAFrameTakeIt := by
  unfold Obligations.CharactersOfAFrameTakeIt
  intro s f hunting short
  rw [frameBytes_body, List.foldl_cons, takeCharacter_hunting rfl hunting, if_pos rfl, List.foldl_append,
    body_taken short, crc_taken short]

/-! ## A character on RXD (R177) -/

theorem characterReceived_noise (s : State) (data : List Bool) (stop : Bool) :
    s.characterReceived true data stop = { s with serial := { s.serial with before := true, character := none } } := rfl

/-- The data bits come least significant bit first, and the stop bit is not looked at. -/
theorem characterReceived_byte {b : Byte} {data : List Bool} (bits : ∀ i, i < 8 → b.getLsbD i = data.getD i false)
    (s : State) (stop : Bool) : s.characterReceived false data stop
      = State.takeCharacter { s with serial := { s.serial with before := true, character := none } } b := by
  rw [← byteOfBits_eq bits]
  rfl

section
variable {s : State} {c : SerialCharacter}

theorem watchRxd_idle (idle : s.serial.character = none) : s.watchRxd = s.seekStart := by
  unfold State.watchRxd
  rw [idle]

theorem seekStart_eq (s : State) : s.seekStart = { s with serial := ⟨s.serial.rxd, s.serial.rxd,
    if s.serial.before = true ∧ s.serial.rxd = false then some ⟨s.clock, []⟩ else none⟩ } := by
  have falls : (s.serial.before && !s.serial.rxd) = true ↔ s.serial.before = true ∧ s.serial.rxd = false := by simp
  unfold State.seekStart
  simp only [falls]

theorem watchRxd_between (receiving : s.serial.character = some c) (ahead : s.clock < c.nextSample) : s.watchRxd = s := by
  unfold State.watchRxd
  rw [receiving]
  exact if_pos ahead

theorem watchRxd_sample (receiving : s.serial.character = some c) (due : c.nextSample ≤ s.clock) :
    s.watchRxd = s.sampleRxd c := by
  unfold State.watchRxd
  rw [receiving]
  exact if_neg (Nat.not_lt.2 due)

theorem sampleRxd_noise (first : c.samples = []) (high : s.serial.rxd = true) :
    s.sampleRxd c = { s with serial := ⟨s.serial.rxd, true, none⟩ } := by
  have noise : c.samples ++ [s.serial.rxd] = [true] := by rw [first, high]; rfl
  unfold State.sampleRxd
  exact if_pos noise

theorem sampleRxd_bit (bit : c.samples ≠ [] ∨ s.serial.rxd = false) (more : c.samples.length < 9) :
    s.sampleRxd c = s.setCharacter (some ⟨c.start, c.samples ++ [s.serial.rxd]⟩) := by
  have notNoise : c.samples ++ [s.serial.rxd] ≠ [true] := by
    intro noise
    obtain ⟨first, high⟩ := List.append_eq_singleton_iff.1 noise |>.resolve_right (by simp)
    rcases bit with later | low
    · exact later first
    · rw [low] at high
      cases high
  unfold State.sampleRxd
  rw [if_neg notNoise]
  exact if_pos (by rw [List.length_append]; exact Nat.succ_lt_succ more)

theorem sampleRxd_last (nine : 9 ≤ c.samples.length) {b : Byte}
    (bits : ∀ i, i < 8 → b.getLsbD i = c.samples.getD (i + 1) false) :
    s.sampleRxd c = State.takeCharacter { s with serial := ⟨s.serial.rxd, true, none⟩ } b := by
  have length : (c.samples ++ [s.serial.rxd]).length = c.samples.length + 1 := List.length_append
  have data (i : Nat) (small : i < 8) :
      b.getLsbD i = (((c.samples ++ [s.serial.rxd]).drop 1).take 8).getD i false := by
    rw [bits i small]
    simp only [List.getD_eq_getElem?_getD]
    rw [List.getElem?_take_of_lt small, List.getElem?_drop, List.getElem?_append_left (by omega), Nat.add_comm]
  unfold State.sampleRxd
  rw [if_neg fun noise => ?_, if_neg (by omega)]
  · exact characterReceived_byte data s _
  · rw [noise, List.length_singleton] at length
    omega

end

/-- A microsecond with no command, as RXD has it: it moves, and then it is watched. -/
theorem step_watch {s u : State} {level : Bool} (unheld : s.held = false) (idle : s.pending = [])
    (moves : level = s.rxdAhead.headD s.serial.rxd) (e : u = { s.lineTick with serial := { s.serial with rxd := level } }) :
    step s = .next u.watchRxd.choose := by
  have moved : s.lineTick.moveRxd s.rxdAhead = u := by
    rw [moveRxd_eq, (lineTick_event s).serial, ← moves, ← e]
  rw [step_idle unheld idle]
  unfold State.idle State.tick
  rw [moved]

/-- Settles O14: a character by the receiver's phase, and a microsecond by the character being received. -/
theorem characterIsTakenByPhase : Obligations.CharacterIsTakenByPhase := by
  unfold Obligations.CharacterIsTakenByPhase
  refine ⟨fun b bits stop s u r unheld receiver hu _ byte => ?character,
    fun s u level unheld idle moves hu => ?microsecond⟩
  case character =>
    have row (start : Bool) : exec (.characterReceived start bits stop) s
        = .next (s.characterReceived start bits stop).choose := live_next unheld _
    have taken : exec (.characterReceived false bits stop) s = .next (u.takeCharacter b).choose := by
      rw [row, characterReceived_byte byte, hu]
    have receiver : u.link.receiver = r := by rw [hu]; exact receiver
    rw [taken]
    refine ⟨?_, fun phase => ?_, fun phase => ?_, fun phase => ?_, fun phase => ?_, fun phase => ?_, fun phase => ?_,
      fun phase => ?_, fun phase => ?_⟩
    · rw [row, characterReceived_noise, hu]
    · rw [takeCharacter_hunting receiver phase, apply_ite State.choose]
    · rw [takeCharacter_lengthLow receiver phase]
    · rw [takeCharacter_lengthHigh receiver phase, apply_ite State.choose]
    · rw [takeCharacter_kind receiver phase]
    · rw [takeCharacter_tag receiver phase]
    · rw [takeCharacter_payload receiver phase]
    · rw [takeCharacter_crcLow receiver phase]
    · rw [takeCharacter_crcHigh receiver phase, apply_ite State.choose]
  case microsecond =>
    have clock : u.clock = s.clock + 1 := by rw [hu]; exact lineTick_clock s
    have serial : u.serial = { s.serial with rxd := level } := by rw [hu]
    have rxd : u.serial.rxd = level := by rw [serial]
    have character : u.serial.character = s.serial.character := by rw [serial]
    rw [step_watch unheld idle moves hu]
    refine ⟨fun absent => ?between, fun c at_ receiving sample => ⟨fun ahead => ?ahead, fun due => ⟨fun first high => ?noise,
      fun bit more => ?bit, fun nine b byte => ?last⟩⟩⟩
    case between =>
      rw [watchRxd_idle (character.trans absent), seekStart_eq, rxd, clock, serial]
    case ahead =>
      rw [watchRxd_between (character.trans receiving) (by rw [clock]; exact ahead.trans_eq sample)]
    all_goals rw [watchRxd_sample (character.trans receiving) (by rw [clock]; exact sample.symm.trans_le due)]
    case noise => rw [sampleRxd_noise first (rxd.trans high), rxd]
    case bit =>
      rw [sampleRxd_bit (bit.imp_right rxd.trans) more, rxd]
      rfl
    case last => rw [sampleRxd_last nine byte, rxd]

end Sys2Proof.Machine

/-! PROOFS. A notice takes its place in the notice queue (R185), or finds it full (R186). -/

namespace Sys2Proof.Machine

/-! ## The urgent part of a queue and the ordinary one (R185) -/

section
variable {q : List Posted} {p : Posted}

theorem urgent_part (first : UrgentFirst q) :
    q.takeWhile (fun x => x.notice.urgent) = q.filter fun x => x.notice.urgent := by
  conv_rhs => rw [← List.takeWhile_append_dropWhile (p := fun x : Posted => x.notice.urgent) (l := q)]
  rw [List.filter_append, List.filter_eq_self.2 fun x m => takeWhile_urgent m,
    List.filter_eq_nil_iff.2 fun x m => by rw [dropWhile_ordinary first m]; exact Bool.false_ne_true, List.append_nil]

theorem ordinary_part (first : UrgentFirst q) :
    q.dropWhile (fun x => x.notice.urgent) = q.filter fun x => !x.notice.urgent := by
  conv_rhs => rw [← List.takeWhile_append_dropWhile (p := fun x : Posted => x.notice.urgent) (l := q)]
  rw [List.filter_append, List.filter_eq_nil_iff.2 fun x m => by rw [takeWhile_urgent m]; exact Bool.false_ne_true,
    List.filter_eq_self.2 fun x m => by rw [dropWhile_ordinary first m]; rfl, List.nil_append]

theorem placeNotice_urgent (first : UrgentFirst q) (urgent : p.notice.urgent = true) : placeNotice q p =
    (q.filter fun x => x.notice.urgent) ++ p :: (q.filter fun x => !x.notice.urgent) := by
  rw [placeNotice, if_pos urgent, urgent_part first, ordinary_part first]

theorem placeNotice_ordinary (ordinary : p.notice.urgent = false) : placeNotice q p = q ++ [p] :=
  if_neg (Bool.eq_false_iff.1 ordinary)

/-- With an ordinary notice in a queue its last one is ordinary, and it is the one that a full queue loses. -/
theorem last_ordinary (first : UrgentFirst q) {x : Posted} (m : x ∈ q) (ordinary : x.notice.urgent = false) :
    ∃ init last, q = init ++ [last] ∧ last.notice.urgent = false := by
  obtain rfl | ⟨init, last, rfl⟩ := List.eq_nil_or_concat q
  · cases m
  · rw [List.concat_eq_append] at *
    refine ⟨init, last, rfl, Bool.eq_false_iff.2 fun urgent => ?_⟩
    have before := (List.pairwise_append.1 first).2.2
    rcases List.mem_append.1 m with inside | end_
    · rw [before x inside last (List.mem_singleton_self last) urgent] at ordinary
      cases ordinary
    · rw [List.mem_singleton.1 end_, urgent] at ordinary
      cases ordinary

end

/-! ## The queue and the overflow flag after a notice is posted (R185, R186) -/

section
variable {q : List Posted} {overflow : Bool} {p : Posted}

theorem queueNotice_room (room : q.length < 32) : queueNotice q overflow p = (placeNotice q p, overflow) := if_pos room

theorem noRoom_of_full (full : q.length = 32) : ¬q.length < Config.noticeQueue := full.not_lt

theorem queueNotice_fullOrdinary (full : q.length = 32) (ordinary : p.notice.urgent = false) :
    queueNotice q overflow p = (q, true) := by
  rw [queueNotice, if_neg (noRoom_of_full full), if_neg (Bool.eq_false_iff.1 ordinary)]

theorem queueNotice_fullUrgent (full : q.length = 32) (all : ∀ x ∈ q, x.notice.urgent = true) :
    queueNotice q overflow p = (q, true) := by
  rw [queueNotice, if_neg (noRoom_of_full full)]
  split
  · split
    · rename_i last e
      rw [if_pos (all last (List.mem_of_getLast? e))]
    · rfl
  · rfl

theorem queueNotice_displaces (first : UrgentFirst q) (full : q.length = 32) (urgent : p.notice.urgent = true)
    (displaced : ∃ x ∈ q, x.notice.urgent = false) : queueNotice q overflow p =
      ((q.filter fun x => x.notice.urgent) ++ p :: (q.filter fun x => !x.notice.urgent).dropLast, true) := by
  obtain ⟨x, m, ordinary⟩ := displaced
  obtain ⟨init, last, rfl, lastOrdinary⟩ := last_ordinary first m ordinary
  have initFirst : UrgentFirst init := first.sublist (List.sublist_append_left init [last])
  rw [queueNotice, if_neg (noRoom_of_full full), if_pos urgent, List.getLast?_concat]
  simp only [lastOrdinary, List.dropLast_concat, placeNotice_urgent initFirst urgent]
  simp [lastOrdinary, List.filter_append]

end

/-! ## A post -/

theorem post_eq (s : State) (n : Notice) {r : List Posted × Bool}
    (e : r = queueNotice s.link.notices s.link.overflow ⟨if s.timebase.running then s.timebase.stamp else 0, n⟩) :
    s.post n = { s with link := { s.link with notices := r.1, overflow := r.2 } } := by
  subst e
  rfl

/-- Settles O18: the two places, and a post through them. -/
theorem noticeTakesItsPlaceByClass : Obligations.NoticeTakesItsPlaceByClass := by
  unfold Obligations.NoticeTakesItsPlaceByClass
  refine ⟨fun q overflow p first room => ⟨fun urgent => ?_, fun ordinary => ?_⟩, fun s n r => post_eq s n,
    fun s => ⟨rfl, fun n ns => rfl⟩⟩
  · rw [queueNotice_room room, placeNotice_urgent first urgent]
  · rw [queueNotice_room room, placeNotice_ordinary ordinary]

/-- Settles O19: what is lost is the notice posted, or an ordinary one from the tail. -/
theorem fullNoticeQueueLosesOneNotice : Obligations.FullNoticeQueueLosesOneNotice := by
  unfold Obligations.FullNoticeQueueLosesOneNotice
  refine ⟨fun q overflow p first full => ⟨queueNotice_fullOrdinary full, queueNotice_displaces first full,
    fun _ => queueNotice_fullUrgent full⟩, fun s n q hq first full => ⟨fun lost => ?lost, fun urgent ordinary => ?displaced⟩⟩
  all_goals subst hq
  case lost =>
    refine post_eq s n (r := (s.link.notices, true)) (Eq.symm ?_)
    rcases lost with ordinary | all
    · exact queueNotice_fullOrdinary full ordinary
    · exact queueNotice_fullUrgent full all
  case displaced => exact post_eq s n (queueNotice_displaces first full urgent ordinary).symm

end Sys2Proof.Machine

/-! PROOFS. The link transmitter (R184, R187): its choice, the levels of TXD, and the frames of replies and notices
(R178, R194). -/

namespace Sys2Proof.Machine

/-! ## The levels of TXD (R184) -/

/-- A start bit, eight data bits least significant first, a stop bit. -/
theorem characterLevels_at (b : Byte) {i : Nat} (ten : i < 10) : (characterLevels b)[i]? =
    some (if i = 0 then false else if i = 9 then true else b.getLsbD (i - 1)) := by
  unfold characterLevels bitsOfByte
  cases i with
  | zero => rfl
  | succ i =>
    rw [if_neg (Nat.succ_ne_zero i), List.cons_append, List.getElem?_cons_succ, Nat.add_sub_cancel]
    by_cases eight : i < 8
    · rw [if_neg (by omega), List.getElem?_append_left (by simpa using eight)]
      simp [eight]
    · obtain rfl : i = 8 := by omega
      rfl

@[simp] theorem length_characterLevels (b : Byte) : (characterLevels b).length = 10 := by
  simp [characterLevels, bitsOfByte]

/-- The characters of a frame follow one another, ten bit times each. -/
theorem levels_at {bytes : List Byte} {k i : Nat} {b : Byte} (byte : bytes[k]? = some b) (ten : i < 10) :
    (bytes.flatMap characterLevels)[10 * k + i]? = (characterLevels b)[i]? := by
  induction bytes generalizing k with
  | nil => cases byte
  | cons c rest ih =>
    rw [List.flatMap_cons]
    cases k with
    | zero =>
      obtain rfl := Option.some.inj byte
      rw [Nat.mul_zero, Nat.zero_add, List.getElem?_append_left (by simpa using ten)]
    | succ k =>
      rw [List.getElem?_append_right (by rw [length_characterLevels]; omega), length_characterLevels,
        show 10 * (k + 1) + i - 10 = 10 * k + i by omega]
      exact ih byte

theorem length_levels (bytes : List Byte) : (bytes.flatMap characterLevels).length = 10 * bytes.length := by
  simp [List.length_flatMap, Nat.mul_comm]

section
variable {s : State}

theorem txd_idle (idle : s.link.sending = none) (t : Nat) : s.txd t = true := by
  unfold State.txd
  rw [idle]

theorem txd_sending {f : Outgoing} (sending : s.link.sending = some f) (t : Nat) :
    s.txd t = (f.bytes.flatMap characterLevels).getD t true := by
  unfold State.txd
  rw [sending]

end

/-! ## The frames of replies and notices (R178, R194) -/

theorem crcBytes_words (c : Word16) : crcBytes c = [c.setWidth 8, (c >>> 8).setWidth 8] := by
  have low : byteOf c.toNat = c.setWidth 8 := BitVec.eq_of_toNat_eq (by simp [byteOf])
  have high : byteOf (c.toNat / 256) = (c >>> 8).setWidth 8 :=
    BitVec.eq_of_toNat_eq (by simp [byteOf, Nat.shiftRight_eq_div_pow])
  rw [crcBytes_eq, low, high]

theorem frameBytes_words {kind tag : Byte} {payload body : List Byte}
    (e : body = [byteOf payload.length, byteOf (payload.length / 256), kind, tag] ++ payload) :
    frameBytes kind tag payload = 0xC3 :: body ++ [(crcOf body).setWidth 8, (crcOf body >>> 8).setWidth 8] := by
  rw [← crcBytes_words, e]
  rfl

theorem reply_bytes {r : Reply} {body : List Byte}
    (e : body = [byteOf (2 + r.result.length), byteOf ((2 + r.result.length) / 256), 0x80, r.tag, r.kind, r.status.code]
      ++ r.result) :
    (Outgoing.reply r).bytes = 0xC3 :: body ++ [(crcOf body).setWidth 8, (crcOf body >>> 8).setWidth 8] := by
  have length : r.payload.length = 2 + r.result.length := Nat.add_comm _ 2
  refine frameBytes_words (payload := r.payload) ?_
  rw [length, e]
  rfl

theorem notice_bytes {p : Posted} {body : List Byte}
    (e : body = [byteOf (6 + p.notice.fieldBytes.length), byteOf ((6 + p.notice.fieldBytes.length) / 256), 0x81, 0,
      p.notice.code, if p.notice.urgent then 1 else 0] ++ leBytes 4 p.stamp.toNat ++ p.notice.fieldBytes) :
    (Outgoing.notice p).bytes = 0xC3 :: body ++ [(crcOf body).setWidth 8, (crcOf body >>> 8).setWidth 8] := by
  have length : p.payload.length = 6 + p.notice.fieldBytes.length := Nat.add_comm _ 6
  refine frameBytes_words (payload := p.payload) ?_
  rw [length, e]
  rfl

/-! ## The urgent notices (R185), and the codes and fields of every notice (R194) -/

theorem urgent_iff (n : Notice) : n.urgent = true ↔ (∃ st id, n = .linkState st (.channelBusy id))
    ∨ (∃ a mv b sv, n = .battery a mv b .critical sv) ∨ ∃ a p g, n = .transferFailed a p g .storeError := by
  cases n with
  | linkState st cause => cases cause <;> simp [Notice.urgent]
  | battery a mv before after sv => cases after <;> simp [Notice.urgent]
  | transferFailed a p g cause => cases cause <;> simp [Notice.urgent]
  | _ => simp [Notice.urgent]

theorem linkState_fields {st : HubStateName} {b : Byte} {cause : LinkCause} {e : List Byte} {hub : Word16}
    (state : (st, b) ∈ [(HubStateName.offline, (0 : Byte)), (.listening, 1), (.running, 2), (.stopping, 3), (.testing, 4)])
    (why : (cause, e) ∈ [(LinkCause.start, ([0, 0, 0] : List Byte)), (.stop, [1, 0, 0]),
      (.channelBusy hub, 2 :: leBytes 2 hub.toNat), (.testEnd, [3, 0, 0])]) :
    (Notice.linkState st cause).fieldBytes = b :: e := by
  have named : st.code = b := by
    have codes : ∀ x ∈ [(HubStateName.offline, (0 : Byte)), (.listening, 1), (.running, 2), (.stopping, 3), (.testing, 4)],
        x.1.code = x.2 := by decide
    exact codes _ state
  have caused : [cause.code] ++ leBytes 2 cause.hubId.toNat = e := by
    simp only [List.mem_cons, List.not_mem_nil, or_false, Prod.mk.injEq] at why
    rcases why with ⟨rfl, rfl⟩ | ⟨rfl, rfl⟩ | ⟨rfl, rfl⟩ | ⟨rfl, rfl⟩ <;> rfl
  rw [← named, ← caused]
  rfl

theorem opKind_code {k : OpKind} {b : Byte} (m : (k, b) ∈
    [(OpKind.ping, (0 : Byte)), (.setProfile, 1), (.setMode, 2), (.showPage, 3), (.release, 4)]) : byteOf k.code = b := by
  have codes : ∀ x ∈ [(OpKind.ping, (0 : Byte)), (.setProfile, 1), (.setMode, 2), (.showPage, 3), (.release, 4)],
      byteOf x.1.code = x.2 := by decide
  exact codes _ m

theorem opFailure_code {why : OpFailure} {e : Byte} (m : (why, e) ∈
    [(OpFailure.refused, (0 : Byte)), (.noAnswer, 1), (.released, 2), (.forgotten, 3), (.joinFailed, 4)]) :
    why.code = e := by
  have codes : ∀ x ∈ [(OpFailure.refused, (0 : Byte)), (.noAnswer, 1), (.released, 2), (.forgotten, 3), (.joinFailed, 4)],
      x.1.code = x.2 := by decide
  exact codes _ m

theorem batteryClass_code {k : BatteryClass} {b : Byte}
    (m : (k, b) ∈ [(BatteryClass.ok, (0 : Byte)), (.low, 1), (.critical, 2)]) : k.code = b := by
  have codes : ∀ x ∈ [(BatteryClass.ok, (0 : Byte)), (.low, 1), (.critical, 2)], x.1.code = x.2 := by decide
  exact codes _ m

/-- Settles O17: the four cases of the choice, the levels of each character, and the layouts and codes of the frames. -/
theorem transmitterChoosesRepliesFirst : Obligations.TransmitterChoosesRepliesFirst := by
  unfold Obligations.TransmitterChoosesRepliesFirst
  refine ⟨fun l => ⟨fun f => choose_busy, fun r rest => choose_reply, fun n rest idle noReply waiting => ?notice, choose_idle⟩,
    fun s => ⟨txd_idle, fun f sending => ⟨fun k i b byte ten => ?character, fun t after => ?after⟩⟩,
    fun r body => reply_bytes, rfl, ?noticeFrame, urgent_iff, ?fields⟩
  case notice => exact choose_notice idle noReply waiting
  case character =>
    rw [txd_sending sending, List.getD_eq_getElem?_getD, levels_at byte ten, characterLevels_at b ten]
    rfl
  case after =>
    rw [txd_sending sending, List.getD_eq_default _ _ (by rw [length_levels]; exact after)]
  case noticeFrame =>
    rintro p f body rfl e
    exact notice_bytes e
  case fields =>
    intro a p v g id hub c x n code fields h
    rcases h with table | ⟨st, b, cause, e, state, why, rfl, rfl, rfl⟩ | ⟨k, b, kind, op⟩
      | ⟨k, b, m, e, before, after, rfl, rfl, rfl⟩ | ⟨t, rfl, rfl, rfl⟩
    · refine (List.forall_iff_forall_mem (p := fun y : Notice × Byte × List Byte => y.1.code = y.2.1
        ∧ y.1.fieldBytes = y.2.2)).1 ?_ _ table
      refine ⟨?_, ?_, ?_, ?_, ?_, ?_, ?_, ?_, ?_, ?_, ?_, ?_, ?_, ?_, ?_, ?_, ?_, ?_, ?_⟩ <;> exact ⟨rfl, rfl⟩
    · exact ⟨rfl, linkState_fields state why⟩
    · obtain rfl := opKind_code kind
      obtain ⟨rfl, rfl, rfl⟩ | ⟨why, e, cause, rfl, rfl, rfl⟩ := op
      · exact ⟨rfl, rfl⟩
      · obtain rfl := opFailure_code cause
        exact ⟨rfl, rfl⟩
    · obtain rfl := batteryClass_code before
      obtain rfl := batteryClass_code after
      exact ⟨rfl, rfl⟩
    · exact ⟨rfl, rfl⟩

end Sys2Proof.Machine
